-- ==== Sys2Proof/Word.lean ====
section
/-! DEFINITION. The word types of the Wealina and the plain records that pass between its units. -/

namespace Sys2Proof

/-- One byte. -/
abbrev Byte := BitVec 8
/-- A g register (R206). -/
abbrev Word := BitVec 64
/-- A 32-byte cell or array-store word (R33). -/
abbrev CWord := BitVec 256
/-- The data of a 64-byte line (R11). -/
abbrev LineData := BitVec 512
/-- A g register number, a flag number, a C operand code, a selector number (R184, R187). -/
abbrev Reg := BitVec 5
abbrev FlagNo := BitVec 4
abbrev Opnd := BitVec 7
abbrev SelNo := BitVec 3
/-- A physical array id (R10), a context of an array (R151), a command queue (R311), a PCIe function
(R359), a Delotte port (R364), an L2 slice (R10). -/
abbrev ArrId := Fin 32
abbrev CtxId := Fin 4
abbrev QueueId := Fin 64
abbrev FnId := Fin 8
abbrev PortId := Fin 16
abbrev SliceId := Fin 128

/-- A store-log record (R60). A release record keeps its description in `data` (R60, second table). -/
structure Record where
  line   : BitVec 46
  kind   : BitVec 3
  acls   : BitVec 2
  mask   : BitVec 64
  data   : LineData
  seq    : BitVec 48
  rel    : Bool
  ckpt   : Bool
  forced : Bool
  node   : Bool
  copy   : Bool
  host   : Bool
  crc    : BitVec 64
  deriving DecidableEq, Repr

/-- The fields of a Delotte flit (R364): SEQ, ACK, TYPE, virtual channel, LEN, bytes 6 and 7, payload, CRC-64. -/
structure Flit where
  seq     : BitVec 16
  ack     : BitVec 16
  typ     : BitVec 4
  vc      : BitVec 4
  len     : BitVec 8
  pad     : BitVec 16
  payload : List Byte
  crc     : BitVec 64
  deriving DecidableEq, Repr

/-- The agent of another package for which something is done here: its world and its ASID (R31, R49). -/
structure Agent where
  sec  : Bool
  asid : BitVec 16
  deriving DecidableEq, Repr

/-- Where a record or a chunk comes from: the agent and its package. -/
structure Sender extends Agent where
  pkg : Nat
  deriving DecidableEq, Repr

/-- A parity delta, of a fold (R108) or of the exchange after a loss (R112). -/
structure Delta where
  data     : LineData
  exchange : Bool
  deriving DecidableEq, Repr

/-- A notice that a member is lost (R111): the member, and the one that sends it. -/
structure Notice where
  member : Nat
  sender : Nat
  deriving DecidableEq, Repr

/-- A holder of parity in a group (R108). -/
structure Holder where
  pgid : Nat
  pkg  : Nat
  deriving DecidableEq, Repr

/-- The answer to the chunks of a copy up to a number: 0 or the code of a refusal (R372). -/
structure ChunkReply where
  seq  : Nat
  code : Nat
  deriving DecidableEq, Repr

/-- The byte `i` of a bit vector read as little-endian bytes (R3). -/
def byteOf {n : Nat} (w : BitVec n) (i : Nat) : Byte := w.extractLsb' (8 * i) 8

/-- Little-endian bytes as one number, the first byte least significant (R3). -/
def bytesToNat : List Byte → Nat
  | [] => 0
  | b :: bs => b.toNat + 256 * bytesToNat bs

/-- The `n` little-endian bytes of a number (R3). -/
def natToBytes : Nat → Nat → List Byte
  | 0, _ => []
  | n + 1, v => BitVec.ofNat 8 v :: natToBytes n (v / 256)

end Sys2Proof
end

