-- ==== Sys2Proof/Machine/Crc.lean ====
section
/-! DEFINITION. The CRC-64 of records and flits (R61), and the layout of a flit (R364). -/

namespace Sys2Proof.Machine

def crcPoly : BitVec 64 := 0x42F0E1EBA9EA3693

/-- One bit, most significant first (R61). -/
def crcBit (c : BitVec 64) : BitVec 64 := if c.getLsbD 63 then (c <<< 1) ^^^ crcPoly else c <<< 1

def crcBits : Nat → BitVec 64 → BitVec 64
  | 0, c => c
  | n + 1, c => crcBits n (crcBit c)

def crcByte (c : BitVec 64) (b : Byte) : BitVec 64 := crcBits 8 (c ^^^ (b.zeroExtend 64 <<< 56))

/-- CRC-64 over bytes in ascending order, initial value and final XOR all ones (R61). -/
def crc64 (bs : List Byte) : BitVec 64 := ~~~(bs.foldl crcByte (BitVec.allOnes 64))

end Sys2Proof.Machine

namespace Sys2Proof

/-! Flits (R364). -/

open Machine

/-- Bytes 0 to 247. -/
def Flit.body (f : Flit) : List Byte :=
  natToBytes 2 f.seq.toNat ++ natToBytes 2 f.ack.toNat ++ [f.vc ++ f.typ] ++ [f.len] ++ natToBytes 2 f.pad.toNat ++
    (f.payload ++ List.replicate 240 0).take 240

/-- The 256 bytes of a flit. -/
def Flit.bytes (f : Flit) : List Byte := f.body ++ natToBytes 8 f.crc.toNat

/-- The receiver's test: the CRC-64 over bytes 0 to 247 (R61, R365). -/
def Flit.crcOk (f : Flit) : Bool := crc64 f.body == f.crc

/-- A flit as it is sent: of a type, with SEQ, ACK and payload, bytes 6 and 7 zero, LEN in units of 8 bytes, and its CRC. -/
def Flit.made (typ : BitVec 4) (seq ack : BitVec 16) (payload : List Byte) : Flit :=
  let f : Flit := ⟨seq, ack, typ, 0, BitVec.ofNat 8 ((payload.length + 7) / 8), 0, payload, 0⟩
  { f with crc := crc64 f.body }

/-- A kept flit as it is sent again, with the ACK of now. -/
def Flit.again (f : Flit) (ack : BitVec 16) : Flit := Flit.made f.typ f.seq ack f.payload

end Sys2Proof
end

