-- ==== Sys2Proof/Syntax.lean ====
section
/-! DEFINITION. The instructions and steps of the part: one constructor per row of the opcode table.
First the slot ops, whose encodings R184 to R193 give; then the part's other steps, which carry no
encoding and whose arguments name the units they concern or hold the data that arrives. -/

namespace Sys2Proof

inductive Instr where
  -- an all-zero slot of any kind (R174)
  | nop
  -- S slot: register group (R207, R208)
  | add (gd ga gb : Reg)
  | sub (gd ga gb : Reg)
  | mul (gd ga gb : Reg)
  | mulh (gd ga gb : Reg)
  | mulhu (gd ga gb : Reg)
  | and (gd ga gb : Reg)
  | or (gd ga gb : Reg)
  | xor (gd ga gb : Reg)
  | shl (gd ga gb : Reg)
  | shr (gd ga gb : Reg)
  | sra (gd ga gb : Reg)
  | min (gd ga gb : Reg)
  | max (gd ga gb : Reg)
  | minu (gd ga gb : Reg)
  | maxu (gd ga gb : Reg)
  | seq (gd ga gb : Reg)
  | slt (gd ga gb : Reg)
  | sltu (gd ga gb : Reg)
  | clz (gd ga : Reg)
  | popc (gd ga : Reg)
  | divu (gd ga gb : Reg)
  | divs (gd ga gb : Reg)
  | remu (gd ga gb : Reg)
  | rems (gd ga gb : Reg)
  -- S slot: immediates and constants (R209)
  | addi (gd ga : Reg) (imm : BitVec 16)
  | andi (gd ga : Reg) (imm : BitVec 16)
  | ori (gd ga : Reg) (imm : BitVec 16)
  | xori (gd ga : Reg) (imm : BitVec 16)
  | shli (gd ga : Reg) (sh : BitVec 6)
  | shri (gd ga : Reg) (sh : BitVec 6)
  | srai (gd ga : Reg) (sh : BitVec 6)
  | li (gd : Reg) (imm : BitVec 16)
  | lik (gd : Reg) (idx : BitVec 16)
  | slti (gd ga : Reg) (imm : BitVec 16)
  | sltiu (gd ga : Reg) (imm : BitVec 16)
  -- S slot: control flow (R210 to R219)
  | beq (ga gb : Reg) (off : BitVec 16)
  | bne (ga gb : Reg) (off : BitVec 16)
  | blt (ga gb : Reg) (off : BitVec 16)
  | bge (ga gb : Reg) (off : BitVec 16)
  | bltu (ga gb : Reg) (off : BitVec 16)
  | bgeu (ga gb : Reg) (off : BitVec 16)
  | bfs (f : FlagNo) (off : BitVec 16)
  | bfc (f : FlagNo) (off : BitVec 16)
  | baf (ga : Reg) (agg : BitVec 2) (inv : Bool) (off : BitVec 16)
  | jmp (off : BitVec 26)
  | call (off : BitVec 26)
  | ret
  | jr (ga : Reg)
  | loop (ga : Reg) (off : BitVec 16)
  | mloop (gcount : Reg) (iim1 : BitVec 4) (stm1 : BitVec 3) (bodym1 : BitVec 7)
  | lbrk
  -- S slot: flags and selectors (R220, R221)
  | fset (f : FlagNo)
  | fclr (f : FlagNo)
  | fmov (fd fs : FlagNo)
  | fget (gd : Reg)
  | selc (sp : SelNo) (ga : Reg)
  | selr (sp : SelNo) (ga : Reg)
  | selk (sp : SelNo) (skew : BitVec 2) (origin : BitVec 5)
  | selg (sp : SelNo) (ga gb : Reg)
  -- S slot: waiting, nodes, system registers (R222 to R234)
  | wait (ga : Reg) (imm : BitVec 16)
  | yield
  | node (idx : BitVec 16)
  | ckpt
  | trap (code : BitVec 16)
  | rdsr (gd : Reg) (sr : BitVec 16)
  | wrsr (ga : Reg) (sr : BitVec 16)
  | lease
  | unlease
  | kats (ga : Reg)
  | endt
  -- C slot: floating point (R242, R243)
  | vadd (dst a b : Opnd) (sp : SelNo) (ty : BitVec 2)
  | vsub (dst a b : Opnd) (sp : SelNo) (ty : BitVec 2)
  | vmul (dst a b : Opnd) (sp : SelNo) (ty : BitVec 2)
  | vfma (dst a b : Opnd) (sp : SelNo) (ty : BitVec 2)
  | vfms (dst a b : Opnd) (sp : SelNo) (ty : BitVec 2)
  | vmin (dst a b : Opnd) (sp : SelNo) (ty : BitVec 2)
  | vmax (dst a b : Opnd) (sp : SelNo) (ty : BitVec 2)
  | vabs (dst a b : Opnd) (sp : SelNo) (ty : BitVec 2)
  | vneg (dst a b : Opnd) (sp : SelNo) (ty : BitVec 2)
  | vcmpeq (dst a b : Opnd) (sp : SelNo) (ty : BitVec 2)
  | vcmplt (dst a b : Opnd) (sp : SelNo) (ty : BitVec 2)
  | vcmple (dst a b : Opnd) (sp : SelNo) (ty : BitVec 2)
  | vsel (dst a b : Opnd) (sp : SelNo) (ty : BitVec 2)
  | vrcp (dst a b : Opnd) (sp : SelNo) (ty : BitVec 2)
  | vrsq (dst a b : Opnd) (sp : SelNo) (ty : BitVec 2)
  | vexp2 (dst a b : Opnd) (sp : SelNo) (ty : BitVec 2)
  | vlog2 (dst a b : Opnd) (sp : SelNo) (ty : BitVec 2)
  | vtanh (dst a b : Opnd) (sp : SelNo) (ty : BitVec 2)
  -- C slot: conversion and integer (R244 to R246)
  | vcvt (dst a : Opnd) (conv : BitVec 5) (part : BitVec 2) (sp : SelNo)
  | viadd (dst a b : Opnd) (sp : SelNo)
  | visub (dst a b : Opnd) (sp : SelNo)
  | vimul (dst a b : Opnd) (sp : SelNo)
  | vand (dst a b : Opnd) (sp : SelNo)
  | vor (dst a b : Opnd) (sp : SelNo)
  | vxor (dst a b : Opnd) (sp : SelNo)
  | vshl (dst a b : Opnd) (sp : SelNo)
  | vshr (dst a b : Opnd) (sp : SelNo)
  | vsra (dst a b : Opnd) (sp : SelNo)
  | vicmpeq (dst a b : Opnd) (sp : SelNo)
  | vicmplt (dst a b : Opnd) (sp : SelNo)
  -- C slot: moves, reductions, systolic ops, latches, known answer (R247 to R256)
  | vmov (dst a b : Opnd) (sp : SelNo) (ty : BitVec 2)
  | vbcl (dst a b : Opnd) (sp : SelNo) (ty : BitVec 2)
  | vperm (dst a b : Opnd) (sp : SelNo) (ty : BitVec 2)
  | vrsum (dst a b : Opnd) (sp : SelNo) (ty : BitVec 2)
  | vrmax (dst a b : Opnd) (sp : SelNo) (ty : BitVec 2)
  | vmacf (dst a b : Opnd) (sp : SelNo) (ty : BitVec 2)
  | mma (a : Opnd) (shift commit : Bool) (part : BitVec 4) (latch cl : BitVec 2) (zp : Bool) (sp : SelNo) (ty : BitVec 2)
  | wld (part : BitVec 4) (a : Opnd) (latch : BitVec 2) (sp : SelNo)
  | wrd (dst : Opnd) (part : BitVec 4) (latch : BitVec 2) (sp : SelNo)
  | katc (ty : BitVec 2)
  -- E slot (R264 to R276)
  | wfeed (fd cd : BitVec 3) (ftag : BitVec 2) (ctag : Bool)
  | dfeed (fd cd : BitVec 3) (ftag : BitVec 2) (ctag pt : Bool) (pd : BitVec 3)
  | wfeedg (fd cd : BitVec 3) (ftag : BitVec 2) (ctag : Bool) (iv : BitVec 2)
  | wfeedt (fd cd : BitVec 3) (ftag : BitVec 2) (ctag : Bool) (th : BitVec 4)
  | npush (fd cd : BitVec 3) (ftag : BitVec 2) (ctag pt : Bool)
  | spull (cd : BitVec 3) (ctag : Bool)
  | epull (cd : BitVec 3) (ctag : Bool)
  | eaclr (ga : Reg) (cntm1 : BitVec 5) (first : BitVec 7)
  | eadrain (cd : BitVec 3) (ctag : Bool) (ga : Reg) (cntm1 : BitVec 5) (first : BitVec 7)
  | fdset (fd : BitVec 3) (ga : Reg) (imm : BitVec 12)
  | cdset (cd : BitVec 3) (ga : Reg) (imm : BitVec 12)
  | ivld (iv : BitVec 2) (ga : Reg) (imm : BitVec 12)
  | etag (full : Bool) (ga gb : Reg)
  | etest (f : FlagNo) (ga : Reg)
  -- M slot: loads, stores, array store (R282 to R286)
  | ld (gd ga : Reg) (size cls : BitVec 2) (disp : BitVec 12)
  | lds (gd ga : Reg) (size order : BitVec 2) (scope : BitVec 3)
  | st (gs ga : Reg) (size cls : BitVec 2) (disp : BitVec 12)
  | asld (gd ga : Reg) (size mode : BitVec 2) (disp : BitVec 12)
  | asst (gs ga : Reg) (size mode : BitVec 2) (disp : BitVec 12)
  | prf (ga : Reg) (disp : BitVec 12)
  | logst (gs ga : Reg) (size cls : BitVec 2) (disp : BitVec 12)
  -- M slot: ordering (R287 to R290)
  | rel (scope : BitVec 3)
  | acq (ga : Reg) (scope : BitVec 3)
  | relsv
  | fence (scope : BitVec 3)
  | fencesc (scope : BitVec 3)
  | qsync
  | vcinv (ga : Reg)
  -- M slot: atomics (R291, R292)
  | aadd (gd ga gb : Reg) (size order : BitVec 2) (scope : BitVec 3)
  | afadd (gd ga gb : Reg) (order : BitVec 2) (scope : BitVec 3)
  | aand (gd ga gb : Reg) (size order : BitVec 2) (scope : BitVec 3)
  | aor (gd ga gb : Reg) (size order : BitVec 2) (scope : BitVec 3)
  | axor (gd ga gb : Reg) (size order : BitVec 2) (scope : BitVec 3)
  | amin (gd ga gb : Reg) (size order : BitVec 2) (scope : BitVec 3)
  | amax (gd ga gb : Reg) (size order : BitVec 2) (scope : BitVec 3)
  | aminu (gd ga gb : Reg) (size order : BitVec 2) (scope : BitVec 3)
  | amaxu (gd ga gb : Reg) (size order : BitVec 2) (scope : BitVec 3)
  | aswp (gd ga gb : Reg) (size order : BitVec 2) (scope : BitVec 3)
  | acas (gd ga gb : Reg) (size order : BitVec 2) (scope : BitVec 3)
  -- M slot: watching, copies, messages, barriers (R293 to R309)
  | mon (ga : Reg) (size : BitVec 2) (entry : BitVec 3)
  | mwait (gd ga : Reg) (order : BitVec 2) (scope : BitVec 3)
  | tdesc (ga : Reg) (th : BitVec 4)
  | cpy (gd ga gb : Reg) (th : BitVec 4)
  | cpys (gd ga gb : Reg) (th : BitVec 4)
  | cpyg (gd ga gb : Reg) (th : BitVec 4) (stamp : Bool)
  | cpyr (gd ga gb : Reg) (th : BitVec 4) (bf16 : Bool)
  | cpyx (gd ga gb : Reg) (th : BitVec 4)
  | send (ga gb : Reg) (ring : BitVec 2)
  | rcv (gd : Reg) (ring : BitVec 2)
  | bara (id : BitVec 4) (scope : BitVec 3)
  | barw (id : BitVec 4) (scope : BitVec 3)
  | bar (id : BitVec 4) (scope : BitVec 3)
  -- steps of the sequencer (R151, R152, R179, R206, R214, R218, R222)
  | residueRepresent (a : ArrId) (c : CtxId)
  | contextSwitch (a : ArrId)
  | bundleCountExpire (a : ArrId)
  | sequencerWake (a : ArrId)
  | leaseQuantumEnd (a : ArrId)
  | divideResult (a : ArrId)
  | loopBackEdge (a : ArrId) (c : CtxId)
  | mloopPresentation (a : ArrId) (c : CtxId)
  | waitDeadline (a : ArrId) (c : CtxId)
  -- steps of the array and its edges (R135, R143, R243, R256, R262, R269, R271, R40, R41)
  | cOpRowExecute (a : ArrId) (op row : Nat)
  | slowResultWrite (a : ArrId) (op row : Nat)
  | katcCheck (a : ArrId) (op : Nat)
  | feedStage (a : ArrId) (c : CtxId)
  | southCapture (a : ArrId) (op : Nat)
  | eastCapture (a : ArrId) (op row : Nat)
  | collectorWrite (a : ArrId) (c : CtxId)
  | asBankAccess (a : ArrId) (bank : Fin 64)
  | tagWaiterRetry (a : ArrId) (word : Nat)
  -- steps of the memory pipeline, the logs and the folds (R65 to R73, R83)
  | queuePerform (a : ArrId) (c : CtxId) (store : Bool)
  | logBufferEntryAppend (a : ArrId) (c : CtxId)
  | appendStallEnd (a : ArrId) (c : CtxId)
  | packageWindowClose
  | stampReceive (slot : Nat)
  | foldSegment (slice : SliceId)
  | peerRecordReceive (src : Sender) (tag : Nat) (rec : Record)
  | peerPackageRequest (src : Nat) (op : BitVec 6) (addr size : Nat) (operand compare : Word) (agent : Agent)
  | hostPostedWrite (fn : FnId) (off : Nat) (data : List Byte)
  | hostRead (fn : FnId) (off n : Nat)
  | logTrackerAdvance (ring : Nat)
  | watchSatisfy (a : ArrId) (c : CtxId) (entry : BitVec 3)
  | mwaitDeadline (a : ArrId) (c : CtxId)
  | copyBeat (engine : Nat) (pool : Bool)
  | copyComplete (engine : Nat) (pool : Bool)
  | messagePlace (a : ArrId)
  | barrierComplete (idx : Nat)
  | peerEntryValid (team larr : Nat)
  -- faults and containment (R334 to R347)
  | contextFatalFault (a : ArrId) (c : CtxId)
  | pageRequestFault (a : ArrId) (c : CtxId)
  | dataErrorTake (a : ArrId) (c : CtxId)
  | segmentEndSignature (a : ArrId) (c : CtxId)
  | selfTest (a : ArrId) (pass : Bool)
  -- survivable memory (R105 to R120)
  | parityDeltaReceive (pgid src : Nat) (slice rot : Nat) (seq : Nat) (offset : Nat) (delta : Delta)
  | heartbeatSend
  | heartbeatTimeout (pgid member : Nat)
  | degradedRead (line : Nat)
  | rebuildStripe (pgid : Nat)
  | channelRetire
  -- translation and migration (R127 to R134)
  | shootdownAck
  -- mailbox commands and registers (R6, R25, R28, R29, R313, R350, R351, R363)
  | formatWindowEnable (n : Fin 16)
  | formatWindowDisable (n : Fin 16)
  | protectionWindowEnable (n : Fin 16)
  | einjPlace
  | queueDoorbell (q : QueueId) (tail : BitVec 16)
  -- cards, jobs and placement (R311 to R333)
  | cardAdmit (q : QueueId)
  | launch (q : QueueId) (card : List Byte)
  | copy (q : QueueId) (card : List Byte)
  | waitstamp (q : QueueId) (card : List Byte)
  | waitstampSatisfied (q : QueueId)
  | signal (q : QueueId) (card : List Byte)
  | fenceCard (q : QueueId) (card : List Byte)
  | suspend (q : QueueId) (card : List Byte)
  | resume (q : QueueId) (card : List Byte)
  | jobReady (job : Nat)
  | jobAgeStep (job : Nat)
  | jobPromote (job : Nat)
  | gangPlace (job : Nat)
  | bulkCopyAssign (job : Nat)
  | preemptRequest (job : Nat)
  | teamPreempt (team : Nat)
  | teamResume (team : Nat)
  | watchdogT1Expire (q : QueueId)
  | watchdogT2Expire (team : Nat)
  | arrayScrub (a : ArrId)
  -- the host port (R361, R362)
  | errorRecordDeliver (fn : FnId)
  -- Delotte links and packages (R30, R364 to R366, R371, R372)
  | replayTimeout (p : PortId)
  | nakHoldoffExpire (p : PortId)
  -- power and reset (R370, R373, R374)
  | quietEntry
  | quietExit
  | retainWakeDoorbell
  -- what peers, the fabric, the host and the parts of the package bring about, and the commands of the mailbox (R15, R66 to R72,
  -- R108 to R120, R127 to R134, R313, R338 to R347, R350, R361, R363 to R374)
  | peerRecordAck (tag : Nat) (outOfRange : Bool)
  | terminationNoticeReceive (team : Nat)
  | suspectNoticeReceive (pkg : Nat) (arr : Nat) (lo hi : Nat)
  | relaunchNoticeReceive (team : Nat)
  | uncorrectableRead (line : Nat) (level : BitVec 2)
  | dirtyLineError (line : Nat) (level : BitVec 2)
  | parityAckReceive (holder : Holder) (slice rot : Nat) (seq : Nat)
  | heartbeatReceive (pgid member : Nat)
  | lossNoticeReceive (pgid : Nat) (notice : Notice)
  | scrubCountSample (channel : Nat) (ce ue : Nat)
  | poolExtentAdd (n base limit : Nat)
  | dataFlitReceive (p : PortId) (f : Flit)
  | nakReceive (p : PortId) (e : BitVec 16)
  | flitAckReceive (p : PortId) (ack : BitVec 16)
  | laneErrorLimit (p : PortId) (lane : Nat)
  | laneRetrainComplete (p : PortId) (ok : Bool) (e : BitVec 16)
  | linkTrain (p : PortId) (peerMajor peerMinor window : Nat)
  | chunkReceive (src : Sender) (seq : Nat) (rank : Nat) (reduce : BitVec 2) (runs : List (Nat × List Byte))
  | chunkAckReceive (src : Nat) (reply : ChunkReply)
  | quiesceFlitReceive (p : PortId)
  | packageReset
  | readReg (fn : FnId) (addr : Nat)
  | writeReg (fn : FnId) (addr : Nat) (value : Word)
  | registerWrite (fn : FnId) (off : Nat) (value : Word)
  | queueCreate (fn : FnId) (q base log2e prio asid owner : Nat) (world mgmt : Bool) (vmaj vmin : Nat)
  | queueReset (fn : FnId) (q : Nat)
  | queueDestroy (fn : FnId) (q : Nat)
  | imageLoad (fn : FnId) (pa len : Nat) (world : Bool)
  | imageUnload (fn : FnId) (id : Nat)
  | attest (fn : FnId) (nonce : List Byte) (buf : Nat)
  | powerRetainExit (fn : FnId)
  | secureRegionTableWrite (byBase : Bool) (n : Fin 64) (limitReg : Bool) (value : Word)
  | mailboxDoorbellIgnored (fn : FnId)
  | groupRegister (fn : FnId) (pgid n q k : Nat) (members : List Nat)
  | groupLeave (fn : FnId) (pgid : Nat)
  | groupDeclareLost (fn : FnId) (pgid member : Nat)
  | groupRebuild (fn : FnId) (pgid member target base : Nat)
  | shootdown (fn : FnId) (asid dva count : Nat) (all : Bool)
  | migrate (fn : FnId) (asid dva pa : Nat)
  | pageReady (fn : FnId) (asid dva : Nat)
  | extentRelease (fn : FnId) (extent : Nat) (forced : Bool)
  | einjArm (value : Word) (secure : Bool)
  deriving DecidableEq, Repr

end Sys2Proof
end

