-- ==== Sys2Proof/WellFormed.lean ====
section
/-! DEFINITION. What the seal engine asks of one slot op's fields (R185 to R193, R196), as a list of the
reasons for which it refuses the op. -/

namespace Sys2Proof

/-- The reason codes of R196. -/
inductive SealReason where
  | opc | fn | resv | opnd | type | hdr | pair | ext | dupw | branch | mloop | plan | sel | scope | size
  | tagmode | mmaf | last | container | signature | world
  deriving DecidableEq, Repr

def SealReason.code : SealReason → Nat
  | .opc => 0x01 | .fn => 0x02 | .resv => 0x03 | .opnd => 0x04 | .type => 0x05 | .hdr => 0x06
  | .pair => 0x07 | .ext => 0x08 | .dupw => 0x09 | .branch => 0x0A | .mloop => 0x0B | .plan => 0x0C
  | .sel => 0x0D | .scope => 0x0E | .size => 0x0F | .tagmode => 0x10 | .mmaf => 0x11 | .last => 0x12
  | .container => 0x20 | .signature => 0x21 | .world => 0x22

/-- `r` when the condition fails. -/
def need (ok : Bool) (r : SealReason) : List SealReason := if ok then [] else [r]

/-- A code that a C op may read (R187). -/
def Opnd.srcOk (o : Opnd) : Bool := o.toNat ≤ 0x48

/-- A code that a C op may write (R187). -/
def Opnd.dstOk (o : Opnd) : Bool :=
  o.toNat ≤ 0x37 || o.toNat == 0x3A || o.toNat == 0x3B || o.toNat == 0x44

/-- What an operand field that the op does not read may hold (R188). -/
def Opnd.unread (o : Opnd) : Bool := o.toNat == 0 || o.toNat == 0x44

/-- The system-register numbers of R232. -/
def srAssigned (n : BitVec 16) : Bool :=
  let k := n.toNat
  k ≤ 5 || k == 8 || k == 9 || (0x10 ≤ k && k ≤ 0x13) || (0x18 ≤ k && k ≤ 0x1C) ||
    (0x20 ≤ k && k ≤ 0x23) || (0x28 ≤ k && k ≤ 0x2F) || (0x30 ≤ k && k ≤ 0x37)

/-- The number of parts of a conversion code, 0 for an undefined one (R245). -/
def convParts (conv : BitVec 5) : Nat :=
  match conv.toNat with
  | 0x00 | 0x01 | 0x04 | 0x05 => 2
  | 0x02 | 0x03 | 0x06 | 0x07 => 1
  | 0x08 | 0x0B => 4
  | 0x09 | 0x0A | 0x0C | 0x0D => 2
  | 0x0E => 4
  | 0x0F | 0x10 | 0x11 | 0x12 => 2
  | 0x13 => 1
  | 0x14 => 4
  | 0x15 | 0x16 | 0x17 | 0x18 => 2
  | 0x19 => 1
  | 0x1A | 0x1B | 0x1C => 4
  | _ => 0

/-- Checks of a floating-point op with two sources. -/
def wfFp (dst a b : Opnd) (ty : BitVec 2) : List SealReason :=
  need (dst.dstOk && a.srcOk && b.srcOk) .opnd ++ need (ty != 3) .type

/-- Checks of a floating-point op that reads only a. -/
def wfFp1 (dst a b : Opnd) (ty : BitVec 2) : List SealReason :=
  need (dst.dstOk && a.srcOk && b.unread) .opnd ++ need (ty != 3) .type

/-- Checks of an op of any type with two sources. -/
def wfAny (dst a b : Opnd) : List SealReason := need (dst.dstOk && a.srcOk && b.srcOk) .opnd

/-- Checks of an op of any type that reads only a. -/
def wfAny1 (dst a b : Opnd) : List SealReason := need (dst.dstOk && a.srcOk && b.unread) .opnd

/-- M.A order and scope (R192): a plain order takes scope 000; sizes w and d. -/
def wfOrder (order : BitVec 2) (scope : BitVec 3) : List SealReason :=
  need (order != 0 || scope == 0) .scope

def wfAtomic (size order : BitVec 2) (scope : BitVec 3) : List SealReason :=
  wfOrder order scope ++ need (size.toNat ≤ 1) .size

/-- Feed and capture tag fields (R190). -/
def wfTags (cd : BitVec 3) (ftag : BitVec 2) (ctag : Bool) : List SealReason :=
  need (ftag != 3 && (cd != 0 || !ctag)) .tagmode

def wfBar (scope : BitVec 3) : List SealReason :=
  need (scope == 1 || scope == 2 || scope == 3 || scope == 5) .scope

/-- The reasons of R196 for which the seal engine refuses the op on its own fields. -/
def Instr.refusals : Instr → List SealReason
  | .loop _ off => need (off != 0) .branch
  | .mloop _ ii sm body =>
    need (body.toNat + 1 == (ii.toNat + 1) * (sm.toNat + 1)) .mloop
  | .selc sp _ | .selr sp _ | .selg sp _ _ => need (sp != 0) .sel
  | .selk sp skew _ => need (sp != 0 && skew != 3) .sel
  | .rdsr _ sr | .wrsr _ sr => need (srAssigned sr) .opnd
  | .vadd d a b _ ty | .vsub d a b _ ty | .vmul d a b _ ty | .vfma d a b _ ty | .vfms d a b _ ty
  | .vmin d a b _ ty | .vmax d a b _ ty | .vcmpeq d a b _ ty | .vcmplt d a b _ ty
  | .vcmple d a b _ ty => wfFp d a b ty
  | .vabs d a b _ ty | .vneg d a b _ ty | .vrcp d a b _ ty | .vrsq d a b _ ty | .vexp2 d a b _ ty
  | .vlog2 d a b _ ty | .vtanh d a b _ ty => wfFp1 d a b ty
  | .vsel d a b _ _ => wfAny d a b
  | .vcvt d a conv part _ => need (d.dstOk && a.srcOk && decide (part.toNat < convParts conv)) .opnd
  | .viadd d a b _ | .visub d a b _ | .vimul d a b _ | .vand d a b _ | .vor d a b _ | .vxor d a b _
  | .vshl d a b _ | .vshr d a b _ | .vsra d a b _ | .vicmpeq d a b _ | .vicmplt d a b _ => wfAny d a b
  | .vmov d a b _ _ | .vrsum d a b _ _ | .vrmax d a b _ _ => wfAny1 d a b
  | .vbcl d a b _ _ | .vperm d a b _ _ => wfAny d a b
  | .vmacf d a b _ ty =>
    wfFp d a b ty ++
      need (!((d == 0x3A && a == 0x3C) || (d == 0x3B && b == 0x3E))) .opnd
  | .mma a _ commit part _ cl _ _ _ =>
    need a.unread .opnd ++ need (if commit then part.toNat ≤ 8 else part == 0 && cl == 0) .mmaf
  | .wld part a _ _ => need a.srcOk .opnd ++ need (part.toNat ≤ 8) .mmaf
  | .wrd d part _ _ => need d.dstOk .opnd ++ need (part.toNat ≤ 8) .mmaf
  | .wfeed _ cd ft ct | .wfeedg _ cd ft ct _ | .wfeedt _ cd ft ct _ | .npush _ cd ft ct _
  | .dfeed _ cd ft ct _ _ => wfTags cd ft ct
  | .spull cd _ | .epull cd _ | .cdset cd _ _ | .eadrain cd _ _ _ _ => need (cd != 0) .opnd
  | .lds _ _ size order scope => wfAtomic size order scope
  | .asld _ _ _ mode _ => need (mode != 3) .tagmode
  | .asst _ _ _ mode _ => need (mode == 0 || mode == 3) .tagmode
  | .fencesc scope => need (scope.toNat ≤ 4) .scope
  | .aadd _ _ _ s o c | .aand _ _ _ s o c | .aor _ _ _ s o c | .axor _ _ _ s o c | .amin _ _ _ s o c
  | .amax _ _ _ s o c | .aminu _ _ _ s o c | .amaxu _ _ _ s o c | .aswp _ _ _ s o c
  | .acas _ _ _ s o c => wfAtomic s o c
  | .afadd _ _ _ o c | .mwait _ _ o c => wfOrder o c
  | .mon _ size _ => need (size.toNat ≥ 2) .size
  | .bara _ s | .barw _ s | .bar _ s => wfBar s
  | _ => []

/-- A slot op that the seal engine accepts on its own fields. A step without an encoding is well formed
when its unit numbers lie in their ranges, which its type says. -/
def Instr.wf (i : Instr) : Bool := i.refusals.isEmpty

end Sys2Proof
end

