-- ==== Sys2Proof/Decode.lean ====
section
/-! DEFINITION. Slot words to instructions and back (R173 to R193), headers and bundles. Decoding is total:
a word that is no op is refused with the lowest reason of R196 that applies to it. -/

namespace Sys2Proof

/-- Bits lo + n - 1 down to lo of a slot word. -/
def fld (w : BitVec 32) (lo n : Nat) : BitVec n := w.extractLsb' lo n

/-- Bit `i` of a slot word. -/
def bit (w : BitVec 32) (i : Nat) : Bool := w.getLsbD i

/-- A slot word read field by field: what its encoding breaks, and the op its fields name. -/
abbrev Raw := List SealReason × Instr

/-- Fields that must be zero (R184): RESV. -/
def zeroF (b : Bool) : List SealReason := need b .resv

/-- Format S.R. -/
def readR (w : BitVec 32) (f : Reg → Reg → Reg → Instr) : Raw :=
  ([], f (fld w 21 5) (fld w 16 5) (fld w 11 5))

/-- Format S.R with gb zero. -/
def readR1 (w : BitVec 32) (f : Reg → Reg → Instr) : Raw :=
  (zeroF (fld w 11 5 == 0), f (fld w 21 5) (fld w 16 5))

/-- Format S.I. -/
def readI (w : BitVec 32) (f : Reg → Reg → BitVec 16 → Instr) : Raw :=
  ([], f (fld w 21 5) (fld w 16 5) (fld w 0 16))

def readSh (w : BitVec 32) (f : Reg → Reg → BitVec 6 → Instr) : Raw :=
  (zeroF (fld w 6 10 == 0), f (fld w 21 5) (fld w 16 5) (fld w 0 6))

/-- Format S.B with two registers. -/
def readB (w : BitVec 32) (f : Reg → Reg → BitVec 16 → Instr) : Raw :=
  ([], f (fld w 21 5) (fld w 16 5) (fld w 0 16))

/-- Format S.B with a flag in [20:16]. -/
def readFlagB (w : BitVec 32) (f : FlagNo → BitVec 16 → Instr) : Raw :=
  (zeroF (fld w 21 5 == 0) ++ need (!bit w 20) .opnd, f (fld w 16 4) (fld w 0 16))

def readFlag (w : BitVec 32) (f : FlagNo → Instr) : Raw :=
  (zeroF (fld w 21 5 == 0 && fld w 0 16 == 0) ++ need (!bit w 20) .opnd, f (fld w 16 4))

/-- Format S.J with off26 zero. -/
def readJ0 (w : BitVec 32) (i : Instr) : Raw := (zeroF (fld w 0 26 == 0), i)

/-- The register group's fn field (R207). -/
def readGroup (w : BitVec 32) : Except SealReason Raw :=
  match (fld w 0 11).toNat with
  | 0x00 => .ok (readR w .add)
  | 0x01 => .ok (readR w .sub)
  | 0x02 => .ok (readR w .mul)
  | 0x03 => .ok (readR w .mulh)
  | 0x04 => .ok (readR w .mulhu)
  | 0x05 => .ok (readR w .and)
  | 0x06 => .ok (readR w .or)
  | 0x07 => .ok (readR w .xor)
  | 0x08 => .ok (readR w .shl)
  | 0x09 => .ok (readR w .shr)
  | 0x0A => .ok (readR w .sra)
  | 0x0B => .ok (readR w .min)
  | 0x0C => .ok (readR w .max)
  | 0x0D => .ok (readR w .minu)
  | 0x0E => .ok (readR w .maxu)
  | 0x0F => .ok (readR w .seq)
  | 0x10 => .ok (readR w .slt)
  | 0x11 => .ok (readR w .sltu)
  | 0x12 => .ok (readR1 w .clz)
  | 0x13 => .ok (readR1 w .popc)
  | 0x14 => .ok (readR w .divu)
  | 0x15 => .ok (readR w .divs)
  | 0x16 => .ok (readR w .remu)
  | 0x17 => .ok (readR w .rems)
  | _ => .error .fn

/-- S-slot words (R184, R185). Codes 0x3C to 0x3F are headers (R175). -/
def readS (w : BitVec 32) : Except SealReason Raw :=
  match (fld w 26 6).toNat with
  | 0x00 => .ok (zeroF (w == 0), .nop)
  | 0x01 => readGroup w
  | 0x02 => .ok (readI w .addi)
  | 0x03 => .ok (readI w .andi)
  | 0x04 => .ok (readI w .ori)
  | 0x05 => .ok (readI w .xori)
  | 0x06 => .ok (readSh w .shli)
  | 0x07 => .ok (readSh w .shri)
  | 0x08 => .ok (readSh w .srai)
  | 0x09 => .ok (zeroF (fld w 16 5 == 0), .li (fld w 21 5) (fld w 0 16))
  | 0x0A => .ok (zeroF (fld w 16 5 == 0), .lik (fld w 21 5) (fld w 0 16))
  | 0x0B => .ok (readI w .slti)
  | 0x0C => .ok (readI w .sltiu)
  | 0x10 => .ok (readB w .beq)
  | 0x11 => .ok (readB w .bne)
  | 0x12 => .ok (readB w .blt)
  | 0x13 => .ok (readB w .bge)
  | 0x14 => .ok (readB w .bltu)
  | 0x15 => .ok (readB w .bgeu)
  | 0x16 => .ok (readFlagB w .bfs)
  | 0x17 => .ok (readFlagB w .bfc)
  | 0x18 => .ok (zeroF (fld w 16 2 == 0), .baf (fld w 21 5) (fld w 19 2) (bit w 18) (fld w 0 16))
  | 0x19 => .ok ([], .jmp (fld w 0 26))
  | 0x1A => .ok ([], .call (fld w 0 26))
  | 0x1B => .ok (readJ0 w .ret)
  | 0x1C => .ok (zeroF (fld w 0 21 == 0), .jr (fld w 21 5))
  | 0x20 => .ok (zeroF (fld w 16 5 == 0), .loop (fld w 21 5) (fld w 0 16))
  | 0x21 => .ok (zeroF (fld w 0 7 == 0), .mloop (fld w 21 5) (fld w 17 4) (fld w 14 3) (fld w 7 7))
  | 0x22 => .ok (readJ0 w .lbrk)
  | 0x24 => .ok (readFlag w .fset)
  | 0x25 => .ok (readFlag w .fclr)
  | 0x26 => .ok (zeroF (fld w 0 16 == 0) ++ need (!bit w 20 && !bit w 25) .opnd, .fmov (fld w 21 4) (fld w 16 4))
  | 0x27 => .ok (zeroF (fld w 0 21 == 0), .fget (fld w 21 5))
  | 0x28 => .ok (zeroF (fld w 21 2 == 0 && fld w 0 16 == 0), .selc (fld w 23 3) (fld w 16 5))
  | 0x29 => .ok (zeroF (fld w 21 2 == 0 && fld w 0 16 == 0), .selr (fld w 23 3) (fld w 16 5))
  | 0x2A => .ok (zeroF (fld w 11 12 == 0 && fld w 0 4 == 0), .selk (fld w 23 3) (fld w 9 2) (fld w 4 5))
  | 0x2B => .ok (zeroF (fld w 21 2 == 0 && fld w 0 11 == 0), .selg (fld w 23 3) (fld w 16 5) (fld w 11 5))
  | 0x30 => .ok (zeroF (fld w 21 5 == 0), .wait (fld w 16 5) (fld w 0 16))
  | 0x31 => .ok (readJ0 w .yield)
  | 0x32 => .ok (zeroF (fld w 16 10 == 0), .node (fld w 0 16))
  | 0x33 => .ok (readJ0 w .ckpt)
  | 0x34 => .ok (zeroF (fld w 16 10 == 0), .trap (fld w 0 16))
  | 0x35 => .ok (zeroF (fld w 16 5 == 0), .rdsr (fld w 21 5) (fld w 0 16))
  | 0x36 => .ok (zeroF (fld w 21 5 == 0), .wrsr (fld w 16 5) (fld w 0 16))
  | 0x37 => .ok (readJ0 w .lease)
  | 0x38 => .ok (readJ0 w .unlease)
  | 0x39 => .ok (zeroF (fld w 21 5 == 0 && fld w 0 16 == 0), .kats (fld w 16 5))
  | 0x3A => .ok (readJ0 w .endt)
  | _ => .error .opc

/-- The common fields of a C op (R187). -/
def readC5 (w : BitVec 32) (f : Opnd → Opnd → Opnd → SelNo → BitVec 2 → Instr) : Raw :=
  ([], f (fld w 19 7) (fld w 12 7) (fld w 5 7) (fld w 2 3) (fld w 0 2))

/-- A C op with ty 11 only. -/
def readC4 (w : BitVec 32) (f : Opnd → Opnd → Opnd → SelNo → Instr) : Raw :=
  (need (fld w 0 2 == 3) .type, f (fld w 19 7) (fld w 12 7) (fld w 5 7) (fld w 2 3))

/-- C-slot words (R187 to R189). -/
def readC (w : BitVec 32) : Except SealReason Raw :=
  match (fld w 26 6).toNat with
  | 0x00 => .ok (zeroF (w == 0), .nop)
  | 0x01 => .ok (readC5 w .vadd)
  | 0x02 => .ok (readC5 w .vsub)
  | 0x03 => .ok (readC5 w .vmul)
  | 0x04 => .ok (readC5 w .vfma)
  | 0x05 => .ok (readC5 w .vfms)
  | 0x06 => .ok (readC5 w .vmin)
  | 0x07 => .ok (readC5 w .vmax)
  | 0x08 => .ok (readC5 w .vabs)
  | 0x09 => .ok (readC5 w .vneg)
  | 0x0A => .ok (readC5 w .vcmpeq)
  | 0x0B => .ok (readC5 w .vcmplt)
  | 0x0C => .ok (readC5 w .vcmple)
  | 0x0D => .ok (readC5 w .vsel)
  | 0x0E => .ok (readC5 w .vrcp)
  | 0x0F => .ok (readC5 w .vrsq)
  | 0x10 => .ok (readC5 w .vexp2)
  | 0x11 => .ok (readC5 w .vlog2)
  | 0x12 => .ok (readC5 w .vtanh)
  | 0x13 => .ok (need (fld w 0 2 == 0) .type, .vcvt (fld w 19 7) (fld w 12 7) (fld w 7 5) (fld w 5 2) (fld w 2 3))
  | 0x14 => .ok (readC4 w .viadd)
  | 0x15 => .ok (readC4 w .visub)
  | 0x16 => .ok (readC4 w .vimul)
  | 0x17 => .ok (readC4 w .vand)
  | 0x18 => .ok (readC4 w .vor)
  | 0x19 => .ok (readC4 w .vxor)
  | 0x1A => .ok (readC4 w .vshl)
  | 0x1B => .ok (readC4 w .vshr)
  | 0x1C => .ok (readC4 w .vsra)
  | 0x1D => .ok (readC4 w .vicmpeq)
  | 0x1E => .ok (readC4 w .vicmplt)
  | 0x20 => .ok (readC5 w .vmov)
  | 0x21 => .ok (readC5 w .vbcl)
  | 0x22 => .ok (readC5 w .vperm)
  | 0x23 => .ok (readC5 w .vrsum)
  | 0x24 => .ok (readC5 w .vrmax)
  | 0x25 => .ok (readC5 w .vmacf)
  | 0x28 => .ok (zeroF (!bit w 19 && fld w 10 2 == 0),
      .mma (fld w 12 7) (bit w 25) (bit w 24) (fld w 20 4) (fld w 5 2) (fld w 7 2) (bit w 9) (fld w 2 3) (fld w 0 2))
  | 0x29 => .ok (zeroF (fld w 24 2 == 0 && !bit w 19 && fld w 7 5 == 0) ++ need (fld w 0 2 == 0) .type,
      .wld (fld w 20 4) (fld w 12 7) (fld w 5 2) (fld w 2 3))
  | 0x2A => .ok (zeroF (fld w 16 3 == 0 && fld w 7 5 == 0) ++ need (fld w 0 2 == 0) .type,
      .wrd (fld w 19 7) (fld w 12 4) (fld w 5 2) (fld w 2 3))
  | 0x2B => .ok (zeroF (fld w 2 24 == 0), .katc (fld w 0 2))
  | _ => .error .opc

/-- E-slot words (R190, R191). -/
def readE (w : BitVec 32) : Except SealReason Raw :=
  match (fld w 26 6).toNat with
  | 0x00 => .ok (zeroF (w == 0), .nop)
  | 0x01 => .ok (zeroF (fld w 0 17 == 0), .wfeed (fld w 23 3) (fld w 20 3) (fld w 18 2) (bit w 17))
  | 0x02 => .ok (zeroF (!bit w 15 && fld w 0 12 == 0),
      .dfeed (fld w 23 3) (fld w 20 3) (fld w 18 2) (bit w 17) (bit w 16) (fld w 12 3))
  | 0x03 => .ok (zeroF (fld w 12 5 == 0 && fld w 0 10 == 0),
      .wfeedg (fld w 23 3) (fld w 20 3) (fld w 18 2) (bit w 17) (fld w 10 2))
  | 0x04 => .ok (zeroF (!bit w 16 && fld w 0 12 == 0),
      .wfeedt (fld w 23 3) (fld w 20 3) (fld w 18 2) (bit w 17) (fld w 12 4))
  | 0x05 => .ok (zeroF (fld w 0 16 == 0), .npush (fld w 23 3) (fld w 20 3) (fld w 18 2) (bit w 17) (bit w 16))
  | 0x06 => .ok (zeroF (fld w 23 3 == 0 && fld w 18 2 == 0 && fld w 0 17 == 0), .spull (fld w 20 3) (bit w 17))
  | 0x07 => .ok (zeroF (fld w 23 3 == 0 && fld w 18 2 == 0 && fld w 0 17 == 0), .epull (fld w 20 3) (bit w 17))
  | 0x08 => .ok (zeroF (fld w 22 4 == 0 && fld w 12 5 == 0), .eaclr (fld w 17 5) (fld w 7 5) (fld w 0 7))
  | 0x09 => .ok (zeroF (fld w 12 5 == 0), .eadrain (fld w 23 3) (bit w 22) (fld w 17 5) (fld w 7 5) (fld w 0 7))
  | 0x0A => .ok (zeroF (!bit w 22 && fld w 12 5 == 0), .fdset (fld w 23 3) (fld w 17 5) (fld w 0 12))
  | 0x0B => .ok (zeroF (!bit w 22 && fld w 12 5 == 0), .cdset (fld w 23 3) (fld w 17 5) (fld w 0 12))
  | 0x0C => .ok (zeroF (!bit w 25 && !bit w 22 && fld w 12 5 == 0), .ivld (fld w 23 2) (fld w 17 5) (fld w 0 12))
  | 0x0D => .ok (zeroF (fld w 24 2 == 0 && !bit w 22 && fld w 0 12 == 0), .etag (bit w 23) (fld w 17 5) (fld w 12 5))
  | 0x0E => .ok (zeroF (fld w 22 4 == 0 && fld w 4 13 == 0), .etest (fld w 0 4) (fld w 17 5))
  | _ => .error .opc

/-- Format M.M. -/
def readMM (w : BitVec 32) (f : Reg → Reg → BitVec 2 → BitVec 2 → BitVec 12 → Instr) : Raw :=
  ([], f (fld w 21 5) (fld w 16 5) (fld w 14 2) (fld w 12 2) (fld w 0 12))

/-- Format M.A of an atomic. -/
def readMA (w : BitVec 32) (f : Reg → Reg → Reg → BitVec 2 → BitVec 2 → BitVec 3 → Instr) : Raw :=
  (zeroF (fld w 0 4 == 0), f (fld w 21 5) (fld w 16 5) (fld w 11 5) (fld w 9 2) (fld w 7 2) (fld w 4 3))

/-- Format M.O with ga zero. -/
def readMO (w : BitVec 32) (f : BitVec 3 → Instr) : Raw :=
  (zeroF (fld w 7 19 == 0 && fld w 0 4 == 0), f (fld w 4 3))

/-- Format M.C with opt zero. -/
def readMC (w : BitVec 32) (f : Reg → Reg → Reg → BitVec 4 → Instr) : Raw :=
  (zeroF (fld w 0 7 == 0), f (fld w 21 5) (fld w 16 5) (fld w 11 5) (fld w 7 4))

/-- Format M.B. -/
def readMB (w : BitVec 32) (f : BitVec 4 → BitVec 3 → Instr) : Raw :=
  (zeroF (fld w 11 15 == 0 && fld w 0 4 == 0), f (fld w 7 4) (fld w 4 3))

/-- M-slot words (R192, R193). -/
def readM (w : BitVec 32) : Except SealReason Raw :=
  match (fld w 26 6).toNat with
  | 0x00 => .ok (zeroF (w == 0), .nop)
  | 0x01 => .ok (readMM w .ld)
  | 0x02 => .ok (zeroF (fld w 11 5 == 0 && fld w 0 4 == 0),
      .lds (fld w 21 5) (fld w 16 5) (fld w 9 2) (fld w 7 2) (fld w 4 3))
  | 0x03 => .ok (readMM w .st)
  | 0x04 => .ok (readMM w .asld)
  | 0x05 => .ok (readMM w .asst)
  | 0x06 => .ok (zeroF (fld w 21 5 == 0 && fld w 12 4 == 0), .prf (fld w 16 5) (fld w 0 12))
  | 0x08 => .ok (readMO w .rel)
  | 0x09 => .ok (zeroF (fld w 21 5 == 0 && fld w 7 9 == 0 && fld w 0 4 == 0), .acq (fld w 16 5) (fld w 4 3))
  | 0x0A => .ok (zeroF (fld w 7 19 == 0 && fld w 0 4 == 0) ++ need (fld w 4 3 == 6) .scope, .relsv)
  | 0x0B => .ok (readMO w .fence)
  | 0x0C => .ok (readMO w .fencesc)
  | 0x0D => .ok (zeroF (fld w 7 19 == 0 && fld w 0 4 == 0) ++ need (fld w 4 3 == 0) .scope, .qsync)
  | 0x0E => .ok (zeroF (fld w 21 5 == 0 && fld w 7 9 == 0 && fld w 0 4 == 0) ++ need (fld w 4 3 == 0) .scope,
      .vcinv (fld w 16 5))
  | 0x10 => .ok (readMA w .aadd)
  | 0x11 => .ok (zeroF (fld w 0 4 == 0) ++ need (fld w 9 2 == 0) .size,
      .afadd (fld w 21 5) (fld w 16 5) (fld w 11 5) (fld w 7 2) (fld w 4 3))
  | 0x12 => .ok (readMA w .aand)
  | 0x13 => .ok (readMA w .aor)
  | 0x14 => .ok (readMA w .axor)
  | 0x15 => .ok (readMA w .amin)
  | 0x16 => .ok (readMA w .amax)
  | 0x17 => .ok (readMA w .aminu)
  | 0x18 => .ok (readMA w .amaxu)
  | 0x19 => .ok (readMA w .aswp)
  | 0x1A => .ok (readMA w .acas)
  | 0x1C => .ok (zeroF (fld w 21 5 == 0 && fld w 3 11 == 0), .mon (fld w 16 5) (fld w 14 2) (fld w 0 3))
  | 0x1D => .ok (zeroF (fld w 9 7 == 0 && fld w 0 4 == 0),
      .mwait (fld w 21 5) (fld w 16 5) (fld w 7 2) (fld w 4 3))
  | 0x20 => .ok (zeroF (fld w 21 5 == 0 && fld w 11 5 == 0 && fld w 0 7 == 0), .tdesc (fld w 16 5) (fld w 7 4))
  | 0x21 => .ok (readMC w .cpy)
  | 0x22 => .ok (readMC w .cpys)
  | 0x23 => .ok (zeroF (fld w 5 2 == 0 && fld w 0 4 == 0),
      .cpyg (fld w 21 5) (fld w 16 5) (fld w 11 5) (fld w 7 4) (bit w 4))
  | 0x24 => .ok (zeroF (!bit w 6 && fld w 0 5 == 0),
      .cpyr (fld w 21 5) (fld w 16 5) (fld w 11 5) (fld w 7 4) (bit w 5))
  | 0x25 => .ok (readMC w .cpyx)
  | 0x28 => .ok (zeroF (fld w 21 5 == 0 && fld w 0 9 == 0), .send (fld w 16 5) (fld w 11 5) (fld w 9 2))
  | 0x29 => .ok (zeroF (fld w 11 10 == 0 && fld w 0 9 == 0), .rcv (fld w 21 5) (fld w 9 2))
  | 0x2C => .ok (readMB w .bara)
  | 0x2D => .ok (readMB w .barw)
  | 0x2E => .ok (readMB w .bar)
  | 0x30 => .ok (readMM w .logst)
  | _ => .error .opc

/-- The reason with the lowest code (R196). -/
def lowest : List SealReason → Option SealReason
  | [] => none
  | r :: rs =>
    match lowest rs with
    | none => some r
    | some q => if q.code < r.code then some q else some r

/-- Accept a word whose fields break nothing. -/
def settleRaw : Except SealReason Raw → Except SealReason Instr
  | .error r => .error r
  | .ok (rs, i) =>
    match lowest (rs ++ i.refusals) with
    | some r => .error r
    | none => .ok i

def decodeS (w : BitVec 32) : Except SealReason Instr := settleRaw (readS w)
def decodeC (w : BitVec 32) : Except SealReason Instr := settleRaw (readC w)
def decodeE (w : BitVec 32) : Except SealReason Instr := settleRaw (readE w)
def decodeM (w : BitVec 32) : Except SealReason Instr := settleRaw (readM w)

/-- The word of a slot, by slot number. -/
def decodeSlot (slot : Fin 4) (w : BitVec 32) : Except SealReason Instr :=
  match slot with
  | 0 => decodeS w
  | 1 => decodeC w
  | 2 => decodeE w
  | 3 => decodeM w

/-- The slot an op stands in; a step without an encoding stands in none. NOP is the all-zero word of
any slot and is given slot 0. -/
def Instr.slot : Instr → Option (Fin 4)
  | .nop => some 0
  | .add .. | .sub .. | .mul .. | .mulh .. | .mulhu .. | .and .. | .or .. | .xor .. | .shl .. | .shr ..
  | .sra .. | .min .. | .max .. | .minu .. | .maxu .. | .seq .. | .slt .. | .sltu .. | .clz .. | .popc ..
  | .divu .. | .divs .. | .remu .. | .rems .. | .addi .. | .andi .. | .ori .. | .xori .. | .shli ..
  | .shri .. | .srai .. | .li .. | .lik .. | .slti .. | .sltiu .. | .beq .. | .bne .. | .blt .. | .bge ..
  | .bltu .. | .bgeu .. | .bfs .. | .bfc .. | .baf .. | .jmp .. | .call .. | .ret | .jr .. | .loop ..
  | .mloop .. | .lbrk | .fset .. | .fclr .. | .fmov .. | .fget .. | .selc .. | .selr .. | .selk ..
  | .selg .. | .wait .. | .yield | .node .. | .ckpt | .trap .. | .rdsr .. | .wrsr .. | .lease | .unlease
  | .kats .. | .endt => some 0
  | .vadd .. | .vsub .. | .vmul .. | .vfma .. | .vfms .. | .vmin .. | .vmax .. | .vabs .. | .vneg ..
  | .vcmpeq .. | .vcmplt .. | .vcmple .. | .vsel .. | .vrcp .. | .vrsq .. | .vexp2 .. | .vlog2 ..
  | .vtanh .. | .vcvt .. | .viadd .. | .visub .. | .vimul .. | .vand .. | .vor .. | .vxor .. | .vshl ..
  | .vshr .. | .vsra .. | .vicmpeq .. | .vicmplt .. | .vmov .. | .vbcl .. | .vperm .. | .vrsum ..
  | .vrmax .. | .vmacf .. | .mma .. | .wld .. | .wrd .. | .katc .. => some 1
  | .wfeed .. | .dfeed .. | .wfeedg .. | .wfeedt .. | .npush .. | .spull .. | .epull .. | .eaclr ..
  | .eadrain .. | .fdset .. | .cdset .. | .ivld .. | .etag .. | .etest .. => some 2
  | .ld .. | .lds .. | .st .. | .asld .. | .asst .. | .prf .. | .logst .. | .rel .. | .acq .. | .relsv
  | .fence .. | .fencesc .. | .qsync | .vcinv .. | .aadd .. | .afadd .. | .aand .. | .aor .. | .axor ..
  | .amin .. | .amax .. | .aminu .. | .amaxu .. | .aswp .. | .acas .. | .mon .. | .mwait .. | .tdesc ..
  | .cpy .. | .cpys .. | .cpyg .. | .cpyr .. | .cpyx .. | .send .. | .rcv .. | .bara .. | .barw ..
  | .bar .. => some 3
  | _ => none

/-- One bit. -/
def bit1 (b : Bool) : BitVec 1 := BitVec.ofBool b

/-- The formats of R184, R187, R190 and R192, from the most significant field down. -/
def packR (gd ga gb : Reg) (fn : BitVec 11) : BitVec 32 := (1#6 ++ gd ++ ga ++ gb ++ fn)
def packI (op : BitVec 6) (gd ga : Reg) (imm : BitVec 16) : BitVec 32 := op ++ gd ++ ga ++ imm
def packJ (op : BitVec 6) (off : BitVec 26) : BitVec 32 := op ++ off
def packP (op : BitVec 6) (sp : SelNo) (ga gb : Reg) (skew : BitVec 2) (origin : BitVec 5) : BitVec 32 :=
  op ++ sp ++ 0#2 ++ ga ++ gb ++ skew ++ origin ++ 0#4
def packC (op : BitVec 6) (dst a b : Opnd) (sp : SelNo) (ty : BitVec 2) : BitVec 32 := op ++ dst ++ a ++ b ++ sp ++ ty
def packF (op : BitVec 6) (fd cd : BitVec 3) (ftag : BitVec 2) (ctag pt : Bool) (aux : BitVec 4) (iv : BitVec 2) :
    BitVec 32 := op ++ fd ++ cd ++ ftag ++ bit1 ctag ++ bit1 pt ++ aux ++ iv ++ 0#10
def packD (op : BitVec 6) (idx : BitVec 3) (ctag : Bool) (ga gb : Reg) (imm : BitVec 12) : BitVec 32 :=
  op ++ idx ++ bit1 ctag ++ ga ++ gb ++ imm
def packMM (op : BitVec 6) (gd ga : Reg) (size cls : BitVec 2) (disp : BitVec 12) : BitVec 32 :=
  op ++ gd ++ ga ++ size ++ cls ++ disp
def packMA (op : BitVec 6) (gd ga gb : Reg) (size order : BitVec 2) (scope : BitVec 3) : BitVec 32 :=
  op ++ gd ++ ga ++ gb ++ size ++ order ++ scope ++ 0#4
def packMO (op : BitVec 6) (ga : Reg) (scope : BitVec 3) : BitVec 32 := op ++ 0#5 ++ ga ++ 0#9 ++ scope ++ 0#4
def packMC (op : BitVec 6) (gd ga gb : Reg) (th : BitVec 4) (opt : BitVec 3) : BitVec 32 :=
  op ++ gd ++ ga ++ gb ++ th ++ opt ++ 0#4
def packMB (op : BitVec 6) (id : BitVec 4) (scope : BitVec 3) : BitVec 32 := op ++ 0#15 ++ id ++ scope ++ 0#4

/-- A flag number in a 5-bit field. -/
def flag5 (f : FlagNo) : BitVec 5 := 0#1 ++ f

/-- The slot word of an op (R184 to R193). A step without an encoding is given the all-zero word. -/
def encode : Instr → BitVec 32
  | .nop => 0
  | .add d a b => packR d a b 0x000
  | .sub d a b => packR d a b 0x001
  | .mul d a b => packR d a b 0x002
  | .mulh d a b => packR d a b 0x003
  | .mulhu d a b => packR d a b 0x004
  | .and d a b => packR d a b 0x005
  | .or d a b => packR d a b 0x006
  | .xor d a b => packR d a b 0x007
  | .shl d a b => packR d a b 0x008
  | .shr d a b => packR d a b 0x009
  | .sra d a b => packR d a b 0x00A
  | .min d a b => packR d a b 0x00B
  | .max d a b => packR d a b 0x00C
  | .minu d a b => packR d a b 0x00D
  | .maxu d a b => packR d a b 0x00E
  | .seq d a b => packR d a b 0x00F
  | .slt d a b => packR d a b 0x010
  | .sltu d a b => packR d a b 0x011
  | .clz d a => packR d a 0 0x012
  | .popc d a => packR d a 0 0x013
  | .divu d a b => packR d a b 0x014
  | .divs d a b => packR d a b 0x015
  | .remu d a b => packR d a b 0x016
  | .rems d a b => packR d a b 0x017
  | .addi d a i => packI 0x02 d a i
  | .andi d a i => packI 0x03 d a i
  | .ori d a i => packI 0x04 d a i
  | .xori d a i => packI 0x05 d a i
  | .shli d a s => packI 0x06 d a (0#10 ++ s)
  | .shri d a s => packI 0x07 d a (0#10 ++ s)
  | .srai d a s => packI 0x08 d a (0#10 ++ s)
  | .li d i => packI 0x09 d 0 i
  | .lik d i => packI 0x0A d 0 i
  | .slti d a i => packI 0x0B d a i
  | .sltiu d a i => packI 0x0C d a i
  | .beq a b o => packI 0x10 a b o
  | .bne a b o => packI 0x11 a b o
  | .blt a b o => packI 0x12 a b o
  | .bge a b o => packI 0x13 a b o
  | .bltu a b o => packI 0x14 a b o
  | .bgeu a b o => packI 0x15 a b o
  | .bfs f o => packI 0x16 0 (flag5 f) o
  | .bfc f o => packI 0x17 0 (flag5 f) o
  | .baf a agg inv o => packI 0x18 a (agg ++ bit1 inv ++ 0#2) o
  | .jmp o => packJ 0x19 o
  | .call o => packJ 0x1A o
  | .ret => packJ 0x1B 0
  | .jr a => packI 0x1C a 0 0
  | .loop a o => packI 0x20 a 0 o
  | .mloop c ii st body => (0x21#6 ++ c ++ ii ++ st ++ body ++ 0#7)
  | .lbrk => packJ 0x22 0
  | .fset f => packI 0x24 0 (flag5 f) 0
  | .fclr f => packI 0x25 0 (flag5 f) 0
  | .fmov d f => packI 0x26 (flag5 d) (flag5 f) 0
  | .fget d => packI 0x27 d 0 0
  | .selc sp a => packP 0x28 sp a 0 0 0
  | .selr sp a => packP 0x29 sp a 0 0 0
  | .selk sp k o => packP 0x2A sp 0 0 k o
  | .selg sp a b => packP 0x2B sp a b 0 0
  | .wait a i => packI 0x30 0 a i
  | .yield => packJ 0x31 0
  | .node i => packI 0x32 0 0 i
  | .ckpt => packJ 0x33 0
  | .trap c => packI 0x34 0 0 c
  | .rdsr d n => packI 0x35 d 0 n
  | .wrsr a n => packI 0x36 0 a n
  | .lease => packJ 0x37 0
  | .unlease => packJ 0x38 0
  | .kats a => packI 0x39 0 a 0
  | .endt => packJ 0x3A 0
  | .vadd d a b sp ty => packC 0x01 d a b sp ty
  | .vsub d a b sp ty => packC 0x02 d a b sp ty
  | .vmul d a b sp ty => packC 0x03 d a b sp ty
  | .vfma d a b sp ty => packC 0x04 d a b sp ty
  | .vfms d a b sp ty => packC 0x05 d a b sp ty
  | .vmin d a b sp ty => packC 0x06 d a b sp ty
  | .vmax d a b sp ty => packC 0x07 d a b sp ty
  | .vabs d a b sp ty => packC 0x08 d a b sp ty
  | .vneg d a b sp ty => packC 0x09 d a b sp ty
  | .vcmpeq d a b sp ty => packC 0x0A d a b sp ty
  | .vcmplt d a b sp ty => packC 0x0B d a b sp ty
  | .vcmple d a b sp ty => packC 0x0C d a b sp ty
  | .vsel d a b sp ty => packC 0x0D d a b sp ty
  | .vrcp d a b sp ty => packC 0x0E d a b sp ty
  | .vrsq d a b sp ty => packC 0x0F d a b sp ty
  | .vexp2 d a b sp ty => packC 0x10 d a b sp ty
  | .vlog2 d a b sp ty => packC 0x11 d a b sp ty
  | .vtanh d a b sp ty => packC 0x12 d a b sp ty
  | .vcvt d a conv part sp => packC 0x13 d a (conv ++ part) sp 0
  | .viadd d a b sp => packC 0x14 d a b sp 3
  | .visub d a b sp => packC 0x15 d a b sp 3
  | .vimul d a b sp => packC 0x16 d a b sp 3
  | .vand d a b sp => packC 0x17 d a b sp 3
  | .vor d a b sp => packC 0x18 d a b sp 3
  | .vxor d a b sp => packC 0x19 d a b sp 3
  | .vshl d a b sp => packC 0x1A d a b sp 3
  | .vshr d a b sp => packC 0x1B d a b sp 3
  | .vsra d a b sp => packC 0x1C d a b sp 3
  | .vicmpeq d a b sp => packC 0x1D d a b sp 3
  | .vicmplt d a b sp => packC 0x1E d a b sp 3
  | .vmov d a b sp ty => packC 0x20 d a b sp ty
  | .vbcl d a b sp ty => packC 0x21 d a b sp ty
  | .vperm d a b sp ty => packC 0x22 d a b sp ty
  | .vrsum d a b sp ty => packC 0x23 d a b sp ty
  | .vrmax d a b sp ty => packC 0x24 d a b sp ty
  | .vmacf d a b sp ty => packC 0x25 d a b sp ty
  | .mma a sh co part l cl zp sp ty =>
    packC 0x28 (bit1 sh ++ bit1 co ++ part ++ 0#1) a (0#2 ++ bit1 zp ++ cl ++ l) sp ty
  | .wld part a l sp => packC 0x29 (0#2 ++ part ++ 0#1) a (0#5 ++ l) sp 0
  | .wrd d part l sp => packC 0x2A d (0#3 ++ part) (0#5 ++ l) sp 0
  | .katc ty => packC 0x2B 0 0 0 0 ty
  | .wfeed f c ft ct => packF 0x01 f c ft ct false 0 0
  | .dfeed f c ft ct pt pd => packF 0x02 f c ft ct pt (0#1 ++ pd) 0
  | .wfeedg f c ft ct iv => packF 0x03 f c ft ct false 0 iv
  | .wfeedt f c ft ct th => packF 0x04 f c ft ct false th 0
  | .npush f c ft ct pt => packF 0x05 f c ft ct pt 0 0
  | .spull c ct => packF 0x06 0 c 0 ct false 0 0
  | .epull c ct => packF 0x07 0 c 0 ct false 0 0
  | .eaclr a n f => packD 0x08 0 false a 0 (n ++ f)
  | .eadrain c ct a n f => packD 0x09 c ct a 0 (n ++ f)
  | .fdset f a i => packD 0x0A f false a 0 i
  | .cdset c a i => packD 0x0B c false a 0 i
  | .ivld iv a i => packD 0x0C (0#1 ++ iv) false a 0 i
  | .etag full a b => packD 0x0D (0#2 ++ bit1 full) false a b 0
  | .etest f a => packD 0x0E 0 false a 0 (0#8 ++ f)
  | .ld d a s c o => packMM 0x01 d a s c o
  | .lds d a s o sc => packMA 0x02 d a 0 s o sc
  | .st d a s c o => packMM 0x03 d a s c o
  | .asld d a s m o => packMM 0x04 d a s m o
  | .asst d a s m o => packMM 0x05 d a s m o
  | .prf a o => packMM 0x06 0 a 0 0 o
  | .rel sc => packMO 0x08 0 sc
  | .acq a sc => packMO 0x09 a sc
  | .relsv => packMO 0x0A 0 6
  | .fence sc => packMO 0x0B 0 sc
  | .fencesc sc => packMO 0x0C 0 sc
  | .qsync => packMO 0x0D 0 0
  | .vcinv a => packMO 0x0E a 0
  | .aadd d a b s o sc => packMA 0x10 d a b s o sc
  | .afadd d a b o sc => packMA 0x11 d a b 0 o sc
  | .aand d a b s o sc => packMA 0x12 d a b s o sc
  | .aor d a b s o sc => packMA 0x13 d a b s o sc
  | .axor d a b s o sc => packMA 0x14 d a b s o sc
  | .amin d a b s o sc => packMA 0x15 d a b s o sc
  | .amax d a b s o sc => packMA 0x16 d a b s o sc
  | .aminu d a b s o sc => packMA 0x17 d a b s o sc
  | .amaxu d a b s o sc => packMA 0x18 d a b s o sc
  | .aswp d a b s o sc => packMA 0x19 d a b s o sc
  | .acas d a b s o sc => packMA 0x1A d a b s o sc
  | .mon a s e => packMM 0x1C 0 a s 0 (0#9 ++ e)
  | .mwait d a o sc => packMA 0x1D d a 0 0 o sc
  | .tdesc a th => packMC 0x20 0 a 0 th 0
  | .cpy d a b th => packMC 0x21 d a b th 0
  | .cpys d a b th => packMC 0x22 d a b th 0
  | .cpyg d a b th st => packMC 0x23 d a b th (0#2 ++ bit1 st)
  | .cpyr d a b th bf => packMC 0x24 d a b th (0#1 ++ bit1 bf ++ 0#1)
  | .cpyx d a b th => packMC 0x25 d a b th 0
  | .send a b r => (0x28#6 ++ 0#5 ++ a ++ b ++ r ++ 0#9)
  | .rcv d r => (0x29#6 ++ d ++ 0#5 ++ 0#5 ++ r ++ 0#9)
  | .bara id sc => packMB 0x2C id sc
  | .barw id sc => packMB 0x2D id sc
  | .bar id sc => packMB 0x2E id sc
  | .logst d a s c o => packMM 0x30 d a s c o
  | _ => 0

/-- A wait spec (R176): polarity (true: the flag must be clear) and flag. -/
abbrev WaitSpec := Option (Bool × FlagNo)

/-- A header (R176, R177). -/
structure Header where
  pair  : Bool
  wait1 : WaitSpec
  wait2 : WaitSpec
  wait3 : WaitSpec
  stall : BitVec 3
  ext   : Option (BitVec 2 × BitVec 24)
  deriving DecidableEq, Repr

/-- A wait spec's six bits: an enabled one, a clear one, or one that breaks R176. -/
def readWait (b : BitVec 6) : Except SealReason WaitSpec :=
  if b.getLsbD 5 then .ok (some (b.getLsbD 4, b.extractLsb' 0 4))
  else if b == 0 then .ok none else .error .hdr

/-- A header word: bits [31:28] are 1111 (R175 to R177). -/
def readHeader (w : BitVec 32) : Except SealReason Header :=
  if bit w 27 then
    if fld w 24 2 == 0 then .error .hdr
    else .ok ⟨bit w 26, none, none, none, 0, some (fld w 24 2, fld w 0 24)⟩
  else
    match readWait (fld w 20 6), readWait (fld w 14 6), readWait (fld w 8 6) with
    | .ok a, .ok b, .ok c =>
      if fld w 0 5 == 0 then .ok ⟨bit w 26, a, b, c, fld w 5 3, none⟩ else .error .hdr
    | _, _, _ => .error .hdr

/-- A bundle (R173): its header if it has one, and one op per slot, NOP for an all-zero slot. -/
structure Bundle where
  hdr : Option Header
  s   : Instr
  c   : Instr
  e   : Instr
  m   : Instr
  deriving DecidableEq, Repr

/-- Slot word `i` of a bundle (R173). -/
def slotWord (w : BitVec 128) (i : Nat) : BitVec 32 := w.extractLsb' (32 * i) 32

/-- A word of slot 0 that is a header (R175). -/
def isHeader (w : BitVec 32) : Bool := fld w 28 4 == 15

/-- A bundle's 128 bits. -/
def decodeBundle (w : BitVec 128) : Except SealReason Bundle :=
  let w0 := slotWord w 0
  let h : Except SealReason (Option Header) :=
    if isHeader w0 then (readHeader w0).map some else .ok none
  let s : Except SealReason Instr := if isHeader w0 then .ok .nop else decodeS w0
  match h, s, decodeC (slotWord w 1), decodeE (slotWord w 2), decodeM (slotWord w 3) with
  | .ok h, .ok s, .ok c, .ok e, .ok m => .ok ⟨h, s, c, e, m⟩
  | .error r, _, _, _, _ => .error r
  | _, .error r, _, _, _ => .error r
  | _, _, .error r, _, _ => .error r
  | _, _, _, .error r, _ => .error r
  | _, _, _, _, .error r => .error r

/-- The wait spec's bits (R176). -/
def packWait : WaitSpec → BitVec 6
  | none => 0
  | some (pol, f) => 1#1 ++ bit1 pol ++ f

/-- The word of a header (R176, R177). -/
def encodeHeader (h : Header) : BitVec 32 :=
  match h.ext with
  | some (tgt, ext) => (0xF#4 ++ 1#1 ++ bit1 h.pair ++ tgt ++ ext)
  | none => (0xF#4 ++ 0#1 ++ bit1 h.pair ++ packWait h.wait1 ++ packWait h.wait2 ++ packWait h.wait3 ++ h.stall ++ 0#5)

/-- The 128 bits of a bundle (R173). -/
def encodeBundle (b : Bundle) : BitVec 128 :=
  encode b.m ++ encode b.e ++ encode b.c ++ (match b.hdr with | some h => encodeHeader h | none => encode b.s)

/-- An op that slot `k` may hold: one of its own, well formed, or NOP. -/
def Instr.fits (i : Instr) (k : Fin 4) : Bool := i == .nop || (i.slot == some k && i.wf)

/-- A header whose fields its word can hold: an extension header names a target slot and has no waits and no stall (R176,
R177). -/
def Header.wf (h : Header) : Bool :=
  match h.ext with
  | some (tgt, _) => tgt != 0 && h.wait1.isNone && h.wait2.isNone && h.wait3.isNone && h.stall == 0
  | none => true

/-- A bundle whose ops stand in their slots; under a header slot 0 holds NOP (R173, R175). -/
def Bundle.wf (b : Bundle) : Bool :=
  (match b.hdr with | some h => h.wf && b.s == .nop | none => b.s.fits 0) && b.c.fits 1 && b.e.fits 2 && b.m.fits 3

/-- M ops whose encoding leaves every bit below the opcode to a field. -/
def Instr.openM : Instr → Bool
  | .ld .. | .st .. | .asld .. | .asst .. | .logst .. => true
  | _ => false

/-- Which slot the table's word `w` is read in (assumption 22: a word of 32 bits does not say its slot): of the slots whose map
accepts it, one whose encoding fixes more of its bits, hence E, M but for its five open encodings, S, C, and last M. -/
def tableSlot (w : BitVec 32) : Option (Fin 4) :=
  if w == 0 then some 0 else
  match decodeE w, decodeM w, decodeS w, decodeC w with
  | .ok _, _, _, _ => some 2
  | _, .ok i, .ok _, _ => if i.openM then some 0 else some 3
  | _, .ok i, _, .ok _ => if i.openM then some 1 else some 3
  | _, .ok _, _, _ => some 3
  | _, _, .ok _, _ => some 0
  | _, _, _, .ok _ => some 1
  | _, _, _, _ => none

/-- The instruction the decoder reads from a table row's bits. -/
def decodeTableWord (nbits w : Nat) : Option Instr :=
  if nbits = 32 then
    match tableSlot (BitVec.ofNat 32 w) with
    | none => none
    | some k => (decodeSlot k (BitVec.ofNat 32 w)).toOption
  else none

end Sys2Proof
end

