-- ==== Sys2Proof/Config.lean ====
section
/-! DEFINITION. What the part fixes once and the values the manual leaves open. A free value is an
opaque constant: nothing can evaluate it, so a claim holds whatever it is. -/

namespace Sys2Proof

/-- What an array's defects flip in the lanes of a known-answer test: array, ty, column, ac (R341; assumption 132). -/
opaque Config.defect (arr ty col ac : Nat) : BitVec 256

/-- Free choice number `n` (assumption 1): the order of agents and every latency the manual calls
nominal (R5), the victim of a pseudo-LRU (R376, R45, R51, R123), and the value a wrong alias assertion
returns (R85). `Config.choice n` is reduced modulo the number of possibilities where it is used. -/
opaque Config.choice : Nat → Nat

/-- The outcome of an SLH-DSA-SHAKE-256s verification: key id, signed bytes, signature (R195, R367;
assumption 18). -/
opaque Config.signatureOk : Nat → List Byte → List Byte → Bool

/-- KMAC256 under the seal key of a world in a boot, over the given bytes (R205, R367; assumption 18). -/
opaque Config.sealTag : Bool → Nat → List Byte → BitVec 512

/-- SHAKE256 with an output of 64 bytes (R368, R373; assumption 18). -/
opaque Config.shake256 : List Byte → BitVec 512

/-- The attestation signature by the device identity key (R368; assumption 18). -/
opaque Config.attestSignature : List Byte → List Byte

/-- Boot-ROM verification of the firmware and of the configuration record at boot number n (R367). -/
opaque Config.firmwareOk : Nat → Bool
opaque Config.recordOk : Nat → Bool

/-- The package serial number and the boot-ROM and firmware measurements of the report (R368). -/
opaque Config.serial : BitVec 64
opaque Config.romMeasure : BitVec 512
opaque Config.firmwareMeasure : BitVec 512

/-- The measurement of the configuration record of a boot (R368). -/
opaque Config.recordMeasure : Nat → BitVec 512

/-- A correctly rounded result that 256-bit bounds do not decide (R160; assumption 20): function code,
operand bits, rounding mode. -/
opaque Config.slowUndecided : Nat → Nat → Bool → Nat

/-- The key id registered for image signing in a world (R202, R367). -/
opaque Config.keyRegistered : Bool → Nat → Bool

/-- First 64 KiB page of the window that a member of a protection group has on its own package, by PGID and member
index (R27, R105; assumption 29). -/
opaque Config.windowBase : Nat → Nat → Nat

/-- The port on which traffic toward a package leaves, and the payload of a flit, by the number of the item it carries
(R364; assumption 30). -/
opaque Config.route : Nat → Nat
opaque Config.payload : Nat → List Byte

/-- A port lies on a route to a package (R30, R111; assumption 30). -/
opaque Config.reaches : PortId → Nat → Bool

/-- The window that a port's receiver advertises under link version 1.1, less 64, modulo 4,033 (R364; assumption 124). -/
opaque Config.linkWindow : PortId → Nat

/-- The page-table walker, four on each base die, that a compute die uses for DVA[18:16] (R123). -/
opaque Config.walkerOf : Nat → Nat → Fin 8

/-- One less than the receive-buffer entries of an egress port of a die's crossbar for requests or responses (R56). -/
opaque Config.bufferEntries : Nat → Nat → Bool → Nat

/-- The device virtual address at which the bundle section of an image is fetched, by its image id; none: at its physical
address (R173, R195, R126; assumption 54). -/
opaque Config.codeAt : Nat → Option Nat

/-- The host link trained narrower than x16 in a boot (R359). -/
opaque Config.hostNarrow : Nat → Bool

/-- S of R52: slots of an HBM channel. -/
def Config.channelSlots : Nat := 31250000
/-- H of R52: home slots of an HBM channel. -/
def Config.homeSlots : Nat := 31209309
/-- The number of HBM channels (R10). -/
def Config.channels : Nat := 768
/-- First line of the peer window, in bytes (R15). -/
def Config.peerBase : Nat := 0x4000000000000
def Config.hostBase : Nat := 0x8000000000000
def Config.poolBase : Nat := 0xC000000000000
def Config.physTop : Nat := 0x10000000000000
/-- The package register region (R15). -/
def Config.regBase : Nat := 0x080000000000
/-- Bytes in an array store (R17). -/
def Config.asBytes : Nat := 0x1000000
/-- FP32 1.0, the neutral side field (R36). -/
def Config.oneF32 : BitVec 32 := 0x3F800000

end Sys2Proof
end

