-- ==== Sys2Proof/Machine/Sparse.lean ====
section
/-! DEFINITION. Sparse data: a list of (key, value) pairs in one canonical form, keys strictly rising and
no entry equal to what an unlisted key reads as. Memory, the cell files and the array store are held so. -/

namespace Sys2Proof.Machine

/-- Sparse data by key. -/
abbrev Sparse (α : Type) := List (Nat × α)

/-- What key `k` holds; `d` is what an unlisted key reads as. -/
def Sparse.get {α : Type} (d : α) : Sparse α → Nat → α
  | [], _ => d
  | (j, v) :: t, k => if j = k then v else Sparse.get d t k

/-- Place an entry before the first larger key. -/
def Sparse.insert {α : Type} (k : Nat) (v : α) : Sparse α → Sparse α
  | [] => [(k, v)]
  | (j, w) :: t => if k < j then (k, v) :: (j, w) :: t else (j, w) :: Sparse.insert k v t

/-- Drop every entry of a key. -/
def Sparse.erase {α : Type} (k : Nat) : Sparse α → Sparse α
  | [] => []
  | (j, w) :: t => if j = k then Sparse.erase k t else (j, w) :: Sparse.erase k t

/-- Write a key; writing what an unlisted key reads as removes the entry. -/
def Sparse.set {α : Type} [DecidableEq α] (d : α) (m : Sparse α) (k : Nat) (v : α) : Sparse α :=
  if v = d then Sparse.erase k m else Sparse.insert k v (Sparse.erase k m)

/-- Keys strictly rising above a bound. -/
def Sparse.risingFrom {α : Type} : Nat → Sparse α → Bool
  | _, [] => true
  | b, (j, _) :: t => decide (b ≤ j) && Sparse.risingFrom (j + 1) t

/-- The canonical form. -/
def Sparse.wf {α : Type} [DecidableEq α] (d : α) (m : Sparse α) : Bool :=
  Sparse.risingFrom 0 m && m.all fun e => decide (e.2 ≠ d)

/-- Memory: bytes by physical address (R15). An unlisted byte reads 0 (assumption 4). -/
abbrev Memory := List Host.Cell

/-- What a byte that nothing has written reads as (assumption 4). -/
def Memory.unlisted : Byte := 0

def Memory.read (m : Memory) (a : Nat) : Byte := Sparse.get Memory.unlisted m a

def Memory.write (m : Memory) (a : Nat) (b : Byte) : Memory := Sparse.set Memory.unlisted m a b

def Memory.wf (m : Memory) : Bool := Sparse.wf Memory.unlisted m

/-- `n` bytes from address `a`, ascending. -/
def Memory.bytes (m : Memory) (a : Nat) : Nat → List Byte
  | 0 => []
  | n + 1 => Memory.read m a :: Memory.bytes m (a + 1) n

/-- Store bytes from address `a` upward. -/
def Memory.store (m : Memory) (a : Nat) : List Byte → Memory
  | [] => m
  | b :: bs => Memory.store (Memory.write m a b) (a + 1) bs

/-- Store the bytes whose mask bit is set, from address `a` upward; `i` is the first byte's index. -/
def Memory.storeMask (m : Memory) (a : Nat) (mask : Nat) : List Byte → Nat → Memory
  | [], _ => m
  | b :: bs, i =>
    Memory.storeMask (if mask.testBit i then Memory.write m (a + i) b else m) a mask bs (i + 1)

end Sys2Proof.Machine
end

