-- ==== Sys2Proof/Machine/State.lean ====
section
/-! DEFINITION. The state of one Wealina package as plain data, and its value after reset. Each field's
docstring names the rule that gives it. Fields marked (model) are the model's own. -/

namespace Sys2Proof.Machine

/-- Why a step stops. No instruction of the table raises one: a context's own faults are next states
(R338). -/
inductive Fault where
  /-- Reserved for a state that names a ring, team or job that no list holds. Raised by no
  meaning: NothingStopsTheMachine is the claim; safe. -/
  | incoherent
  deriving DecidableEq, Repr

/-- Why the model gives a step no meaning. -/
inductive Refusal where
  /-- An instruction that has no meaning yet, by its mnemonic in the opcode table; safe. -/
  | notModelled (mnemonic : String)
  deriving DecidableEq, Repr

/-- Page kinds (R21): logged, protected, sync, the owner's kind 3, host-coherent, pool. -/
inductive Kind where
  | logged | prot | sync | owned | host | pool
  deriving DecidableEq, Repr

/-- Tag modes of the array store (R41). -/
inductive TagMode where
  | ignore | fullKeep | fullTake | emptyPut | setFull | setEmpty
  deriving DecidableEq, Repr

/-- A selector pair (R139). -/
structure Sel where
  cols   : BitVec 32 := 0xFFFFFFFF
  rows   : BitVec 32 := 0xFFFFFFFF
  skew   : BitVec 2 := 0
  origin : BitVec 5 := 0
  deriving DecidableEq, Repr

/-- A loop-stack entry (R214). -/
structure LoopEntry where
  start     : Nat
  last      : Nat
  remaining : Nat
  deriving DecidableEq, Repr

/-- A running MLOOP (R217, R218): pass `k`, cycle `c`, and the groups still to present in this cycle. -/
structure MLoop where
  n      : Nat
  ii     : Nat
  st     : Nat
  base   : Nat
  k      : Nat
  c      : Nat
  groups : List (List (Nat × Nat))
  opened : Bool
  deriving DecidableEq, Repr

/-- A slot op presented and not yet issued (R179, R180): its wait spec (polarity, flag), pairing,
extension bits, the bundle it came from, the MLOOP stage it belongs to, and how far a slot that stays as residue has come. -/
structure SlotOp where
  slot   : Fin 4
  ins    : Instr
  wait   : Option (Bool × FlagNo)
  paired : Bool
  ext    : Option (BitVec 24)
  pc     : Nat
  stage  : Nat
  phase  : Nat
  deriving DecidableEq, Repr

/-- A write that takes effect at the end of a later ac (R182, R206, R220, R276). -/
inductive DelayedReg where
  | g (r : Reg)
  | flag (f : FlagNo)
  | status
  deriving DecidableEq, Repr

structure Delayed where
  due    : Nat
  order  : Nat
  target : DelayedReg
  value  : Word
  deriving DecidableEq, Repr

/-- What stands in a load or store queue (R280). -/
inductive QOp where
  | ld | lds | asld | prf | mon | atomic | st | logst | asst | send | release | reduce
  deriving DecidableEq, Repr

/-- One entry of a load or store queue (R83, R280). An atomic with both halves has one entry in each
queue with the same `id`. -/
structure QEntry where
  id    : Nat
  op    : QOp
  dva   : Nat
  pa    : Nat
  size  : Nat
  cls   : BitVec 2
  kind  : Kind
  gd    : Reg
  data  : Word
  cmp   : Word
  code  : BitVec 6
  mode  : TagMode
  order : BitVec 2
  scope : BitVec 3
  word  : CWord
  phase : Nat
  issued : Nat
  mark  : Nat
  seg   : Nat
  /-- own bytes older than a load whose line a younger store of the context has patched since (R86) -/
  seen  : Option (LineData × BitVec 64)
  deriving DecidableEq, Repr

/-- A release under way (R67): the step reached, its scope, the flags of its record, and the number of the first access of
the context that is younger (R90). Step 5 waits for another owner to accept the publication entry. -/
structure Release where
  step   : Nat
  scope  : BitVec 3
  ckpt   : Bool
  forced : Bool
  node   : Bool
  seq    : Nat
  mark   : Nat
  deriving DecidableEq, Repr

/-- One writer of an acquire (R75): its agent slot and ring, the sampled tail, done or not. Of a rank of another package (R76):
`st`, 0 where its entry has to be sampled again, 1 while its owner is asked for it, 2 once it is sampled, and the fold pointer
that it held when it was last read. -/
structure AcqWriter where
  key  : Nat
  ring : Nat
  tail : Nat
  done : Bool
  st   : Nat := 2
  fold : Nat := 0
  deriving DecidableEq, Repr

/-- An acquire under way (R75, R76). -/
structure Acquire where
  scope   : BitVec 3
  writers : List AcqWriter
  remote  : Bool
  deriving DecidableEq, Repr

/-- A watch entry (R293). -/
structure Watch where
  armed     : Bool := false
  dva       : Nat := 0
  pa        : Nat := 0
  size      : Nat := 0
  value     : Word := 0
  satisfied : Bool := false
  deriving DecidableEq, Repr

/-- A message ring (R306). -/
structure MsgRing where
  head  : BitVec 24 := 0
  base  : BitVec 24 := 0
  log2n : BitVec 8 := 0
  tail  : BitVec 24 := 0
  count : BitVec 32 := 0
  deriving DecidableEq, Repr

/-- The sequencer snapshot of CKPT (R150). -/
structure Snapshot where
  pc     : Nat
  g      : Vector Word 32
  flags  : BitVec 16
  loops  : List LoopEntry
  mloop  : Option MLoop
  q      : Vector Word 8
  rets   : List Nat
  sp     : Vector Sel 8
  iv     : Vector (BitVec 512) 4
  th     : Vector (BitVec 512) 16
  fd     : Vector (BitVec 256) 8
  cd     : Vector (BitVec 256) 8
  kat    : Word
  chk    : Bool
  rm     : Bool
  relSeq : Nat
  deriving DecidableEq, Repr

/-- A rerun after a detected data error (R340): run 0 is A, run 1 is B, run 2 is the single rerun after
consumed poison (R345). `first`: the number of run A, or of that single rerun. -/
structure Rerun where
  run   : Nat
  sigA  : Option (Nat × BitVec 64)
  first : Nat
  deriving DecidableEq, Repr

/-- A feed staged ahead of issue (R142, R262, R263): the words by chain row or column, the bytes that a tile
clips, whether a gather index was out of range, the words it reserves, the reads it still waits for, and
the fault it will raise. -/
structure Staged where
  id       : Nat
  pc       : Nat
  ins      : Instr
  west     : Option (List (CWord × BitVec 32))
  push     : Option (Bool × List (CWord × BitVec 32))
  clips    : List (Nat × BitVec 32 × CWord)
  status   : Bool
  reserved : List (ArrId × Nat)
  waitFor  : Nat
  fault    : Option Nat
  deriving DecidableEq, Repr

/-- ETAG and ETEST as the edge unit holds them (R261, R275, R276): the words still to set, or the word to
test. -/
inductive EdgeKind where
  | etag (full : Bool) (word count : Nat)
  | etest (f : FlagNo) (word : Nat)
  deriving DecidableEq, Repr

structure EdgeOp where
  order  : Nat
  issued : Nat
  kind   : EdgeKind
  deriving DecidableEq, Repr

/-- What a capture does (R269): the descriptor as it stood at issue, its stream index, tag mode, east or south. -/
structure Capture where
  desc : BitVec 256
  j    : Nat
  put  : Bool
  east : Bool
  deriving DecidableEq, Repr

/-- The feed, push and capture of a paired bundle, handed from its E op to its C op in the ac in which the
two issue together (R142, R178). -/
structure Fed where
  west : Option (List (CWord × BitVec 32))
  push : Option (Bool × List (CWord × BitVec 32))
  capt : Option Capture
  deriving DecidableEq, Repr

/-- What a context is doing. -/
inductive CtxRun where
  /-- no task (R324) -/
  | free
  /-- a task issues here -/
  | active
  /-- stopped by the fault of this code (R334, R336) -/
  | stopped (code : Nat)
  /-- stopped at step 4 of NODE under a pre-emption request (R330) -/
  | parked
  /-- END executed (R228) -/
  | ended
  deriving DecidableEq, Repr

/-- A line of the array's log buffer (R65). -/
structure BufEntry where
  line  : Nat
  kind  : Kind
  acls  : BitVec 2
  mask  : BitVec 64
  data  : LineData
  last  : Nat
  deriving DecidableEq, Repr

/-- One context of an array. -/
structure Ctx where
  /-- what the context is doing -/
  run      : CtxRun := .free
  /-- team, task, ASID, queue, world of the task (R148, R233); chain length code (R234) -/
  team     : BitVec 16 := 0
  rank     : BitVec 14 := 0
  larr     : BitVec 5 := 0
  tsize    : BitVec 15 := 0
  asid     : BitVec 16 := 0
  queue    : Nat := 0
  sec      : Bool := false
  chain    : BitVec 2 := 0
  image    : Nat := 0
  /-- the ring that holds the task's log (R62) -/
  ring     : Nat := 0
  /-- bundle index of the bundle presented or next to present (R173) -/
  pc       : Nat := 0
  /-- g0 to g31 (R206) -/
  g        : Vector Word 32 := Vector.replicate 32 0
  /-- g registers whose scoreboarded value is in flight (R179) -/
  sb       : BitVec 32 := 0
  /-- g registers that await the divider (R206, R281) -/
  dv       : BitVec 32 := 0
  /-- g registers, flags, selector pairs and tile handles as captured at first presentation (R180) -/
  cap      : Vector Word 32 := Vector.replicate 32 0
  capPend  : BitVec 32 := 0
  capDv    : BitVec 32 := 0
  /-- g registers read at first presentation while a fixed-latency result was owed to them, and CHK as it
  stood then (R183) -/
  capHaz   : BitVec 32 := 0
  capChk   : Bool := false
  capFlags : BitVec 16 := 0
  capSp    : Vector Sel 8 := Vector.replicate 8 {}
  capTh    : Vector (BitVec 512) 16 := Vector.replicate 16 0
  /-- f0 to f15 (R220) -/
  flags    : BitVec 16 := 0
  /-- results written at the end of a later ac (R182, R206) -/
  delayed  : List Delayed := []
  /-- sp0 to sp7 (R139) -/
  sp       : Vector Sel 8 := Vector.replicate 8 {}
  /-- loop stack, return stack, MLOOP state, sr.q0-q7 (R212, R214, R217, R219) -/
  loops    : List LoopEntry := []
  rets     : List Nat := []
  mloop    : Option MLoop := none
  q        : Vector Word 8 := Vector.replicate 8 0
  /-- fd0-7, cd0-7, iv0-3, th0-15 (R257) -/
  fd       : Vector (BitVec 256) 8 := Vector.replicate 8 0
  cd       : Vector (BitVec 256) 8 := Vector.replicate 8 0
  iv       : Vector (BitVec 512) 4 := Vector.replicate 4 0
  th       : Vector (BitVec 512) 16 := Vector.replicate 16 0
  /-- the known-answer constant (R229) -/
  kat      : Word := 0
  /-- sr.status CHK and RM (R234), sr.fpflags (R171), sr.seed (R166), sr.ovac (R64) -/
  chk      : Bool := false
  rm       : Bool := false
  fpflags  : BitVec 7 := 0
  seed     : BitVec 32 := 0
  ovac     : BitVec 32 := 0
  /-- sr.bundles, sr.node (R233) -/
  bundles  : Word := 0
  node     : BitVec 16 := 0
  /-- message rings 0 to 3 (R306) -/
  rings    : Vector MsgRing 4 := Vector.replicate 4 {}
  /-- slots presented and not yet issued; slots found ready at this presentation (R179) -/
  residue  : List SlotOp := []
  todo     : List (Fin 4) := []
  /-- a branch of the bundle that takes effect when the residue is empty (R181): target, and the least
  distance in ac of the target's presentation (R213) -/
  branch   : Option (Nat × Nat) := none
  /-- stall count owed by the bundle (R182); earliest ac of the next presentation -/
  stall    : Nat := 0
  nextAc   : Nat := 0
  /-- the bundle yields, and gives the lease up, at its end (R223, R224) -/
  yields   : Bool := false
  drops    : Bool := false
  /-- faults met at this presentation: slot and code (R335) -/
  faults   : List (Nat × Nat) := []
  /-- DVA of the not-present fault that the M slot waits on (R337) -/
  pageWait : Option Nat := none
  /-- number of the bundle now presented, counting every presentation (model) -/
  order    : Nat := 0
  /-- number of the current run of a segment: CKPTs, nodes and rollbacks passed (model, R339) -/
  seg      : Nat := 0
  /-- number of the first run of the current segment: a rollback counts `seg` up and keeps this (model) -/
  segBase  : Nat := 0
  /-- feeds staged (R262); E ops issued and not yet performed (R261) -/
  staged   : List Staged := []
  fed      : Option Fed := none
  edgeQ    : List EdgeOp := []
  /-- image words read for FDSET, CDSET, IVLD and TDESC: slot x 2 + part (model, R274, R296) -/
  descBuf  : List (Nat × CWord) := []
  /-- load and store queues (R280); number of the next M access (model) -/
  loadQ    : List QEntry := []
  storeQ   : List QEntry := []
  mseq     : Nat := 0
  /-- log-buffer entries, oldest first (R65) -/
  buf      : List BufEntry := []
  /-- own-store index by line: newest record number plus two, 1 for an entry taken whose store has no record
  yet, 0 for no entry (R47) -/
  own      : Sparse Nat := []
  /-- last acquired position by log: logical array 0-31, slots 128-143 (R76) -/
  pos      : Sparse Nat := []
  /-- how far the context knows each log through the logs that it has acquired (R92) -/
  know     : Sparse Nat := []
  /-- acquire under way (R75) -/
  acquire  : Option Acquire := none
  /-- rewind barrier (R74): one past the newest forced release record, 0 for none -/
  barrier  : Nat := 0
  /-- watch entries and the noted spurious event (R293, R295): 0 none, 1 loss, 3 shoot-down -/
  watch    : Vector Watch 8 := Vector.replicate 8 {}
  spurious : Nat := 0
  /-- barrier arrivals pending: (scope, id, generation); arrivals since the last CKPT and to skip in a rerun (R309, R310) -/
  arrived  : List (Nat × Nat × Nat) := []
  arrivals : Nat := 0
  skip     : Nat := 0
  /-- count of stamped copies (R300) -/
  stamps   : Nat := 0
  /-- snapshot, rerun and signature bytes of the current run; bundles emptied since CKPT (R150, R340) -/
  snap     : Option Snapshot := none
  /-- the snapshot that the CKPT now releasing has taken (R226) -/
  taken    : Option Snapshot := none
  rerun    : Option Rerun := none
  sigBytes : List Byte := []
  sigCount : Nat := 0
  /-- a detected data error waiting for the bundle boundary: reason, segment (R339) -/
  dataErr  : Option (Nat × Nat) := none
  /-- number of the segment with which the current node began (model, R343) -/
  nodeSeg  : Nat := 0
  /-- a termination, relaunch or kill asked for at the next bundle boundary (R338, R343) -/
  ask      : Option Nat := none
  deriving DecidableEq, Repr

/-- Which cell register a delayed cell write goes to (R136, R243). -/
inductive CellReg where
  | m (r : Nat) | o (r : Nat) | comm (w : Nat) | last | latch (l p : Nat) | cp | cf | lfsr | shadow
  deriving DecidableEq, Repr

/-- A write of one cell at the end of an ac. -/
structure CellWrite where
  cell : Nat
  ctx  : CtxId
  reg  : CellReg
  data : CWord
  side : BitVec 32
  deriving DecidableEq, Repr

/-- A C op in flight (R135), with what it captured at issue (R140, R158, R177). -/
structure COp where
  id      : Nat
  ctx     : CtxId
  ins     : Instr
  sel     : Sel
  rm      : Bool
  kc      : Option (BitVec 24)
  issued  : Nat
  west    : Option (List (CWord × BitVec 32))
  push    : Option (Bool × List (CWord × BitVec 32))
  capt    : Option Capture
  kat     : Word
  katRow  : List CWord
  sample  : List (CWord × BitVec 32)
  cwOld   : List (CWord × BitVec 32)
  /-- the columns in which a word of `cwOld` stood with an error (R38, R252) -/
  cwBad   : List Nat
  slow    : List (Nat × List CellWrite × BitVec 7)
  seg     : Nat
  order   : Nat
  rows    : Nat
  done    : Nat
  left    : Nat
  deriving DecidableEq, Repr

/-- What the collector does in a context's capture order (R271 to R273). -/
inductive CollKind where
  | capture (c : Capture) (intAcc : Bool)
  | clear (row count : Nat)
  | drain (desc : BitVec 256) (put : Bool) (row count : Nat)
  deriving DecidableEq, Repr

/-- A place in the collector's order: the words captured so far, each with the ac of its capture and its position, whether
all are captured, and the writes already made (R40, R271). -/
structure CollItem where
  op    : Nat
  kind  : CollKind
  words : List (Nat × Nat × CWord)
  full  : Bool
  sent  : Nat
  seg   : Nat
  order : Nat
  deriving DecidableEq, Repr

/-- Who wants a bank (R40). -/
inductive AsWho where
  | mLoad (c : CtxId) (id : Nat)
  | mStore (c : CtxId) (id : Nat)
  | mTag (c : CtxId)
  | sendRead (c : CtxId)
  | descr (c : CtxId) (part : Nat)
  | edge (c : CtxId)
  | feed (c : CtxId) (pc pos : Nat) (push scale : Bool)
  | capture (c : CtxId)
  | copyRead (pool : Bool)
  | copyWrite (pool : Bool)
  | net
  deriving DecidableEq, Repr

/-- A request for an array-store word (R40, R41): class of R40's order, byte mask and data of a write,
times refused, waiting on the tag. -/
structure AsReq where
  id      : Nat
  owner   : ArrId
  cls     : Nat
  who     : AsWho
  word    : Nat
  mode    : TagMode
  write   : Bool
  mask    : BitVec 32
  data    : CWord
  refused : Nat
  waiting : Bool
  deriving DecidableEq, Repr

/-- View-cache line states (R46). -/
inductive VcState where
  | view | own | ownedClean | ownedDirty
  deriving DecidableEq, Repr

/-- A valid view-cache line (R45, R46). -/
structure VcLine where
  line   : Nat
  way    : Nat
  asid   : BitVec 16
  sec    : Bool
  owner  : CtxId
  st     : VcState
  data   : LineData
  poison : Bool
  deriving DecidableEq, Repr

/-- A cached translation (R123). -/
structure TcEntry where
  asid : BitVec 16
  sec  : Bool
  page : Nat
  big  : Bool
  leaf : BitVec 64
  /-- used since every entry of its place was last taken for used (R123) -/
  used : Bool
  deriving DecidableEq, Repr

/-- A chunk of a copy to another package (R372): runs of bytes, each with its address, of at most 4,096 bytes in all. `reduce`:
0 copied, 1 FP32, 2 BF16, 3 words of the array store of a rank, `rank` being team x 2^14 + rank and the addresses offsets. -/
structure Chunk where
  seq    : Nat
  rank   : Nat
  reduce : Nat
  sec    : Bool
  asid   : BitVec 16
  runs   : List (Nat × List Byte)
  deriving DecidableEq, Repr

/-- A copy of an engine's queue (R131, R297). `away`: its task is pre-empted (R330). -/
structure CopyJob where
  id      : Nat
  op      : Nat
  arr     : ArrId
  ctx     : CtxId
  job     : Nat
  gd      : Reg
  ga      : Word
  gb      : Word
  th      : BitVec 512
  opt     : Bool
  stampNo : Nat
  asid    : BitVec 16
  sec     : Bool
  rank    : BitVec 14
  seg     : Nat
  row     : Nat
  col     : Nat
  bytes   : Nat
  clip    : Bool
  status  : Nat
  srcBuf  : List (Nat × LineData)
  asBuf   : Option CWord
  asWait  : Nat
  pageWait : Option Nat
  stamped : Bool
  stopped : Bool
  done    : Bool
  token   : Bool
  stage   : Nat
  bulk    : Bool
  /-- chunks sent and not answered: package, number (R372); words for an array store here, under the job's own number, that
  have not been placed (R303) -/
  sent    : List (Nat × Nat)
  /-- the package to which a chunk is being filled, and what it holds (R372) -/
  part    : Option (Nat × Chunk)
  /-- the array-store word in `asBuf` was read with an error that is not corrected (R304) -/
  asBad   : Bool
  /-- the line of another owner that has just been read or written for this copy -/
  got     : Option Nat
  /-- the beat in flight has translated before a shoot-down that waits for it (R127) -/
  stale   : Bool
  /-- where the beat now written to an array store ends (R132) -/
  upto    : Nat
  /-- the page that a copy of a pre-empted task waits for is mapped: it goes on after resumption (R132) -/
  ready   : Bool
  team    : Nat
  away    : Bool
  deriving DecidableEq, Repr

/-- What arrives at a network interface (R302, R307), with the bytes that are written; from another package, that package, the team
and the sender's rank; a word of a copy of this package, its number; the last word of a chunk, its package and number (R372). -/
structure NetMsg where
  src    : ArrId
  srcCtx : CtxId
  remote : Option (Nat × Nat × Nat)
  ring   : Option (CtxId × Fin 4)
  word   : Nat
  data   : CWord
  mask   : BitVec 32
  posted : Bool
  copy   : Option Nat
  chunk  : Option (Nat × Nat)
  deriving DecidableEq, Repr

/-- A protected word of an array (R33): a view-cache line by its set and way, an AS word and its tag, an EA row, and the registers and
latch parts of a cell. -/
inductive ErrAt where
  | vc (set way : Nat) | as (w : Nat) | tag (w : Nat) | ea (row : Nat) | m (cell r : Nat) | o (cell r : Nat)
  | last (cell i : Nat) | comm (cell : Nat) (c : CtxId) (w : Nat) | latch (cell l part : Nat)
  deriving DecidableEq, Repr

/-- Stored bits that have flipped (R38, R43, R44, R351): the word, its protected chunk (64 bits under SECDED, 32 bits under
parity), and the bits of that chunk. The stored value has them flipped. -/
structure ArrErr where
  place : ErrAt
  chunk : Nat
  flips : BitVec 64
  deriving DecidableEq, Repr

/-- A side register of a cell: data and side field (R36). -/
structure Comm where
  data : CWord := 0
  side : BitVec 32 := 0x3F800000
  deriving DecidableEq, Repr

/-- One array. -/
structure Arr where
  /-- world, scrubbed since it last held a task (R31, R32) -/
  sec      : Bool := false
  scrubbed : Bool := true
  ctxs     : Vector Ctx 4 := Vector.replicate 4 {}
  /-- running context, fetch gated, last ac in which a presentation was made, bundles issued without blocking (R151) -/
  running  : CtxId := 0
  gated    : Bool := true
  lastAc   : Nat := 0
  nextAc   : Nat := 0
  streak   : Nat := 0
  /-- contexts that can issue, as the step last found them (model, R151) -/
  able     : BitVec 4 := 0
  /-- lease: holder, remaining quantum, requests, base quantum (R152, R153) -/
  holder   : Option CtxId := none
  remain   : Nat := 0
  reqs     : Vector Bool 4 := Vector.replicate 4 false
  /-- divider: ac through which it is busy, context, destination, result (R206) -/
  divBusy  : Option Nat := none
  divRes   : Option (CtxId × Reg × Word) := none
  /-- cell files (R33 to R37), key cell x entries + index, cell = row x 32 + column -/
  mrf      : Sparse CWord := []
  opf      : Sparse CWord := []
  lrf      : Sparse CWord := []
  comm     : Sparse Comm := []
  cp       : Sparse (BitVec 32) := []
  cf       : Sparse Bool := []
  latch    : Sparse CWord := []
  lfsr     : Sparse (BitVec 32) := []
  shadow   : Sparse (BitVec 32) := []
  /-- array store by word number, tags, words reserved by staged feeds (R39, R41, R263) -/
  asw      : Sparse CWord := []
  tags     : Sparse Bool := []
  reserved : List Nat := []
  /-- edge accumulator file, key row x 256 + element (R44) -/
  ea       : Sparse (BitVec 32) := []
  /-- C ops in flight and the next op number (R135) -/
  wave     : List COp := []
  opNo     : Nat := 0
  /-- cell writes of ops executed in this ac (R136) -/
  pend     : List CellWrite := []
  /-- collector order per context (R271) -/
  coll     : Vector (List CollItem) 4 := Vector.replicate 4 []
  /-- the collector buffer has filled and not yet drained below half (R40) -/
  collHold : Bool := false
  /-- bank requests, banks used in this ac, next request number (R40) -/
  asReqs   : List AsReq := []
  asUsed   : List Nat := []
  reqNo    : Nat := 0
  /-- view cache and its tree bits by set (R45, R46) -/
  vc       : List VcLine := []
  plru     : Sparse (BitVec 15) := []
  /-- translation cache (R123) -/
  tc       : List TcEntry := []
  /-- array copy engine: near and pool queues (R131) -/
  near     : List CopyJob := []
  poolq    : List CopyJob := []
  /-- arriving messages and words (R302, R307) -/
  net      : List NetMsg := []
  /-- chain: position in a chain and the leader's context that drives it (R145) -/
  chainPos : Nat := 0
  leader   : Option (ArrId × CtxId) := none
  /-- last passing known-answer check: stamp and ac (R256, R341); packages that sampled it (R344) -/
  passStamp : Nat := 0
  passAc   : Nat := 0
  sampler  : BitVec 512 := 0
  /-- the stamp of the newest release by a context of the array (R342), and the teams that have acquired logs of its contexts,
  each with the highest stamp that it has acquired (R344) -/
  relStamp : Nat := 0
  takers   : Sparse Nat := []
  /-- errors that stand in the array (R38, R43, R44, R351) -/
  errs     : List ArrErr := []
  deriving DecidableEq, Repr

/-- Cache state of a line at one level (R49). -/
inductive Lv where
  | invalid | clean | dirty
  deriving DecidableEq, Repr

/-- What the levels hold of a line besides its value (R49, R51, R345, R351). An injected or found error
is kept as a mark of flipped bits: 0 none, 1 or 2 a single bit, 3 both. Owner tag and parity flag stand once for L2 and once
for Tarn. -/
structure LineMeta where
  l2      : Lv := .invalid
  l2way   : Nat := 0
  tarn    : Lv := .invalid
  tway    : Nat := 0
  sec     : Bool := false
  poison  : Bool := false
  owner   : BitVec 16 := 0
  parity  : Bool := false
  towner  : BitVec 16 := 0
  tparity : Bool := false
  errL2   : Nat := 0
  errTarn : Nat := 0
  errHbm  : Nat := 0
  epoch   : Nat := 0
  deriving DecidableEq, Repr

/-- A store log (R62, R63, R66, R78, R79). -/
structure Ring where
  id      : Nat
  slot    : Nat
  die     : Nat
  n       : Nat
  recs    : Sparse (Option Record)
  stamps  : Sparse Nat
  tail    : Nat
  pub     : Nat
  fold    : Nat
  first   : Nat
  segFirst : Nat
  asid    : BitVec 16
  sec     : Bool
  team    : Nat
  rank    : Nat
  release : Option Release
  frees   : Bool
  /-- what the writer knew of other logs at its newest release (R92) -/
  seen    : Sparse Nat
  /-- the ac in which the fold pointer last moved, and where it stood before (R73) -/
  foldAc  : Nat
  foldWas : Nat
  /-- the ring that the task has taken since (R81) -/
  next    : Option Nat
  /-- in a log of a copy engine or a host function: ASID and world for which the record in a slot was appended (R49, R79) -/
  owners  : Sparse (BitVec 16 × Bool) := []
  /-- the 64 KiB pages of the task's protected records that the log no longer retains (R110) -/
  guards  : List Nat := []
  deriving DecidableEq, Repr

/-- A segment announced on the Gander net (R67, R69). -/
structure Ann where
  ring  : Nat
  slot  : Nat
  first : Nat
  rel   : Nat
  touch : BitVec 128
  deriving DecidableEq, Repr

/-- A stamped segment that slices still fold (R71, R72). `next` gives, by slice, the number of the next
record to look at there; `waiting` the records passed over, by slice and number, whose line was held. -/
structure Seg where
  ring     : Nat
  slot     : Nat
  first    : Nat
  rel      : Nat
  touch    : BitVec 128
  stamp    : Nat
  known    : Nat
  reported : BitVec 128
  next     : Sparse Nat
  waiting  : List (Nat × Nat)
  deriving DecidableEq, Repr

/-- A fold that waits at a slice (R71, R108): a protected fold waits for parity holders, a peer fold for
the owner. `home`: the line is written here when the fold completes. ASID and world are those of the record's log (R31, R49). -/
structure PFold where
  tag      : Nat
  slice    : Nat
  ring     : Nat
  seq      : Nat
  stamp    : Nat
  line     : Nat
  peer     : Bool
  src      : Option (Nat × Nat)
  rcd      : Record
  pgid     : Nat
  holders  : List Nat
  rot      : Nat
  fseq     : Nat
  home     : Bool
  asid     : BitVec 16
  sec      : Bool
  /-- of a peer fold, the package that owes the answer (R71, R114) -/
  dest     : Nat
  /-- the old value of the line is still to be reconstructed (R113, R114) -/
  waits    : Bool
  deriving DecidableEq, Repr

/-- A record of another package that waits here, in order of arrival (R103); it came after the command to leave its group, or
not (R105). -/
structure PeerRecord where
  src  : Nat
  tag  : Nat
  rcd  : Record
  sec  : Bool
  asid : BitVec 16
  late : Bool
  deriving DecidableEq, Repr

/-- Forwarding of records that name an old line of a moved page, until the ASID's logs are past a stamp
(R129, step 5). -/
structure Forward where
  oldPa : Nat
  newPa : Nat
  size  : Nat
  asid  : BitVec 16
  stamp : Nat
  /-- the function whose MIGRATE it ends -/
  fn    : FnId
  deriving DecidableEq, Repr

/-- A parity series at a holder (R108, R112). -/
structure Series where
  pgid   : Nat
  src    : Nat
  slice  : Nat
  rot    : Nat
  next   : Nat
  held   : List (Nat × Nat × LineData)
  recent : List (Nat × Nat × LineData)
  /-- the number that it began with, and those below it that came later (assumption 145) -/
  first  : Nat := 0
  early  : List Nat := []
  deriving DecidableEq, Repr

/-- A registered protection group (R105, R111, R116). `leaving`: the function that asked to leave and the highest stamp at
that command; `rebuild`: member, target, region base, stripe to rebuild next. -/
structure Group where
  pgid    : Nat
  n       : Nat
  q       : Nat
  k       : Nat
  members : List Nat
  index   : Nat
  epoch   : Nat
  lost    : List Nat
  heard   : List (Nat × Nat)
  leaving : Option (FnId × Nat)
  rebuild : Option (Nat × Nat × Nat × Nat)
  /-- the lines of the stripe under rebuild that the target has written (R116) -/
  lines   : Nat := 0
  /-- exchanges of R112 still to end: lost member, holder that has not said so -/
  awaits  : List (Nat × Nat)
  /-- stripes that lost a unit and then the parity line of this package (R346, assumption 153) -/
  gone    : List Nat := []
  deriving DecidableEq, Repr

/-- Peer-window addresses of a lost package reach another one (R116): the member it was, and the region in which the target
rebuilds its units. -/
structure Redirect where
  pkg    : Nat
  target : Nat
  pgid   : Nat
  member : Nat
  base   : Nat
  deriving DecidableEq, Repr

/-- What a reconstruction is for (R113): a read of a lost member's line, the old value of a fold of one (R114), a line here with
an uncorrectable error at level 1 L2, 2 Tarn or 3 HBM (R118), a line of a member that is rebuilt here (R116), a line of a channel
under retirement (R120). -/
inductive MendUse where
  | read
  | fold (tag : Nat)
  | own (level : Nat)
  | unit
  | moved
  deriving DecidableEq, Repr

/-- A reconstruction under way (R113): the line as it is named here, its member and its byte offset in the window. `step`: 0 not
begun, 1 the parity lines are being locked, 2 the data lines read, 3 the parity lines read. `locked`: the members whose parity lines
it reads; `owed`: those that it waits for; `got`: the lines read; `bad`: the members whose lines cannot be read. -/
structure Mend where
  id     : Nat
  line   : Nat
  use    : MendUse
  pgid   : Nat
  member : Nat
  off    : Nat
  step   : Nat
  locked : List Nat
  owed   : List Nat
  got    : List (Nat × LineData)
  bad    : List Nat
  deriving DecidableEq, Repr

structure FmtWindow where
  base  : BitVec 36 := 0
  limit : BitVec 36 := 0
  sbase : BitVec 46 := 0
  fmt   : BitVec 3 := 0
  blk   : BitVec 2 := 0
  err   : Bool := false
  ena   : Bool := false
  closing : Option FnId := none
  deriving DecidableEq, Repr

structure ProtWindow where
  base  : BitVec 36 := 0
  limit : BitVec 36 := 0
  idx   : BitVec 4 := 0
  q     : Bool := false
  n     : BitVec 5 := 0
  pgid  : BitVec 16 := 0
  degr  : Bool := false
  err   : Bool := false
  ena   : Bool := false
  deriving DecidableEq, Repr

structure SrtEntry where
  base  : BitVec 36 := 0
  limit : BitVec 36 := 0
  lock  : Bool := false
  valid : Bool := false
  deriving DecidableEq, Repr

structure PoolExtent where
  base  : BitVec 36 := 0
  limit : BitVec 36 := 0
  st    : BitVec 2 := 0
  fn    : Option FnId := none
  deriving DecidableEq, Repr

/-- EINJCTL and EINJADDR (R350). -/
structure Einj where
  target : BitVec 4 := 0
  sev    : BitVec 2 := 0
  trig   : Bool := false
  arm    : Bool := false
  done   : Bool := false
  err    : Bool := false
  parr   : BitVec 5 := 0
  index  : BitVec 6 := 0
  addr   : BitVec 52 := 0
  deriving DecidableEq, Repr

/-- The signed configuration record (R1, R119, R367). -/
structure ConfigRecord where
  disabled : BitVec 32 := 0
  retired  : Option Nat := none
  visible  : Nat := 2857
  injEna   : Bool := false
  fnOn     : BitVec 8 := 0xFF
  fnSec    : BitVec 8 := 0
  ceLimit  : Nat := 4096
  ceRuns   : Nat := 3
  ueLimit  : Nat := 8
  retireEna : Bool := true
  /-- trims and the identity key reference, which no rule here reads -/
  trims    : List Byte := []
  keyRef   : BitVec 64 := 0
  deriving DecidableEq, Repr

/-- A plan buffer (R203). -/
structure PlanBuf where
  off   : Nat
  size  : Nat
  banks : BitVec 64
  first : Nat
  last  : Nat
  deriving DecidableEq, Repr

/-- The plan of an image (R203). -/
structure Plan where
  mFirst : Nat := 0
  mCount : Nat := 48
  oFirst : Nat := 0
  oCount : Nat := 8
  latches : BitVec 4 := 0xF
  eaFirst : Nat := 0
  eaCount : Nat := 128
  stoch  : Bool := false
  teamMin : Nat := 1
  teamMax : Nat := 32
  chain  : Nat := 1
  bufs   : List PlanBuf := []
  deriving DecidableEq, Repr

/-- A loaded and sealed image (R195, R202 to R205). `codePa` is the physical byte address of bundle 0, and
`codeAt` the device virtual address at which its fetches ask the tables, if it has one (assumption 54). -/
structure Image where
  id      : Nat
  pa      : Nat
  len     : Nat
  sec     : Bool
  entry   : Nat
  codePa  : Nat
  count   : Nat
  consts  : List Word
  plan    : Plan
  preload : List (Nat × List Byte)
  nodes   : List (Nat × Nat)
  tag     : BitVec 512
  measure : BitVec 512
  codeAt  : Option Nat := none
  deriving DecidableEq, Repr

/-- A command queue (R312). -/
structure Queue where
  base  : BitVec 44 := 0
  prio  : BitVec 4 := 0
  log2e : BitVec 4 := 0
  sec   : Bool := false
  mgmt  : Bool := false
  func  : FnId := 0
  asid  : BitVec 16 := 0
  vmin  : Nat := 0
  vmaj  : Nat := 0
  tail  : BitVec 16 := 0
  head  : BitVec 16 := 0
  done  : Nat := 0
  prog  : BitVec 32 := 0
  /-- forced publications of the queue's tasks (R74) -/
  forced : Nat := 0
  t1    : Nat := 100
  t2    : Nat := 400
  st    : Nat := 0
  err   : Nat := 0
  /-- ac at which PROG last moved or the watchdog started to run (R332) -/
  progAc : Nat := 0
  /-- the function that waits for its reset, or for its end (R313) -/
  resetting : Option FnId := none
  ending : Option FnId := none
  /-- records of the function's host log that the scheduler acquires before it reads cards (R314) -/
  need   : Nat := 0
  deriving DecidableEq, Repr

/-- A footprint region (R317). -/
structure Region where
  lo    : Nat
  hi    : Nat
  write : Bool
  deriving DecidableEq, Repr

inductive JobState where
  | waiting | ready | placed | folding | done | failed
  deriving DecidableEq, Repr

/-- An admitted card (R315 to R322). -/
structure Job where
  id      : Nat
  seq     : Nat
  /-- the card's index in its queue (R321) -/
  idx     : Nat
  queue   : QueueId
  asid    : BitVec 16
  cmd     : Nat
  irq     : Bool
  global  : Bool
  body    : List Byte
  regions : List Region
  st      : JobState
  failed  : Bool
  readyAc : Nat
  steps   : Nat
  promoted : Bool
  team    : Nat
  rings   : List Nat
  deriving DecidableEq, Repr

/-- A task of a team on this package (R148, R323). -/
structure Task where
  rank   : Nat
  larr   : Nat
  arr    : ArrId
  ctx    : CtxId
  placed : Bool
  ended  : Bool
  ring   : Nat
  node   : Bool
  /-- published tail and stamp of the task's log, once its ring is freed (R70, R81) -/
  past   : Option (Nat × Nat) := none
  deriving DecidableEq, Repr

/-- One entry of the package map (R19). -/
structure MapEntry where
  arr   : ArrId
  valid : Bool
  /-- the ac in which the entry last became valid -/
  since : Nat
  inTeam : Bool
  deriving DecidableEq, Repr

/-- A team (R148, R319, R329 to R333). -/
structure Team where
  id     : Nat
  job    : Nat
  queue  : QueueId
  asid   : BitVec 16
  sec    : Bool
  image  : Nat
  param  : Word
  sync   : Nat
  ringsW : List Nat
  ntasks : Nat
  chain  : Nat
  ringsz : Nat
  quantum : Nat
  tsize  : Nat
  first  : Nat
  tasks  : List Task
  map    : List MapEntry
  placed : Bool
  placedAc : Nat
  request : Option (Option Nat)
  wdAc   : Option Nat
  everPlaced : Bool
  dead   : Bool
  relaunch : Bool
  tokens : List (Nat × Reg × Word)
  deriving DecidableEq, Repr

/-- A barrier of a team (R309), with a number of the model's own; scope 7 stands for the team barrier of NODE (R149). -/
structure Barrier where
  no    : Nat
  team  : Nat
  scope : Nat
  unit_ : Nat
  id    : Nat
  gen   : Nat
  here  : List Nat
  deriving DecidableEq, Repr

/-- A bulk copy engine (R79, R131, R322). -/
structure Bce where
  near : List CopyJob := []
  pool : List CopyJob := []
  deriving DecidableEq, Repr

/-- An error record (R348). -/
structure ErrRec where
  seq     : Nat
  reason  : Nat
  src     : Nat
  sev     : Nat
  unit_   : Nat
  cycle   : Nat
  addr    : Nat
  lo      : Nat
  hi      : Nat
  queue   : Nat
  team    : Nat
  rank    : Nat
  asid    : Nat
  detail  : Nat
  node    : Nat
  fault   : Nat
  flags   : BitVec 8
  /-- the lines that a record lists (R134); its 64 bytes have no field for them (assumption 142) -/
  list    : List Nat
  deriving DecidableEq, Repr

/-- A PCIe function (R360 to R363). -/
structure Func where
  wbase   : BitVec 39 := 0
  hasid   : BitVec 16 := 0
  hena    : Bool := false
  eqbase  : BitVec 40 := 0
  eqlog2  : BitVec 4 := 0
  eqhead  : BitVec 16 := 0
  eqtail  : BitVec 16 := 0
  lost    : Bool := false
  errs    : List ErrRec := []
  req     : Sparse Byte := []
  resp    : Sparse Byte := []
  busy    : Bool := false
  mbdone  : Bool := false
  msix    : Sparse Byte := []
  /-- the host log has been released for the posted sync write that is next (R78) -/
  synced  : Bool := false
  deriving DecidableEq, Repr

/-- A Delotte port (R364 to R366). -/
structure Port where
  up       : Bool := false
  minor    : Nat := 0
  window   : Nat := 512
  txSeq    : BitVec 16 := 0
  replay   : List Flit := []
  replaying : Option Nat := none
  lastAck  : Nat := 0
  rxE      : BitVec 16 := 0
  nakHold  : Option Nat := none
  spare    : Bool := false
  repairing : Bool := false
  replays  : List Nat := []
  /-- E as the port last sent it -/
  acked    : BitVec 16 := 0
  /-- symbol errors: lane, ac, how many (R366) -/
  errs     : List (Nat × Nat × Nat) := []
  quiesced : Bool := false
  peerQuiet : Bool := false
  deriving DecidableEq, Repr

/-- Chunk sequences toward a peer package (R372). -/
structure Chunks where
  peer    : Nat
  nextOut : Nat
  ackOut  : Nat
  applied : Nat
  unacked : List Chunk
  deriving DecidableEq, Repr

/-- A shoot-down under way (R127): broadcast, begun; it belongs to a migration; the accesses it waits for: of queues, by the
tags of questions to other owners, by the numbers of chunks to a package. -/
structure Shoot where
  fn     : FnId
  asid   : Nat
  dva    : Nat
  pages  : Nat
  all    : Bool
  sent   : Bool
  begun  : Bool
  hold   : Bool
  mailbox : Bool
  waits  : List (ArrId × CtxId × Nat)
  tags   : List Nat
  chunks : List (Nat × Nat)
  deriving DecidableEq, Repr

/-- What is asked of the owner of a line that is not this package's own (R15, R83, R97, R293): a line's data, also with the line
exclusive, a write of some bytes, an atomic, a watch. -/
inductive AskOp where
  | read | own
  | write (mask : BitVec 64) (data : LineData)
  | atomic (code : BitVec 6) (size : Nat) (data cmp : Word)
  | watch (size : Nat)
  deriving DecidableEq, Repr

/-- For whom an owner is asked: an access of a queue, an atomic on a pool line whose device completes it (R89), a copy, the
release of a log, a host function, a SIGNAL card's job, an acquire that samples a remote log (R76), a prefetch (R285), a
reconstruction that reads a member's line (R113), a migration (R130), or hardware that does not wait. -/
inductive Asker where
  | entry (a : ArrId) (c : CtxId) (id : Nat)
  | posted (a : ArrId) (c : CtxId)
  | copy (engine : Nat) (pool : Bool) (id : Nat)
  | log (ring : Nat)
  | host (fn : FnId)
  | job (id : Nat)
  | acquire (a : ArrId) (c : CtxId) (key : Nat)
  | fill (asid : BitVec 16)
  | mend (id member : Nat)
  | move (asid : BitVec 16) (dva : Nat)
  | nobody
  deriving DecidableEq, Repr

/-- A page under fold hold or in the write-protect window (R129, R130): the step reached, the next line to copy, the records
held with their stamps, numbers and rings, the address of the leaf. `engine`: a bulk copy engine has the move (R128). -/
structure Hold where
  oldPa   : Nat
  newPa   : Nat
  size    : Nat
  asid    : BitVec 16
  dva     : Nat
  fold    : Bool
  newKind : Nat
  step    : Nat
  line    : Nat
  fn      : FnId
  held    : List (Nat × Nat × Record)
  leafPa  : Nat
  engine  : Bool
  /-- the host is asked for the line that is copied next, 1, or has given it, 2 (R130) -/
  got     : Nat := 0
  /-- writes of hardware that the write-protected page keeps back until it has moved (R130): address, value, bytes, ASID, world, for
  whom -/
  late    : List (Nat × Nat × Nat × BitVec 16 × Bool × Asker) := []
  deriving DecidableEq, Repr

/-- A question to another owner that is not yet answered. -/
structure Ask where
  tag : Nat
  who : Asker
  pa  : Nat
  op  : AskOp
  deriving DecidableEq, Repr

/-- Who asks for a translation (R123). -/
inductive Seeker where
  | ctx (a : ArrId) (c : CtxId)
  | copy (engine : Nat) (pool : Bool)
  | host (fn : FnId)
  deriving DecidableEq, Repr

/-- A walk of a page-table walker (R123 to R125): what it looks for, the level it reads next (0 the root) and the table there,
a shoot-down that has passed it, and the fault that it has ended with. -/
structure TableWalk where
  who    : Seeker
  walker : Fin 8
  die    : Fin 4
  asid   : BitVec 16
  sec    : Bool
  dva    : Nat
  level  : Nat
  base   : Nat
  stale  : Bool
  fault  : Option Nat
  deriving DecidableEq, Repr

/-- A packet on a die crossbar (R56, R57), and where it goes on after it: die, ingress, egress. `bytes`: its payload. -/
structure Packet where
  id      : Nat
  die     : Nat
  ingress : Nat
  egress  : Nat
  prio    : Nat
  age     : Nat
  resp    : Bool
  bytes   : Nat
  onward  : List (Nat × Nat × Nat)
  deriving DecidableEq, Repr

/-- A die crossbar: queued packets, least-recently-granted order by egress, egresses
accepted in the previous ac by ingress, buffer entries in use by egress and class (R55 to R59). -/
structure Xbar where
  queue   : List Packet := []
  order   : Sparse (List Nat) := []
  lastAcc : Sparse Nat := []
  used    : Sparse Nat := []
  deriving DecidableEq, Repr

/-- Progress of SUSPEND and RESUME (R371, R373). -/
structure Suspend where
  queue  : QueueId
  seq    : Nat
  report : Nat
  pod    : Bool
  step   : Nat
  stopped : Nat
  killed : Nat
  resuming : Bool
  job     : Nat
  deriving DecidableEq, Repr

/-- The retain image (R371, R372): `rings` holds the pointers of every log and the unpublished records of the fixed ones,
`acquired` what each log had last acquired of the others. -/
structure Retain where
  winNo   : Nat
  cycle   : Word
  errSeq  : Nat
  rings   : List Ring
  queues  : Vector Queue 64
  retPages : List Nat
  quarL2  : List (Nat × Nat × Nat)
  quarTarn : List (Nat × Nat × Nat)
  images  : List (Nat × BitVec 512)
  ports   : Vector Port 16
  chunks  : List Chunks
  acquired : List (Nat × Sparse Nat)
  deriving DecidableEq, Repr

/-- Progress of a channel retirement (R120). -/
structure ChanRetire where
  channel : Nat
  slot    : Nat
  poisoned : List Nat
  deriving DecidableEq, Repr

/-- A watch in a slice's table, in order of arming (R295). -/
structure WatchRef where
  slice : Nat
  arr   : ArrId
  ctx   : CtxId
  entry : BitVec 3
  deriving DecidableEq, Repr

/-- What the package sends out (model): MSI-X, host read completions, Delotte traffic, notices. -/
inductive Output where
  | msix (fn : FnId) (vector : Nat)
  | readReply (fn : FnId) (ok : Bool) (data : List Byte)
  | flit (p : PortId) (f : Flit)
  | quiesce (p : PortId)
  | advertise (p : PortId) (window : Nat)
  | record (pkg tag : Nat) (r : Record) (sec : Bool) (asid : BitVec 16)
  | recordAck (pkg tag : Nat) (outOfRange : Bool)
  | delta (pkg pgid src slice rot seq offset : Nat) (d : LineData) (exchange : Bool)
  | deltaAck (pkg pgid slice rot seq : Nat)
  | heartbeat (pkg pgid : Nat)
  | lossNotice (pkg pgid member : Nat)
  | terminate (team : Nat)
  | relaunch (team : Nat)
  | suspect (pkg arr lo hi : Nat)
  | ask (tag pa : Nat) (op : AskOp) (sec : Bool) (asid : BitVec 16)
  | settled (pkg pgid member : Nat)
  | peerReply (pkg code : Nat) (data : LineData)
  | peerMessage (team sender rank ring : Nat) (data : CWord)
  | chunk (pkg : Nat) (c : Chunk)
  | chunkAck (pkg seq code : Nat)
  | lock (pkg pgid member offset : Nat) (on : Bool)
  | locked (pkg pgid member offset : Nat)
  | parityRead (pkg pgid member offset : Nat)
  | parityLine (pkg pgid member offset : Nat) (bad : Bool) (d : LineData)
  | arrived (team scope id gen rank : Nat)
  | placed (pkg team rank : Nat) (ok : Bool)
  | badEntry (pkg team rank : Nat)
  | changed (pkg addr : Nat)
  | report (buf : Nat) (data : List Byte)
  deriving DecidableEq, Repr

/-- What the outside world does (R359 to R366, model): a BAR0 access, a step whose cause is outside, a write of another owner's
memory, which is a peer's, the host's or the pool's (R15), and what other packages send: a message for a rank and the notice
that one was placed, or refused by a ring that is not configured (R307), the notice that a publication entry of this package's
log is poisoned (R75), an arrival at a barrier (R309), the lock of a parity line of a member that stands here, the grant of one asked for, the reading of
a parity line and its answer (R113), a change of a word watched there
(R293), the end of an exchange of deltas (R112); the answer of another owner, with 0 or the code of a refusal (R83, R15); symbol errors that a lane of a port shows (R366); and stored bits that flip in an array or, one or two of them, in a line at a level: 0 L2, 1 Tarn, 2 HBM, or in a record that a log retains (R33, R346). -/
inductive Input where
  | bar0Write (fn : FnId) (off : Nat) (value : Word)
  | bar0Read (fn : FnId) (off : Nat)
  | event (i : Instr)
  | outside (pa : Nat) (data : List Byte)
  | message (pkg team sender rank ring : Nat) (data : CWord)
  | placed (team rank : Nat) (ok : Bool)
  | badEntry (team rank : Nat)
  | arrived (team scope id gen rank : Nat)
  | lock (pkg pgid member offset : Nat) (on : Bool)
  | locked (pkg pgid member offset : Nat)
  | parityRead (pkg pgid member offset : Nat)
  | parityLine (pkg pgid member offset : Nat) (bad : Bool) (d : LineData)
  | changed (pa : Nat)
  | settled (pgid holder member : Nat)
  | answer (tag code : Nat) (data : LineData)
  | symbolErrors (p : PortId) (lane n : Nat)
  | upset (a : ArrId) (e : ArrErr)
  | upsetLine (level line n : Nat)
  | upsetRecord (ring n : Nat)
  deriving DecidableEq, Repr

/-- An event at a known time: twice the ac, plus 1 for an event at the end of that ac (model). -/
structure Timed where
  at_ : Nat
  ev  : Instr
  deriving DecidableEq, Repr

/-- The slot op being executed: array, context, slot (model). -/
structure Act where
  arr  : ArrId := 0
  ctx  : CtxId := 0
  slot : Fin 4 := 0
  deriving DecidableEq, Repr

/-- A bulk-copy-engine or host log at reset (R78, R79). It has no context: each of its records is for the ASID and in the world of
its COPY job or of its function (assumption 74). -/
def Ring.fixed (slot : Nat) : Ring :=
  { id := slot, slot := slot, die := if slot < 136 then (slot - 128) / 2 else 0, n := 16384, recs := [],
    stamps := [], tail := 0, pub := 0, fold := 0, first := 0, segFirst := 0, asid := 0, sec := false,
    team := 0, rank := 0, release := none, frees := false, seen := [], foldAc := 0, foldWas := 0, next := none, owners := [], guards := [] }

structure State where
  /-- sr.cycle (R233) -/
  cycle    : Word
  /-- counter of free choices (model) -/
  draws    : Nat
  /-- the slot op being executed (model) -/
  act      : Act
  /-- how far the ac has come: 0 the sequencers may issue, 1 the banks and the other agents act, 2 its end (model) -/
  part     : Nat
  /-- timed events, events that follow at once, outside actions, what has been sent out (model) -/
  agenda   : List Timed
  urgent   : List Instr
  inputs   : List Input
  outbox   : List Output
  /-- physical memory (R15) and what the levels hold of each line (R49) -/
  mem      : Memory
  lines    : Sparse LineMeta
  quarL2   : List (Nat × Nat × Nat)
  quarTarn : List (Nat × Nat × Nat)
  retPages : List Nat
  /-- ring slot size of each die in units of 1.5 MiB (R50, R325) -/
  ringSlot : Vector Nat 4
  xbars    : Vector Xbar 4
  packetNo : Nat
  /-- package registers (R24, R27, R29, R121, R133, R350, R367) -/
  fw       : Vector FmtWindow 16
  pw       : Vector ProtWindow 16
  srt      : Vector SrtEntry 64
  atbrBase : BitVec 36
  atbrEna  : Bool
  pxt      : Vector PoolExtent 64
  einj     : Einj
  bootStatus : Word
  cfg      : ConfigRecord
  pkgNo    : Nat
  boots    : Nat
  /-- images and the sealed-page table (R195, R205) -/
  images   : List Image
  sealed   : List (Nat × Bool × Nat)
  /-- logs, stamps and folds (R62 to R72, R108) -/
  rings    : List Ring
  ringNo   : Nat
  winNo    : Nat
  winEnd   : Nat
  /-- the highest stamp assigned (R341) -/
  topStamp : Nat
  anns     : List Ann
  carriedAnns : List Ann
  segs     : List Seg
  folds    : List PFold
  peerRecs : List PeerRecord
  foldTag  : Nat
  foldSeq  : Sparse Nat
  epoch    : Nat
  holds    : List Hold
  forwards : List Forward
  /-- die translation caches and the walks of the eight walkers (R123) -/
  dieTc    : Vector (List TcEntry) 4
  walks    : List TableWalk
  /-- questions to other owners, next tag (R83) -/
  asks     : List Ask
  askNo    : Nat
  /-- survivable memory (R105, R108, R113, R119, R120) -/
  groups   : List Group
  /-- packages whose peer-window addresses reach another package (R116) -/
  redirects : List Redirect
  series   : List Series
  /-- locks of parity lines here: the line, and the package whose reconstruction has locked it (R113) -/
  locked   : List (Nat × Nat)
  /-- reconstructions under way (R113), and the number of the next -/
  mends    : List Mend
  mendNo   : Nat
  /-- first and last page of the windows that this package has given up by isolation (R111) -/
  isolated : List (Nat × Nat)
  ceRun    : Sparse Nat
  ueLog    : List (Nat × Nat)
  retChan  : Option ChanRetire
  retired  : Option Nat
  unguarded : List (Nat × Nat × Nat)
  /-- arrays (R10) -/
  arrays   : Vector Arr 32
  retArrays : BitVec 32
  /-- corrected errors of array storage counted by the base controller (R43) -/
  ceCount  : Nat
  watchTab : List WatchRef
  /-- words that other packages watch here: package, address, size, value read (R293) -/
  peerWatch : List (Nat × Nat × Nat × Word)
  /-- scheduler (R311 to R333) -/
  queues   : Vector Queue 64
  nextSeq  : Sparse Nat
  jobs     : List Job
  jobNo    : Nat
  teams    : List Team
  teamNo   : Nat
  barriers : List Barrier
  bces     : Vector Bce 8
  copyNo   : Nat
  /-- error records and functions (R348, R360 to R363) -/
  errSeq   : Nat
  funcs    : Vector Func 8
  ready    : Bool
  pstate   : Nat
  /-- last ac in which some array was not free (R370) -/
  busyAc   : Nat
  shoots   : List Shoot
  /-- Delotte ports and chunks (R364, R372) -/
  ports    : Vector Port 16
  chunks   : List Chunks
  /-- items of `outbox` that the links have taken up (model, R364) -/
  carried  : Nat
  susp     : Option Suspend
  retain   : Option Retain
  deriving DecidableEq, Repr

/-- The machine after reset and bring-up (R374; assumption 14): every cache invalid, every tag empty,
every flag zero, W, sr.cycle and PROG 0, the error SEQ 1, READY set. The first window closes at ac 64
(R68). -/
def State.reset : State :=
  { cycle := 0, draws := 0, act := {}, part := 0, agenda := [⟨128, .packageWindowClose⟩], urgent := [], inputs := [],
    outbox := [], mem := [], lines := [], quarL2 := [], quarTarn := [], retPages := [],
    ringSlot := Vector.replicate 4 2, xbars := Vector.replicate 4 {}, packetNo := 0,
    fw := Vector.replicate 16 {}, pw := Vector.replicate 16 {}, srt := Vector.replicate 64 {},
    atbrBase := 0, atbrEna := false, pxt := Vector.replicate 64 {}, einj := {}, bootStatus := 0, cfg := {},
    pkgNo := 0, boots := 1, images := [], sealed := [],
    rings := (List.range 16).map fun i => Ring.fixed (128 + i),
    ringNo := 144, winNo := 0, winEnd := 64, topStamp := 0, anns := [], carriedAnns := [], segs := [], folds := [],
    peerRecs := [], foldTag := 0, foldSeq := [], epoch := 0, holds := [], forwards := [],
    dieTc := Vector.replicate 4 [], walks := [], asks := [], askNo := 0, groups := [], redirects := [], series := [], locked := [], mends := [], mendNo := 0, isolated := [], ceRun := [], ueLog := [],
    retChan := none, retired := none, unguarded := [],
    arrays := Vector.replicate 32 {}, retArrays := 0, ceCount := 0, watchTab := [], peerWatch := [],
    queues := Vector.replicate 64 {}, nextSeq := [], jobs := [], jobNo := 0, teams := [], teamNo := 1,
    barriers := [], bces := Vector.replicate 8 {}, copyNo := 0, errSeq := 1,
    funcs := Vector.replicate 8 {}, ready := true, pstate := 0, busyAc := 0, shoots := [],
    ports := Vector.replicate 16 {}, chunks := [], carried := 0, susp := none, retain := none }

end Sys2Proof.Machine
end

