-- ==== Sys2Proof/Machine/Base.lean ====
section
/-! DEFINITION. Access to the parts of State, timed events, error records and lookups that every unit uses. -/

namespace Sys2Proof.Machine

abbrev Out := Host.Outcome State Fault Refusal

/-- sr.cycle as a number (R233). -/
def State.now (s : State) : Nat := s.cycle.toNat

def State.arr (s : State) (a : ArrId) : Arr := s.arrays[a]

def State.modArr (s : State) (a : ArrId) (f : Arr → Arr) : State :=
  { s with arrays := s.arrays.set a.val (f s.arrays[a]) a.isLt }

def Arr.ctx (x : Arr) (c : CtxId) : Ctx := x.ctxs[c]

def Arr.modCtx (x : Arr) (c : CtxId) (f : Ctx → Ctx) : Arr :=
  { x with ctxs := x.ctxs.set c.val (f x.ctxs[c]) c.isLt }

def State.ctxOf (s : State) (a : ArrId) (c : CtxId) : Ctx := (s.arr a).ctx c

def State.modCtx (s : State) (a : ArrId) (c : CtxId) (f : Ctx → Ctx) : State := s.modArr a (·.modCtx c f)

/-- The context whose slot op is being executed. -/
def State.me (s : State) : Ctx := s.ctxOf s.act.arr s.act.ctx

def State.modMe (s : State) (f : Ctx → Ctx) : State := s.modCtx s.act.arr s.act.ctx f

def State.modQueue (s : State) (q : Nat) (f : Queue → Queue) : State :=
  if h : q < 64 then { s with queues := s.queues.set q (f s.queues[q]) h } else s

def State.queue (s : State) (q : Nat) : Queue := if h : q < 64 then s.queues[q] else {}

def State.modFunc (s : State) (n : FnId) (f : Func → Func) : State :=
  { s with funcs := s.funcs.set n.val (f s.funcs[n]) n.isLt }

def State.modPort (s : State) (p : PortId) (f : Port → Port) : State :=
  { s with ports := s.ports.set p.val (f s.ports[p]) p.isLt }

/-- Replace the entries of a list that a test names. -/
def modWhere {α : Type} (p : α → Bool) (f : α → α) (l : List α) : List α :=
  l.map fun x => if p x then f x else x

def State.ring? (s : State) (id : Nat) : Option Ring := s.rings.find? (·.id == id)

def State.modRing (s : State) (id : Nat) (f : Ring → Ring) : State :=
  { s with rings := modWhere (·.id == id) f s.rings }

def State.team? (s : State) (id : Nat) : Option Team := s.teams.find? (·.id == id)

def State.modTeam (s : State) (id : Nat) (f : Team → Team) : State :=
  { s with teams := modWhere (·.id == id) f s.teams }

def State.job? (s : State) (id : Nat) : Option Job := s.jobs.find? (·.id == id)

def State.modJob (s : State) (id : Nat) (f : Job → Job) : State :=
  { s with jobs := modWhere (·.id == id) f s.jobs }

def State.image? (s : State) (id : Nat) : Option Image := s.images.find? (·.id == id)

/-- The plan of a context's image (R203). -/
def State.planOf (s : State) (c : Ctx) : Plan :=
  match s.image? c.image with
  | some i => i.plan
  | none => {}

/-! Timed events and free choices. -/

/-- Place an event in the agenda, behind events of the same time. -/
def insertTimed (e : Timed) : List Timed → List Timed
  | [] => [e]
  | f :: t => if e.at_ < f.at_ then e :: f :: t else f :: insertTimed e t

/-- Let an event happen at the start of ac `t`. -/
def State.atAc (s : State) (t : Nat) (i : Instr) : State :=
  { s with agenda := insertTimed ⟨2 * t, i⟩ s.agenda }

/-- Let an event happen at the end of ac `t`. -/
def State.atEnd (s : State) (t : Nat) (i : Instr) : State :=
  { s with agenda := insertTimed ⟨2 * t + 1, i⟩ s.agenda }

/-- Let an event follow at once. -/
def State.soon (s : State) (i : Instr) : State := { s with urgent := s.urgent ++ [i] }

def State.send (s : State) (o : Output) : State := { s with outbox := s.outbox ++ [o] }

/-- A free choice among `n` possibilities (assumption 1). -/
def State.draw (s : State) (n : Nat) : Nat × State :=
  (Config.choice s.draws % n, { s with draws := s.draws + 1 })

/-- ac in one millisecond: the array clock runs at 1.75 GHz (R5). -/
def acPerMs : Nat := 1750000

/-! Error records (R348). -/

/-- A record of a reason with every other field zero and no queue. -/
def errRec (reason src sev unit_ : Nat) : ErrRec :=
  { seq := 0, reason := reason, src := src, sev := sev, unit_ := unit_, cycle := 0, addr := 0, lo := 0,
    hi := 0, queue := 0xFFFF, team := 0, rank := 0, asid := 0, detail := 0, node := 0, fault := 0,
    flags := 0, list := [] }

/-- The fields that a context fills. -/
def ctxRec (a : ArrId) (c : CtxId) (x : Ctx) (reason sev : Nat) : ErrRec :=
  { errRec reason 0 sev a.val with
    queue := x.queue, team := x.team.toNat, rank := x.rank.toNat, asid := x.asid.toNat,
    node := x.node.toNat, flags := BitVec.ofNat 8 c.val }

/-- Which functions receive a record: function 0 all of them, another those of its queues (R362). -/
def State.receives (s : State) (r : ErrRec) (n : FnId) : Bool :=
  n == 0 || (decide (r.queue < 64) && (s.queue r.queue).func == n && (s.queue r.queue).st != 0)

/-- Write an error record: it takes the next SEQ and waits for delivery (R348, R362). -/
def State.report (s : State) (r : ErrRec) : State :=
  let r' := { r with seq := s.errSeq, cycle := s.now }
  { s with
    errSeq := s.errSeq + 1
    funcs := Vector.ofFn fun n : Fin 8 =>
      if s.receives r n then { s.funcs[n] with errs := s.funcs[n].errs ++ [r'] } else s.funcs[n] }

/-! Places. -/

def ArrId.die (a : ArrId) : Nat := a.val / 8
def ArrId.quad (a : ArrId) : Nat := a.val / 4

/-- The agent slot of a context's log (R66). -/
def agentSlot (a : ArrId) (c : CtxId) : Nat := a.val * 4 + c.val

/-- Position p of the chain that context `c` of array `a` leads (R145). -/
def State.chainArr (s : State) (a : ArrId) (c : CtxId) (p : Nat) : ArrId :=
  if p = 0 then a else
  match (List.finRange 32).find? fun b : ArrId => (s.arr b).leader == some (a, c) && (s.arr b).chainPos == p with
  | some b => b
  | none => a

/-- Arrays that followed a context that is free now follow none (R145). -/
def State.freeFollowers (s : State) : State :=
  { s with arrays := s.arrays.map fun x : Arr =>
      match x.leader with
      | some (a, c) => if (s.ctxOf a c).run = .free then { x with leader := none, chainPos := 0 } else x
      | none => x }

/-- Positions of a chain length code (R234). -/
def chainLen (code : BitVec 2) : Nat := 2 ^ code.toNat

/-- An AS byte range that lies inside one planned buffer (R17, R203). -/
def Plan.holds (p : Plan) (off n : Nat) : Bool :=
  p.bufs.any fun b => decide (b.off ≤ off ∧ off + n ≤ b.off + b.size)

/-- All of `n` words from an offset lie in the plan. -/
def Plan.holdsWords (p : Plan) (off : Nat) : Nat → Bool
  | 0 => true
  | n + 1 => p.holds off 32 && Plan.holdsWords p (off + 32) n

def insertNat (x : Nat) (l : List Nat) : List Nat := if l.contains x then l else l ++ [x]

/-- Sign extension of a field of `w` bits to a 64-bit word. -/
def sext (w : Nat) (b : BitVec w) : Word := b.signExtend 64

/-! Lines of pages that move (R129). -/

def Forward.covers (f : Forward) (l : Nat) : Bool := decide (f.oldPa ≤ 64 * l ∧ 64 * l < f.oldPa + f.size)
def Forward.newLine (f : Forward) (l : Nat) : Nat := (f.newPa + (64 * l - f.oldPa)) / 64

def Hold.inOld (h : Hold) (l : Nat) : Bool := decide (h.oldPa ≤ 64 * l ∧ 64 * l < h.oldPa + h.size)
def Hold.inNew (h : Hold) (l : Nat) : Bool := decide (h.newPa ≤ 64 * l ∧ 64 * l < h.newPa + h.size)
def Hold.newLine (h : Hold) (l : Nat) : Nat := (h.newPa + (64 * l - h.oldPa)) / 64

/-- The old page's lines go by their new names: the new leaf is written and the hold has not ended (R129, step 3). -/
def Hold.renamed (h : Hold) : Bool := h.fold && decide (1 ≤ h.step)

/-- Where the pages that have moved have taken a line, one move after another (R129, step 5). -/
def State.placed (s : State) (l : Nat) : Nat := s.forwards.foldl (fun k f => if f.covers k then f.newLine k else k) l

/-- The line that a record naming `l` is for. -/
def State.named (s : State) (l : Nat) : Nat :=
  let k := s.placed l
  match s.holds.find? fun h => h.renamed && h.inOld k with
  | some h => h.newLine k
  | none => k

/-! Questions to other owners (R15, R83). -/

/-- Ask the owner of an address, in a world and for an ASID. -/
def State.request (s : State) (who : Asker) (pa : Nat) (op : AskOp) (sec : Bool) (asid : BitVec 16) : State :=
  { s with askNo := s.askNo + 1, asks := if who = Asker.nobody then s.asks else s.asks ++ [(⟨s.askNo, who, pa, op⟩ : Ask)] }.send
    (.ask s.askNo (if pa < 2 ^ 41 then Config.peerBase + s.pkgNo * 2 ^ 41 + pa else pa) op sec asid)

/-- The walks of a requester are of no further use (R123). -/
def State.forgetWalks (s : State) (p : Seeker → Bool) : State := { s with walks := s.walks.filter fun w => !p w.who }

/-- No access waits any more for what a context has asked. -/
def State.forgetAsks (s : State) (a : ArrId) (c : CtxId) : State :=
  { s with asks := s.asks.map fun k =>
      match k.who with
      | .entry b d _ | .posted b d | .acquire b d _ => if b == a && d == c then { k with who := .nobody } else k
      | _ => k }

end Sys2Proof.Machine
end

