-- ==== Sys2Proof/Machine/Ops.lean ====
section
/-! DEFINITION. Registers and the frame of a slot op (R179 to R183), the lease (R152), taking a context
fault (R334 to R338) and the return from one by rollback (R80, R339). -/

namespace Sys2Proof.Machine

def Reg.idx (r : Reg) : Fin 32 := ⟨r.toNat, r.isLt⟩

def setBit {w : Nat} (b : BitVec w) (i : Nat) : BitVec w := b ||| (1#w <<< i)
def clrBit {w : Nat} (b : BitVec w) (i : Nat) : BitVec w := b &&& ~~~(1#w <<< i)

/-- A source register as captured at first presentation; g0 reads zero (R180, R206). -/
def Ctx.rd (c : Ctx) (r : Reg) : Word := if r = 0 then 0 else c.cap[Reg.idx r]

/-- A g register as it stands. -/
def Ctx.gv (c : Ctx) (r : Reg) : Word := if r = 0 then 0 else c.g[Reg.idx r]

/-- Write a g register at the end of ac `t`: it stands over an earlier op's result that is due in the same
ac (assumption 19). A write to g0 is discarded (R206). -/
def Ctx.wr (c : Ctx) (t : Nat) (r : Reg) (v : Word) : Ctx :=
  if r = 0 then c else
  { c with
    g := c.g.set r.toNat v r.isLt
    delayed := c.delayed.filter fun d => !(d.target == .g r && decide (d.due ≤ t)) }

/-- Owe a result to the end of ac `due` (R182, R220). -/
def Ctx.owe (c : Ctx) (due : Nat) (x : DelayedReg) (v : Word) : Ctx :=
  { c with delayed := c.delayed ++ [⟨due, c.order, x, v⟩] }

/-- Deliver the divider's result, and a source captured while it was in flight (R206, R180). -/
def Ctx.deliverDiv (c : Ctx) (r : Reg) (v : Word) : Ctx :=
  if r = 0 then c else
  { c with
    g := c.g.set r.toNat v r.isLt
    dv := clrBit c.dv r.toNat
    cap := if c.capDv.getLsbD r.toNat then c.cap.set r.toNat v r.isLt else c.cap
    capDv := clrBit c.capDv r.toNat }

/-- Deliver the value of an M slot's access: the register, and a source captured while it was in flight (R179, R180). -/
def Ctx.deliver (c : Ctx) (r : Reg) (v : Word) : Ctx :=
  if r = 0 then c else
  { c with
    g := c.g.set r.toNat v r.isLt
    sb := clrBit c.sb r.toNat
    cap := if c.capPend.getLsbD r.toNat then c.cap.set r.toNat v r.isLt else c.cap
    capPend := clrBit c.capPend r.toNat }

/-- Mark a destination as awaiting a scoreboarded value. -/
def Ctx.await (c : Ctx) (r : Reg) : Ctx := if r = 0 then c else { c with sb := setBit c.sb r.toNat }

/-- A source still in flight, or a destination that still awaits the value of an M slot's access (R179, R281). -/
def Ctx.owes (c : Ctx) (srcs : List Reg) (dst : Reg) : Bool :=
  srcs.any (fun r => r != 0 && (c.capPend.getLsbD r.toNat || c.capDv.getLsbD r.toNat)) || (dst != 0 && c.sb.getLsbD dst.toNat)

/-- A source read before its fixed-latency result was written, with CHK set (R183). -/
def Ctx.hazards (c : Ctx) (srcs : List Reg) : Bool :=
  srcs.any fun r => r != 0 && c.capHaz.getLsbD r.toNat

/-- The slot has issued: it leaves the residue. -/
def Ctx.dropSlot (c : Ctx) (k : Fin 4) : Ctx :=
  { c with residue := c.residue.filter (fun o => o.slot != k), todo := c.todo.filter (· != k) }

/-- The slot stays as residue. -/
def Ctx.passSlot (c : Ctx) (k : Fin 4) : Ctx := { c with todo := c.todo.filter (· != k) }

/-- The slot faults and stays as residue (R334, R335). -/
def Ctx.faultAt (c : Ctx) (k : Fin 4) (code : Nat) : Ctx :=
  { c.passSlot k with faults := c.faults ++ [(k.val, code)] }

/-- Fault codes (R336). -/
def fNotPresent : Nat := 0x01
def fAsRange : Nat := 0x10
def fAlign : Nat := 0x11
def fDescr : Nat := 0x12
def fPoison : Nat := 0x13
def fSync : Nat := 0x15
def fForm : Nat := 0x16
def fPeer : Nat := 0x17
def fHazard : Nat := 0x18
def fReturn : Nat := 0x19
def fLoop : Nat := 0x1A
def fFetch : Nat := 0x1B
def fTrap : Nat := 0x1C
def fCrossed : Nat := 0x1D
def fTerminated : Nat := 0x21

/-- The loop whose end is the bundle just completed (R214, R215). -/
def Ctx.atLoopEnd (c : Ctx) : Bool :=
  c.mloop.isNone && c.branch.isNone &&
  match c.loops with
  | [] => false
  | e :: _ => e.last == c.pc

/-- The residue has emptied at ac `t`: the PC moves on, by a branch if one issued (R181, R182, R213). -/
def Ctx.close (c : Ctx) (t : Nat) : Ctx :=
  let c' := { c with
    bundles := c.bundles + 1, sigCount := c.sigCount + 1, stall := 0, branch := none }
  match c.branch with
  | some (target, d) => { c' with pc := target, nextAc := t + d }
  | none =>
    if c.mloop.isSome || c.atLoopEnd then { c' with nextAc := t + 1 + c.stall }
    else { c' with pc := c.pc + 1, nextAc := t + 1 + c.stall }

/-! The lease. -/

/-- The quantum of a new holder: Q x w (R152, R328). -/
def State.quantumFor (s : State) (c : Ctx) : Nat :=
  let q := match s.team? c.team.toNat with
    | some t => t.quantum
    | none => 256
  q * (1 + (s.queue c.queue).prio.toNat / 4)

/-- The next context that requests the lease, in rotation after `c` (R152). -/
def Arr.nextReq (x : Arr) (c : CtxId) : Option CtxId :=
  [c + 1, c + 2, c + 3].find? fun d => x.reqs[d]

/-- Give the lease to a context with a fresh quantum. -/
def State.grant (s : State) (a : ArrId) (c : CtxId) : State :=
  let q := s.quantumFor (s.ctxOf a c)
  s.modArr a fun x => { x with holder := some c, remain := q, reqs := x.reqs.set c.val false c.isLt }

/-- The holder gives the lease up: it passes by rotation, or nobody holds it (R224). -/
def State.dropLease (s : State) (a : ArrId) : State :=
  match (s.arr a).holder with
  | none => s
  | some c =>
    match (s.arr a).nextReq c with
    | some d => s.grant a d
    | none => s.modArr a fun x => { x with holder := none, remain := 0 }

/-- The array's part of a bundle's end: the count of consecutive bundles, the quantum, UNLEASE (R151,
R152, R224). -/
def State.endBundle (s : State) (a : ArrId) (c : CtxId) : State :=
  let held := (s.arr a).holder == some c
  let drops := (s.ctxOf a c).drops
  let s1 := s.modArr a fun x =>
    { x.modCtx c (fun y : Ctx => { y with drops := false }) with
      streak := x.streak + 1, remain := if held then x.remain - 1 else x.remain }
  let s2 := if held && drops then s1.dropLease a else s1
  let s3 := if held && !drops && decide ((s.arr a).remain ≤ 1) then s2.soon (.leaseQuantumEnd a) else s2
  if (s.arr a).streak + 1 ≥ 4096 then s3.soon (.bundleCountExpire a) else s3

/-- What follows once no ready slot of the presentation is left: the report of its faults, or the bundle's
end (R335, R181). A fault of any slot but not-present is fatal. -/
def State.settleAt (s : State) (a : ArrId) (c : CtxId) : State :=
  let x := s.ctxOf a c
  if !x.todo.isEmpty then s
  else if x.faults.any (·.2 != fNotPresent) then s.soon (.contextFatalFault a c)
  else if !x.faults.isEmpty then s.soon (.pageRequestFault a c)
  else if x.residue.isEmpty then
    let s1 := (s.modCtx a c (·.close s.now)).endBundle a c
    let s2 := if x.atLoopEnd then s1.soon (.loopBackEdge a c) else s1
    if x.ask.isSome then s2.soon (.contextFatalFault a c)
    else if x.dataErr.isSome then s2.soon (.dataErrorTake a c) else s2
  else s

def State.settle (s : State) : State := s.settleAt s.act.arr s.act.ctx

/-- The slot op issues with an effect on its context. -/
def State.retire (s : State) (f : Ctx → Ctx) : State :=
  (s.modMe fun c => (f c).dropSlot s.act.slot).settle

/-- The slot op stays as residue. -/
def State.keep (s : State) : State := (s.modMe (·.passSlot s.act.slot)).settle

/-- The slot op stays as residue with progress made. -/
def State.keepWith (s : State) (f : Ctx → Ctx) : State := (s.modMe fun c => (f c).passSlot s.act.slot).settle

/-- The slot op faults. -/
def State.faultSlot (s : State) (code : Nat) : State := (s.modMe (·.faultAt s.act.slot code)).settle

/-- The slot op of the actor, as residue. -/
def State.slotOp (s : State) : Option SlotOp := s.me.residue.find? (·.slot == s.act.slot)

/-- How far the actor's slot op has come (R274, R225, R287). -/
def State.phase (s : State) : Nat := match s.slotOp with | some o => o.phase | none => 0

def Ctx.setPhase (c : Ctx) (k : Fin 4) (n : Nat) : Ctx :=
  { c with residue := modWhere (fun o : SlotOp => o.slot == k) (fun o => { o with phase := n }) c.residue }

/-- Stay as residue at phase `n`. -/
def State.hold (s : State) (n : Nat) : State := s.keepWith (·.setPhase s.act.slot n)

/-- The frame of a slot op that reads `srcs` and writes `dst`: it waits for values in flight, and with CHK
it takes the hazard fault (R179, R183). -/
def State.gate (s : State) (srcs : List Reg) (dst : Reg) (k : Out) : Out :=
  if s.me.owes srcs dst then .next s.keep
  else if s.me.hazards srcs then .next (s.faultSlot fHazard)
  else k

/-! Taking a context fault. -/

/-- Own copies of the named lines are invalidated (R80). -/
def Arr.dropOwn (x : Arr) (c : CtxId) (lines : Nat → Bool) : Arr :=
  { x with vc := x.vc.filter fun l => !((l.st == .own) && l.owner == c && lines l.line) }

/-- Lines that a ring's records from `lo` below `hi` are for, by the naming `nm` (R129). -/
def Ring.lines (r : Ring) (nm : Nat → Nat) (lo hi : Nat) : List Nat :=
  (List.range (hi - lo)).filterMap fun i =>
    match r.recs.get none ((lo + i) % r.n) with
    | some rc => if rc.rel then none else some (nm rc.line.toNat)
    | none => none

/-- The newest data record of a line among those numbered `lo` to `lo + k - 1` of a ring. -/
def Ring.newest (r : Ring) (nm : Nat → Nat) (line lo : Nat) : Nat → Option Nat
  | 0 => none
  | k + 1 =>
    match r.recs.get none ((lo + k) % r.n) with
    | some rc => if !rc.rel && nm rc.line.toNat == line then some (lo + k) else Ring.newest r nm line lo k
    | none => Ring.newest r nm line lo k

/-- The own-store index once records from `cut` on are gone and no store waits: each line names its newest
record that is left above the fold pointer (R47, R80). -/
def Ring.indexBelow (r : Ring) (nm : Nat → Nat) (cut : Nat) (own : Sparse Nat) : Sparse Nat :=
  own.filterMap fun e =>
    if 2 ≤ e.2 ∧ e.2 - 2 < cut then some e
    else (r.newest nm e.1 r.fold (cut - r.fold)).map fun n => (e.1, n + 2)

/-- A queued store that appends records. -/
def QEntry.logs (e : QEntry) : Bool :=
  (e.op == .st || e.op == .logst) && (e.kind == .logged || e.kind == .prot || e.kind == .pool)

/-- A queue once what is unpublished is discarded (R334): logged stores that have not entered the log buffer
and releases not yet announced go; an access whose release qualifier is discarded still performs. `open_`: the
release under way has not been announced. -/
def withdraw (open_ : Bool) (l : List QEntry) : List QEntry :=
  (l.filter fun e =>
    !e.logs &&
    !(e.op == .release && (e.phase == 0 || (e.phase == 1 && open_)))).map fun e =>
      if e.order.getLsbD 1 && (e.phase == 0 || (e.phase == 1 && open_)) then { e with phase := 3 } else e

/-- Discard what a context has not published: its log-buffer entries and its records above the published
tail; its watch entries are disarmed (R80). A release that has not been announced goes with them (R334). -/
def State.discardUnpublished (s : State) (a : ArrId) (c : CtxId) : State :=
  let x := s.ctxOf a c
  let open_ := match s.ring? x.ring with
    | some r => (match r.release with | some rel => decide (rel.step < 4) | none => true)
    | none => true
  let blank := fun (y : Ctx) =>
    { y with
      buf := [], watch := Vector.replicate 8 {}, spurious := 0
      loadQ := withdraw open_ y.loadQ, storeQ := withdraw open_ y.storeQ }
  let s0 := { s with watchTab := s.watchTab.filter fun w => !(w.arr == a && w.ctx == c) }
  match s.ring? x.ring with
  | none => s0.modCtx a c blank
  | some r =>
    let cut := match r.release with
      | some rel => if rel.step ≥ 4 then rel.seq + 1 else r.pub
      | none => r.pub
    let gone := r.lines s.named cut r.tail ++ x.buf.map (·.line) ++ (x.storeQ.filter (·.logs)).map fun e => e.pa / 64
    let s1 := s0.modRing x.ring fun r =>
      { r with
        tail := cut, segFirst := cut,
        release := r.release.bind fun rel => if rel.step ≥ 4 then some rel else none }
    let s2 := s1.modCtx a c fun y => { blank y with own := r.indexBelow s.named cut y.own }
    s2.modArr a (·.dropOwn c fun l => gone.contains l)

/-- Requests of a context that has stopped: its feeds and what its M slot waits for, and its edge ops and image reads where `all_`. -/
def AsReq.abandoned (r : AsReq) (a : ArrId) (c : CtxId) (all_ : Bool) : Bool :=
  r.owner == a &&
  match r.who with
  | .feed d _ _ _ _ | .mTag d => d == c
  | .edge d | .descr d _ | .sendRead d => d == c && all_
  | _ => false

/-- The staged feeds of a context are abandoned and its reservations end (R263). -/
def State.dropFeeds (s : State) (a : ArrId) (c : CtxId) (all_ : Bool) : State :=
  let freed := ((s.ctxOf a c).staged.map (·.reserved)).flatten
  let s1 := freed.foldl (fun t e => t.modArr e.1 fun z =>
    { z with reserved := z.reserved.erase e.2 }) s
  let s2 := (List.range (chainLen (s.ctxOf a c).chain)).foldl (fun t p =>
    t.modArr (t.chainArr a c p) fun z => { z with asReqs := z.asReqs.filter fun r => !r.abandoned a c all_ }) s1
  s2.modCtx a c fun y => { y with staged := [], fed := none }

/-- A context stops exact at its bundle: it holds no lease and no reservation, and its staged feeds are
abandoned (R334, R263). What has issued is carried to completion. -/
def State.stopAt (s : State) (a : ArrId) (c : CtxId) (code : Nat) : State :=
  let s1 := (s.dropFeeds a c false).modCtx a c fun y => { y with run := .stopped code, todo := [], faults := [] }
  let s3 := s1.modArr a fun z => { z with reqs := z.reqs.set c.val false c.isLt }
  if (s3.arr a).holder == some c then s3.dropLease a else s3

/-- A detected data error of a context: it is taken at the next bundle boundary, at once where the context
stands at one or is switched out (R339). The first one stands; an error of an op of a run that a rollback has already
undone counts no more, but one of run A that is found later is one of the reruns (R340). -/
def State.raiseData (s : State) (a : ArrId) (c : CtxId) (reason seg : Nat) : State :=
  let x := s.ctxOf a c
  let first := match x.rerun with | some r => r.first | none => x.seg
  if x.dataErr.isSome || x.run != .active || (decide (x.segBase ≤ seg) && decide (seg < first)) then s else
  let s1 := s.modCtx a c fun y => { y with dataErr := some (reason, seg) }
  if (s.arr a).running != c || (s.arr a).gated || (x.residue.isEmpty && x.todo.isEmpty) then
    s1.soon (.dataErrorTake a c)
  else s1

/-- The code under which a context stops for a relaunch; the model's own, in no record. -/
def askRelaunch : Nat := 0x22

/-- Ask every task of a team, but one, to stop at its next bundle boundary; one that is switched out stops
at once (R338, R343; assumption 23). -/
def State.askTeam (s : State) (team : Nat) (skip : Option (ArrId × CtxId)) (code : Nat) : State :=
  match s.team? team with
  | none => s
  | some t =>
    t.tasks.foldl (fun u k =>
      if k.placed && skip != some (k.arr, k.ctx) then
        let out := (u.arr k.arr).running != k.ctx || (u.arr k.arr).gated
        let u1 := u.modCtx k.arr k.ctx fun y => { y with ask := some code }
        if out && (u.ctxOf k.arr k.ctx).run == .active then u1.soon (.contextFatalFault k.arr k.ctx) else u1
      else u) s

/-- The copies of a team's tasks stop at their next beat, those of pre-empted tasks too (R304). -/
def State.stopTeamCopies (s : State) (team : Nat) : State :=
  let g := modWhere (fun j : CopyJob => j.team == team) fun j => { j with stopped := true }
  { s with arrays := s.arrays.map fun x : Arr => { x with near := g x.near, poolq := g x.poolq } }

/-- The tasks of a team on this package end (R338, step 3): they are asked to stop with code 0x21, its copies stop, and its job
fails. -/
def State.endTeam (s : State) (team : Nat) (skip : Option (ArrId × CtxId)) : State :=
  match s.team? team with
  | none => s
  | some t =>
    if t.dead then s else
    let s1 := s.modTeam team fun u => { u with dead := true, relaunch := false, request := none }
    let s2 := s1.modJob t.job fun j => { j with failed := true }
    (s2.stopTeamCopies team).askTeam team skip fTerminated

/-- Terminate a team; in a pod team every other package is told (R338, step 3). -/
def State.terminateTeam (s : State) (team : Nat) (skip : Option (ArrId × CtxId)) : State :=
  match s.team? team with
  | none => s
  | some t =>
    if t.dead then s
    else if t.tsize > t.ntasks then (s.endTeam team skip).send (.terminate team)
    else s.endTeam team skip

/-- The sequence number of the release record of the last CKPT (R338). -/
def Ctx.segSeq (x : Ctx) : Nat := match x.snap with | some n => n.relSeq | none => 0

/-- The fatal fault that a presentation reports: the lowest-numbered slot whose fault is fatal (R335). -/
def fatalOf (l : List (Nat × Nat)) : Option (Nat × Nat) :=
  (l.filter (·.2 != fNotPresent)).foldl (fun best e =>
    match best with
    | none => some e
    | some b => if e.1 < b.1 then some e else some b) none

/-- TAKING A FATAL FAULT (R338): the context stops exact at the bundle, what it has not published is
discarded, the record of reason 0x0001 is written with the code, slot, PC, node and segment, and the team is
terminated. `detail` is the PC, or for a TRAP its code, the PC then standing in `pcHi` (assumption 24). -/
def State.takeFatal (s : State) (a : ArrId) (c : CtxId) (slot code detail pcHi : Nat) : State :=
  let x := s.ctxOf a c
  let s1 := (s.stopAt a c code).discardUnpublished a c
  let s2 := s1.report { ctxRec a c x 0x0001 2 with
    detail := detail, fault := code, lo := x.segSeq, hi := pcHi,
    flags := BitVec.ofNat 8 (c.val + 4 * slot) }
  s2.terminateTeam x.team.toNat (some (a, c))

/-- The LFSR that a cell of chain position `p` holds where nothing is listed: that of seed 0 (R166). -/
def lfsrInit (p cell : Nat) : BitVec 32 :=
  if 1024 * p + cell = 0 then 0xFFFFFFFF else BitVec.ofNat 32 (1024 * p + cell)

def Arr.lfsrAt (x : Arr) (p cell : Nat) : BitVec 32 := Sparse.get (lfsrInit p cell) x.lfsr cell

def Arr.setLfsr (x : Arr) (p cell : Nat) (v : BitVec 32) : Arr :=
  { x with lfsr := Sparse.set (lfsrInit p cell) x.lfsr cell v }

def Arr.shadowAt (x : Arr) (p cell : Nat) (c : CtxId) : BitVec 32 :=
  Sparse.get (lfsrInit p cell) x.shadow (cell * 4 + c.val)

/-- CKPT's copy of one cell (R167). -/
def Arr.saveLfsr (x : Arr) (p cell : Nat) (c : CtxId) : Arr :=
  { x with shadow := Sparse.set (lfsrInit p cell) x.shadow (cell * 4 + c.val) (x.lfsrAt p cell) }

/-- A rollback's restoration of one cell from the copy (R167). -/
def Arr.restoreLfsr (x : Arr) (p cell : Nat) (c : CtxId) : Arr := x.setLfsr p cell (x.shadowAt p cell c)

/-- A C op that descends on behalf of the sequencer: the load of the LFSRs by sr.seed (R166), their copy by CKPT and their
restoration by a rollback, behind the ops of the run that is undone (R167, R235). -/
def State.sendDown (s : State) (a : ArrId) (c : CtxId) (i : Instr) (v : Word) : State :=
  let x := s.arr a
  let y := s.ctxOf a c
  let op : COp :=
    { id := x.opNo, ctx := c, ins := i, sel := {}, rm := false, kc := none, issued := s.now, west := none,
      push := none, capt := none, kat := v, katRow := [], sample := [], cwOld := [], cwBad := [], slow := [], seg := y.seg,
      order := y.order, rows := 32 * chainLen y.chain, done := 0, left := 32 * chainLen y.chain + 1 }
  (s.modArr a fun z => { z with wave := z.wave ++ [op], opNo := z.opNo + 1 }).atAc (s.now + 3)
    (.cOpRowExecute a x.opNo 0)

/-- Chunk sequences toward a package (R372). -/
def State.chunksTo (s : State) (p : Nat) : Chunks :=
  match s.chunks.find? (·.peer == p) with | some c => c | none => ⟨p, 1, 0, 0, []⟩

def State.putChunks (s : State) (c : Chunks) : State :=
  { s with chunks := (s.chunks.filter (·.peer != c.peer)) ++ [c] }

/-- Change the copies of a context, in whatever engine they are. -/
def State.modCopies (s : State) (a : ArrId) (c : CtxId) (f : CopyJob → CopyJob) : State :=
  let g := modWhere (fun j : CopyJob => j.arr == a && j.ctx == c && !j.away) f
  { s with arrays := s.arrays.map fun x : Arr => { x with near := g x.near, poolq := g x.poolq } }

/-- The running copies of a context stop at their next beat (R305). -/
def State.stopCopies (s : State) (a : ArrId) (c : CtxId) : State := s.modCopies a c fun j => { j with stopped := true }

/-- Rollback (R80, R339): what is unpublished is discarded and the snapshot of the last CKPT is restored; the LFSRs take
their shadows in wavefront order. Arrivals made since then are skipped by the rerun (R310). sr.fpflags, cp, cf and
sr.bundles stand (R171, R233). A forced publication above the CKPT's release record bars the way: none. -/
def State.rollback (s : State) (a : ArrId) (c : CtxId) : Option State :=
  let x := s.ctxOf a c
  match x.snap with
  | none => none
  | some n =>
    if x.barrier > n.relSeq then none else
    let s1 := s.discardUnpublished a c
    let s2 := s1.dropFeeds a c true
    let s3 := s2.modCtx a c fun y =>
      { y with
        run := .active, pc := n.pc, g := n.g, flags := n.flags, loops := n.loops, mloop := n.mloop, q := n.q,
        rets := n.rets, sp := n.sp, iv := n.iv, th := n.th, fd := n.fd, cd := n.cd, kat := n.kat,
        chk := n.chk, rm := n.rm, residue := [], todo := [], faults := [], branch := none, stall := 0,
        delayed := [], sb := 0, dv := 0, capPend := 0, capDv := 0, capHaz := 0, edgeQ := [], yields := false, drops := false, taken := none,
        pageWait := none, acquire := none, dataErr := none,
        loadQ := y.loadQ.map fun e : QEntry => { e with gd := 0 }, descBuf := [],
        skip := y.arrivals + y.skip, arrivals := 0, sigBytes := [], sigCount := 0, seg := y.seg + 1, nextAc := s.now + 1 }
    let s4 := (s3.stopCopies a c).modArr a fun z =>
      { z with divRes := z.divRes.map fun d => if d.1 == c then (d.1, 0, d.2.2) else d }
    some (s4.sendDown a c (.dataErrorTake a c) 0)

/-! Errors of stored bits (R33, R38, R43, R44, R350, R351). -/

/-- The set of a line in the view cache (R45). -/
def vcSet (l : Nat) : Nat := l % 2048

/-- Where a line stands in the view cache. -/
def VcLine.place (v : VcLine) : ErrAt := .vc (vcSet v.line) v.way

def bitCount {w : Nat} (b : BitVec w) : Nat := (List.range w).countP fun i => b.getLsbD i

/-- The storage is protected by SECDED over 64 bits, not by parity (R33). -/
def ErrAt.secded : ErrAt → Bool
  | .vc .. | .as _ | .ea _ => true
  | _ => false

/-- A read finds an error that it cannot correct: two flipped bits of a SECDED chunk, an odd number of a parity chunk. -/
def ArrErr.detected (e : ArrErr) : Bool :=
  if e.place.secded then decide (2 ≤ bitCount e.flips) else bitCount e.flips % 2 == 1

/-- A single flipped bit of a SECDED chunk. -/
def ArrErr.corrected (e : ArrErr) : Bool := e.place.secded && bitCount e.flips == 1

/-- Flip bits of one 32-byte word. -/
def flipWord (w : CWord) (lo : Nat) (m : BitVec 64) : CWord := w ^^^ (m.zeroExtend 256 <<< lo)

/-- The stored value with the bits of an error flipped. -/
def Arr.flip (x : Arr) (e : ArrErr) : Arr :=
  let lo := e.chunk * 32
  match e.place with
  | .vc st way => { x with
      vc := modWhere (fun v : VcLine => vcSet v.line == st && v.way == way)
        (fun v => { v with data := v.data ^^^ (e.flips.zeroExtend 512 <<< (e.chunk * 64)) }) x.vc }
  | .as w => { x with asw := Sparse.set 0 x.asw w (flipWord (Sparse.get 0 x.asw w) (e.chunk * 64) e.flips) }
  | .tag w => { x with tags := Sparse.set false x.tags w (Sparse.get false x.tags w != e.flips.getLsbD 0) }
  | .ea row =>
    let k := row * 256 + 2 * e.chunk
    let y := Sparse.set 0 x.ea k (Sparse.get 0 x.ea k ^^^ e.flips.extractLsb' 0 32)
    { x with ea := Sparse.set 0 y (k + 1) (Sparse.get 0 y (k + 1) ^^^ e.flips.extractLsb' 32 32) }
  | .m cell r => { x with mrf := Sparse.set 0 x.mrf (cell * 48 + r) (flipWord (Sparse.get 0 x.mrf (cell * 48 + r)) lo e.flips) }
  | .o cell r => { x with opf := Sparse.set 0 x.opf (cell * 8 + r) (flipWord (Sparse.get 0 x.opf (cell * 8 + r)) lo e.flips) }
  | .last cell i => { x with lrf := Sparse.set 0 x.lrf (cell * 2 + i) (flipWord (Sparse.get 0 x.lrf (cell * 2 + i)) lo e.flips) }
  | .comm cell c w =>
    let k := (cell * 4 + c.val) * 3 + w
    let v := Sparse.get {} x.comm k
    let v1 : Comm := if e.chunk = 8 then { v with side := v.side ^^^ e.flips.extractLsb' 0 32 } else { v with data := flipWord v.data lo e.flips }
    { x with comm := Sparse.set {} x.comm k v1 }
  | .latch cell l k =>
    let i := (cell * 4 + l) * 9 + k
    { x with latch := Sparse.set 0 x.latch i (flipWord (Sparse.get 0 x.latch i) lo e.flips) }

/-- Stored bits flip: those that have flipped twice are as they were. -/
def Arr.upset (x : Arr) (e : ArrErr) : Arr :=
  let y := x.flip e
  match y.errs.find? fun d => d.place == e.place && d.chunk == e.chunk with
  | none => { y with errs := y.errs ++ [e] }
  | some d =>
    let m := d.flips ^^^ e.flips
    let l := y.errs.erase d
    { y with errs := if m = 0 then l else l ++ [{ e with flips := m }] }

/-- A write of some chunks of a word: what was wrong there is gone. -/
def Arr.clearErr (x : Arr) (p : ErrAt) (chunks : Nat → Bool) : Arr :=
  { x with errs := x.errs.filter fun e => !(e.place == p && chunks e.chunk) }

/-- A read of some chunks of a word: single-bit errors are corrected, written back and counted (R43), and the answer is
whether an error stands that cannot be corrected. -/
def State.readErr (s : State) (a : ArrId) (p : ErrAt) (chunks : Nat → Bool) : Bool × State :=
  let hit := (s.arr a).errs.filter fun e => e.place == p && chunks e.chunk
  if hit.isEmpty then (false, s) else
  let fix := hit.filter (·.corrected)
  let s1 := fix.foldl (fun u e => u.modArr a (·.upset e)) s
  (hit.any (·.detected), { s1 with ceCount := s1.ceCount + fix.length })

/-- A mark of flipped bits of a line: 0 none, 1 bit 0, 2 bit 1, 3 both (R351). -/
def LineMeta.upset (m : LineMeta) (level n : Nat) : LineMeta :=
  match level with
  | 0 => { m with errL2 := m.errL2 ^^^ n }
  | 1 => { m with errTarn := m.errTarn ^^^ n }
  | _ => { m with errHbm := m.errHbm ^^^ n }

def State.upsetLine (s : State) (level l n : Nat) : State :=
  { s with lines := Sparse.set {} s.lines l ((Sparse.get {} s.lines l).upset level n) }

/-- The word of an array that EINJCTL and EINJADDR name (R350); of a view-cache line, the first copy that the array holds. -/
def Einj.place (e : Einj) (x : Arr) : ErrAt :=
  match e.target.toNat with
  | 3 => match x.vc.find? (·.line == e.addr.toNat / 64) with | some v => v.place | none => .vc 2048 0
  | 4 => .as (e.addr.toNat % 2 ^ 24 / 32)
  | 5 => .ea (e.addr.toNat % 128)
  | 6 => .m (e.addr.toNat % 1024) e.index.toNat
  | _ => .latch (e.addr.toNat % 1024) e.index.toNat 0

/-- The bits that SEV flips in the first word of the location (R351). -/
def Einj.bits (e : Einj) : Nat := if e.sev = 1 then 3 else 1

/-- The armed error is placed, in a word of an array at `p`. -/
def State.einjAt (s : State) (p : ErrAt) : State :=
  let e := s.einj
  let s1 : State :=
    if e.target.toNat < 3 then s.upsetLine e.target.toNat (e.addr.toNat / 64) e.bits
    else s.modArr ⟨e.parr.toNat, e.parr.isLt⟩ (·.upset ⟨p, 0, BitVec.ofNat 64 e.bits⟩)
  { s1 with einj := { s1.einj with arm := false, done := true } }

/-- The armed error is placed at its location. -/
def State.einjPlaced (s : State) : State := s.einjAt (s.einj.place (s.arr ⟨s.einj.parr.toNat, s.einj.parr.isLt⟩))

/-- A deferred injection waits for a read. -/
def Einj.waits (e : Einj) : Bool := e.arm && !e.trig

/-- A read of a line at which an armed injection waits places it first. -/
def State.einjLine (s : State) (level l : Nat) : State :=
  if s.einj.waits && s.einj.target.toNat == level && s.einj.addr.toNat / 64 == l then s.einjPlaced else s

/-- Likewise a read of words of an array. -/
def State.einjArr (s : State) (a : ArrId) (here : ErrAt → Bool) : State :=
  if s.einj.waits && decide (3 < s.einj.target.toNat) && s.einj.parr.toNat == a.val && here (s.einj.place (s.arr a)) then
    s.einjPlaced else s

/-- Likewise a read of a line of an array's view cache. -/
def State.einjVc (s : State) (a : ArrId) (v : VcLine) : State :=
  if s.einj.waits && s.einj.target.toNat == 3 && s.einj.parr.toNat == a.val && s.einj.addr.toNat / 64 == v.line then
    s.einjAt v.place else s

/-! The class queues of the copy engines (R131): engine `e` is an array's below 32, a bulk engine's from there. -/

def State.copyQ (s : State) (e : Nat) (pool : Bool) : List CopyJob :=
  if h : e < 32 then
    let x := s.arr ⟨e, h⟩
    if pool then x.poolq else x.near
  else if h : e - 32 < 8 then
    let b := s.bces[e - 32]
    if pool then b.pool else b.near
  else []

def State.setCopyQ (s : State) (e : Nat) (pool : Bool) (l : List CopyJob) : State :=
  if h : e < 32 then s.modArr ⟨e, h⟩ fun x => if pool then { x with poolq := l } else { x with near := l }
  else if h : e - 32 < 8 then
    let b := s.bces[e - 32]
    { s with bces := s.bces.set (e - 32) (if pool then { b with pool := l } else { b with near := l }) h }
  else s

/-- A job of a class queue is changed. -/
def State.modCopy (s : State) (e : Nat) (pool : Bool) (id : Nat) (f : CopyJob → CopyJob) : State :=
  s.setCopyQ e pool (modWhere (·.id == id) f (s.copyQ e pool))

end Sys2Proof.Machine
end

