-- ==== Sys2Proof/Machine/Place.lean ====
section
/-! DEFINITION. Where lines live: the physical map (R15), home slices (R48), sets and ways (R50, R51), HBM
placement (R52, R53), secure regions (R29), protection windows and stripes (R27, R105, R106). -/

namespace Sys2Proof.Machine

/-- The ranges of the physical map (R15). -/
inductive PhysRange where
  | hbm | reg | peer | host | pool | none
  deriving DecidableEq, Repr

def rangeOf (pa : Nat) : PhysRange :=
  if pa < 2 ^ 41 then .hbm
  else if Config.regBase ≤ pa ∧ pa < Config.regBase + 2 ^ 32 then .reg
  else if pa < Config.peerBase then .none
  else if pa < Config.hostBase then .peer
  else if pa < Config.poolBase then .host
  else if pa < Config.physTop then .pool
  else .none

/-- The backed part of local HBM (R15, R52). -/
def State.visible (s : State) : Nat := s.cfg.visible * 2 ^ 29

/-- The package number in a peer-window address (R15). -/
def peerOf (pa : Nat) : Nat := (pa - Config.peerBase) / 2 ^ 41

/-- A secure address (R29). -/
def State.secureAt (s : State) (pa : Nat) : Bool :=
  s.srt.toList.any fun e => e.valid && decide (e.base.toNat ≤ pa / 65536 ∧ pa / 65536 ≤ e.limit.toNat)

/-- Some byte of a range is secure. -/
def State.secureIn (s : State) (pa n : Nat) : Bool :=
  decide (0 < n) && s.srt.toList.any fun e => e.valid && decide (e.base.toNat ≤ (pa + n - 1) / 65536 ∧ pa / 65536 ≤ e.limit.toNat ∧
    e.base.toNat ≤ e.limit.toNat)

/-- The package publication area and the retain area at the start of the hidden area (R52, R79). -/
def State.pubArea (s : State) : Nat := s.visible

def xorFold (l : Nat) : List Nat → Nat
  | [] => 0
  | sh :: t => (l / 2 ^ sh % 128) ^^^ xorFold l t

/-- The home slice of line `l` (R48). -/
def homeSlice (l : Nat) : Nat := xorFold (l % 2 ^ 46) [0, 7, 14, 21, 28, 35, 42]

/-- The set of a line within its slice (R48). -/
def l2Set (l : Nat) : Nat := (l / 2 ^ 7 % 2 ^ 14) ^^^ (l / 2 ^ 21 % 2 ^ 14)

/-- Home channel and slot of a line before any retirement (R52). -/
def homePlace (l : Nat) : Nat × Nat :=
  let q := l / 768
  let h := ((q % 1024) ^^^ (q / 2 ^ 10 % 1024) ^^^ (q / 2 ^ 20 % 1024) ^^^ (q / 2 ^ 30 % 1024)) % 768
  ((l % 768 + h) % 768, q)

/-- Where a line of the retired channel `x` goes (R53). -/
def rehome (x q : Nat) : Nat × Nat :=
  let k := (q + x) % 767
  (if k < x then k else k + 1, Config.homeSlots + q / 767)

/-- Channel and slot of a line (R52, R53, R120): one of a retired channel, or of a channel being retired
below its progress slot, stands in its new slot. -/
def State.place (s : State) (l : Nat) : Nat × Nat :=
  let (c, q) := homePlace l
  if s.retired = some c then rehome c q
  else match s.retChan with
    | some r => if r.channel = c ∧ q < r.slot then rehome c q else (c, q)
    | none => (c, q)

/-- Tarn half and set of a line (R51). -/
def tarnPlace (c q : Nat) : Nat × Nat := (c / 384, (q * 384 + c % 384) % 2 ^ 20)

def State.lineMeta (s : State) (l : Nat) : LineMeta := Sparse.get {} s.lines l

def State.modLine (s : State) (l : Nat) (f : LineMeta → LineMeta) : State :=
  { s with lines := Sparse.set {} s.lines l (f (s.lineMeta l)) }

/-- The bytes of a line as the levels hold them. -/
def State.lineData (s : State) (l : Nat) : LineData :=
  BitVec.ofNat 512 (bytesToNat (Memory.bytes s.mem (64 * l) 64))

def lineBytes (d : LineData) : List Byte := natToBytes 64 d.toNat

/-- Merge the bytes of a mask into a line. -/
def mergeLine (old new : LineData) (mask : BitVec 64) : LineData :=
  BitVec.ofNat 512 (bytesToNat ((List.range 64).map fun i => if mask.getLsbD i then byteOf new i else byteOf old i))

/-- Bytes `off` to `off + n - 1` of a line, zero-extended. -/
def lineField (d : LineData) (off n : Nat) : Word := BitVec.ofNat 64 (d.toNat / 2 ^ (8 * off) % 2 ^ (8 * n))

/-- A value placed at byte `off` of a line, and its mask. -/
def atByte (v : Nat) (off n : Nat) : LineData × BitVec 64 :=
  (BitVec.ofNat 512 (v % 2 ^ (8 * n) * 2 ^ (8 * off)), BitVec.ofNat 64 ((2 ^ n - 1) * 2 ^ off))

/-! Protection windows and groups. -/

/-- The enabled protection window that holds an address. -/
def State.windowAt (s : State) (pa : Nat) : Option ProtWindow :=
  s.pw.toList.find? fun w => w.ena && decide (w.base.toNat ≤ pa / 65536 ∧ pa / 65536 ≤ w.limit.toNat)

/-- The stripe of an address in a window (R27). -/
def ProtWindow.stripe (w : ProtWindow) (pa : Nat) : Nat := pa / 65536 - w.base.toNat

/-- The package's own unit of a stripe holds parity (R106). -/
def ProtWindow.parityUnit (w : ProtWindow) (st : Nat) : Bool :=
  decide (st % w.n.toNat = w.idx.toNat) || (w.q && decide ((st + 1) % w.n.toNat = w.idx.toNat))

def Group.member (g : Group) (m : Nat) : Nat := g.members.getD m 512

def State.group? (s : State) (pgid : Nat) : Option Group := s.groups.find? (·.pgid == pgid)

def State.modGroup (s : State) (pgid : Nat) (f : Group → Group) : State :=
  { s with groups := modWhere (·.pgid == pgid) f s.groups }

/-- The members that hold parity of a stripe, P first (R106). -/
def Group.parity (g : Group) (st : Nat) : List Nat := (st % g.n) :: (if g.q = 1 then [(st + 1) % g.n] else [])

/-- The lost members of a stripe: one being rebuilt is whole below the rebuild point (R116). -/
def Group.lostIn (g : Group) (st : Nat) : List Nat :=
  g.lost.filter fun m => match g.rebuild with
    | some (x, _, _, p) => !(x == m && decide (st < p))
    | none => true

/-- The live holders of a stripe's parity, P first (R106, R108). -/
def Group.holders (g : Group) (st : Nat) : List Nat := (g.parity st).filter fun m => !(g.lostIn st).contains m

/-- The members whose data unit of a stripe is lost (R113). -/
def Group.lostData (g : Group) (st : Nat) : List Nat := (g.lostIn st).filter fun m => !(g.parity st).contains m

/-- A lost stripe: more data units lost than live parity units (R113, R114, R118), or its parity is gone (R346). `extra` counts units
lost besides those of lost members. -/
def Group.stripeLost (g : Group) (st extra : Nat) : Bool :=
  g.gone.contains st || decide ((g.lostData st).length + extra > (g.holders st).length)

/-- A lost stripe lists the run of lost stripes around it: first and last (R114; assumption 142). -/
def Group.lostRun (g : Group) (st : Nat) : Nat × Nat :=
  let down := ((List.range st).reverse.takeWhile fun i => g.stripeLost i 0).length
  let up := ((List.range (g.k - 1 - st)).takeWhile fun i => g.stripeLost (st + 1 + i) 0).length
  (st - down, st + up)

/-- A protected data line of this package, with its group. -/
def State.protectedLine (s : State) (l : Nat) : Option (ProtWindow × Group) :=
  match s.windowAt (64 * l) with
  | none => none
  | some w =>
    if w.parityUnit (w.stripe (64 * l)) then none
    else (s.group? w.pgid.toNat).map fun g => (w, g)

/-- The package that a package number reaches (R116). -/
def State.redirect (s : State) (pkg : Nat) : Nat :=
  match s.redirects.find? (·.pkg == pkg) with
  | some e => e.target
  | none => pkg

/-- The group in which a package is a lost member (R114). -/
def State.lostGroup (s : State) (pkg : Nat) : Option Group :=
  s.groups.find? fun g => g.lost.any fun m => g.members.getD m 512 == pkg

/-- The stripe of a peer-window address in member `m`'s window; where that window begins on another package is
not stated here (R106; assumption 29). -/
def Group.peerStripe (g : Group) (m pa : Nat) : Nat := (pa - Config.peerBase) % 2 ^ 41 / 65536 - Config.windowBase g.pgid m

/-- A line of a lost member, in a stripe not yet rebuilt: group, member, stripe (R113, R116). It is named by a peer-window
address or, where this package is that member and rejoins, by one of its own window. -/
def State.lostAt (s : State) (pa : Nat) : Option (Group × Nat × Nat) :=
  match rangeOf pa with
  | .peer =>
    match s.lostGroup (peerOf pa) with
    | none => none
    | some g =>
      let m := g.members.idxOf (peerOf pa)
      let st := g.peerStripe m pa
      if (g.lostIn st).contains m then some (g, m, st) else none
  | .hbm =>
    match s.windowAt pa with
    | none => none
    | some w => (s.group? w.pgid.toNat).bind fun g =>
        if (g.lostIn (w.stripe pa)).contains g.index then some (g, g.index, w.stripe pa) else none
  | _ => none

/-- The byte offset of a lost member's line in that member's window. -/
def State.lostOffset (s : State) (g : Group) (m pa : Nat) : Nat :=
  if rangeOf pa = .peer then (pa - Config.peerBase) % 2 ^ 41 - Config.windowBase g.pgid m * 65536
  else match s.windowAt pa with | some w => pa - w.base.toNat * 65536 | none => 0

/-- A peer-window address that lies in the window of a redirected member. -/
def State.inRegion (s : State) (e : Redirect) (pa : Nat) : Bool :=
  let page := (pa - Config.peerBase) % 2 ^ 41 / 65536
  let first := Config.windowBase e.pgid e.member
  decide (first ≤ page) && match s.group? e.pgid with | some g => decide (page < first + g.k) | none => false

/-- Unprotected lines of a package are gone: it is lost, or another package stands at its addresses (R115, R116). -/
def State.unprotectedGone (s : State) (pkg : Nat) : Bool := (s.lostGroup pkg).isSome || s.redirect pkg != pkg

/-- The line at which a line has its home in this package's own copy: one of a lost package whose peer-window addresses
reach this package stands in the region rebuilt here (R116). -/
def State.homeLine (s : State) (l : Nat) : Nat :=
  let pa := 64 * l
  if rangeOf pa != .peer then l else
  match s.redirects.find? fun e => e.pkg == peerOf pa && e.target == s.pkgNo && s.inRegion e pa && (s.lostAt pa).isNone with
  | none => l
  | some e => (e.base * 65536 + ((pa - Config.peerBase) % 2 ^ 41 - Config.windowBase e.pgid e.member * 65536)) / 64

/-- This package is the reconstructor of a line of a lost member: the P holder if it is live, otherwise the Q holder
(R113). -/
def Group.reconstructs (g : Group) (st : Nat) : Bool := (g.holders st).head? == some g.index

/-- The home slice of a line is here: it is local or of the pool, was rebuilt here, or is reconstructed here (R48, R113,
R116). Another package or the host owns any other line. -/
def State.ours (s : State) (l : Nat) : Bool :=
  match s.lostAt (64 * l) with
  | some (g, _, st) => g.reconstructs st
  | none => match rangeOf (64 * l) with
    | .peer => s.homeLine l != l
    | .host => false
    | _ => true

end Sys2Proof.Machine
end

