-- ==== Sys2Proof/Machine/Parity.lean ====
section
/-! DEFINITION. Parity over GF(2^8) (R107), the units of a stripe that stand here, and what follows from the lines of a stripe (R113,
R118). -/

namespace Sys2Proof.Machine

/-- Multiply a byte by g = 0x02 modulo 0x11D (R107). -/
def gfTwice (b : Byte) : Byte := if b.getLsbD 7 then (b <<< 1) ^^^ 0x1D else b <<< 1

/-- Multiply a byte by g^i. -/
def gfScale : Nat → Byte → Byte
  | 0, b => b
  | n + 1, b => gfScale n (gfTwice b)

/-- The product of two bytes. -/
def gfMul (a b : Byte) : Byte :=
  (List.range 8).foldl (fun r i => if b.getLsbD i then r ^^^ gfScale i a else r) 0

/-- a^n. -/
def gfPow (a : Byte) : Nat → Byte
  | 0 => 1
  | n + 1 => gfMul a (gfPow a n)

/-- The inverse of a byte other than 0. -/
def gfInv (a : Byte) : Byte := gfPow a 254

def mapLine (f : Byte → Byte) (d : LineData) : LineData := BitVec.ofNat 512 (bytesToNat ((lineBytes d).map f))

/-- Multiply each byte of a line by g^i (R107). -/
def gfLine (i : Nat) (d : LineData) : LineData := mapLine (gfScale i) d

/-- The package's enabled window of a group. -/
def State.groupWindow (s : State) (pgid : Nat) : Option ProtWindow :=
  s.pw.toList.find? fun w => w.ena && w.pgid.toNat == pgid

/-- The line at byte `off` of a member's window, as this package reaches it. -/
def State.unitLine (w : ProtWindow) (g : Group) (m off : Nat) : Nat :=
  if m = w.idx.toNat then (w.base.toNat * 65536 + off) / 64
  else (Config.peerBase + g.members.getD m 0 * 2 ^ 41 + Config.windowBase g.pgid m * 65536 + off) / 64

/-- The data lines of a stripe from those that were read and the parity lines that were (R107, R113): the one that is missing is
the XOR with P, or follows from Q alone; of two, the equations of R107 are solved. -/
def dataLines (g : Group) (st : Nat) (got : List (Nat × LineData)) : List (Nat × LineData) :=
  let data := got.filter fun e => !(g.parity st).contains e.1
  let p := (got.find? (·.1 == st % g.n)).map fun e => data.foldl (fun d v => d ^^^ v.2) e.2
  let q := if g.q = 0 then none
    else (got.find? (·.1 == (st + 1) % g.n)).map fun e => data.foldl (fun d v => d ^^^ gfLine v.1 v.2) e.2
  match (List.range g.n).filter fun m => !(g.parity st).contains m && !data.any (·.1 == m), p, q with
  | [x], some d, _ => data ++ [(x, d)]
  | [x], none, some d => data ++ [(x, gfLine (255 - x) d)]
  | [x, y], some d, some e =>
    let v := mapLine (gfMul (gfInv (gfScale x 1 ^^^ gfScale y 1))) (e ^^^ gfLine y d)
    data ++ [(x, v), (y, d ^^^ v)]
  | _, _, _ => data

/-- A member's line of a stripe: a data line, or the parity line that follows from all the data lines (R106, R107). -/
def unitValue (g : Group) (st : Nat) (got : List (Nat × LineData)) (m : Nat) : Option LineData :=
  let ds := dataLines g st got
  if (g.parity st).contains m then
    (if (List.range g.n).all fun k => (g.parity st).contains k || ds.any (·.1 == k) then
      some (ds.foldl (fun d v => d ^^^ (if m = st % g.n then v.2 else gfLine v.1 v.2)) 0)
    else none)
  else (ds.find? (·.1 == m)).map (·.2)

/-- A line in the region that this package rebuilt for a lost member: group, member, byte offset in the window (R116). -/
def State.adopted (s : State) (l : Nat) : Option (Group × Nat × Nat) :=
  match s.redirects.find? fun e => e.target == s.pkgNo && decide (e.base ≤ 64 * l / 65536) &&
      (match s.group? e.pgid with | some g => decide (64 * l / 65536 < e.base + g.k) && e.member != g.index | none => false) with
  | none => none
  | some e => (s.group? e.pgid).map fun g => (g, e.member, 64 * l - e.base * 65536)

/-- The unit that holds a line at home here, in the package's own window or in a region that it rebuilt: window, group, member, byte
offset in the member's window (R106, R116). -/
def State.unitOf (s : State) (l : Nat) : Option (ProtWindow × Group × Nat × Nat) :=
  match s.windowAt (64 * l) with
  | some w => (s.group? w.pgid.toNat).map fun g => (w, g, g.index, 64 * l - w.base.toNat * 65536)
  | none => (s.adopted l).bind fun e => (s.groupWindow e.1.pgid).map fun w => (w, e.1, e.2.1, e.2.2)

/-- Such a unit that holds parity (R49, R106). -/
def State.parityLine (s : State) (l : Nat) : Bool :=
  match s.unitOf l with
  | some (_, g, m, off) => (g.parity (off / 65536)).contains m
  | none => false

/-- Such a unit that holds data of a member that is not lost. -/
def State.dataUnit (s : State) (l : Nat) : Option (ProtWindow × Group × Nat × Nat) :=
  (s.unitOf l).filter fun (_, g, m, off) => !(g.parity (off / 65536)).contains m && !(g.lostIn (off / 65536)).contains m

/-- The line at byte `off` of member `m`'s window where this package holds that unit: in its own window, or in the region
that it rebuilt for a lost member (R116). -/
def State.heldUnit (s : State) (w : ProtWindow) (g : Group) (m off : Nat) : Option Nat :=
  if m = g.index then some ((w.base.toNat * 65536 + off) / 64)
  else (s.redirects.find? fun e => e.pgid == g.pgid && e.member == m && e.target == s.pkgNo).map fun e =>
    (e.base * 65536 + off) / 64

/-- A parity line of a stripe that this package holds is locked (R113). -/
def State.parityLocked (s : State) (w : ProtWindow) (g : Group) (off : Nat) : Bool :=
  (g.parity (off / 65536)).any fun h => match s.heldUnit w g h off with
    | some l => s.locked.any (·.1 == l)
    | none => false

/-- A reconstruction of a line is asked for (R113); `State.runMend` makes it. -/
def State.startMend (s : State) (l : Nat) (use : MendUse) (pgid m off : Nat) : State :=
  { s with
    mendNo := s.mendNo + 1
    mends := s.mends ++ [{ id := s.mendNo, line := l, use := use, pgid := pgid, member := m, off := off, step := 0, locked := [],
                           owed := [], got := [], bad := [] }] }

/-- The same for a line here that an error has made unreadable, once (R118). -/
def State.mendOwn (s : State) (l level : Nat) : State :=
  match s.dataUnit l with
  | some (_, g, m, off) =>
    if s.mends.any fun e => e.line == l && (match e.use with | .own _ => true | _ => false) then s
    else s.startMend l (.own level) g.pgid m off
  | none => s

/-- A data line here that can be rebuilt although it is unreadable itself (R118). -/
def State.mendable (s : State) (l : Nat) : Bool :=
  match s.dataUnit l with
  | some (_, g, _, off) => !g.stripeLost (off / 65536) 1
  | none => false

end Sys2Proof.Machine
end

