-- ==== Sys2Proof/Machine/HomeMem.lean ====
section
/-! DEFINITION. The home of a line: its copies in L2, Tarn and HBM (R49 to R53, R376), errors and poison (R345
to R347), reads and writes at home, and the watches that a write satisfies (R293). -/

namespace Sys2Proof.Machine

/-! Page retirement and way quarantine (R347). -/

def State.pageRetired (s : State) (pa : Nat) : Bool := s.retPages.contains (pa / 65536)

/-- The page of an address is retired, or, the table being full, service is required. -/
def State.retirePage (s : State) (pa src unit_ : Nat) : State :=
  if s.pageRetired pa then s
  else if s.retPages.length < 1024 then
    { s with retPages := s.retPages ++ [pa / 65536] }.report { errRec 0x0013 src 2 unit_ with addr := pa / 65536 * 65536 }
  else s.report { errRec 0x0015 src 3 unit_ with addr := pa }

/-- The way that a failing line occupied is quarantined: level 0 L2, 1 Tarn. -/
def State.quarantine (s : State) (l level : Nat) : State :=
  let m := s.lineMeta l
  if level = 0 then
    let sl := homeSlice l
    if (s.quarL2.filter (·.1 == sl)).length < 32 then
      { s with quarL2 := s.quarL2 ++ [(sl, l2Set l, m.l2way)] }.report
        { errRec 0x0014 1 2 sl with addr := 64 * l, lo := l2Set l, detail := m.l2way }
    else s.report { errRec 0x0015 1 3 sl with addr := 64 * l }
  else
    let p := s.place l
    let h := tarnPlace p.1 p.2
    if (s.quarTarn.filter (·.1 == h.1)).length < 256 then
      { s with quarTarn := s.quarTarn ++ [(h.1, h.2, m.tway)] }.report
        { errRec 0x0014 2 2 h.1 with addr := 64 * l, lo := h.2, detail := m.tway }
    else s.report { errRec 0x0015 2 3 h.1 with addr := 64 * l }

/-! Dirty lines that fail (R346). -/

/-- Every team and job of an ASID ends (R346, step 2; R338). -/
def State.endAsid (s : State) (owner : BitVec 16) : State :=
  let s1 := s.teams.foldl (fun u t => if t.asid == owner then u.terminateTeam t.id none else u) s
  let stop := modWhere (fun j : CopyJob => j.bulk && j.asid == owner) fun j => { j with stopped := true }
  { s1 with
    jobs := modWhere (fun j : Job => j.asid == owner && (j.cmd == 1 || j.cmd == 2)) (fun j => { j with failed := true }) s1.jobs
    bces := s1.bces.map fun b : Bce => { b with near := stop b.near, pool := stop b.pool } }

/-- The records of reason 0x0012: one for each team and COPY job of the owner that ends, or one that names the ASID alone. -/
def State.ownerRecords (s : State) (owner : BitVec 16) (r : ErrRec) : List ErrRec :=
  let ts := (s.teams.filter fun t => t.asid == owner && !t.dead && t.tasks.any fun k => !k.ended).map fun t =>
    { r with queue := t.queue.val, team := t.id }
  let js := (s.jobs.filter fun j => j.asid == owner && j.cmd == 2 && !j.failed && (j.st == .waiting || j.st == .ready || j.st == .placed)).map
    fun j => { r with queue := j.queue.val }
  if ts.isEmpty && js.isEmpty then [r] else ts ++ js

/-- The teams and jobs that a dirty line's error ends (R346): those of its owner, or, its owner tag being unreadable, every team of
the line's world. -/
def State.endOwner (s : State) (l : Nat) (owner : Option (BitVec 16)) (r : ErrRec) : State :=
  match owner with
  | some o => ((s.ownerRecords o { r with asid := o.toNat }).foldl (fun (u : State) e => u.report e) s).endAsid o
  | none =>
    let ts := s.teams.filter fun t => t.sec == s.secureAt (64 * l) && !t.dead && t.tasks.any fun k => !k.ended
    let rs := if ts.isEmpty then [r] else ts.map fun t => { r with queue := t.queue.val, team := t.id, asid := t.asid.toNat }
    ts.foldl (fun u t => u.terminateTeam t.id none) (rs.foldl (fun (u : State) e => u.report e) s)

/-- An uncorrectable error in a dirty line: the owner's teams end, the line is poisoned, its page retired and
its way quarantined; a parity line is recomputed instead of poisoned while its stripe allows it, and the stripe is lost where it has
lost a unit. Level 0 is L2, 1 Tarn, 2 a view cache. -/
def State.dirtyFail (s : State) (l level : Nat) (owner : Option (BitVec 16)) : State :=
  let m := s.lineMeta l
  let src := if level = 0 then 1 else if level = 1 then 2 else 0
  let unit_ := if level = 1 then (tarnPlace (s.place l).1 (s.place l).2).1 else homeSlice l
  let lost : Option (Nat × Nat) := match s.unitOf l with
    | some (_, g, _, off) => if (g.lostIn (off / 65536)).isEmpty then none else some (g.pgid, off / 65536)
    | none => none
  let s1 : State :=
    if (if level = 0 then m.parity else level == 1 && m.tparity) then
      match lost with
      | some (pgid, st) =>
        ((s.modLine l fun x => { x with poison := true }).modGroup pgid fun g =>
          { g with gone := if g.gone.contains st then g.gone else g.gone ++ [st] }).report
          { errRec 0x0034 src 2 unit_ with addr := 64 * l, lo := st, hi := st, flags := 0x20 }
      | none => s
    else
      ((s.endOwner l owner { errRec 0x0012 src 2 unit_ with addr := 64 * l }).modLine l fun x => { x with poison := true }).report
        { errRec 0x0010 src 2 unit_ with addr := 64 * l }
  let s2 := s1.modLine l fun x => { x with errL2 := 0, errTarn := 0 }
  let s3 := s2.retirePage (64 * l) src unit_
  if level = 2 then s3 else s3.quarantine l level

/-- An uncorrectable error where a line is not dirty, at level 1 L2, 2 Tarn, 3 HBM (R345, R118): a protected data line is rebuilt,
the error standing until then, or poisoned where its stripe does not allow it; any other line is poisoned at HBM, and `refetch` is
what becomes of a clean copy. -/
def State.cleanFail (s : State) (l level : Nat) (refetch : State) : State :=
  if s.mendable l then s.mendOwn l level
  else if level = 3 ∨ (s.dataUnit l).isSome then
    (s.modLine l fun x => if level = 3 then { x with poison := true, errHbm := 0 }
      else if level = 2 then { x with poison := true, errTarn := 0 } else { x with poison := true, errL2 := 0 }).report
      { errRec 0x0010 level 2 (if level = 1 then homeSlice l else if level = 2 then (tarnPlace (s.place l).1 (s.place l).2).1 else (s.place l).1) with
        addr := 64 * l }
  else refetch

/-! Allocation (R376, R51). -/

/-- The ways of a die's log partition (R50): the ring slots and the fixed logs, in units of 1.5 MiB, over 32 MiB. -/
def State.logWays (s : State) (die : Nat) : Nat :=
  let fixed := if die = 0 then 10 else 2
  ((32 * s.ringSlot.toList.getD die 2 + fixed) * 3 + 63) / 64

/-- Some way among the allowed ones: the lowest one not in use, or a victim that is not fixed
(assumption 16). -/
def State.chooseWay (s : State) (allowed used : List Nat) : Option Nat × State :=
  match allowed.find? fun w => !used.contains w with
  | some w => (some w, s)
  | none =>
    match allowed with
    | [] => (none, s)
    | w :: _ => let (k, s1) := s.draw allowed.length; (some (allowed.getD k w), s1)

/-- The line leaves Tarn; a dirty one is written to HBM, in the place of whatever was wrong there, and an error found at that read of it has the steps of R346. -/
def State.evictTarn (s : State) (l : Nat) : State :=
  let s0 := if (s.lineMeta l).tarn == .dirty then s.einjLine 1 l else s
  let m := s0.lineMeta l
  let s1 := if m.tarn == .dirty && m.errTarn == 3 then s0.dirtyFail l 1 (some m.towner) else s0
  s1.modLine l fun x =>
    { x with tarn := .invalid, tway := 0, errTarn := 0, tparity := false, errHbm := if m.tarn == .dirty then 0 else x.errHbm }

/-- Allocate a line in its Tarn half, with the owner tag of the ASID whose access brings it in. -/
def State.fillTarn (s : State) (l : Nat) (dirty : Bool) (asid : BitVec 16) : State :=
  let p := s.place l
  let h := tarnPlace p.1 p.2
  if (s.lineMeta l).tarn != .invalid then
    if dirty then s.modLine l fun x => { x with tarn := .dirty, towner := x.owner, tparity := x.parity, errTarn := 0 } else s
  else
    let peers := s.lines.filter fun e => e.2.tarn != .invalid && decide (tarnPlace (s.place e.1).1 (s.place e.1).2 = h)
    let allowed := (List.range 24).filter fun w => !s.quarTarn.contains (h.1, h.2, w)
    match s.chooseWay allowed (peers.map (·.2.tway)) with
    | (none, s1) => s1
    | (some w, s1) =>
      let s2 := (peers.filter (·.2.tway == w)).foldl (fun u e => u.evictTarn e.1) s1
      s2.modLine l fun x =>
        { x with
          tarn := if dirty then .dirty else .clean, tway := w, towner := if dirty then x.owner else asid
          tparity := if dirty then x.parity else s2.parityLine l }

/-- The line leaves L2: a dirty local line is written to Tarn (R51), a dirty line of another range to its
device; an error found at that read of it has the steps of R346. -/
def State.evictL2 (s : State) (l : Nat) : State :=
  let s0 := if (s.lineMeta l).l2 == .dirty then s.einjLine 0 l else s
  let m := s0.lineMeta l
  let s1 := if m.l2 == .dirty && m.errL2 == 3 then s0.dirtyFail l 0 (some m.owner) else s0
  let s2 := if m.l2 == .dirty && rangeOf (64 * l) == .hbm then s1.fillTarn l true m.owner else s1
  s2.modLine l fun x => { x with l2 := .invalid, l2way := 0, errL2 := 0, parity := false }

/-- Allocate a line in its home slice (R376): ways of the log partition and quarantined ways are left out. -/
def State.fillL2 (s : State) (l : Nat) (asid : BitVec 16) : State :=
  if (s.lineMeta l).l2 != .invalid then s else
  let sl := homeSlice l
  let st := l2Set l
  let peers := s.lines.filter fun e => e.2.l2 != .invalid && homeSlice e.1 == sl && l2Set e.1 == st
  let first := s.logWays (sl / 32)
  let allowed := (List.range 16).filter fun w => decide (first ≤ w) && !s.quarL2.contains (sl, st, w)
  match s.chooseWay allowed (peers.map (·.2.l2way)) with
  | (none, s1) => s1
  | (some w, s1) =>
    let s2 := (peers.filter (·.2.l2way == w)).foldl (fun u e => u.evictL2 e.1) s1
    s2.modLine l fun x =>
      { x with
        l2 := .clean, l2way := w, sec := s2.secureAt (64 * l), owner := asid, parity := s2.parityLine l, epoch := s2.epoch }

/-! Reading at home. -/

/-- An access of a line at HBM: an error stored there is found. -/
def State.probeHbm (s : State) (l : Nat) : State :=
  let s0 := s.einjLine 2 l
  match (s0.lineMeta l).errHbm with
  | 0 => s0
  | 3 => s0.cleanFail l 3 s0
  | _ => s0.modLine l fun x => { x with errHbm := 0 }

/-- An access of a line at Tarn, which fills it (R51). -/
def State.probeTarn (s : State) (l : Nat) (asid : BitVec 16) : State :=
  if rangeOf (64 * l) != .hbm then s else
  let s0 := if (s.lineMeta l).tarn == .invalid then s else s.einjLine 1 l
  let m := s0.lineMeta l
  if m.tarn == .invalid then (s0.probeHbm l).fillTarn l false asid
  else match m.errTarn with
    | 0 => s0
    | 3 =>
      if m.tarn == .dirty then s0.dirtyFail l 1 (some m.towner)
      else s0.cleanFail l 2 (((s0.evictTarn l).probeHbm l).fillTarn l false asid)
    | _ => s0.modLine l fun x => { x with errTarn := 0 }

/-- An access of a line at its home slice: an error is corrected, found in a clean copy that is discarded and
fetched again, or found in a dirty one; a peer copy older than the remote-acquire epoch is fetched
again (R72, R345, R346). -/
def State.probe (s : State) (l : Nat) (asid : BitVec 16) : State :=
  let s0 := if (s.lineMeta l).l2 == .invalid then s else s.einjLine 0 l
  let m := s0.lineMeta l
  if m.l2 == .invalid then (s0.probeTarn l asid).fillL2 l asid
  else if m.l2 == .clean && rangeOf (64 * l) == .peer && decide (m.epoch < s0.epoch) then
    ((s0.evictL2 l).probeTarn l asid).fillL2 l asid
  else match m.errL2 with
    | 0 => s0
    | 3 =>
      if m.l2 == .dirty then s0.dirtyFail l 0 (some m.owner)
      else s0.cleanFail l 1 (((s0.evictL2 l).probeTarn l asid).fillL2 l asid)
    | _ => s0.modLine l fun x => { x with errL2 := 0 }

/-- Read a line at home: its data and its poison. -/
def State.homeRead (s : State) (line : Nat) (asid : BitVec 16) : LineData × Bool × State :=
  let l := s.homeLine line
  let s1 := s.probe l asid
  (s1.lineData l, (s1.lineMeta l).poison, s1)

/-! Writing at home. -/

/-- Watch entries on a word that a write changes are satisfied: the notice goes to the context (R293). -/
def State.noticeWatches (s : State) (l : Nat) (data : LineData) : State :=
  s.watchTab.foldl (fun u w =>
    let e := (u.ctxOf w.arr w.ctx).watch[w.entry.toNat]'w.entry.isLt
    if e.armed && e.pa / 64 == l && lineField data (e.pa % 64) e.size != e.value then
      u.soon (.watchSatisfy w.arr w.ctx w.entry) else u)
    (s.peerWatch.foldl (fun (u : State) w =>
      if w.2.1 / 64 == l && lineField data (w.2.1 % 64) w.2.2.1 != w.2.2.2 then
        { u with peerWatch := u.peerWatch.erase w }.send (.changed w.1 w.2.1)
      else u) s)

/-- A line that L2 can hold dirty: one of this package's HBM or of the pool. Lines of other packages and of the host are held
only as clean copies (R48, R51, R83). -/
def writesBack (l : Nat) : Bool := rangeOf (64 * l) == .hbm || rangeOf (64 * l) == .pool

/-- Write the bytes of a mask at home (R71, R83), with the owner tag of the writer and no parity flag (R49). `clears`: a
full-line fold or copy write, which clears poison (R345). -/
def State.homeWrite (s : State) (line : Nat) (mask : BitVec 64) (data : LineData) (asid : BitVec 16) (clears : Bool) :
    State :=
  let l := s.homeLine line
  let s1 := s.probe l asid
  let s2 := { s1 with mem := Memory.storeMask s1.mem (64 * l) mask.toNat (lineBytes data) 0 }
  let s3 := s2.modLine l fun x =>
    { x with
      l2 := if x.l2 == .invalid || !writesBack l then x.l2 else .dirty
      owner := asid, parity := false
      poison := x.poison && !(clears && mask == BitVec.allOnes 64) }
  s3.noticeWatches l (s3.lineData l)

/-- Write `n` bytes of a value inside one line. -/
def State.homeStore (s : State) (pa v n : Nat) (asid : BitVec 16) : State :=
  let (d, m) := atByte v (pa % 64) n
  s.homeWrite (pa / 64) m d asid false

/-! Lines of other owners. -/

/-- A line that another owner has just given is here as a clean copy of this remote-acquire epoch (R48, R72). -/
def State.fetched (s : State) (l : Nat) (data : LineData) (poison : Bool) (asid : BitVec 16) : State :=
  let s1 := (s.evictL2 l).fillL2 l asid
  { s1 with mem := Memory.storeMask s1.mem (64 * l) (2 ^ 64 - 1) (lineBytes data) 0 }.modLine l fun x => { x with poison := poison }

/-- What this package knows of another owner's line after a write there that it has been told of: a watch on it is satisfied. -/
def State.known (s : State) (l : Nat) (mask : BitVec 64) (data : LineData) : State :=
  let s1 := { s with mem := Memory.storeMask s.mem (64 * l) mask.toNat (lineBytes data) 0 }
  s1.noticeWatches l (s1.lineData l)

/-- The slice holds a copy of another owner's line that a lookup finds (R72). -/
def State.copyHere (s : State) (l : Nat) : Bool :=
  let m := s.lineMeta l
  m.l2 != .invalid && decide (s.epoch ≤ m.epoch)

/-- The level at which a read of a line here would meet an uncorrectable error that it is rebuilt for (R118), 0 for none; an armed
injection there is placed by it (R351). -/
def State.failLevel (s : State) (l : Nat) : Nat × State :=
  if !s.mendable l then (0, s) else
  let s0 := if (s.lineMeta l).l2 == .invalid then s else s.einjLine 0 l
  if (s0.lineMeta l).l2 != .invalid then (if (s0.lineMeta l).l2 != .dirty ∧ (s0.lineMeta l).errL2 = 3 then 1 else 0, s0) else
  let s1 := if (s0.lineMeta l).tarn == .invalid then s0 else s0.einjLine 1 l
  if (s1.lineMeta l).tarn != .invalid then (if (s1.lineMeta l).tarn != .dirty ∧ (s1.lineMeta l).errTarn = 3 then 2 else 0, s1) else
  let s2 := s1.einjLine 2 l
  (if (s2.lineMeta l).errHbm = 3 then 3 else 0, s2)

/-- A lost member's data line that this package reconstructs (R113). -/
def State.restores (s : State) (l : Nat) : Bool :=
  match s.lostAt (64 * l) with
  | some (g, m, st) => g.reconstructs st && !(g.parity st).contains m && !g.stripeLost st 0
  | none => false

/-- A read of a line at its home slice here has to wait for the line's reconstruction: a lost member's, of which the slice has no
copy, or one that is unreadable here (R113, R118). -/
def State.needsMend (s : State) (line : Nat) : Bool :=
  if (s.lostAt (64 * line)).isSome then s.restores line && !s.copyHere line
  else decide ((s.failLevel (s.homeLine line)).1 ≠ 0)

/-- What such a read does: the reconstruction is asked for. None: it has been, and the read waits. -/
def State.awaitMend (s : State) (line : Nat) : Option State :=
  match s.lostAt (64 * line) with
  | some (g, m, _) =>
    if s.mends.any fun e => e.line == line && e.use == .read then none
    else some (s.startMend line .read g.pgid m (s.lostOffset g m (64 * line)))
  | none =>
    let (k, s1) := s.failLevel (s.homeLine line)
    let s2 := s1.mendOwn (s.homeLine line) k
    if k = 0 ∨ s2.mendNo = s.mendNo then none else some s2

/-- Write back whatever the levels hold dirty of a line, leaving it in HBM (R371, R134). -/
def State.flushLine (s : State) (l : Nat) : State := ((s.probe l (s.lineMeta l).owner).evictL2 l).evictTarn l

/-! Steps that find an error on their own (R345, R346). -/

/-- UNCORRECTABLE_READ (R345): a line is read with an uncorrectable error at level 0 (L2), 1 (Tarn) or 2 (HBM). -/
def execUncorrectableRead (line : Nat) (level : BitVec 2) (s : State) : Out :=
  let s1 := s.modLine line fun x =>
    if level = 0 then { x with errL2 := if x.l2 == .invalid then 0 else 3 }
    else if level = 1 then { x with errTarn := if x.tarn == .invalid then 0 else 3 }
    else { x with errHbm := 3 }
  let asid := (s.lineMeta line).owner
  .next (if level = 0 then s1.probe line asid else if level = 1 then s1.probeTarn line (s.lineMeta line).towner else s1.probeHbm line)

/-- DIRTY_LINE_ERROR (R346): an uncorrectable error in a dirty line of L2 (0) or Tarn (1), or one that leaves the line's owner tag
there unreadable as well (2, 3; assumption 21). A line that is not dirty there has no such error. -/
def execDirtyLineError (line : Nat) (level : BitVec 2) (s : State) : Out :=
  let m := s.lineMeta line
  let tarn := level.getLsbD 0
  let dirty := if tarn then m.tarn == .dirty else m.l2 == .dirty
  let owner := if level.getLsbD 1 then none else some (if tarn then m.towner else m.owner)
  .next (if dirty then s.dirtyFail line tarn.toNat owner else s)

end Sys2Proof.Machine
end

