-- ==== Sys2Proof/Machine/Ports.lean ====
section
/-! DEFINITION. The ports of the die crossbars (R55), and the packets that an access to a slice sends (R56, R57; assumption 5). -/

namespace Sys2Proof.Machine

/-! Ports (R55). -/

def portArray (a : ArrId) (p : Nat) : Nat := a.val % 8 * 4 + p
def portSlice (slice : Nat) : Nat := 32 + slice % 32
def portBce (e : Nat) (write : Bool) : Nat := 72 + 2 * (e % 2) + if write then 1 else 0
def portScheduler : Nat := 76
def portHost (write : Bool) : Nat := if write then 78 else 77
def portBase : Nat := 79

/-- A lateral port of die `d` toward die `e`. -/
def portLateral (d e k : Nat) : Nat :=
  if e = d ^^^ 1 then 64 + k % 4 else if e = d ^^^ 2 then 68 + k % 2 else 70 + k % 2

/-- The path of a packet from a port of die `d` to a port of die `e`: one crossbar, or two. -/
def xpath (d port e port' k : Nat) : List (Nat × Nat × Nat) :=
  if d = e then [(d, port, port')] else [(d, port, portLateral d e k), (e, portLateral e d k, port')]

/-- A packet joins the queue of the first crossbar of its path. -/
def State.sendPacket (s : State) (path : List (Nat × Nat × Nat)) (prio bytes : Nat) (resp : Bool) : State :=
  match path with
  | [] => s
  | (d, i, e) :: rest =>
    if h : d < 4 then
      let p : Packet := ⟨s.packetNo, d, i, e, prio, 0, resp, min 256 bytes, rest⟩
      { s with
        packetNo := s.packetNo + 1
        xbars := s.xbars.set d { s.xbars[d] with queue := s.xbars[d].queue ++ [p] } h }
    else s

/-- A request and its response between a port and a slice, of `out` and `back` bytes. -/
def State.traffic (s : State) (die port slice prio out back : Nat) : State :=
  let k := s.packetNo
  (s.sendPacket (xpath die port (slice / 32) (portSlice slice) k) prio out false).sendPacket
    (xpath (slice / 32) (portSlice slice) die port k) prio back true

/-- The view cache of an array asks a slice for a line for one of its contexts, or writes one back to it, at the priority of the
context's queue (R57). -/
def State.viewTraffic (s : State) (a : ArrId) (c : CtxId) (l out back : Nat) : State :=
  s.traffic (ArrId.die a) (portArray a 0) (homeSlice l) (s.queue (s.ctxOf a c).queue).prio.toNat out back

/-- The issuer of a copy: its context, or, while its task is pre-empted, what the task keeps (R330, R81). -/
def State.issuer (s : State) (j : CopyJob) : Ctx :=
  if !j.away then s.ctxOf j.arr j.ctx else
  match s.team? j.team with
  | none => {}
  | some t =>
    let r := match t.tasks.find? (·.rank == j.rank.toNat) with | some k => k.ring | none => 0
    { team := BitVec.ofNat 16 t.id, rank := j.rank, queue := t.queue.val, asid := j.asid, sec := j.sec, image := t.image, ring := r }

/-- The priority of a copy's packets: that of its issuer's queue, or of its job's (R57). -/
def State.copyPrio (s : State) (j : CopyJob) : Nat :=
  if j.bulk then (match s.job? j.job with | some k => (s.queue k.queue.val).prio.toNat | none => 0)
  else (s.queue (s.issuer j).queue).prio.toNat

/-- The port on which a requester's table walk reads, its die, and its priority: R55 gives the walkers none of their own
(assumption 5). -/
def State.seekerPort (s : State) : Seeker → Nat × Nat × Nat
  | .ctx a c => (ArrId.die a, portArray a 0, (s.queue (s.ctxOf a c).queue).prio.toNat)
  | .copy e pool =>
    let prio := match s.copyQ e pool with | j :: _ => s.copyPrio j | [] => 0
    if h : e < 32 then (ArrId.die ⟨e, h⟩, portArray ⟨e, h⟩ 1, prio) else ((e - 32) / 2 % 4, portBce e false, prio)
  | .host _ => (0, portHost false, 0)

/-- A table walk reads an entry. -/
def State.walkTraffic (s : State) (who : Seeker) (pa : Nat) : State :=
  let (die, port, prio) := s.seekerPort who
  s.traffic die port (homeSlice (pa / 64)) prio 0 8

end Sys2Proof.Machine
end

