-- ==== Sys2Proof/Machine/Translate.lean ====
section
/-! DEFINITION. Translation of a DVA (R14, R121 to R126), page kinds (R21), the checks of a physical access
(R15, R16, R22, R23, R30, R114, R133, R347). -/

namespace Sys2Proof.Machine

/-! Entries (R122). -/

def leafKind (e : BitVec 64) : Nat := (e.extractLsb' 2 3).toNat
def leafW (e : BitVec 64) : Bool := e.getLsbD 5
def leafX (e : BitVec 64) : Bool := e.getLsbD 6
def leafWp (e : BitVec 64) : Bool := e.getLsbD 7
def leafPa (e : BitVec 64) : Nat := (e.extractLsb' 16 36).toNat * 65536
def leafRank (e : BitVec 64) : Nat := (e.extractLsb' 52 12).toNat + 4096 * (e.extractLsb' 14 2).toNat

/-- The page kind of a code (R21). -/
def kindOf (n : Nat) : Option Kind :=
  match n with
  | 0 => some .logged
  | 1 => some .prot
  | 2 => some .sync
  | 3 => some .owned
  | 4 => some .host
  | 5 => some .pool
  | _ => none

def Kind.isLogged : Kind → Bool
  | .logged | .prot | .pool => true
  | _ => false

def Kind.code : Kind → Nat
  | .logged => 0 | .prot => 1 | .sync => 2 | .owned => 3 | .host => 4 | .pool => 5

/-- A table of 64 KiB lies in backed local HBM (R122). -/
def State.tableOk (s : State) (base : Nat) : Bool := decide (base + 65536 ≤ s.visible)

/-- The page a leaf maps is wholly in its kind's range (R21, R106). -/
def State.kindFits (s : State) (e : BitVec 64) (big : Bool) : Bool :=
  let pa := leafPa e
  let size := if big then 2 ^ 29 else 65536
  let last := pa + size - 1
  let inHbm := rangeOf pa == .hbm && rangeOf last == .hbm
  let inPeer := rangeOf pa == .peer
  let p0 := pa / 65536
  let p1 := last / 65536
  let outside := s.pw.toList.all fun w => !w.ena || decide (p1 < w.base.toNat ∨ w.limit.toNat < p0)
  match kindOf (leafKind e) with
  | none => false
  | some .logged | some .sync => (inHbm && outside) || inPeer
  | some .owned => inHbm && outside
  | some .host => rangeOf pa == .host
  | some .pool => rangeOf pa == .pool
  | some .prot =>
    inPeer || (inHbm && s.pw.toList.any fun w =>
      w.ena && decide (w.base.toNat ≤ p0 ∧ p1 ≤ w.limit.toNat) &&
      (List.range (p1 - p0 + 1)).all fun i => !w.parityUnit (p0 + i - w.base.toNat))

/-- Translation fault codes (R126). -/
def fPermission : Nat := 0x02
def fKind : Nat := 0x03
def fSelfPeer : Nat := 0x04
def fMalformed : Nat := 0x05
def fWorld : Nat := 0x06
def fOwner : Nat := 0x07
def fExtent : Nat := 0x08
def fPhys : Nat := 0x14
def fPkgLost : Nat := 0x1E
def fStripe : Nat := 0x1F
/-- No fault: a walk is under way. -/
def fWalking : Nat := 0x100

/-- An entry as it stands in table memory: a non-secure walk of a secure table address aborts (R125). -/
def State.walkRead (s : State) (sec : Bool) (addr : Nat) : Option (BitVec 64) :=
  if !sec && s.secureAt addr then none
  else some (BitVec.ofNat 64 (bytesToNat (Memory.bytes s.mem addr 8)))

/-- What an entry of a level is. -/
inductive Entry where
  | table (base : Nat)
  | leaf (e : BitVec 64)
  | bad (code : Nat)
  deriving DecidableEq, Repr

/-- The form of an entry at level 1, 2 or 3 (R122). -/
def State.readEntry (s : State) (level : Nat) (e : BitVec 64) : Entry :=
  match (e.extractLsb' 0 2).toNat with
  | 0 => .bad fNotPresent
  | 1 =>
    if level = 3 ∨ e.extractLsb' 2 14 ≠ 0 ∨ e.extractLsb' 52 12 ≠ 0 ∨ !s.tableOk (leafPa e) then .bad fMalformed
    else .table (leafPa e)
  | 2 =>
    if level = 1 ∨ e.extractLsb' 8 6 ≠ 0 ∨ (level = 2 ∧ leafPa e % 2 ^ 29 ≠ 0) ∨ (leafKind e ≠ 3 ∧ leafRank e ≠ 0) then
      .bad fMalformed
    else .leaf e
  | _ => .bad fMalformed

/-- The index of a DVA at a level (R14). -/
def dvaIndex (dva level : Nat) : Nat := dva / 2 ^ (55 - 13 * level) % 8192

/-- The levels of a walk from a table base: the leaf and whether it is a 512 MiB leaf, or a fault. -/
def State.walkFrom (s : State) (sec : Bool) (dva : Nat) : Nat → Nat → Nat → Except Nat (BitVec 64 × Bool)
  | 0, _, _ => .error fMalformed
  | fuel + 1, level, base =>
    match s.walkRead sec (base + 8 * dvaIndex dva level) with
    | none => .error fWorld
    | some e =>
      match s.readEntry level e with
      | .bad c => .error c
      | .leaf l => .ok (l, level == 2)
      | .table b => State.walkFrom s sec dva fuel (level + 1) b

/-- A leaf that a walk has found: its kind against its range, and self-peer (R125, checks 3 and 4). -/
def State.leafCheck (s : State) (e : BitVec 64) (big : Bool) : Except Nat (BitVec 64 × Bool) :=
  if !s.kindFits e big then .error fKind
  else if rangeOf (leafPa e) == .peer && peerOf (leafPa e) == s.pkgNo then .error fSelfPeer
  else .ok (e, big)

/-- What a root entry is (R121, R125). -/
def State.readRoot (s : State) (sec : Bool) (r : BitVec 64) : Entry :=
  match (r.extractLsb' 0 2).toNat with
  | 0 => .bad fNotPresent
  | 1 =>
    if r.getLsbD 2 != sec then .bad fWorld
    else if r.extractLsb' 3 13 ≠ 0 ∨ r.extractLsb' 52 12 ≠ 0 ∨ !s.tableOk (leafPa r) then .bad fMalformed
    else .table (leafPa r)
  | _ => .bad fMalformed

/-- A translation as the tables stand (R121, R125): root, entries, kind, self-peer. It is what a walk finds when nothing
changes under it, and what the base controller and the work scheduler use for their own accesses. -/
def State.walk (s : State) (asid : BitVec 16) (sec : Bool) (dva : Nat) : Except Nat (BitVec 64 × Bool) :=
  if !s.atbrEna then .error fNotPresent else
  let at_ := s.atbrBase.toNat * 65536 + 8 * asid.toNat
  if at_ + 8 > s.visible then .error fMalformed else
  match s.walkRead sec at_ with
  | none => .error fWorld
  | some r =>
    match s.readRoot sec r with
    | .bad c => .error c
    | .leaf _ => .error fMalformed
    | .table b =>
      match s.walkFrom sec dva 3 1 b with
      | .error c => .error c
      | .ok (e, big) => s.leafCheck e big

/-! Translation caches (R123). -/

def TcEntry.hits (t : TcEntry) (asid : BitVec 16) (sec : Bool) (dva : Nat) : Bool :=
  t.asid == asid && t.sec == sec && t.page == (if t.big then dva / 2 ^ 29 else dva / 65536)

/-- An entry is used: once every entry of a full place of `n` has been used, only this one counts as used (R123). -/
def tcUse (l : List TcEntry) (t : TcEntry) (same : TcEntry → Bool) (n : Nat) : List TcEntry :=
  let is := fun u : TcEntry => u.asid == t.asid && u.sec == t.sec && u.page == t.page && u.big == t.big
  let l1 := modWhere is (fun u => { u with used := true }) l
  if decide (n ≤ (l1.filter same).length) && (l1.filter same).all (·.used) then
    l1.map fun u => if same u && !is u then { u with used := false } else u
  else l1

/-- Install an entry among at most `n` that share its place, over one that has not been used of late; which of these is not
fixed (assumption 16). -/
def State.install (s : State) (l : List TcEntry) (t : TcEntry) (same : TcEntry → Bool) (n : Nat) :
    List TcEntry × State :=
  let peers := l.filter same
  if peers.length < n then (tcUse (l ++ [t]) t same n, s)
  else
    let idle := peers.filter (!·.used)
    let (k, s1) := s.draw (max 1 idle.length)
    match idle[k]? with
    | some v => (tcUse (l.erase v ++ [t]) t same n, s1)
    | none => (l, s1)

/-- The set of a 64 KiB translation in a die cache. -/
def tcSet (t : TcEntry) : Nat := (t.page % 512) ^^^ (t.asid.toNat % 512)

/-- The entries of a die's cache that share a place: 512 sets of 31 ways for 64 KiB pages, 512 entries for 512 MiB pages. -/
def dieSame (t u : TcEntry) : Bool := u.big == t.big && (t.big || tcSet u == tcSet t)
def dieWays (t : TcEntry) : Nat := if t.big then 512 else 31

def State.installDie (s : State) (die : Fin 4) (t : TcEntry) : State :=
  let (l, s1) := s.install s.dieTc[die] t (dieSame t) (dieWays t)
  { s1 with dieTc := s1.dieTc.set die.val l die.isLt }

def State.installArr (s : State) (a : ArrId) (t : TcEntry) : State :=
  let (l, s1) := s.install (s.arr a).tc t (fun _ => true) 256
  s1.modArr a fun x => { x with tc := l }

/-- The die of an array. -/
def dieOf (a : ArrId) : Fin 4 := ⟨a.val / 8, by omega⟩

/-- The array whose translation cache a requester looks up, and its die: a bulk copy engine and a host function have no such
cache, and host functions use die 0. -/
def Seeker.array : Seeker → Option ArrId
  | .ctx a _ => some a
  | .copy e _ => if h : e < 32 then some ⟨e, h⟩ else none
  | .host _ => none

def Seeker.die : Seeker → Fin 4
  | .ctx a _ => dieOf a
  | .copy e _ => if h : e < 32 then dieOf ⟨e, h⟩ else ⟨(e - 32) / 2 % 4, by omega⟩
  | .host _ => 0

/-- SRC and UNIT of a requester's records (R348). -/
def Seeker.source : Seeker → Nat × Nat
  | .ctx a _ => (0, a.val)
  | .copy e _ => if e < 32 then (0, e) else (10, e - 32)
  | .host fn => (8, fn.val)

/-- The walk that a requester has under way for a page. -/
def State.walkOf (s : State) (who : Seeker) (asid : BitVec 16) (sec : Bool) (dva : Nat) : Option TableWalk :=
  s.walks.find? fun w => w.who == who && w.asid == asid && w.sec == sec && w.dva / 65536 == dva / 65536

/-- Translate for a requester (R123): its array's cache, the die's cache, or a walk. With translation off nothing is present
(R121). The code fWalking says that the walk is under way, or waits for one of its walker's 64 slots. -/
def State.leafFor (s : State) (who : Seeker) (asid : BitVec 16) (sec : Bool) (dva : Nat) : Except Nat (BitVec 64 × Bool) × State :=
  if !s.atbrEna then (.error fNotPresent, s) else
  let die := who.die
  match who.array.bind fun x => ((s.arr x).tc.find? fun t : TcEntry => t.hits asid sec dva).map fun t => (x, t) with
  | some (x, t) => (.ok (t.leaf, t.big), s.modArr x fun y => { y with tc := tcUse y.tc t (fun _ => true) 256 })
  | none =>
    match s.dieTc[die].find? (fun t : TcEntry => t.hits asid sec dva) with
    | some t =>
      let s1 := { s with dieTc := s.dieTc.set die.val (tcUse s.dieTc[die] t (dieSame t) (dieWays t)) die.isLt }
      (.ok (t.leaf, t.big), match who.array with | some x => s1.installArr x { t with used := false } | none => s1)
    | none =>
      match s.walkOf who asid sec dva with
      | some w => (match w.fault with
        | some c => (.error c, { s with walks := s.walks.erase w })
        | none => (.error fWalking, s))
      | none =>
        let k := Config.walkerOf die.val (dva / 65536 % 8)
        if decide (64 ≤ (s.walks.filter fun w => w.walker == k && w.fault.isNone).length) then (.error fWalking, s)
        else (.error fWalking, { s with walks := s.walks ++ [⟨who, k, die, asid, sec, dva, 0, 0, false, none⟩] })

/-! The walkers (R124, R125). -/

/-- A walk ends with a fault: its requester finds it, unless a shoot-down has passed the walk (R127, step 2). -/
def State.walkFault (s : State) (w : TableWalk) (c : Nat) : State :=
  if w.stale then { s with walks := s.walks.erase w }
  else { s with walks := modWhere (· == w) (fun v => { v with fault := some c }) s.walks }

/-- A walk has found a leaf: it is installed, unless a shoot-down has passed the walk. -/
def State.walkFound (s : State) (w : TableWalk) (e : BitVec 64) (big : Bool) : State :=
  let s1 := { s with walks := s.walks.erase w }
  if w.stale then s1 else
  let t : TcEntry := ⟨w.asid, w.sec, if big then w.dva / 2 ^ 29 else w.dva / 65536, big, e, false⟩
  let s2 := s1.installDie w.die t
  match w.who.array with | some x => s2.installArr x t | none => s2

/-- A walk reads its next entry at the entry's home slice and checks it (R124, R125). A secure table address aborts a non-secure
walk with the record of R30; an entry in a retired page aborts it, and a poisoned one is malformed (assumption 140), as is one that
lies outside backed HBM, the root entry too (assumption 116). -/
def State.walkNext (s : State) (w : TableWalk) : State :=
  let at_ := if w.level = 0 then s.atbrBase.toNat * 65536 + 8 * w.asid.toNat else w.base + 8 * dvaIndex w.dva w.level
  let (src, unit_) := w.who.source
  if at_ + 8 > s.visible then s.walkFault w fMalformed
  else if !w.sec && s.secureAt at_ then
    (s.report { errRec 0x0022 src 2 unit_ with addr := at_, asid := w.asid.toNat }).walkFault w fWorld
  else if s.pageRetired at_ then
    (s.report { errRec 0x0013 src 2 unit_ with addr := at_, asid := w.asid.toNat }).walkFault w fPhys
  else
    let (d, p, s1) := (s.walkTraffic w.who at_).homeRead (at_ / 64) w.asid
    let e := lineField d (at_ % 64) 8
    if p then s1.walkFault w fMalformed
    else match if w.level = 0 then s1.readRoot w.sec e else s1.readEntry w.level e with
    | .bad c => s1.walkFault w c
    | .table b => { s1 with walks := modWhere (· == w) (fun v => { v with level := v.level + 1, base := b }) s1.walks }
    | .leaf l =>
      match s1.leafCheck l (w.level == 2) with
      | .error c => s1.walkFault w c
      | .ok _ => s1.walkFound w l (w.level == 2)

/-- One ac of the walkers: how far each walk comes in it is open. -/
def State.walkTick (s : State) : State :=
  s.walks.foldl (fun u w =>
    if w.fault.isSome then u else
    let (k, v) := u.draw 2
    if k = 0 then v.walkNext w else v) s

/-! Checks of an access. -/

/-- What an access does with a line (R22). -/
inductive Use where
  | load | store | logst | atomic | watch | fetch | copyRead | copyWrite | copyReduce
  deriving DecidableEq, Repr

def Use.writes : Use → Bool
  | .store | .logst | .atomic | .copyWrite | .copyReduce => true
  | _ => false

/-- A translated access: address, kind, write-protected by a migration. -/
structure Target where
  pa   : Nat
  kind : Kind
  wp   : Bool
  deriving DecidableEq, Repr

/-- Kinds that permit a use (R22, R284, R291, R293). -/
def useOk (u : Use) (k : Kind) : Bool :=
  match u with
  | .atomic | .copyReduce => k != .logged && k != .prot
  | .watch => k == .sync || k == .host
  | .logst => k.isLogged
  | _ => true

/-- The abort of a physical access (R15, R30, R133, R347, R114) by code, and the reason of the record of an
abort, 0 for none. -/
def State.physFault (s : State) (pa : Nat) (sec : Bool) (k : Kind) : Option (Nat × Nat) :=
  match rangeOf pa with
  | .hbm =>
    if pa ≥ s.visible then some (fPhys, 0x0021)
    else if s.pageRetired pa then some (fPhys, 0x0013)
    else if !sec && s.secureAt pa then some (fWorld, 0x0022)
    else match s.lostAt pa with
      | some (g, _, st) => if g.stripeLost st 0 then some (fStripe, 0x0034) else none
      | none => none
  | .peer =>
    if !sec && s.secureAt pa then some (fWorld, 0x0022)
    else match s.lostGroup (peerOf pa) with
      | some g =>
        if k != .prot then some (fPkgLost, 0)
        else match s.lostAt pa with
          | some (_, _, st) => if g.stripeLost st 0 then some (fStripe, 0x0034) else none
          | none => none
      | none => if k != .prot && s.unprotectedGone (peerOf pa) then some (fPkgLost, 0) else none
  | .pool =>
    if s.pxt.toList.any fun e => (e.st == 1 || e.st == 2) && decide (e.base.toNat ≤ pa / 65536 ∧ pa / 65536 ≤ e.limit.toNat)
    then (if !sec && s.secureAt pa then some (fWorld, 0x0022) else none)
    else some (fExtent, 0)
  | .host => if !sec && s.secureAt pa then some (fWorld, 0x0022) else none
  | _ => some (fPhys, 0x0021)

/-- The record of an abort at an address; that of a lost stripe lists the run of them (R114; assumption 142). -/
def State.abortRec (s : State) (reason src unit_ pa : Nat) : ErrRec :=
  match s.lostAt pa with
  | some (g, _, st) =>
    if reason = 0x0034 then { errRec reason src 2 unit_ with addr := pa, lo := (g.lostRun st).1, hi := (g.lostRun st).2, flags := 0x20 }
    else { errRec reason src 2 unit_ with addr := pa }
  | none => { errRec reason src 2 unit_ with addr := pa }

/-- A page that a loaded image holds: writes to it abort as R30 gives (R195). -/
def State.sealedAt (s : State) (pa : Nat) : Bool := s.sealed.any fun e => e.1 == pa / 65536

/-- The 8-byte entries of a table's bytes that are not all as empty memory reads (R121, R122). -/
def State.entriesAt (s : State) (base n : Nat) : List (BitVec 64) :=
  ((s.mem.filter fun e => decide (base ≤ e.1 ∧ e.1 < base + n)).map fun e => e.1 / 8 * 8).eraseDups.map fun a =>
    BitVec.ofNat 64 (bytesToNat (Memory.bytes s.mem a 8))

/-- The leaves below a table of a level, and which of them map 512 MiB; the first argument bounds the levels. -/
def State.leavesIn (s : State) : Nat → Nat → Nat → List (BitVec 64 × Bool)
  | 0, _, _ => []
  | fuel + 1, level, base => (s.entriesAt base 65536).flatMap fun e =>
    match s.readEntry level e with
    | .leaf l => [(l, level == 2)]
    | .table b => State.leavesIn s fuel (level + 1) b
    | .bad _ => []

/-- A private page: one that the tables of some ASID map so (R23; assumption 141). -/
def State.privateAt (s : State) (pa : Nat) : Bool :=
  s.atbrEna && (s.entriesAt (s.atbrBase.toNat * 65536) (8 * 65536)).any fun r =>
    match s.readRoot (r.getLsbD 2) r with
    | .table b => (s.leavesIn 3 1 b).any fun e =>
        leafKind e.1 == 3 && decide (leafPa e.1 ≤ pa ∧ pa < leafPa e.1 + if e.2 then 2 ^ 29 else 65536)
    | _ => false

/-- The address of a line once the page has its new leaf: an old translation of a page under fold hold leads to the new page,
which holds the same values (R129, step 3). -/
def State.movedPa (s : State) (pa : Nat) : Nat :=
  match s.holds.find? fun h => h.renamed && h.inOld (pa / 64) with
  | some h => h.newPa + (pa - h.oldPa)
  | none => pa

/-- The code of a refused physical access: a copy gives the status of its range and world (R30, R304). -/
def Use.abortCode (u : Use) (c : Nat) : Nat := if (u == .copyRead || u == .copyWrite || u == .copyReduce) && c == fWorld then fPhys else c

/-- Translate and check one access of an agent: its world, and the rank of a context (R22, R23, R125). -/
def State.access (s : State) (who : Seeker) (asid : BitVec 16) (sec : Bool) (rank : Option Nat) (u : Use) (dva : Nat) :
    Except Nat Target × State :=
  let (r, s0) := s.leafFor who asid sec dva
  match r with
  | .error c => (.error c, s0)
  | .ok (e, big) =>
    let pa := s0.movedPa (leafPa e + dva % (if big then 2 ^ 29 else 65536))
    let note := fun (reason : Nat) =>
      let (src, unit_) := who.source
      s0.report { s0.abortRec reason src unit_ pa with asid := asid.toNat }
    match kindOf (leafKind e) with
    | none => (.error fKind, s0)
    | some k =>
      if (u.writes && !leafW e) || (u == .fetch && !leafX e) then (.error fPermission, s0)
      else if !useOk u k then (.error fSync, s0)
      else if k == .owned && rank != some (leafRank e) then (.error fOwner, s0)
      else match s0.physFault pa sec k with
        | some (c, reason) => (.error (u.abortCode c), if reason = 0 then s0 else note reason)
        | none =>
          if u.writes && s0.sealedAt pa then (.error (u.abortCode fWorld), note 0x0022)
          else (.ok ⟨pa, k, leafWp e⟩, s0)

/-- Bits above a DVA (R14). -/
def dvaForm (w : Word) : Bool := decide (w.toNat < 2 ^ 55)

/-- An M-slot access of a context (R278, R279): form, alignment, translation and checks. -/
def State.accessM (s : State) (a : ArrId) (c : CtxId) (u : Use) (addr : Word) (size : Nat) :
    Except Nat Target × State :=
  let x := s.ctxOf a c
  if !dvaForm addr then (.error 0x16, s)
  else if addr.toNat % size ≠ 0 then (.error fAlign, s)
  else s.access (.ctx a c) x.asid x.sec (some x.rank.toNat) u addr.toNat

end Sys2Proof.Machine
end

