-- ==== Sys2Proof/Machine/Peer.lean ====
section
/-! DEFINITION. Peer references (R18), the team map (R19) and how a reference resolves (R20). -/

namespace Sys2Proof.Machine

/-- The physical address of a DVA of a team, read by the hardware. -/
def State.hardDva (s : State) (asid : BitVec 16) (sec : Bool) (dva : Nat) : Option Nat :=
  match s.walk asid sec dva with
  | .ok (e, big) => some (leafPa e + dva % (if big then 2 ^ 29 else 65536))
  | .error _ => none

/-- The secure table that a non-secure walk meets below a table (R30, R125); the last argument but two bounds the levels. -/
def State.tableAbort (s : State) (dva : Nat) : Nat → Nat → Nat → Option Nat
  | 0, _, _ => none
  | fuel + 1, level, base =>
    let at_ := base + 8 * dvaIndex dva level
    match s.walkRead false at_ with
    | none => some at_
    | some e => match s.readEntry level e with | .table b => State.tableAbort s dva fuel (level + 1) b | _ => none

/-- The secure address at which the package's own access for an ASID of the non-secure world aborts: a table's, or the final one
(R30). -/
def State.abortAt (s : State) (asid : BitVec 16) (sec : Bool) (dva : Nat) : Option Nat :=
  if sec || !s.atbrEna then none else
  let at_ := s.atbrBase.toNat * 65536 + 8 * asid.toNat
  if at_ + 8 > s.visible then none else
  match s.walkRead false at_ with
  | none => some at_
  | some r => match s.readRoot false r with
    | .table b => (s.tableAbort dva 3 1 b).orElse fun _ => (s.hardDva asid sec dva).filter s.secureAt
    | _ => none

/-- The record of such an abort, where there is one (R30). -/
def State.noteAbort (s : State) (asid : BitVec 16) (sec : Bool) (dva src : Nat) : State :=
  match s.abortAt asid sec dva with
  | some pa => s.report { errRec 0x0022 src 2 0 with addr := pa, asid := asid.toNat }
  | none => s

/-- The physical address at which the package reads a DVA of a team: none where the read aborts (R30). -/
def State.hardSee (s : State) (asid : BitVec 16) (sec : Bool) (dva : Nat) : Option Nat :=
  (s.hardDva asid sec dva).filter fun pa => sec || !s.secureAt pa

/-- The package that holds a rank of another package, from the rank table of the sync area (R19, R326). -/
def State.rankPkg (s : State) (t : Team) (rank : Nat) : Option Nat :=
  (s.hardSee t.asid t.sec (t.sync + 0x300000 + 4 * rank)).map fun pa =>
    bytesToNat (Memory.bytes s.mem pa 4) % 512

/-- Where a peer reference leads (R18, R20). -/
inductive Peer where
  /-- a reserved field is not zero, or a field that the form does not use -/
  | bad
  /-- outside the team -/
  | outside
  /-- an array of this package, its logical number in the team -/
  | here (a : ArrId) (larr : Nat)
  /-- in the team, its entry not valid -/
  | invalid
  /-- a rank of another package -/
  | away (rank : Nat)
  deriving DecidableEq, Repr

/-- Bits that must be zero in a peer reference (R18). -/
def peerClean (w : Word) : Bool :=
  w.extractLsb' 46 18 == 0 && w.extractLsb' 29 2 == 0 &&
  (if w.getLsbD 31 then w.extractLsb' 24 5 == 0 else w.extractLsb' 32 14 == 0)

def peerOffset (w : Word) : Nat := (w.extractLsb' 0 24).toNat

/-- Look a logical array number up in a team's package map (R19): an entry serves from the ac after it became valid (R20). -/
def Team.entry (t : Team) (larr now : Nat) : Peer :=
  match t.map[larr]? with
  | none => .outside
  | some e => if !e.inTeam then .outside else if e.valid && decide (e.since < now) then .here e.arr larr else .invalid

/-- Resolve a peer reference of a task of a team (R20). -/
def State.peer (s : State) (team : Nat) (w : Word) : Peer :=
  if !peerClean w then .bad else
  match s.team? team with
  | none => .outside
  | some t =>
    if w.getLsbD 31 then
      let rank := (w.extractLsb' 32 14).toNat
      if rank ≥ t.tsize then .outside
      else match t.tasks.find? (·.rank == rank) with
        | some k => t.entry k.larr s.now
        | none => .away rank
    else t.entry (w.extractLsb' 24 5).toNat s.now

/-- The context whose task has a logical array number. -/
def State.taskAt (s : State) (team larr : Nat) : Option (ArrId × CtxId) :=
  (s.team? team).bind fun t => (t.tasks.find? (·.larr == larr)).map fun k => (k.arr, k.ctx)

/-- The head of the arriving words asks for its bank: a message for slot TAIL in wait-empty-put mode, a copied
word overwriting and setting full (R302, R307). -/
def State.postNet (s : State) (a : ArrId) : State :=
  match (s.arr a).net with
  | [] => s
  | m :: rest =>
    if m.posted then s else
    let word := match m.ring with
      | some (c, n) => (((s.ctxOf a c).rings[n]).tail.toNat) / 32
      | none => m.word
    s.modArr a fun x =>
      { x with
        net := { m with posted := true, word := word } :: rest
        reqNo := x.reqNo + 1
        asReqs := x.asReqs ++ [⟨x.reqNo, a, 5, .net, word, if m.ring.isSome then .emptyPut else .setFull, true,
          m.mask, m.data, 0, false⟩] }

/-- A context is asked to stop with a fatal fault at its next bundle boundary, at once where it is switched
out. -/
def State.askCtx (s : State) (a : ArrId) (c : CtxId) (code : Nat) : State :=
  let x := s.ctxOf a c
  if x.run != .active || x.ask.isSome then s else
  let s1 := s.modCtx a c fun y => { y with ask := some code }
  if (s.arr a).running != c || (s.arr a).gated || (x.residue.isEmpty && x.todo.isEmpty) then
    s1.soon (.contextFatalFault a c)
  else s1

/-- The SEND at the head of a context's store queue has ended (R307). -/
def State.sendOver (s : State) (a : ArrId) (c : CtxId) : State := s.modCtx a c fun x =>
  match x.storeQ with
  | e :: t => if e.op == .send && e.phase == 1 then { x with storeQ := t } else x
  | [] => x

/-- A word arrives at an array's network interface (R307). A message to a ring that is not configured, or of a context that is free,
stops its sender, here or on the package that it is told to. -/
def State.arrive (s : State) (a : ArrId) (m : NetMsg) : State :=
  let bad : Bool := match m.ring with
    | some (c, n) => ((s.ctxOf a c).rings[n]).log2n == 0 || (s.ctxOf a c).run == .free
    | none => false
  if bad then
    match m.remote with
    | some (pkg, team, rank) => s.send (.placed pkg team rank false)
    | none => (s.sendOver m.src m.srcCtx).askCtx m.src m.srcCtx fDescr
  else (s.modArr a fun x => { x with net := x.net ++ [m] }).postNet a

end Sys2Proof.Machine
end

