-- ==== Sys2Proof/Machine/View.lean ====
section
/-! DEFINITION. The view cache (R45, R46): lookup, fill, replacement, own copies rebuilt through the own-store
index (R47), owned (private) lines, reload and invalidation by an acquire (R75). -/

namespace Sys2Proof.Machine

/-! Tree pseudo-LRU over 16 ways (R45; assumption 27). -/

def plruTouchAt (b : BitVec 15) (way node : Nat) : Nat → BitVec 15
  | 0 => b
  | k + 1 =>
    let right := way.testBit k
    plruTouchAt (if right then clrBit b node else setBit b node) way (2 * node + 1 + (if right then 1 else 0)) k

/-- After a use of a way the tree points away from it. -/
def plruTouch (b : BitVec 15) (way : Nat) : BitVec 15 := plruTouchAt b way 0 4

def plruVictimAt (b : BitVec 15) (node : Nat) : Nat → Nat
  | 0 => 0
  | k + 1 =>
    if b.getLsbD node then 2 ^ k + plruVictimAt b (2 * node + 2) k else plruVictimAt b (2 * node + 1) k

def plruVictim (b : BitVec 15) : Nat := plruVictimAt b 0 4

def Arr.touchVc (x : Arr) (v : VcLine) : Arr :=
  { x with plru := Sparse.set 0 x.plru (vcSet v.line) (plruTouch (Sparse.get 0 x.plru (vcSet v.line)) v.way) }

/-! Own stores of a context (R47, R65). -/

/-- A store of the queue that has patched the own copy and has not yet entered the log buffer. -/
def QEntry.unentered (e : QEntry) : Bool := (e.op == .st || e.op == .logst) && e.kind.isLogged && e.phase == 0

/-- The context's own unfolded stores to a line, in store order: its records, its log-buffer entries, its queued stores. -/
def State.ownStores (s : State) (c : Ctx) (l : Nat) : List (LineData × BitVec 64) :=
  let recs :=
    if Sparse.get 0 c.own l < 2 then [] else
    match s.ring? c.ring with
    | none => []
    | some r =>
      (List.range (r.tail - r.fold)).filterMap fun i =>
        match r.recs.get none ((r.fold + i) % r.n) with
        | some rc => if !rc.rel && s.named rc.line.toNat == l then some (rc.data, rc.mask) else none
        | none => none
  recs ++ (c.buf.filter (·.line == l)).map (fun e => (e.data, e.mask)) ++
    (c.storeQ.filter fun e => e.unentered && e.pa / 64 == l).map fun e => atByte e.data.toNat (e.pa % 64) e.size

/-- Patch a line with the context's own unfolded stores. -/
def State.patchOwn (s : State) (c : Ctx) (l : Nat) (d : LineData) : LineData :=
  (s.ownStores c l).foldl (fun v e => mergeLine v e.1 e.2) d

/-- The own bytes of a line: their values and which they are. -/
def State.ownBytes (s : State) (c : Ctx) (l : Nat) : LineData × BitVec 64 :=
  (s.ownStores c l).foldl (fun v e => (mergeLine v.1 e.1 e.2, v.2 ||| e.2)) (0, 0)

/-- The context has own stores to a line that its index names. -/
def Ctx.hasOwn (c : Ctx) (l : Nat) : Bool := Sparse.get 0 c.own l != 0

/-! Lines. -/

def VcLine.ownOf (v : VcLine) (c : CtxId) (l : Nat) : Bool := v.st == .own && v.owner == c && v.line == l
def VcLine.viewOf (v : VcLine) (x : Ctx) (l : Nat) : Bool :=
  v.st == .view && v.line == l && v.asid == x.asid && v.sec == x.sec
def VcLine.ownedBy (v : VcLine) (c : CtxId) (l : Nat) : Bool :=
  (v.st == .ownedClean || v.st == .ownedDirty) && v.owner == c && v.line == l

/-- The line in a way leaves the view cache, with whatever was wrong there. -/
def Arr.vcDrop (x : Arr) (v : VcLine) : Arr :=
  { (x.clearErr v.place fun _ => true) with
    vc := x.vc.filter fun u => !(vcSet u.line == vcSet v.line && u.way == v.way) }

/-- A read of a line that is present: an error in it is corrected, or the line is lost, a dirty one with the steps of R346 (R345,
R351). The line as it is read. -/
def State.vcRead (s : State) (a : ArrId) (v : VcLine) : Option VcLine × State :=
  let (bad, s1) := (s.einjVc a v).readErr a v.place fun _ => true
  if !bad then ((s1.arr a).vc.find? fun u => vcSet u.line == vcSet v.line && u.way == v.way, s1)
  else
    let s2 := s1.modArr a (·.vcDrop v)
    (none, if v.st == .ownedDirty then s2.dirtyFail v.line 2 (some v.asid) else s2)

/-- An owned dirty line is read and written back to its home slice, with its poison (R46, R345); lost at that read, it is not. -/
def State.vcWriteBack (s : State) (a : ArrId) (v : VcLine) : State :=
  match s.vcRead a v with
  | (none, s1) => s1
  | (some u, s1) =>
    let s2 := ((s1.viewTraffic a v.owner u.line 64 0).modArr a (·.vcDrop v)).homeWrite u.line (BitVec.allOnes 64) u.data u.asid false
    if u.poison then s2.modLine u.line fun m => { m with poison := true } else s2

/-- A line leaves the view cache: an owned dirty one is written back (R46). -/
def State.vcEvict (s : State) (a : ArrId) (v : VcLine) : State :=
  if v.st == .ownedDirty then s.vcWriteBack a v else s.modArr a (·.vcDrop v)

/-- Place a line in its set, over the lowest unused way (assumption 27) or the victim of the tree. -/
def State.vcInsert (s : State) (a : ArrId) (v : VcLine) : State :=
  let x := s.arr a
  let st := vcSet v.line
  let peers := x.vc.filter fun u => vcSet u.line == st
  let way := match (List.range 16).find? fun w => !(peers.any (·.way == w)) with
    | some w => w
    | none => plruVictim (Sparse.get 0 x.plru st)
  let s1 := match peers.find? (·.way == way) with
    | some u => s.vcEvict a u
    | none => s
  let v1 := { v with way := way }
  s1.modArr a fun y => ({ (y.clearErr v1.place fun _ => true) with vc := y.vc ++ [v1] }).touchVc v1

def State.vcSetData (s : State) (a : ArrId) (v : VcLine) (f : VcLine → VcLine) : State :=
  s.modArr a fun x => { x with vc := modWhere (· == v) f x.vc }

/-- Find a line that is present and whole, and use it. -/
def State.vcFind (s : State) (a : ArrId) (p : VcLine → Bool) : Option VcLine × State :=
  match (s.arr a).vc.find? p with
  | none => (none, s)
  | some v => match s.vcRead a v with
    | (some u, s1) => (some u, s1.modArr a (·.touchVc u))
    | (none, s1) => (none, s1)

/-- View lines of an ASID that a test names leave an array's view cache. -/
def Arr.dropViews (x : Arr) (asid : BitVec 16) (p : Nat → Bool) : Arr :=
  { x with vc := x.vc.filter fun v => !(v.st == .view && v.asid == asid && p v.line) }

/-- Fetch a line from home into the view cache, patched by the context's own stores where it has some. An own copy is always
built so (R47), and takes the place of an older view line, which no later load may fall back to (R87). -/
def State.vcFill (s : State) (a : ArrId) (c : CtxId) (l : Nat) (own : Bool) : VcLine × State :=
  let x := s.ctxOf a c
  let (d, p, s1) := (s.viewTraffic a c l 0 64).homeRead l x.asid
  let v : VcLine :=
    { line := l, way := 0, asid := x.asid, sec := x.sec, owner := c, st := if own then .own else .view,
      data := if own then s1.patchOwn x l d else d, poison := p }
  let s2 := (if own then s1.modArr a (·.dropViews x.asid (· == l)) else s1).vcInsert a v
  (((s2.arr a).vc.getLast?).getD v, s2)

/-- The context's view of a logged, protected or pool line (R86, R87): its own copy, a view line, or the home
line. -/
def State.viewLine (s : State) (a : ArrId) (c : CtxId) (l : Nat) : VcLine × State :=
  match s.vcFind a (·.ownOf c l) with
  | (some v, s1) => (v, s1)
  | (none, s1) =>
    if (s1.ctxOf a c).hasOwn l then s1.vcFill a c l true else
    match s1.vcFind a (·.viewOf (s1.ctxOf a c) l) with
    | (some v, s2) => (v, s2)
    | (none, s2) => s2.vcFill a c l false

/-- The context's own copy of a line, made if it has none: a view line is not used for it (R47). -/
def State.ownLine (s : State) (a : ArrId) (c : CtxId) (l : Nat) : VcLine × State :=
  match s.vcFind a (·.ownOf c l) with
  | (some v, s1) => (v, s1)
  | (none, s1) => s1.vcFill a c l true

/-- Patch bytes into the context's own copy. -/
def State.patchView (s : State) (a : ArrId) (c : CtxId) (l : Nat) (d : LineData) (m : BitVec 64) : State :=
  let (v, s1) := s.ownLine a c l
  s1.vcSetData a v fun u => { u with data := mergeLine u.data d m }

/-- A copy's record patches the context's own copy of its line where it is present (R65, R100). -/
def State.patchPresent (s : State) (a : ArrId) (c : CtxId) (l : Nat) (d : LineData) (m : BitVec 64) : State :=
  match (s.arr a).vc.find? (·.ownOf c l) with
  | some v => s.vcSetData a v fun u => { u with data := mergeLine u.data d m }
  | none => s

/-- LOGST patches what is present and takes no new line (R284): an own copy, or a view line, whose place an own copy built from
the home line takes (R47; assumption 28). -/
def State.patchLogst (s : State) (a : ArrId) (c : CtxId) (l : Nat) (d : LineData) (m : BitVec 64) : State :=
  if (s.arr a).vc.any fun v => v.ownOf c l || v.viewOf (s.ctxOf a c) l then s.patchView a c l d m else s

/-- The owner's line of an owned page. -/
def State.ownedLine (s : State) (a : ArrId) (c : CtxId) (l : Nat) : VcLine × State :=
  match s.vcFind a (·.ownedBy c l) with
  | (some v, s1) => (v, s1)
  | (none, s1) =>
    let x := s1.ctxOf a c
    let (d, p, s2) := (s1.viewTraffic a c l 0 64).homeRead l x.asid
    let v : VcLine :=
      { line := l, way := 0, asid := x.asid, sec := x.sec, owner := c, st := .ownedClean, data := d, poison := p }
    let s3 := s2.vcInsert a v
    (((s3.arr a).vc.getLast?).getD v, s3)

/-- A store to an owned page, in place (R83). -/
def State.ownedStore (s : State) (a : ArrId) (c : CtxId) (l : Nat) (d : LineData) (m : BitVec 64) : State :=
  let (v, s1) := s.ownedLine a c l
  s1.vcSetData a v fun u => { u with st := .ownedDirty, data := mergeLine u.data d m }

/-- A copy's write to an owned page: one of a full line takes the place of what was there, poison and errors included (R345). -/
def State.ownedCopy (s : State) (a : ArrId) (c : CtxId) (l : Nat) (d : LineData) (m : BitVec 64) : State :=
  if m != BitVec.allOnes 64 then s.ownedStore a c l d m else
  let x := s.ctxOf a c
  let s1 := match (s.arr a).vc.find? (·.ownedBy c l) with
    | some v => s.modArr a (·.vcDrop v)
    | none => s
  s1.vcInsert a { line := l, way := 0, asid := x.asid, sec := x.sec, owner := c, st := .ownedDirty, data := d, poison := false }

/-- Write back the owner's dirty lines that a test names; they stay clean, or leave (R290, R291). -/
def State.writeBackOwned (s : State) (a : ArrId) (p : VcLine → Bool) (drop : Bool) : State :=
  (s.arr a).vc.foldl (fun u v =>
    if (v.st == .ownedDirty || (drop && v.st == .ownedClean)) && p v then
      if drop then u.vcEvict a v
      else match u.vcRead a v with
        | (none, u1) => u1
        | (some w, u1) => (u1.vcWriteBack a w).modArr a fun x => { x with vc := x.vc ++ [{ w with st := .ownedClean }] }
    else u) s

/-- View and own lines of an ASID are invalidated (R75). -/
def Arr.dropAsid (x : Arr) (asid : BitVec 16) : Arr :=
  { x with vc := x.vc.filter fun v => !(v.asid == asid && (v.st == .view || v.st == .own)) }

/-- A reload by an acquire (R75, step 3): the view line of the ASID and the context's own copy of a line take the
home's value; where the home line is poisoned or retired, or its home is another package, they are invalidated and the next
access fetches the line. -/
def State.vcReload (s : State) (a : ArrId) (c : CtxId) (l : Nat) : State :=
  let x := s.ctxOf a c
  let here := fun v : VcLine => v.line == l && v.asid == x.asid && (v.st == .view || (v.st == .own && v.owner == c))
  if !((s.arr a).vc.any here) then s else
  let drop := fun (u : State) => u.modArr a fun y => { y with vc := y.vc.filter fun v => !here v }
  if !s.ours l || s.needsMend l then drop s else
  let (d, p, s1) := (s.viewTraffic a c l 0 64).homeRead l x.asid
  if p || s1.pageRetired (64 * l) then drop s1
  else
    s1.modArr a fun y =>
      { (y.vc.filter here).foldl (fun (z : Arr) v => z.clearErr v.place fun _ => true) y with
        vc := modWhere here (fun v => { v with data := if v.st == .own then s1.patchOwn x l d else d, poison := false }) y.vc }

end Sys2Proof.Machine
end

