-- ==== Sys2Proof/Machine/Log.lean ====
section
/-! DEFINITION. Store logs: records (R60, R61), append and the log buffer (R63, R65, R73, R74), release (R67),
stamps (R68, R69), publication entries (R70), the log tracker (R72) and acquire (R75, R76). -/

namespace Sys2Proof.Machine

/-! Records. -/

/-- Bytes 0 to 87 of a record (R60). -/
def recBytes (r : Record) : List Byte :=
  natToBytes 8 (r.line.toNat + r.kind.toNat * 2 ^ 46 + r.acls.toNat * 2 ^ 49) ++ natToBytes 8 r.mask.toNat ++
  natToBytes 64 r.data.toNat ++
  natToBytes 8 (r.seq.toNat + (if r.rel then 2 ^ 48 else 0) + (if r.ckpt then 2 ^ 49 else 0) +
    (if r.forced then 2 ^ 50 else 0) + (if r.node then 2 ^ 51 else 0) + (if r.copy then 2 ^ 52 else 0) +
    (if r.host then 2 ^ 53 else 0))

def recOk (r : Record) : Bool := r.crc == crc64 (recBytes r)

/-- Data with the bytes outside the mask zero (R60). -/
def maskData (d : LineData) (m : BitVec 64) : LineData := mergeLine 0 d m

/-- A data record before it is appended. -/
def dataRecord (l : Nat) (k : Kind) (acls : BitVec 2) (m : BitVec 64) (d : LineData) (copy host : Bool) : Record :=
  { line := BitVec.ofNat 46 l, kind := BitVec.ofNat 3 k.code, acls := acls, mask := m, data := maskData d m,
    seq := 0, rel := false, ckpt := false, forced := false, node := false, copy := copy, host := host, crc := 0 }

/-! Append. -/

/-- A ring has room for one more record (R73). -/
def Ring.room (r : Ring) : Bool := decide (r.tail - r.fold < r.n)

/-- A ring takes a record now: it has room, and a stall that the log tracker has ended in this ac ends in the next (R73). -/
def State.roomy (s : State) (r : Ring) : Bool := decide (r.tail - (if r.foldAc = s.now then r.foldWas else r.fold) < r.n)

/-- The context that appends to a ring, if a context does (R66). -/
def State.ringCtx (s : State) (r : Ring) : Option (ArrId × CtxId) :=
  if r.slot < 128 then
    let a : ArrId := ⟨r.slot / 4 % 32, by omega⟩
    let c : CtxId := ⟨r.slot % 4, by omega⟩
    if (s.ctxOf a c).ring = r.id ∧ (s.ctxOf a c).run ≠ .free then some (a, c) else none
  else none

/-- Append one record (R65): it takes the next sequence number and its CRC, and the own-store index notes a
data record (R47). None: the ring is full. -/
def State.append (s : State) (ring : Nat) (rc : Record) : Option State :=
  match s.ring? ring with
  | none => none
  | some r =>
    if !s.roomy r then none else
    let r1 := { rc with seq := BitVec.ofNat 48 r.tail }
    let r2 := { r1 with crc := crc64 (recBytes r1) }
    let s1 := s.modRing ring fun q =>
      { q with
        recs := Sparse.set none q.recs (q.tail % q.n) (some r2), tail := q.tail + 1
        guards := match Sparse.get none q.recs (q.tail % q.n) with
          | some old => if old.kind = 1 then insertNat (old.line.toNat / 1024) q.guards else q.guards
          | none => q.guards }
    match s.ringCtx r with
    | some (a, c) =>
      if rc.rel then some s1
      else some (s1.modCtx a c fun x => { x with own := Sparse.set 0 x.own rc.line.toNat (r.tail + 2) })
    | none => some s1

/-- Bits of a record in the log partition flip: what reads it finds its CRC wrong (R346, R77). -/
def State.upsetRecord (s : State) (ring n : Nat) : State :=
  s.modRing ring fun q => { q with
    recs := match Sparse.get none q.recs (n % q.n) with
      | some rc => Sparse.set none q.recs (n % q.n) (some { rc with data := rc.data ^^^ 3 })
      | none => q.recs }

/-- Append a record to a log of a copy engine or of a host function, for an ASID and in a world (R78, R79). -/
def State.appendFor (s : State) (ring : Nat) (rc : Record) (asid : BitVec 16) (sec : Bool) : Option State :=
  (s.append ring rc).map fun u => u.modRing ring fun q =>
    { q with owners := Sparse.set (0, false) q.owners ((q.tail - 1) % q.n) (asid, sec) }

/-- A log as it stands for its record of number `n`: a context's log is for one ASID, in one world. -/
def Ring.at_ (r : Ring) (n : Nat) : Ring :=
  if r.slot < 128 then r else
  let o := Sparse.get (0, false) r.owners (n % r.n)
  { r with asid := o.1, sec := o.2 }

/-- Append the oldest log-buffer entry of a context (R65). -/
def State.appendOldest (s : State) (a : ArrId) (c : CtxId) : Option State :=
  match (s.ctxOf a c).buf with
  | [] => some s
  | e :: t =>
    (s.append (s.ctxOf a c).ring (dataRecord e.line e.kind e.acls e.mask e.data false false)).map fun s1 =>
      s1.modCtx a c fun x => { x with buf := t }

/-- Append entries up to and including that of a line (R65, R100). -/
def State.appendThrough (s : State) (a : ArrId) (c : CtxId) (l : Nat) : Nat → Option State
  | 0 => some s
  | n + 1 =>
    if (s.ctxOf a c).buf.any (·.line == l) then
      match s.appendOldest a c with
      | none => none
      | some s1 => State.appendThrough s1 a c l n
    else some s

/-! Release. -/

/-- The slice-touch map of the records `lo` to `lo + k - 1` (R67, step 3), and whether a peer line is among
them. -/
def Ring.touch (r : Ring) (lo : Nat) : Nat → BitVec 128 × Bool
  | 0 => (0, false)
  | k + 1 =>
    let (m, p) := Ring.touch r lo k
    match r.recs.get none ((lo + k) % r.n) with
    | some rc =>
      if rc.rel then (m, p)
      else (setBit m (homeSlice rc.line.toNat), p || rangeOf (64 * rc.line.toNat) == .peer)
    | none => (m, p)

/-- The release record of a segment (R60, second table). -/
def relRecord (x : Release) (slot first : Nat) (touch : BitVec 128) (peer : Bool) : Record :=
  { line := 0, kind := 7, acls := 0, mask := 0,
    data := BitVec.ofNat 512 (first * 2 ^ 64 + touch.toNat * 2 ^ 128 +
      (x.scope.toNat + slot * 2 ^ 3 + (if peer then 2 ^ 11 else 0)) * 2 ^ 256),
    seq := 0, rel := true, ckpt := x.ckpt, forced := x.forced, node := x.node, copy := false,
    host := decide (136 ≤ slot), crc := 0 }

/-- Begin the steps of R67: none is under way. `mark` is the number of the first access of the context that is younger. -/
def State.startRelease (s : State) (ring : Nat) (scope : BitVec 3) (ckpt forced node : Bool) (mark : Nat) : State :=
  s.modRing ring fun r => { r with release := some ⟨1, scope, ckpt, forced, node, 0, mark⟩ }

/-- A line's copy or store that R89 lets an ordering operation leave unacknowledged below some scope: of sync or host-coherent
memory, or an atomic, where another package or the host owns the line. -/
def QEntry.far (q : QEntry) : Bool :=
  !q.kind.isLogged && (q.op == .st || q.op == .atomic || q.op == .reduce) &&
    (rangeOf q.pa == .peer || rangeOf q.pa == .host)

/-- The team of a context has ranks on other packages. -/
def State.spans (s : State) (x : Ctx) : Bool :=
  match s.team? x.team.toNat with | some t => decide (t.ntasks < t.tsize) | none => false

/-- An ordering operation at a scope waits for a store of the queue (R89), and at every scope for one that has still to acquire, since
no younger store performs before it has (R91). -/
def State.waitsFor (s : State) (x : Ctx) (scope : BitVec 3) (q : QEntry) : Bool :=
  !q.far || q.order.getLsbD 0 || (if rangeOf q.pa = .peer then decide (5 ≤ scope.toNat) || (scope == 4 && s.spans x) else scope == 7)

/-- Every older store of a context, of a number below `mark`, has performed at a scope (R89); at .sys the pool's devices have
completed its atomics too. -/
def State.storesDone (s : State) (a : ArrId) (c : CtxId) (scope : BitVec 3) (mark : Nat) : Bool :=
  let x := s.ctxOf a c
  x.storeQ.all (fun q => decide (mark ≤ q.id) || !s.waitsFor x scope q) &&
  (scope != 7 || !s.asks.any fun k => k.who == .posted a c)

/-- A release may begin to append (R67, step 1; R90): every older load has performed and every older store has, at its
scope. -/
def State.mayAppend (s : State) (r : Ring) (x : Release) : Bool :=
  match s.ringCtx r with
  | some (a, c) => (s.ctxOf a c).loadQ.all (fun q => decide (x.mark ≤ q.id)) && s.storesDone a c x.scope x.mark
  | none => true

/-- Go on with steps 1 to 4 of a release: wait for older accesses, append the context's entries, the release record, announce. A
forced publication sets the rewind barrier and is counted for the queue (R74); that of a copy engine's log is counted as it begins,
for its job's queue, and that of a host log, which has no queue, for none (assumption 156). -/
def State.pushRelease (s : State) (ring : Nat) : State :=
  match s.ring? ring with
  | none => s
  | some r =>
    match r.release with
    | none => s
    | some x =>
      if x.step = 1 then
        (if s.mayAppend r x then s.modRing ring fun q => { q with release := some { x with step := 2 } } else s)
      else if x.step = 2 then
        let left : Option (ArrId × CtxId) := match s.ringCtx r with
          | some (a, c) => if (s.ctxOf a c).buf.isEmpty then none else some (a, c)
          | none => none
        match left with
        | some (a, c) => (s.appendOldest a c).getD s
        | none =>
          let (m, p) := r.touch r.segFirst (r.tail - r.segFirst)
          match s.append ring (relRecord x r.slot r.segFirst m p) with
          | none => s
          | some s1 => s1.modRing ring fun q => { q with release := some { x with step := 3, seq := r.tail } }
      else if x.step = 3 then
        if s.anns.any (·.ring == ring) then s else
        let (m, _) := r.touch r.segFirst (x.seq - r.segFirst)
        let ann : Ann := ⟨ring, r.slot, r.segFirst, x.seq, m⟩
        let s1 : State := { s with anns := s.anns ++ [ann] }
        let s2 := s1.modRing ring fun q => { q with release := some { x with step := 4 } }
        if x.forced then
          match s.ringCtx r with
          | some (a, c) => (s2.modCtx a c fun y => { y with barrier := x.seq + 1 }).modQueue (s.ctxOf a c).queue fun q =>
              { q with forced := q.forced + 1 }
          | none => if 128 ≤ r.slot then s2 else
            match s.team? r.team with
            | some t => s2.modQueue t.queue.val fun q => { q with forced := q.forced + 1 }
            | none => s2
        else s2
      else s

/-- A release that nothing holds up, up to its announcement, in one go: `n` bounds the steps. -/
def State.runRelease (s : State) (ring : Nat) : Nat → State
  | 0 => s
  | n + 1 => State.runRelease (s.pushRelease ring) ring n

/-- A release is under way in a ring. -/
def State.releasing (s : State) (ring : Nat) : Bool :=
  match s.ring? ring with
  | some r => r.release.isSome
  | none => false

/-- A release under way holds back an access of the context with a number: it is younger (R90). -/
def State.heldBack (s : State) (ring id : Nat) : Bool :=
  match s.ring? ring with
  | some r => (match r.release with | some x => decide (x.mark ≤ id) | none => false)
  | none => false

/-- A release that can take a step now (R67). -/
def State.releaseReady (s : State) (ring : Nat) : Bool :=
  match s.ring? ring with
  | some r =>
    match r.release with
    | some x => (x.step == 1 && s.mayAppend r x) || (x.step == 2 && s.roomy r) || (x.step == 3 && !s.anns.any (·.ring == ring))
    | none => false
  | none => false

/-! The log buffer. -/

/-- The context's log-buffer entry for a line takes a store's bytes (R65). -/
def BufEntry.merge (e : BufEntry) (acls : BitVec 2) (m : BitVec 64) (d : LineData) (now : Nat) : BufEntry :=
  { e with
    acls := if e.acls = acls then acls else 0
    mask := e.mask ||| m, data := mergeLine e.data d m, last := now }

/-- A store that would take a new entry, or a copy's record, must be preceded by a forced publication (R74). -/
def State.crowded (s : State) (c : Ctx) : Bool :=
  match s.ring? c.ring with
  | some r => decide (r.tail - r.pub + c.buf.length + 1 > r.n - 1)
  | none => false

/-- How a store meets the log buffer: it can enter, it must wait, or a forced publication comes first. -/
inductive Entering where
  | enters | waits | forces
  deriving DecidableEq, Repr

def State.entering (s : State) (c : Ctx) (l : Nat) : Entering :=
  if c.buf.any (·.line == l) then .enters
  else if s.crowded c then .forces
  else if c.buf.length < 16 then .enters
  else match s.ring? c.ring with
    | some r => if s.roomy r then .enters else .waits
    | none => .waits

/-- A store enters the log buffer, displacing the oldest of 16 entries (R65). -/
def State.enterStore (s : State) (a : ArrId) (c : CtxId) (l : Nat) (k : Kind) (acls : BitVec 2) (m : BitVec 64)
    (d : LineData) : State :=
  let x := s.ctxOf a c
  if x.buf.any (·.line == l) then
    s.modCtx a c fun y =>
      { y with buf := modWhere (fun e : BufEntry => e.line == l) (fun e => e.merge acls m d s.now) y.buf }
  else
    let s1 := if x.buf.length < 16 then s else (s.appendOldest a c).getD s
    s1.modCtx a c fun y =>
      { y with buf := y.buf ++ [⟨l, k, acls, m, maskData d m, s.now⟩] }

/-- The own-store index has an entry for a line or room for one (R47). -/
def Ctx.indexRoom (c : Ctx) (l : Nat) : Bool := c.hasOwn l || decide (c.own.length < 8192)

/-- A store takes the line's index entry (R47). -/
def Ctx.takeIndex (c : Ctx) (l : Nat) : Ctx := if c.hasOwn l then c else { c with own := Sparse.set 0 c.own l 1 }

/-- An entry has received no store for 256 ac (R65). -/
def Ctx.aged (x : Ctx) (now : Nat) : Bool := x.buf.any fun e => decide (e.last + 256 ≤ now)

/-- LOG_BUFFER_ENTRY_APPEND (R65, R67): a release under way takes its next step, or an entry without a store for 256 ac is
appended, those taken before it first. -/
def execLogBufferEntryAppend (a : ArrId) (c : CtxId) (s : State) : Out :=
  let x := s.ctxOf a c
  if s.releasing x.ring then .next (s.pushRelease x.ring)
  else if x.aged s.now then .next ((s.appendOldest a c).getD s)
  else .next s

/-- APPEND_STALL_END (R47, R73): folding has freed room, and what waited for it goes on. -/
def execAppendStallEnd (a : ArrId) (c : CtxId) (s : State) : Out :=
  .next (s.pushRelease (s.ctxOf a c).ring)

/-! Publication entries (R70, R79). -/

/-- Where a log's publication entry stands. It is that of the ring which the task has now (R81). -/
def State.pubAddr (s : State) (r : Ring) : Option Nat :=
  if r.next.isSome then none
  else if 128 ≤ r.slot then some (s.pubArea + 64 * (r.slot - 128))
  else match s.team? r.team with
    | some t => s.hardDva t.asid t.sec (t.sync + 64 * r.rank)
    | none => none

/-- The oldest retained sequence (R70). -/
def Ring.oldest (r : Ring) : Nat := max (r.tail - r.n) r.first

/-- A write of hardware at a physical address, in a world, within one line: the home slice makes it, or the line's owner is
asked for `who`. It aborts on a secure address in the non-secure world (R30), and waits while a migration write-protects the page
(R130). -/
def State.hardBytes (s : State) (pa v n : Nat) (asid : BitVec 16) (sec : Bool) (who : Asker) : State :=
  let (d, m) := atByte v (pa % 64) n
  if s.holds.any fun h => !h.fold && h.inOld (pa / 64) then
    { s with holds := s.holds.map fun h : Hold =>
        if !h.fold && h.inOld (pa / 64) then { h with late := h.late ++ [(pa, v, n, asid, sec, who)] } else h }
  else if !sec && s.secureAt pa then s.report { errRec 0x0022 7 2 0 with addr := pa, asid := asid.toNat }
  else if s.ours (pa / 64) then s.homeWrite (pa / 64) m d asid false
  else (s.known (pa / 64) m d).request who pa (.write m d) sec asid

/-- The same of 8-byte words. -/
def State.hardWrite (s : State) (pa : Nat) (ws : List Nat) (asid : BitVec 16) (sec : Bool) (who : Asker) : State :=
  let n := ws.length
  s.hardBytes pa ((List.range n).foldl (fun t i => t + ws.getD i 0 % 2 ^ 64 * 2 ^ (64 * i)) 0) (8 * n) asid sec who

/-- The log tracker brings bytes 16 to 31 of a log's publication entry up to its pointers, where they differ (R70, R72). -/
def State.trackEntry (s : State) (r : Ring) : State :=
  match s.pubAddr r with
  | none => s
  | some pa =>
    if Memory.bytes s.mem (pa + 16) 16 = natToBytes 8 r.fold ++ natToBytes 8 r.oldest then s
    else s.hardWrite (pa + 16) [r.fold, r.oldest] r.asid (r.sec || decide (128 ≤ r.slot)) .nobody

/-- The whole entry as the log's pointers give it (R75, step 1). -/
def Ring.entryWords (r : Ring) : List Nat :=
  [r.pub, (if r.pub = 0 then 0 else Sparse.get 0 r.stamps (r.pub - 1)), r.fold, r.oldest, 0, 0, 0, 0]

/-! Stamps (R68, R69). -/

/-- Order of announcements in a window (R69): contexts by (slot - W) mod 128, then copy engines, then hosts. -/
def annKey (w slot : Nat) : Nat := if slot < 128 then (slot + 128 - w % 128) % 128 else slot

def insertAnn (w : Nat) (x : Ann) : List Ann → List Ann
  | [] => [x]
  | y :: t => if annKey w x.slot < annKey w y.slot then x :: y :: t else y :: insertAnn w x t

/-- The order of a window's announcements, those carried over first. -/
def State.windowOrder (s : State) : List Ann :=
  s.carriedAnns ++ s.anns.foldl (fun l x => insertAnn s.winNo x l) []

/-- PACKAGE_WINDOW_CLOSE (R68, R69): the first 128 announcements take the stamps W x 128 + k, known within 40 ac;
the rest are carried over. Shoot-downs are broadcast (R127), unguarded releases reported, the group in ADDR (R110; assumption
142), and the publication entries brought up to date, so that none lags its log by more than 64 ac (R70). -/
def execPackageWindowClose (s : State) : Out :=
  let order := s.windowOrder
  let taken := order.take 128
  let (d, s0) := if taken.isEmpty then (0, s) else s.draw 41
  let known := s.now + d
  let segs := (List.range taken.length).filterMap fun k =>
    (taken[k]?).map fun x =>
      (⟨x.ring, x.slot, x.first, x.rel, x.touch, s.winNo * 128 + k, known, 0, [], []⟩ : Seg)
  let s1 := { s0 with
    winNo := s0.winNo + 1, winEnd := s0.winEnd + 64, anns := [], carriedAnns := order.drop 128,
    segs := s0.segs ++ segs, unguarded := [],
    topStamp := segs.foldl (fun (m : Nat) (g : Seg) => max m g.stamp) s0.topStamp,
    shoots := s0.shoots.map fun x : Shoot => { x with sent := true } }
  let s2 := taken.foldl (fun u x => u.atAc known (.stampReceive x.slot)) s1
  let s3 := s0.unguarded.foldl (fun u e =>
    u.report { errRec 0x0030 7 2 0 with addr := e.1, detail := e.2.2 }) s2
  let s4 := s3.rings.foldl (fun (u : State) r => u.trackEntry r) s3
  .next (s4.atAc s1.winEnd .packageWindowClose)

/-- The greater of two positions in each log. -/
def maxPos (x y : Sparse Nat) : Sparse Nat := y.foldl (fun m e => Sparse.set 0 m e.1 (max (Sparse.get 0 m e.1) e.2)) x

/-- A release of a log has its stamp: the arrays of the context whose log it is note it (R342). -/
def State.noteRelease (s : State) (r : Ring) (stamp : Nat) : State :=
  match s.ringCtx r with
  | none => s
  | some (a, c) => (List.range (chainLen (s.ctxOf a c).chain)).foldl (fun u p =>
      u.modArr (u.chainArr a c p) fun x => { x with relStamp := max x.relStamp stamp }) s

/-- STAMP_RECEIVE (R67, steps 5 and 6): the stamp stands in the release record, the publication entry is written
and the published tail moves past the record; the release is complete. -/
def execStampReceive (slot : Nat) (s : State) : Out :=
  .next (s.segs.foldl (fun u g =>
    if g.slot != slot || decide (s.now < g.known) then u else
    match u.ring? g.ring with
    | none => u
    | some r =>
      match r.release with
      | none => u
      | some x =>
        if x.step != 4 || x.seq != g.rel then u else
        let u1 := u.modRing g.ring fun q =>
          { q with
            recs := match q.recs.get none (g.rel % q.n) with
              | some rc =>
                let rc1 := { rc with data := rc.data ||| BitVec.ofNat 512 g.stamp }
                Sparse.set none q.recs (g.rel % q.n) (some { rc1 with crc := crc64 (recBytes rc1) })
              | none => q.recs
            stamps := Sparse.set 0 q.stamps g.rel g.stamp
            pub := g.rel + 1, segFirst := g.rel + 1, release := none
            seen := match u.ringCtx r with
              | some (a, c) => maxPos (maxPos q.seen (u.ctxOf a c).know) (u.ctxOf a c).pos
              | none => q.seen }
        let u1 := u1.noteRelease r g.stamp
        match u1.pubAddr r with
        | some pa =>
          let u2 := u1.hardWrite pa [g.rel + 1, g.stamp] r.asid (r.sec || decide (128 ≤ r.slot)) (.log r.id)
          if u2.asks.any (·.who == .log r.id) || u2.holds.any (fun h => h.late.any (·.2.2.2.2.2 == .log r.id)) then u2.modRing r.id fun q => { q with release := some { x with step := 5 } } else u2
        | none => u1) s)

/-! The log tracker (R72). -/

/-- The oldest stamped segment of a ring. -/
def State.firstSeg (s : State) (ring : Nat) : Option Seg :=
  (s.segs.filter (·.ring == ring)).foldl (fun b g =>
    match b with
    | none => some g
    | some h => if g.rel < h.rel then some g else some h) none

/-- A segment whose release is complete and which every slice of its touch map has reported. -/
def State.segPassed (s : State) (g : Seg) : Bool :=
  (g.touch &&& ~~~g.reported) == 0 && decide (g.known ≤ s.now) &&
  match s.ring? g.ring with
  | some r => decide (g.rel < r.pub)
  | none => true

/-- Index entries once the fold pointer stands at `f`: those of folded records are freed, unless a store of the
line still waits to be appended (R47). -/
def Ctx.freeIndex (c : Ctx) (f : Nat) : Ctx :=
  { c with own := c.own.filterMap fun e =>
      if e.2 = 1 ∨ f ≤ e.2 - 2 then some e
      else if c.buf.any (·.line == e.1) || c.storeQ.any (fun q => q.unentered && q.pa / 64 == e.1) then some (e.1, 1)
      else none }

/-- The same for a context of an array: a view line of a folded store's line may be older than the fold and goes (R47, R86). -/
def State.freeIndex (s : State) (a : ArrId) (c : CtxId) (f : Nat) : State :=
  let x := s.ctxOf a c
  let gone := (x.own.filter fun e => !(x.freeIndex f).hasOwn e.1).map (·.1)
  s.modArr a fun y => (y.modCtx c (·.freeIndex f)).dropViews x.asid fun l => gone.contains l

/-- Forwarding of a moved page goes on until every log of the ASID is past its stamp (R129, step 5). -/
def State.forwarding (s : State) (f : Forward) : Bool :=
  s.rings.any fun r =>
    r.tail != r.fold && decide (Sparse.get 0 r.stamps (r.fold - 1) ≤ f.stamp) &&
    if r.slot < 128 then r.asid == f.asid
    else (List.range (r.tail - r.fold)).any fun i => (r.at_ (r.fold + i)).asid == f.asid

/-- The task's earlier ring holds records that are not folded (R81): the fold pointer of its log stands there. -/
def State.foldsBefore (s : State) (ring : Nat) : Bool := s.rings.any fun q => q.next == some ring && decide (q.fold < q.pub)

/-- A ring's fold pointer moves; where the task has taken another ring, that one's moves with it, its log being one (R63). -/
def State.moveFold (s : State) (ring fold : Nat) : State :=
  s.modRing ring fun q => { q with fold := fold, foldAc := s.now, foldWas := if q.foldAc = s.now then q.foldWas else q.fold }

/-- The rings that a task has taken since one (R81), oldest first; `n` bounds them. -/
def State.ringsAfter (s : State) (ring : Nat) : Nat → List Nat
  | 0 => []
  | n + 1 => match (s.ring? ring).bind (·.next) with
    | some k => k :: State.ringsAfter s k n
    | none => []

/-- A ring is freed; of a task's last one, the task keeps the published tail and its stamp. -/
def State.freeRing (s : State) (r : Ring) : State :=
  let past := some (r.pub, if r.pub = 0 then 0 else Sparse.get 0 r.stamps (r.pub - 1))
  { s with
    rings := s.rings.filter (·.id != r.id)
    teams := s.teams.map fun t : Team => if t.id = r.team then
      { t with tasks := modWhere (fun k : Task => k.ring == r.id) (fun k => { k with past := past }) t.tasks } else t }

/-- LOG_TRACKER_ADVANCE (R72, R81): the fold pointer passes the oldest segment once every slice has reported it and every
earlier segment of the log has been passed; bytes 16 to 31 of the publication entry are written; a ring whose task has moved or
ended is freed when it is folded. -/
def execLogTrackerAdvance (ring : Nat) (s : State) : Out :=
  match s.firstSeg ring with
  | none => .next s
  | some g =>
    if !s.segPassed g || s.foldsBefore ring then .next s else
    let s1 := { s with segs := s.segs.filter fun h => !(h.ring == ring && h.rel == g.rel) }
    match s.ring? ring with
    | none => .next s1
    | some r0 =>
      let later := s1.ringsAfter ring s1.rings.length
      let s2 := later.foldl (fun (u : State) q => u.moveFold q (g.rel + 1)) (s1.moveFold ring (g.rel + 1))
      let now := (s2.ring? ((ring :: later).getLastD ring)).getD r0
      let s3 := match s2.ringCtx now with
        | some (a, c) => (s2.freeIndex a c now.fold).atAc (s.now + 1) (.appendStallEnd a c)
        | none => s2
      let s4 := s3.trackEntry now
      let s5 := (ring :: later).foldl (fun (u : State) q =>
        match u.ring? q with
        | some x => if x.frees && x.fold == x.pub then u.freeRing x else u
        | none => u) s4
      .next s5

/-! Acquire (R75, R76). -/

/-- A writer's log and the place of its entry, by the key of its position: a logical array, or a slot of 128 or
more. -/
def State.writerRing (s : State) (team key : Nat) : Option Ring :=
  if key < 128 then
    match s.team? team with
    | none => none
    | some t => (t.tasks.find? (·.larr == key)).bind fun k => s.ring? k.ring
  else s.rings.find? (·.slot == key)

/-- The published tail of a writer whose task has ended and whose ring is freed (R81). -/
def State.goneTail (s : State) (team key : Nat) : Option Nat :=
  (s.team? team).bind fun t => (t.tasks.find? (·.larr == key)).bind fun k => k.past.map (·.1)

/-- The sampled tail and the oldest retained sequence of a writer (R75, step 1): an entry that is poisoned is
rewritten from the log's pointers first. -/
def State.sample (s : State) (r : Ring) : Nat × Nat × State :=
  match s.pubAddr r with
  | none => (r.pub, r.oldest, s)
  | some pa =>
    let (d, p, s1) := s.homeRead (pa / 64) r.asid
    if p then
      let s2 := s1.hardWrite (pa / 64 * 64) r.entryWords r.asid (r.sec || decide (128 ≤ r.slot)) .nobody
      let s3 := s2.modLine (pa / 64) fun m => { m with poison := false }
      (r.pub, r.oldest, s3)
    else ((lineField d (pa % 64) 8).toNat, (lineField d (pa % 64 + 24) 8).toNat, s1)

/-- Positions of remote ranks are kept above this key: they sample and wait only (R76). -/
def remoteKey : Nat := 2 ^ 20

/-- A remote rank's publication entry is read (R70, R75, R76): where another owner has it, that owner is asked; one that is
poisoned is reported to the package that keeps its log's pointers, which rewrites it, and is sampled again. -/
def State.sampleRank (s : State) (a : ArrId) (c : CtxId) (t : Team) (rank : Nat) : AcqWriter × State :=
  let w : AcqWriter := { key := remoteKey + rank, ring := 0, tail := 0, done := false }
  match s.hardSee t.asid t.sec (t.sync + 64 * rank) with
  | none => (w, s.noteAbort t.asid t.sec (t.sync + 64 * rank) 7)
  | some pa =>
    if !s.ours (pa / 64) then ({ w with st := 1 }, s.request (.acquire a c w.key) pa .read t.sec t.asid)
    else
      let (d, p, s1) := s.homeRead (pa / 64) t.asid
      if p then ({ w with st := 0 }, s1.send (.badEntry ((s1.rankPkg t rank).getD s1.pkgNo) t.id rank))
      else ({ w with tail := (lineField d (pa % 64) 8).toNat, fold := (lineField d (pa % 64 + 16) 8).toNat }, s1)

/-- The fold pointer of a remote rank as its entry here holds it now. -/
def State.foldOf (s : State) (team rank : Nat) : Option Nat :=
  (s.team? team).bind fun t => (s.hardSee t.asid t.sec (t.sync + 64 * rank + 16)).bind fun pa =>
    if s.ours (pa / 64) then some (bytesToNat (Memory.bytes s.mem pa 8)) else none

/-- The poison of a remote rank's entry here is gone. -/
def State.entryWhole (s : State) (team rank : Nat) : Bool :=
  match (s.team? team).bind fun t => s.hardSee t.asid t.sec (t.sync + 64 * rank) with
  | some pa => !(s.lineMeta (pa / 64)).poison
  | none => true

/-- An owner has given a remote rank's entry, or its poison. The entry is asked for again until its fold pointer has reached the
sampled tail (R75, step 2). -/
def State.entryRead (s : State) (a : ArrId) (c : CtxId) (key pa : Nat) (bad : Bool) (d : LineData) : State :=
  let x := s.ctxOf a c
  match x.acquire.bind fun q => q.writers.find? fun w => w.key == key && w.st == 1, s.team? x.team.toNat with
  | some w, some t =>
    let put := fun (u : State) (v : AcqWriter) => u.modCtx a c fun y =>
      { y with acquire := y.acquire.map fun q => { q with writers := modWhere (· == w) (fun _ => v) q.writers } }
    let ask := fun (u : State) => u.request (.acquire a c key) pa .read t.sec t.asid
    if bad then ask (s.send (.badEntry ((s.rankPkg t (key - remoteKey)).getD s.pkgNo) t.id (key - remoteKey)))
    else
      let tail := if w.tail = 0 then (lineField d (pa % 64) 8).toNat else w.tail
      let fold := (lineField d (pa % 64 + 16) 8).toNat
      if tail ≤ fold then put s { w with tail := tail, fold := fold, st := 2 } else ask (put s { w with tail := tail, fold := fold })
  | _, _ => s

/-- A package that samples one of this package's logs has met poison in its entry: it is rewritten whole (R75, step 1). -/
def State.rewriteEntry (s : State) (team rank : Nat) : State :=
  match (s.team? team).bind fun t => (t.tasks.find? (·.rank == rank)).map fun k => (t, k) with
  | none => s
  | some (t, k) =>
    match s.hardDva t.asid t.sec (t.sync + 64 * rank) with
    | none => s
    | some pa =>
      let ws := match s.ring? k.ring, k.past with
        | some r, _ => r.entryWords
        | none, some (n, σ) => [n, σ, n, n, 0, 0, 0, 0]
        | none, none => [0, 0, 0, 0, 0, 0, 0, 0]
      let s1 := s.hardWrite pa ws t.asid t.sec .nobody
      if s1.ours (pa / 64) then s1.modLine (pa / 64) fun m => { m with poison := false } else s1

/-- The fold pointer that an acquire waits for has reached the sampled tail. -/
def State.writerFolded (s : State) (team : Nat) (w : AcqWriter) : Bool :=
  if remoteKey ≤ w.key then
    w.st == 2 && (decide (w.tail ≤ w.fold) ||
      match s.foldOf team (w.key - remoteKey) with | some f => decide (w.tail ≤ f) | none => false)
  else match s.ring? w.ring with
    | some r => decide (w.tail ≤ r.fold)
    | none => true

/-- Some of the named ranks stand on a package that is lost (R75, step 1). -/
def State.ranksLost (s : State) (team : Nat) (ranks : List Nat) : Bool :=
  match s.team? team with
  | none => false
  | some t => ranks.any fun r => match s.rankPkg t r with | some p => (s.lostGroup p).isSome | none => false

/-- Begin an acquire: sample every named writer but the context's own log (R288), and the named ranks of other
packages (R76). A writer whose ring is freed has published what it has and folded it. -/
def State.startAcquire (s : State) (a : ArrId) (c : CtxId) (scope : BitVec 3) (keys ranks : List Nat) : State :=
  let x := s.ctxOf a c
  let (ws, s1) := keys.foldl (fun (acc : List AcqWriter × State) k =>
    match acc.2.writerRing x.team.toNat k with
    | none => (match acc.2.goneTail x.team.toNat k with
      | some t => (acc.1 ++ [{ key := k, ring := 0, tail := t, done := false }], acc.2)
      | none => acc)
    | some r =>
      if r.id = x.ring then acc else
      let (t, _, u) := acc.2.sample r
      (acc.1 ++ [{ key := k, ring := r.id, tail := t, done := false }], u)) ([], s)
  let (far, s2) : List AcqWriter × State := match s.team? x.team.toNat with
    | some t => ranks.foldl (fun (acc : List AcqWriter × State) k =>
        let (w, u) := acc.2.sampleRank a c t k
        (acc.1 ++ [w], u)) ([], s1)
    | none => ([], s1)
  s2.modCtx a c fun y => { y with acquire := some ⟨scope, ws ++ far, !ranks.isEmpty⟩ }

/-- What a walk of a writer's records finds (R75, step 3). -/
inductive Walk where
  | lines (l : List Nat)
  | overrun
  | crc
  deriving DecidableEq, Repr

def Ring.walkRecs (r : Ring) (lo : Nat) : Nat → Walk
  | 0 => .lines []
  | k + 1 =>
    match Ring.walkRecs r lo k with
    | .lines l =>
      match r.recs.get none ((lo + k) % r.n) with
      | none => .overrun
      | some rc =>
        if rc.seq.toNat != (lo + k) % 2 ^ 48 then .overrun
        else if !recOk rc then .crc
        else .lines (if rc.rel then l else l ++ [rc.line.toNat])
    | w => w

/-- Every view and own line of the ASID is invalidated, and the case is counted where records were overwritten (R75). -/
def State.dropViews (s : State) (a : ArrId) (c : CtxId) : State := s.modArr a (·.dropAsid (s.ctxOf a c).asid)

def State.overrun (s : State) (a : ArrId) (c : CtxId) : State :=
  (s.dropViews a c).modCtx a c fun y => { y with ovac := if y.ovac = 0xFFFFFFFF then y.ovac else y.ovac + 1 }

/-- What an acquired writer had itself acquired of another log before its release is folded (R75); lines that those records name
are reloaded too, so that the acquirer sees them (R92; assumption 143). -/
def State.patchChain (s : State) (a : ArrId) (c : CtxId) (own key upto : Nat) : State :=
  let x := s.ctxOf a c
  let u := max (Sparse.get 0 x.pos key) (Sparse.get 0 x.know key)
  if upto ≤ u then s else
  match s.writerRing x.team.toNat key with
  | none => s.dropViews a c
  | some r =>
    if r.id = own then s
    else if u < r.oldest || decide (upto - u > 2048) then s.dropViews a c
    else match r.walkRecs u (upto - u) with
      | .lines ls => ls.foldl (fun v l => v.vcReload a c (s.named l)) s
      | _ => s.dropViews a c

/-- A team has acquired the records `lo` to `hi - 1` of a log: the array whose context's log it is notes the highest stamp among
them (R344). -/
def State.noteTaken (s : State) (r : Ring) (team lo hi : Nat) : State :=
  if 128 ≤ r.slot then s else
  let top := (r.stamps.filter fun e => decide (lo ≤ e.1 ∧ e.1 < hi)).foldl (fun m e => max m e.2) 0
  if hi ≤ lo then s else
  s.modArr ⟨r.slot / 4 % 32, by omega⟩ fun x => { x with takers := Sparse.set 0 x.takers team (max (Sparse.get 0 x.takers team) top) }

/-- Steps 3 and 4 for a writer whose fold pointer has reached the sampled tail. -/
def State.patchFrom (s : State) (a : ArrId) (c : CtxId) (w : AcqWriter) (r : Ring) : State :=
  let x := s.ctxOf a c
  let u := Sparse.get 0 x.pos w.key
  let (_, old, s0) := s.sample r
  let s1 :=
    if w.tail ≤ u then s0
    else if u < old then s0.overrun a c
    else if w.tail - u > 2048 then s0.dropViews a c
    else match r.walkRecs u (w.tail - u) with
      | .overrun => s0.overrun a c
      | .crc => s0.dropViews a c
      | .lines ls => ls.foldl (fun v l => v.vcReload a c (s.named l)) s0
  ((r.seen.foldl (fun (v : State) e => v.patchChain a c x.ring e.1 e.2) s1).noteTaken r x.team.toNat u w.tail).modCtx a c fun y =>
    { y with pos := Sparse.set 0 y.pos w.key (max u w.tail), know := maxPos y.know r.seen }

/-- A writer whose ring is freed: its records are overwritten (R75, R81). -/
def State.patchGone (s : State) (a : ArrId) (c : CtxId) (w : AcqWriter) : State :=
  let u := Sparse.get 0 (s.ctxOf a c).pos w.key
  (if w.tail ≤ u then s else s.overrun a c).modCtx a c fun y => { y with pos := Sparse.set 0 y.pos w.key (max u w.tail) }

/-- A remote rank whose entry was poisoned is sampled again once it is rewritten. -/
def State.resample (s : State) (a : ArrId) (c : CtxId) (w : AcqWriter) : AcqWriter × State :=
  match s.team? (s.ctxOf a c).team.toNat with
  | some t => if w.st = 0 ∧ s.entryWhole t.id (w.key - remoteKey) then s.sampleRank a c t (w.key - remoteKey) else (w, s)
  | none => (w, s)

/-- Go on with an acquire: each writer whose fold pointer has reached its sampled tail is patched from; once all
are, a remote part invalidates the view lines of the ASID and advances the epoch (R76). Those homed here and the own copies go too:
the remote writers, and those whose records they had acquired, may have written them (R92; assumption 157). True: complete. -/
def State.stepAcquire (s : State) (a : ArrId) (c : CtxId) : Bool × State :=
  match (s.ctxOf a c).acquire with
  | none => (true, s)
  | some q =>
    let (ws, s1) := q.writers.foldl (fun (acc : List AcqWriter × State) w0 =>
      let (w, u) := if w0.done then (w0, acc.2) else acc.2.resample a c w0
      let acc := (acc.1, u)
      if w.done || !acc.2.writerFolded (s.ctxOf a c).team.toNat w then (acc.1 ++ [w], acc.2) else
      match (if remoteKey ≤ w.key then none else acc.2.ring? w.ring) with
      | none => (acc.1 ++ [{ w with done := true }], if remoteKey ≤ w.key then acc.2 else acc.2.patchGone a c w)
      | some r => (acc.1 ++ [{ w with done := true }], acc.2.patchFrom a c w r)) ([], s)
    if ws.all (·.done) then
      let s2 := s1.modCtx a c fun y => { y with acquire := none }
      (true, if q.remote then
          let s3 := s2.dropViews a c
          { s3 with epoch := s3.epoch + 1 }
        else s2)
    else (false, s1.modCtx a c fun y => { y with acquire := some { q with writers := ws } })

/-- An acquire that can go on: some writer is ready, or all are done. -/
def State.acquireReady (s : State) (c : Ctx) : Bool :=
  match c.acquire with
  | none => true
  | some q => q.writers.all (·.done) || q.writers.any fun w => !w.done &&
      (s.writerFolded c.team.toNat w || (w.st == 0 && s.entryWhole c.team.toNat (w.key - remoteKey)))

/-- Ranks of a team that another package holds. -/
def Team.farRanks (t : Team) : List Nat :=
  if t.tsize ≤ t.ntasks then []
  else (List.range t.tsize).filter fun k => !(t.tasks.any (·.rank == k))

/-- The writers that a scope covers (R91): the keys of this package's logs, and the ranks elsewhere. -/
def State.scopeKeys (s : State) (a : ArrId) (c : CtxId) (scope : BitVec 3) : List Nat × List Nat :=
  let x := s.ctxOf a c
  match s.team? x.team.toNat with
  | none => ([], [])
  | some t =>
    let arrs := fun (p : Task → Bool) => (t.tasks.filter p).map (·.larr)
    let here : List Nat := match scope.toNat with
      | 0 => arrs fun k => k.arr == a
      | 1 => arrs fun k => ArrId.quad k.arr == ArrId.quad a
      | 2 => arrs fun k => ArrId.die k.arr == ArrId.die a
      | _ => arrs fun _ => true
    let bce := if 3 ≤ scope.toNat then (List.range 8).map (128 + ·) else []
    let host := if scope.toNat = 7 then (List.range 8).map (136 + ·) else []
    (here ++ bce ++ host, if 5 ≤ scope.toNat then t.farRanks else [])

end Sys2Proof.Machine
end

