-- ==== Sys2Proof/Machine/Jobs.lean ====
section
/-! DEFINITION. Jobs: footprints (R317), dependence edges (R104, R320), completion and failure (R316, R320, R338). -/

namespace Sys2Proof.Machine

def regionsMeet (x y : Region) : Bool := decide (x.lo ≤ y.hi ∧ y.lo ≤ x.hi)

/-- Some region of one kind of `x` overlaps one of another kind of `y`; a GLOBAL card covers every byte, read and
written. -/
def Job.overlaps (x y : Job) (wx wy : Bool) : Bool :=
  let rx := x.regions.filter (·.write == wx)
  let ry := y.regions.filter (·.write == wy)
  if x.global && y.global then true
  else if x.global then true
  else if y.global then true
  else rx.any fun a => ry.any fun b => regionsMeet a b

/-- Edges from an earlier job to a later one of one ASID (R104): after completion and folding, or after completion
alone. -/
inductive Edge where
  | none | afterDone | afterFold
  deriving DecidableEq, Repr

def edgeOf (j1 j2 : Job) : Edge :=
  if j1.asid != j2.asid || decide (j2.seq ≤ j1.seq) then .none
  else if j1.overlaps j2 true false || j1.overlaps j2 true true then .afterFold
  else if j1.overlaps j2 false true then .afterDone
  else .none

def Job.complete (j : Job) : Bool := j.st == .folding || j.st == .done || j.st == .failed

/-- Every record of a job's logs is folded (R104). A COPY job's records end at the sequence number that `team`
holds. -/
def State.jobFolded (s : State) (j : Job) : Bool :=
  j.rings.all fun r =>
    match s.ring? r with
    | none => true
    | some x => if j.cmd = 2 then decide (j.team ≤ x.fold) else decide (x.pub ≤ x.fold)

/-- An edge that still holds a job back. -/
def State.edgeOpen (s : State) (j1 j2 : Job) : Bool :=
  match edgeOf j1 j2 with
  | .none => false
  | .afterDone => !j1.complete
  | .afterFold => !(j1.complete && s.jobFolded j1)

/-- A WAITSTAMP or FENCE of a queue that is not complete holds the cards of the queue that come after it (R316). -/
def State.cardHeld (s : State) (q : QueueId) (seq : Nat) : Bool :=
  s.jobs.any fun i => i.queue == q && (i.cmd == 3 || i.cmd == 5) && decide (i.seq < seq) && !i.complete

/-- Every edge of a job is met. -/
def State.edgesMet (s : State) (j : Job) : Bool := s.jobs.all fun i => !s.edgeOpen i j

/-- QnDONE (R312): the highest sequence number below which every card of the queue has completed. -/
def State.updateDone (s : State) (q : Nat) : State :=
  let mine := s.jobs.filter (·.queue.val == q)
  let low := (mine.filter (!·.complete)).foldl (fun (m : Option Nat) j =>
    match m with | none => some j.seq | some n => some (min n j.seq)) none
  let top := (mine.filter fun j => j.complete && (match low with | some n => decide (j.seq < n) | none => true)).foldl
    (fun m j => max m j.seq) (s.queue q).done
  s.modQueue q fun x => { x with done := top }

/-- Jobs whose condition every later job can take as met leave the list. -/
def State.dropJobs (s : State) : State :=
  { s with jobs := s.jobs.filter fun j =>
      !(j.complete && s.jobFolded j && decide (j.seq ≤ (s.queue j.queue.val).done)) }

/-- A card completes: QnDONE moves on, and with IRQ set the queue's vector fires (R315, R360). -/
def State.signalDone (s : State) (j : Job) : State :=
  let s1 := s.updateDone j.queue.val
  if j.irq then s1.send (.msix (s1.queue j.queue.val).func (2 + j.queue.val)) else s1

/-- A job that is neither placed nor complete is ready from now on, and gains an age step for each full 1 ms (R322). -/
def State.makeReady (s : State) (job : Nat) : State :=
  (s.modJob job fun j => { j with st := .ready, readyAc := s.now }).atAc (s.now + acPerMs) (.jobAgeStep job)

/-- A job has completed, as failed or not (R316, R338). -/
def State.completeJob (s : State) (job : Nat) (failed : Bool) : State :=
  match s.job? job with
  | none => s
  | some j =>
    if j.complete then s else
    (s.modJob job fun x => { x with st := .folding, failed := x.failed || failed, steps := 0, promoted := false }).signalDone j

/-- A job that depends on another and has not started. -/
def State.dependsOn (s : State) (j i : Job) : Bool := i.st == .waiting && edgeOf j i != .none && s.edgeOpen j i

/-- The dependants of a failed job complete without running, each with its record, and theirs in turn (R320; assumption 158 for
DETAIL); `n` bounds the rounds. -/
def State.failDependants (s : State) (j : Job) : Nat → State
  | 0 => s
  | n + 1 =>
    (s.jobs.filter fun i => s.dependsOn j i).foldl (fun u i =>
      if (u.job? i.id).any (·.complete) then u else
      let u1 := u.report { errRec 0x0041 5 0 0 with queue := i.queue.val, asid := i.asid.toNat, detail := i.seq % 2 ^ 32 }
      (State.failDependants u1 i n).completeJob i.id true) s

/-- A job fails: its dependants do not run. -/
def State.failJob (s : State) (job : Nat) : State :=
  match s.job? job with
  | none => s
  | some j => (s.failDependants j s.jobs.length).completeJob job true

/-- A team has no task left to run: its LAUNCH completes (R316), and its package map is of no further use. -/
def State.teamCheck (s : State) (team : Nat) : State :=
  match s.team? team with
  | none => s
  | some t =>
    if t.tasks.all (fun k => k.ended) then
      let s1 := if t.dead then s.failJob t.job else s.completeJob t.job false
      let s2 := { s1 with barriers := s1.barriers.filter (·.team != team) }.freeFollowers
      s2.modTeam team fun u => { u with placed := false, map := u.map.map fun e : MapEntry => { e with valid := false } }
    else s.freeFollowers

/-- A ring whose task has ended is freed once it is folded (R81). -/
def State.retireRing (s : State) (ring : Nat) : State :=
  match s.ring? ring with
  | none => s
  | some r =>
    if r.fold = r.tail then s.freeRing r
    else s.modRing ring fun x => { x with frees := true }

/-- A free context whose task has executed END: its registers stand, its loop state and its return stack are gone (R228). -/
def Ctx.afterEnd (x : Ctx) : Ctx :=
  { g := x.g, flags := x.flags, sp := x.sp, q := x.q, fd := x.fd, cd := x.cd, iv := x.iv, th := x.th, kat := x.kat, chk := x.chk,
    rm := x.rm, fpflags := x.fpflags, seed := x.seed, ovac := x.ovac, bundles := x.bundles, node := x.node, rings := x.rings }

/-- A context leaves its array: its private lines are written back, its own copies invalidated, and it holds no
watch, lease or task. -/
def State.vacate (s : State) (a : ArrId) (c : CtxId) : State :=
  let s0 := ((s.writeBackOwned a (·.owner == c) true).forgetWalks (· == .ctx a c)).forgetAsks a c
  let s1 := s0.modArr a fun x =>
    { x.modCtx c (fun y : Ctx => if y.run == .ended then y.afterEnd else {}) with
      vc := x.vc.filter fun v => !((v.st == .own) && v.owner == c), reqs := x.reqs.set c.val false c.isLt }
  let s2 := { s1 with watchTab := s1.watchTab.filter fun w => !(w.arr == a && w.ctx == c) }
  if (s2.arr a).holder == some c then s2.dropLease a else s2

/-- A context is free (R228, R333) and its log retired. -/
def State.freeCtx (s : State) (a : ArrId) (c : CtxId) : State := (s.vacate a c).retireRing (s.ctxOf a c).ring

end Sys2Proof.Machine
end

