-- ==== Sys2Proof/Machine/Num.lean ====
section
/-! DEFINITION. Element formats and arithmetic (R155 to R172): exact values, one named rounding, the slow
functions between proved bounds, MF8, conversions and the LFSR. -/

namespace Sys2Proof.Machine

/-- The sticky flags of sr.fpflags (R171). -/
abbrev FpFlags := BitVec 7
def fNV : FpFlags := 1
def fDZ : FpFlags := 2
def fOF : FpFlags := 4
def fUF : FpFlags := 8
def fNX : FpFlags := 16
def fSAT : FpFlags := 32
def fNAR : FpFlags := 64

/-- A value read from a lane: NaN (or NaR), an infinity, or sign, m and e with magnitude m x 2^e. -/
inductive FVal where
  | nan
  | inf (neg : Bool)
  | fin (neg : Bool) (m : Nat) (e : Int)
  deriving DecidableEq, Repr

/-- A binary floating-point format: exponent and fraction widths (R155). -/
structure Fmt where
  eb : Nat
  fb : Nat
  deriving DecidableEq, Repr

def fp32 : Fmt := ⟨8, 23⟩
def bf16 : Fmt := ⟨8, 7⟩
def fp16 : Fmt := ⟨5, 10⟩

def Fmt.bias (f : Fmt) : Nat := 2 ^ (f.eb - 1) - 1
def Fmt.width (f : Fmt) : Nat := f.eb + f.fb + 1
/-- Exponent of the smallest normal (R155). -/
def Fmt.emin (f : Fmt) : Int := 1 - (f.bias : Int)
/-- The bits of +infinity. -/
def Fmt.infBits (f : Fmt) : Nat := (2 ^ f.eb - 1) * 2 ^ f.fb
/-- The canonical NaN (R157). -/
def Fmt.nan (f : Fmt) : Nat := f.infBits + 2 ^ (f.fb - 1)
def Fmt.signBit (f : Fmt) (neg : Bool) : Nat := if neg then 2 ^ (f.eb + f.fb) else 0

/-- The value of a lane (R155). -/
def Fmt.value (f : Fmt) (b : Nat) : FVal :=
  let neg := b.testBit (f.eb + f.fb)
  let ex := (b >>> f.fb) % 2 ^ f.eb
  let fr := b % 2 ^ f.fb
  if ex = 0 then .fin neg fr (f.emin - f.fb)
  else if ex = 2 ^ f.eb - 1 then (if fr = 0 then .inf neg else .nan)
  else .fin neg (2 ^ f.fb + fr) (ex - f.bias - f.fb)

/-- How a magnitude is rounded: to nearest even, toward zero (R158), or stochastically by a draw (R163). -/
inductive Round where
  | rne | rtz | stoch (draw : Nat)
  deriving DecidableEq, Repr

def bitLen (m : Nat) : Nat := if m = 0 then 0 else Nat.log2 m + 1

/-- A magnitude `m x 2^e` (with `more`, a little above it but below `(m + 1) x 2^e`) cut at the quantum
`2^q`: the whole quanta, and whether the rest makes it inexact and rounds it up. -/
def cutAt (r : Round) (m : Nat) (e : Int) (more : Bool) (q : Int) : Nat × Bool × Bool :=
  let sh := (q - e).toNat
  let m' := if q < e then m <<< (e - q).toNat else m
  let n := m' >>> sh
  let rest := m' % 2 ^ sh
  let inexact := rest != 0 || more
  let up := match r with
    | .rne => decide (2 * rest > 2 ^ sh) || (decide (2 * rest = 2 ^ sh) && (more || n % 2 = 1))
    | .rtz => false
    | .stoch draw => decide (draw * 2 ^ sh < rest * 2 ^ 24)
  (n, inexact, up)

/-- Round a magnitude once to a format (R158, R164): the bits and the flags OF, UF, NX. Tiny is judged
after rounding with an unbounded exponent. -/
def Fmt.round (f : Fmt) (r : Round) (neg : Bool) (m : Nat) (e : Int) (more : Bool) : Nat × FpFlags :=
  if m = 0 ∧ more = false then (f.signBit neg, 0) else
  let top : Int := bitLen m - 1 + e
  let qmin : Int := f.emin - f.fb
  let q : Int := max (top - f.fb) qmin
  let (n, inexact, up) := cutAt r m e more q
  let n' := if up then n + 1 else n
  let bits := (q - qmin).toNat * 2 ^ f.fb + n'
  let past : Bool := match r with
    | .stoch _ => inexact && decide ((q - qmin).toNat * 2 ^ f.fb + n + 1 ≥ f.infBits)
    | _ => false
  if bits ≥ f.infBits ∨ past = true then
    (f.signBit neg + (match r with | .rne => f.infBits | _ => f.infBits - 1), fOF ||| fNX)
  else
    let (u, _, uup) := cutAt r m e more (top - f.fb)
    let tiny := match r with
      | .stoch _ => decide (bits < 2 ^ f.fb)
      | _ => decide (top < f.emin) &&
          !(decide (top = f.emin - 1) && uup && decide (u + 1 = 2 ^ (f.fb + 1)))
    (f.signBit neg + bits, (if inexact then fNX else 0) ||| (if inexact && tiny then fUF else 0))

/-- Round an exact value to a format; NaN and infinity are kept (R157). -/
def Fmt.ofVal (f : Fmt) (r : Round) : FVal → Nat × FpFlags
  | .nan => (f.nan, 0)
  | .inf neg => (f.signBit neg + f.infBits, 0)
  | .fin neg m e => f.round r neg m e false

def FVal.isNan : FVal → Bool
  | .nan => true
  | _ => false

def FVal.isInf : FVal → Bool
  | .inf _ => true
  | _ => false

def FVal.neg : FVal → FVal
  | .nan => .nan
  | .inf s => .inf !s
  | .fin s m e => .fin (!s) m e

/-- A signed multiple of 2^q. -/
def sscale (neg : Bool) (m : Nat) (e q : Int) : Int :=
  let v : Int := ((m <<< (e - q).toNat : Nat) : Int)
  if neg then -v else v

/-- The exact sum; NV for opposite infinities (R158, R171). An exact zero is +0 unless both are -0. -/
def FVal.add : FVal → FVal → FVal × FpFlags
  | .nan, _ => (.nan, 0)
  | _, .nan => (.nan, 0)
  | .inf s, .inf t => if s = t then (.inf s, 0) else (.nan, fNV)
  | .inf s, _ => (.inf s, 0)
  | _, .inf t => (.inf t, 0)
  | .fin s m e, .fin t n g =>
    let q := min e g
    let v := sscale s m e q + sscale t n g q
    if v = 0 then (.fin (s && t) 0 0, 0) else (.fin (decide (v < 0)) v.natAbs q, 0)

/-- The exact product; NV for infinity times zero. -/
def FVal.mul : FVal → FVal → FVal × FpFlags
  | .nan, _ => (.nan, 0)
  | _, .nan => (.nan, 0)
  | .inf s, .inf t => (.inf (s != t), 0)
  | .inf s, .fin t m _ => if m = 0 then (.nan, fNV) else (.inf (s != t), 0)
  | .fin s m _, .inf t => if m = 0 then (.nan, fNV) else (.inf (s != t), 0)
  | .fin s m e, .fin t n g => (.fin (s != t) (m * n) (e + g), 0)

/-- c + a x b, exact, NV only where no input is a NaN (R159, R171). -/
def FVal.fma (c a b : FVal) : FVal × FpFlags :=
  if c.isNan || a.isNan || b.isNan then (.nan, 0) else
  let (p, f1) := a.mul b
  let (v, f2) := c.add p
  (v, f1 ||| f2)

def Fmt.sum (f : Fmt) (r : Round) (a b : Nat) : Nat × FpFlags :=
  let (v, f1) := (f.value a).add (f.value b)
  let (n, f2) := f.ofVal r v
  (n, f1 ||| f2)

def Fmt.diff (f : Fmt) (r : Round) (a b : Nat) : Nat × FpFlags :=
  let (v, f1) := (f.value a).add (f.value b).neg
  let (n, f2) := f.ofVal r v
  (n, f1 ||| f2)

def Fmt.prod (f : Fmt) (r : Round) (a b : Nat) : Nat × FpFlags :=
  let (v, f1) := (f.value a).mul (f.value b)
  let (n, f2) := f.ofVal r v
  (n, f1 ||| f2)

/-- The fused form: d of format `g`, a and b of format `f`, result in `g` (R159). -/
def Fmt.fused (f g : Fmt) (r : Round) (subtract : Bool) (d a b : Nat) : Nat × FpFlags :=
  let av := f.value a
  let (v, f1) := (g.value d).fma (if subtract then av.neg else av) (f.value b)
  let (n, f2) := g.ofVal r v
  (n, f1 ||| f2)

/-- Value order of two values, neither a NaN: a < b. Zeros of either sign are equal. -/
def FVal.lt : FVal → FVal → Bool
  | .nan, _ => false
  | _, .nan => false
  | .inf s, .inf t => s && !t
  | .inf s, _ => s
  | _, .inf t => !t
  | .fin s m e, .fin t n g => let q := min e g; decide (sscale s m e q < sscale t n g q)

def FVal.eqv (a b : FVal) : Bool := !a.isNan && !b.isNan && !a.lt b && !b.lt a

def FVal.sign : FVal → Bool
  | .nan => false
  | .inf s => s
  | .fin s _ _ => s

/-- Order with -0 below +0 (R159). -/
def FVal.below (a b : FVal) : Bool := a.lt b || (a.eqv b && a.sign && !b.sign)

def Fmt.minLane (f : Fmt) (a b : Nat) : Nat :=
  let x := f.value a
  let y := f.value b
  if x.isNan || y.isNan then f.nan else if y.below x then b else a

def Fmt.maxLane (f : Fmt) (a b : Nat) : Nat :=
  let x := f.value a
  let y := f.value b
  if x.isNan || y.isNan then f.nan else if x.below y then b else a

def Fmt.absLane (f : Fmt) (a : Nat) : Nat :=
  if (f.value a).isNan then f.nan else a % 2 ^ (f.eb + f.fb)

def Fmt.negLane (f : Fmt) (a : Nat) : Nat :=
  if (f.value a).isNan then f.nan else a ^^^ 2 ^ (f.eb + f.fb)

/-! Slow class (R160). A result is held as a magnitude between `lo` and `hi` times 2^e; both ends rounded
alike decide it, and a result they do not decide is the free value of Config (assumption 20). -/

/-- Fractional bits of the bounds. -/
def slowBits : Nat := 256

/-- Floor of the square root, by bits from `2^k` down. -/
def isqrtFrom : Nat → Nat → Nat → Nat
  | 0, _, r => r
  | k + 1, n, r => let c := r + 2 ^ k; isqrtFrom k n (if c * c ≤ n then c else r)

def isqrt (n : Nat) : Nat := isqrtFrom (bitLen n / 2 + 1) n 0

/-- 2^P times the sum of z^(2k+1) / (2k+1), z given as z x 2^P: `pw` is z^(2k+1), `zz` z squared. -/
def atanhFrom : Nat → Nat → Nat → Nat → Nat
  | 0, _, _, _ => 0
  | n + 1, k, pw, zz => pw / (2 * k + 1) + atanhFrom n (k + 1) (pw * zz / 2 ^ slowBits) zz

def atanhFix (z : Nat) : Nat := atanhFrom 90 0 z (z * z / 2 ^ slowBits)

/-- ln 2 x 2^P. -/
def ln2Fix : Nat := 2 * atanhFix (2 ^ slowBits / 3)

/-- e^y x 2^P for y = `y` / 2^P below 1. -/
def expFrom : Nat → Nat → Nat → Nat → Nat
  | 0, _, _, _ => 0
  | n + 1, k, t, y => t + expFrom n (k + 1) (t * y / 2 ^ slowBits / (k + 1)) y

def expFix (y : Nat) : Nat := expFrom 64 0 (2 ^ slowBits) y

/-- Slack of every bound below: 2^32 units of 2^-256. -/
def slowSlack : Nat := 2 ^ 32

/-- Round a magnitude known to lie strictly between `lo` and `hi` units of 2^e and to be no number of the
format. -/
def Fmt.between (f : Fmt) (r : Round) (code b : Nat) (neg : Bool) (lo hi : Nat) (e : Int) : Nat × FpFlags :=
  let x := f.round r neg lo e true
  let y := f.round r neg hi e true
  if x = y then x
  else (Config.slowUndecided code b (r == .rtz) % 2 ^ f.width, x.2 ||| y.2)

/-- Slow-class function codes. -/
inductive Slow where
  | rcp | rsq | exp2 | log2 | tanh
  deriving DecidableEq, Repr

def Fmt.rcp (f : Fmt) (r : Round) (b : Nat) : Nat × FpFlags :=
  match f.value b with
  | .nan => (f.nan, 0)
  | .inf s => (f.signBit s, 0)
  | .fin s m e =>
    if m = 0 then (f.signBit s + f.infBits, fDZ) else
    let k := bitLen m + 64
    f.round r s (2 ^ k / m) (-e - k) (2 ^ k % m != 0)

def Fmt.rsq (f : Fmt) (r : Round) (b : Nat) : Nat × FpFlags :=
  match f.value b with
  | .nan => (f.nan, 0)
  | .inf s => if s then (f.nan, fNV) else (0, 0)
  | .fin s m e =>
    if m = 0 then (f.signBit s + f.infBits, fDZ)
    else if s then (f.nan, fNV) else
    let odd := e % 2 != 0
    let m' := if odd then 2 * m else m
    let e' := if odd then e - 1 else e
    let k := bitLen m' + 64
    let root := isqrt (2 ^ (2 * k) / m')
    f.round r false root (-(e' / 2) - k) (root * root * m' != 2 ^ (2 * k))

def Fmt.exp2 (f : Fmt) (r : Round) (b : Nat) : Nat × FpFlags :=
  match f.value b with
  | .nan => (f.nan, 0)
  | .inf s => (if s then 0 else f.infBits, 0)
  | .fin s m e =>
    let scaled : Int := sscale s (if e > 12 ∧ m ≠ 0 then 2 ^ 24 else m) (if e > 12 then 0 else e) (-200)
    let n : Int := max (-400) (min 400 (scaled / 2 ^ 200))
    let frac : Nat := (scaled % 2 ^ 200).toNat
    if frac = 0 then f.round r false 1 n false else
    let v := expFix (frac * ln2Fix / 2 ^ 200)
    f.between r 0x10 b false (v - slowSlack) (v + slowSlack) (n - slowBits)

def Fmt.log2 (f : Fmt) (r : Round) (b : Nat) : Nat × FpFlags :=
  match f.value b with
  | .nan => (f.nan, 0)
  | .inf s => if s then (f.nan, fNV) else (f.infBits, 0)
  | .fin s m e =>
    if m = 0 then (f.signBit true + f.infBits, fDZ)
    else if s then (f.nan, fNV) else
    let top := bitLen m - 1
    let ex : Int := top + e
    if m = 2 ^ top then f.round r (decide (ex < 0)) ex.natAbs 0 false else
    let z := (m - 2 ^ top) * 2 ^ slowBits / (m + 2 ^ top)
    let lg := 2 * atanhFix z * 2 ^ slowBits / ln2Fix
    let v : Int := ex * 2 ^ slowBits + lg
    f.between r 0x11 b (decide (v < 0)) (v.natAbs - slowSlack) (v.natAbs + slowSlack) (-slowBits)

def Fmt.tanh (f : Fmt) (r : Round) (b : Nat) : Nat × FpFlags :=
  match f.value b with
  | .nan => (f.nan, 0)
  | .inf s => (f.signBit s + f.bias * 2 ^ f.fb, 0)
  | .fin s m e =>
    if m = 0 then (f.signBit s, 0) else
    let top : Int := bitLen m - 1 + e
    if top ≥ 6 then f.round r s (2 ^ 100 - 1) (-100) true
    else if top < -60 then f.round r s (m * 2 ^ 64 - 1) (e - 64) true else
    let y : Nat := (sscale false m e (-(slowBits : Int) - 1)).toNat
    let k := y / ln2Fix
    let u := (2 ^ (2 * slowBits) / expFix (y % ln2Fix)) >>> k
    let v := (2 ^ slowBits - u) * 2 ^ slowBits / (2 ^ slowBits + u)
    f.between r 0x12 b s (v - slowSlack) (v + slowSlack) (-slowBits)

def Slow.eval (k : Slow) (f : Fmt) (r : Round) (b : Nat) : Nat × FpFlags :=
  match k with
  | .rcp => f.rcp r b
  | .rsq => f.rsq r b
  | .exp2 => f.exp2 r b
  | .log2 => f.log2 r b
  | .tanh => f.tanh r b

/-! MF8 (R161, R163). -/

/-- Exponent and fraction of a body of seven bits other than zero. -/
def mf8Parts (c : Nat) : Int × Nat × Nat :=
  if c ≥ 64 then ((if c.testBit 5 then 0 else -1), 5, c % 32)
  else if c ≥ 32 then
    let x := c / 8 % 4
    ((if x < 2 then (x : Int) - 3 else (x : Int) - 1), 3, c % 8)
  else if c ≥ 16 then
    let x := c / 2 % 8
    ((if x < 4 then (x : Int) - 7 else (x : Int) - 1), 1, c % 2)
  else if c ≥ 8 then
    let x := c % 8
    ((if x < 4 then (x : Int) - 11 else (x : Int) + 3), 0, 0)
  else if c ≥ 4 then
    let x := c % 4
    ((if x < 2 then (x : Int) - 13 else (x : Int) + 9), 0, 0)
  else if c = 3 then (13, 0, 0)
  else if c = 2 then (-14, 0, 0)
  else (-15, 0, 0)

/-- The value of an MF8 code. -/
def mf8Value (c : Nat) : FVal :=
  let body := c % 128
  let neg := c.testBit 7
  if body = 0 then (if neg then .nan else .fin false 0 0) else
  let (ex, f, fr) := mf8Parts body
  .fin neg (2 ^ f + fr) (ex - f)

/-- The magnitude of a body in units of 2^-16. -/
def mf8Units (c : Nat) : Nat :=
  if c = 0 then 0 else
  let (ex, f, fr) := mf8Parts c
  (2 ^ f + fr) * 2 ^ (ex - f + 16).toNat

/-- The bodies of the greatest magnitude at most `a` and the least at least `a`, all in units of
2^-16 x 2^-s. -/
def mf8Neighbours (a s : Nat) : Nat → Nat × Nat → Nat × Nat
  | 0, acc => acc
  | c + 1, (lo, hi) =>
    let u := mf8Units c <<< s
    mf8Neighbours a s c
      (if u ≤ a ∧ mf8Units lo < mf8Units c then c else lo,
       if a ≤ u ∧ mf8Units c < mf8Units hi then c else hi)

/-- Conversion to MF8 (R163): nearest with ties to the smaller magnitude, or stochastic by a draw. -/
def toMf8 (draw : Option Nat) : FVal → Nat × FpFlags
  | .nan => (0x80, fNAR)
  | .inf _ => (0x80, fNAR)
  | .fin neg m e =>
    let s := (-16 - e).toNat
    let a := m <<< (e + 16).toNat
    let sgn := if neg then 0x80 else 0
    if a > (8192 * 2 ^ 16) <<< s then (sgn + 3, fOF ||| fNX) else
    let (lo, hi) := mf8Neighbours a s 128 (0, 3)
    let l := mf8Units lo <<< s
    let h := mf8Units hi <<< s
    let v := if l = a ∨ h = l then lo else
      match draw with
      | none => if a - l > h - a then hi else lo
      | some d => if d * (h - l) < (a - l) * 2 ^ 24 then hi else lo
    (if v = 0 then 0 else sgn + v,
     (if mf8Units v <<< s = a then 0 else fNX) ||| (if v = 0 ∧ a ≠ 0 then fUF else 0))

/-! Conversions to and from integers (R164). -/

/-- Two's complement of width w. -/
def ofInt (w : Nat) (v : Int) : Nat := (v % 2 ^ w).toNat

/-- A field of width w read as a signed number. -/
def toInt (w v : Nat) : Int := if v.testBit (w - 1) then (v : Int) - 2 ^ w else v

/-- Saturate to the signed range of width w; whether it did. -/
def satInt (w : Nat) (v : Int) : Nat × Bool :=
  if v > 2 ^ (w - 1) - 1 then (2 ^ (w - 1) - 1, true)
  else if v < -(2 ^ (w - 1)) then (2 ^ (w - 1), true)
  else (ofInt w v, false)

/-- A floating-point value to a signed integer of width w. -/
def toIntLane (w : Nat) (r : Round) : FVal → Nat × FpFlags
  | .nan => (0, fNV)
  | .inf neg => ((satInt w (if neg then -(2 ^ w) else 2 ^ w)).1, fSAT)
  | .fin neg m e =>
    let (n, inexact, up) := cutAt r m e false 0
    let n' : Int := if up then n + 1 else n
    let (v, sat) := satInt w (if neg then -n' else n')
    (v, if sat then fSAT else if inexact then fNX else 0)

/-- An integer as a value. -/
def intVal (v : Int) : FVal := .fin (decide (v < 0)) v.natAbs 0

/-! The LFSR (R165, R166). -/

def lfsrStep (s : BitVec 32) : BitVec 32 :=
  (s <<< 1) ||| (BitVec.ofBool (s.getLsbD 31 ^^ s.getLsbD 21 ^^ s.getLsbD 1 ^^ s.getLsbD 0)).zeroExtend 32

def lfsrDraw (s : BitVec 32) : Nat := s.toNat / 256

/-- The seed of the cell with index `n` (R166). -/
def lfsrSeed (seed : BitVec 32) (n : Nat) : BitVec 32 :=
  let v := seed ^^^ BitVec.ofNat 32 n
  if v = 0 then 0xFFFFFFFF else v

/-! MMA (R168, R169). -/

/-- The exact sum of products of finite elements, times 2^q. -/
def dotFin : List FVal → List FVal → Int → Int
  | .fin s m e :: as, .fin t n g :: bs, q => sscale (s != t) (m * n) (e + g) q + dotFin as bs q
  | _ :: as, _ :: bs, q => dotFin as bs q
  | _, _, _ => 0

/-- The sum of products where some element or scale is infinite: NaN on infinity times zero and on
opposite infinities. -/
def dotVal : List FVal → List FVal → FVal × FpFlags
  | a :: as, b :: bs =>
    let (p, f1) := a.mul b
    let (r, f2) := dotVal as bs
    let (v, f3) := p.add r
    (v, f1 ||| f2 ||| f3)
  | _, _ => (.fin false 0 0, 0)

def FVal.isZero : FVal → Bool
  | .fin _ m _ => m == 0
  | _ => false

/-- Least exponent of an element product: MF8 and FP16 and BF16 products are multiples of 2^-266. -/
def dotQuantum : Int := -266

/-- One FP32 lane of an MMA (R168). NV is not set where the partial is a NaN (R171). -/
def mmaLane (av : List FVal) (sa : FVal) (wk : List FVal) (swk : FVal) (part : Nat) : Nat × FpFlags :=
  let (p, f1) : Nat × FpFlags :=
    if av.any FVal.isNan || wk.any FVal.isNan || sa.isNan || swk.isNan then (fp32.nan, 0)
    else if sa.isZero || swk.isZero then (0, 0)
    else if av.any FVal.isInf || wk.any FVal.isInf || sa.isInf || swk.isInf then
      let (d, g1) := dotVal av wk
      let (x, g2) := d.mul sa
      let (y, g3) := x.mul swk
      ((fp32.ofVal .rne y).1, g1 ||| g2 ||| g3)
    else
      let d := dotFin av wk dotQuantum
      let x := ((FVal.fin (decide (d < 0)) d.natAbs dotQuantum).mul sa).1
      let y := (x.mul swk).1
      if y.isZero then (0, 0) else fp32.ofVal .rne y
  let (v, f2) := fp32.sum .rne p part
  (v, (if (fp32.value part).isNan then f1 &&& ~~~fNV else f1) ||| f2)

/-- The exact sum of signed products. -/
def dotInt : List Nat → List Nat → Int
  | a :: as, b :: bs => toInt 8 a * toInt 8 b + dotInt as bs
  | _, _ => 0

/-- Saturating INT32 addition (R169, R170). -/
def satAdd32 (s : Int) (part : Nat) : Nat × FpFlags :=
  let (v, sat) := satInt 32 (s + toInt 32 part)
  (v, if sat then fSAT else 0)

end Sys2Proof.Machine
end

