-- ==== Sys2Proof/Machine/Operands.lean ====
section
/-! DEFINITION. Which g registers an op reads and writes, the operands of cell ops (R187, R237), their
destinations (R238) and the addresses of M ops (R278). -/

namespace Sys2Proof.Machine

/-- The g registers a slot op reads as sources (R180). -/
def sources : Instr → List Reg
  | .add _ a b | .sub _ a b | .mul _ a b | .mulh _ a b | .mulhu _ a b | .and _ a b | .or _ a b
  | .xor _ a b | .shl _ a b | .shr _ a b | .sra _ a b | .min _ a b | .max _ a b | .minu _ a b
  | .maxu _ a b | .seq _ a b | .slt _ a b | .sltu _ a b | .divu _ a b | .divs _ a b | .remu _ a b
  | .rems _ a b => [a, b]
  | .clz _ a | .popc _ a => [a]
  | .addi _ a _ | .andi _ a _ | .ori _ a _ | .xori _ a _ | .slti _ a _ | .sltiu _ a _ => [a]
  | .shli _ a _ | .shri _ a _ | .srai _ a _ => [a]
  | .beq a b _ | .bne a b _ | .blt a b _ | .bge a b _ | .bltu a b _ | .bgeu a b _ => [a, b]
  | .baf a _ _ _ | .jr a | .loop a _ | .mloop a _ _ _ => [a]
  | .selc _ a | .selr _ a => [a]
  | .selg _ a b => [a, b]
  | .wait a _ | .wrsr a _ | .kats a => [a]
  | .eaclr a _ _ | .eadrain _ _ a _ _ | .fdset _ a _ | .cdset _ a _ | .ivld _ a _ | .etest _ a => [a]
  | .etag _ a b => [a, b]
  | .ld _ a _ _ _ | .lds _ a _ _ _ | .asld _ a _ _ _ | .prf a _ => [a]
  | .st g a _ _ _ | .asst g a _ _ _ | .logst g a _ _ _ => [g, a]
  | .acq a _ | .vcinv a | .mon a _ _ | .mwait _ a _ _ | .tdesc a _ => [a]
  | .aadd _ a b _ _ _ | .aand _ a b _ _ _ | .aor _ a b _ _ _ | .axor _ a b _ _ _ | .amin _ a b _ _ _
  | .amax _ a b _ _ _ | .aminu _ a b _ _ _ | .amaxu _ a b _ _ _ | .aswp _ a b _ _ _ => [a, b]
  | .afadd _ a b _ _ => [a, b]
  | .acas g a b _ _ _ => [g, a, b]
  | .cpy _ a b _ | .cpys _ a b _ | .cpyx _ a b _ => [a, b]
  | .cpyg _ a b _ _ | .cpyr _ a b _ _ => [a, b]
  | .send a b _ => [a, b]
  | _ => []

/-- The g register a slot op writes, g0 for none. -/
def target : Instr → Reg
  | .add d _ _ | .sub d _ _ | .mul d _ _ | .mulh d _ _ | .mulhu d _ _ | .and d _ _ | .or d _ _
  | .xor d _ _ | .shl d _ _ | .shr d _ _ | .sra d _ _ | .min d _ _ | .max d _ _ | .minu d _ _
  | .maxu d _ _ | .seq d _ _ | .slt d _ _ | .sltu d _ _ | .divu d _ _ | .divs d _ _ | .remu d _ _
  | .rems d _ _ => d
  | .clz d _ | .popc d _ => d
  | .addi d _ _ | .andi d _ _ | .ori d _ _ | .xori d _ _ | .slti d _ _ | .sltiu d _ _ => d
  | .shli d _ _ | .shri d _ _ | .srai d _ _ => d
  | .li d _ | .lik d _ | .fget d | .rdsr d _ => d
  | .ld d _ _ _ _ | .lds d _ _ _ _ | .asld d _ _ _ _ => d
  | .aadd d _ _ _ _ _ | .aand d _ _ _ _ _ | .aor d _ _ _ _ _ | .axor d _ _ _ _ _ | .amin d _ _ _ _ _
  | .amax d _ _ _ _ _ | .aminu d _ _ _ _ _ | .amaxu d _ _ _ _ _ | .aswp d _ _ _ _ _
  | .acas d _ _ _ _ _ => d
  | .afadd d _ _ _ _ => d
  | .mwait d _ _ _ => d
  | .cpy d _ _ _ | .cpys d _ _ _ | .cpyx d _ _ _ => d
  | .cpyg d _ _ _ _ | .cpyr d _ _ _ _ => d
  | .rcv d _ => d
  | _ => 0

/-- The flag a slot op writes (R220, R276). -/
def flagTarget : Instr → Option FlagNo
  | .fset f | .fclr f => some f
  | .fmov f _ => some f
  | .etest f _ => some f
  | _ => none

/-- The selector pair a slot op writes (R221). -/
def selTarget : Instr → Option SelNo
  | .selc p _ | .selr p _ => some p
  | .selk p _ _ => some p
  | .selg p _ _ => some p
  | _ => none

/-- The selector pair and the operand fields dst, a, b of a C op that names them (R187, R236). -/
def cellFields : Instr → Option (SelNo × Opnd × Opnd × Opnd)
  | .vadd d a b p _ | .vsub d a b p _ | .vmul d a b p _ | .vfma d a b p _ | .vfms d a b p _
  | .vmin d a b p _ | .vmax d a b p _ | .vabs d a b p _ | .vneg d a b p _ | .vcmpeq d a b p _
  | .vcmplt d a b p _ | .vcmple d a b p _ | .vsel d a b p _ | .vrcp d a b p _ | .vrsq d a b p _
  | .vexp2 d a b p _ | .vlog2 d a b p _ | .vtanh d a b p _ | .vmov d a b p _ | .vbcl d a b p _
  | .vperm d a b p _ | .vrsum d a b p _ | .vrmax d a b p _ | .vmacf d a b p _ => some (p, d, a, b)
  | .vcvt d a _ _ p => some (p, d, a, 0x44)
  | .viadd d a b p | .visub d a b p | .vimul d a b p | .vand d a b p | .vor d a b p | .vxor d a b p
  | .vshl d a b p | .vshr d a b p | .vsra d a b p | .vicmpeq d a b p | .vicmplt d a b p => some (p, d, a, b)
  | .mma _ _ _ _ _ _ _ p _ => some (p, 0x3B, 0x3C, 0x3E)
  | .wld _ a _ p => some (p, 0x44, a, 0x44)
  | .wrd d _ _ p => some (p, d, 0x44, 0x44)
  | .katc _ => some (0, 0x44, 0x44, 0x44)
  | _ => none

/-- A C op, other than NOP. -/
def isCell (i : Instr) : Bool := (cellFields i).isSome

/-- The slow class (R243). -/
def isSlow : Instr → Bool
  | .vrcp .. | .vrsq .. | .vexp2 .. | .vlog2 .. | .vtanh .. => true
  | _ => false

/-- A compare: the only ops that write cp and cf (R241). -/
def isCompare : Instr → Bool
  | .vcmpeq .. | .vcmplt .. | .vcmple .. | .vicmpeq .. | .vicmplt .. => true
  | _ => false

/-- An E.F op, which is paired (R178, R190). -/
def isFeed : Instr → Bool
  | .wfeed .. | .dfeed .. | .wfeedg .. | .wfeedt .. | .npush .. | .spull .. | .epull .. => true
  | _ => false

/-- A feed that stages words, and not a capture alone (R265 to R269). -/
def feeds : Instr → Bool
  | .wfeed .. | .dfeed .. | .wfeedg .. | .wfeedt .. | .npush .. => true
  | _ => false

/-- Access size in bytes of the M.M field (R192, R278). -/
def sizeM (size : BitVec 2) : Nat := 2 ^ size.toNat

/-- Access size of the M.A field: 00 w, 01 d. -/
def sizeA (size : BitVec 2) : Nat := if size == 1 then 8 else 4

/-- An M.M address: ga + displacement x size, the displacement widened by an extension header (R177,
R278). -/
def addrM (base : Word) (disp : BitVec 12) (ext : Option (BitVec 24)) (size : Nat) : Word :=
  base + BitVec.ofNat 64 size *
    (match ext with
     | some e => (e ++ disp).signExtend 64
     | none => disp.signExtend 64)

/-- The immediate of an E.D op, widened by an extension header (R177, R274). -/
def immE (imm : BitVec 12) (ext : Option (BitVec 24)) : Word :=
  match ext with
  | some e => (e ++ imm).signExtend 64
  | none => imm.signExtend 64

/-- The extension bits of the actor's slot op. -/
def State.ext (s : State) : Option (BitVec 24) :=
  match s.slotOp with
  | some o => o.ext
  | none => none

end Sys2Proof.Machine
end

