-- ==== Sys2Proof/Machine/Flags.lean ====
section
/-! DEFINITION. Flags f0 to f15 (R220), wait specs (R176), the aggregates of cf (R141) and the sticky
floating-point flags (R171, R172). -/

namespace Sys2Proof.Machine

/-- A flag as it stands. -/
def Ctx.flag (c : Ctx) (f : FlagNo) : Bool := c.flags.getLsbD f.toNat

/-- A flag as captured at first presentation (R180). -/
def Ctx.capFlag (c : Ctx) (f : FlagNo) : Bool := c.capFlags.getLsbD f.toNat

def Ctx.putFlag (c : Ctx) (f : FlagNo) (v : Bool) : Ctx :=
  { c with flags := if v then setBit c.flags f.toNat else clrBit c.flags f.toNat }

/-- Write a flag at the end of ac `t` (R220). -/
def Ctx.oweFlag (c : Ctx) (t : Nat) (f : FlagNo) (v : Bool) : Ctx := c.owe t (.flag f) (if v then 1 else 0)

/-- A wait spec is satisfied by the flags as they stand (R176, R179). -/
def Ctx.waitOk (c : Ctx) : Option (Bool × FlagNo) → Bool
  | none => true
  | some (clear, f) => c.flag f != clear

/-- The result of one delayed write (R182, R220, R230). -/
def Ctx.commit1 (c : Ctx) (d : Delayed) : Ctx :=
  match d.target with
  | .g r => if r = 0 then c else { c with g := c.g.set r.toNat d.value r.isLt }
  | .flag f => c.putFlag f (d.value != 0)
  | .status => { c with chk := d.value.getLsbD 0, rm := d.value.getLsbD 1 }

/-- Place a delayed write by its bundle's order, behind those of the same bundle. -/
def insertDelayed (d : Delayed) : List Delayed → List Delayed
  | [] => [d]
  | e :: t => if d.order < e.order then d :: e :: t else e :: insertDelayed d t

/-- What is due by the end of ac `t` is written, the later-issued bundle's write last (R220). -/
def Ctx.commitDelayed (c : Ctx) (t : Nat) : Ctx :=
  let due := (c.delayed.filter fun d => decide (d.due ≤ t)).foldl (fun l d => insertDelayed d l) []
  let c1 := due.foldl Ctx.commit1 c
  { c1 with delayed := c.delayed.filter fun d => !decide (d.due ≤ t) }

/-- cf of a cell in a context's bank (R36). -/
def Arr.cfAt (x : Arr) (cell : Nat) (c : CtxId) : Bool := Sparse.get false x.cf (cell * 4 + c.val)

/-- An aggregate kind (R185): 0 rowany, 1 rowall, 2 colany, 3 colall; bit `i`. -/
def Arr.aggBit (x : Arr) (c : CtxId) (kind i : Nat) : Bool :=
  let cells := (List.range 32).map fun j => x.cfAt (if kind < 2 then i * 32 + j else j * 32 + i) c
  if kind % 2 = 0 then cells.any id else cells.all id

/-- The aggregate over every position of a chain (R141). -/
def State.aggBit (s : State) (a : ArrId) (c : CtxId) (kind i : Nat) : Bool :=
  let bits := (List.range (chainLen (s.ctxOf a c).chain)).map fun p => (s.arr (s.chainArr a c p)).aggBit c kind i
  if kind % 2 = 0 then bits.any id else bits.all id

def State.aggWord (s : State) (a : ArrId) (c : CtxId) (kind : Nat) : Word :=
  (List.range 32).foldl (fun w i => if s.aggBit a c kind i then setBit w i else w) 0

/-- Every C op of the context that writes cf has executed in row 31 of the last position, its write made: it has left the
south edge (R141). -/
def Arr.cfQuiet (x : Arr) (c : CtxId) : Bool :=
  x.wave.all fun o => o.ctx != c || !isCompare o.ins || decide (o.rows < o.done)

def CollKind.isCapture : CollKind → Bool
  | .capture _ _ => true
  | _ => false

/-- Every C op of the context has left the last position, every slow result is written and every capture is accumulated
(R172, R228). -/
def Arr.cQuiet (x : Arr) (c : CtxId) : Bool :=
  x.wave.all (fun o => o.ctx != c) && (x.coll[c]).all fun i => !i.kind.isCapture

end Sys2Proof.Machine
end

