-- ==== Sys2Proof/Machine/SeqOps.lean ====
section
/-! DEFINITION. The S-slot ops (R206 to R234), but NODE, CKPT and END, which release. -/

namespace Sys2Proof.Machine

/-- An op whose result is written at the end of its issue ac (R206). -/
def State.alu (s : State) (srcs : List Reg) (gd : Reg) (f : Ctx → Word) : Out :=
  s.gate srcs gd (.next (s.retire fun c => c.wr s.now gd (f c)))

/-- MUL, MULH, MULHU: the result is written at the end of t + 2 (R206). -/
def State.mulOp (s : State) (ga gb gd : Reg) (f : Word → Word → Word) : Out :=
  s.gate [ga, gb] gd (.next (s.retire fun c => c.owe (s.now + 2) (.g gd) (f (c.rd ga) (c.rd gb))))

/-- The divider: busy through the end of t + 19, when it writes its result (R206, R208). -/
def State.divOp (s : State) (ga gb gd : Reg) (f : Word → Word → Word) : Out :=
  s.gate [ga, gb] gd
    (if (s.arr s.act.arr).divBusy.isSome then .next s.keep
     else
       let v := f (s.me.rd ga) (s.me.rd gb)
       let s1 := s.modArr s.act.arr fun x =>
         { x with divBusy := some (s.now + 19), divRes := some (s.act.ctx, gd, v) }
       let s2 := s1.atEnd (s.now + 19) (.divideResult s.act.arr)
       .next (s2.retire fun c => if gd = 0 then c else { c with dv := setBit c.dv gd.toNat }))

/-- DIVIDE_RESULT (R206): the divider delivers its result and is free. -/
def execDivideResult (a : ArrId) (s : State) : Out :=
  match (s.arr a).divRes with
  | none => .next (s.modArr a fun x => { x with divBusy := none })
  | some (c, r, v) =>
    .next ((s.modArr a fun x => { x with divBusy := none, divRes := none }).modCtx a c (·.deliverDiv r v))

def ofBool64 (b : Bool) : Word := if b then 1 else 0

/-- Leading zeros (R207). -/
def clz64 (v : Word) : Nat := if v = 0 then 64 else 63 - Nat.log2 v.toNat

/-- Set bits among the lowest `n` (R207). -/
def popFrom (v : Word) : Nat → Nat
  | 0 => 0
  | n + 1 => (if v.getLsbD n then 1 else 0) + popFrom v n

/-- Division and remainder (R208). -/
def divuW (a b : Word) : Word := if b = 0 then BitVec.allOnes 64 else a / b
def remuW (a b : Word) : Word := if b = 0 then a else a % b
def divsW (a b : Word) : Word :=
  if b = 0 then BitVec.allOnes 64
  else if a = 0x8000000000000000 ∧ b = BitVec.allOnes 64 then 0x8000000000000000
  else BitVec.ofInt 64 (a.toInt.tdiv b.toInt)
def remsW (a b : Word) : Word :=
  if b = 0 then a
  else if a = 0x8000000000000000 ∧ b = BitVec.allOnes 64 then 0
  else BitVec.ofInt 64 (a.toInt.tmod b.toInt)

def mulhW (a b : Word) : Word := (a.signExtend 128 * b.signExtend 128).extractLsb' 64 64
def mulhuW (a b : Word) : Word := (a.zeroExtend 128 * b.zeroExtend 128).extractLsb' 64 64

/-- NOP (R174): a bundle of four zero slots issues nothing and takes one issue. -/
def execNop (s : State) : Out := .next s.settle

def execAdd (gd ga gb : Reg) (s : State) : Out := s.alu [ga, gb] gd fun c => c.rd ga + c.rd gb
def execSub (gd ga gb : Reg) (s : State) : Out := s.alu [ga, gb] gd fun c => c.rd ga - c.rd gb
def execMul (gd ga gb : Reg) (s : State) : Out := s.mulOp ga gb gd (· * ·)
def execMulh (gd ga gb : Reg) (s : State) : Out := s.mulOp ga gb gd mulhW
def execMulhu (gd ga gb : Reg) (s : State) : Out := s.mulOp ga gb gd mulhuW
def execAnd (gd ga gb : Reg) (s : State) : Out := s.alu [ga, gb] gd fun c => c.rd ga &&& c.rd gb
def execOr (gd ga gb : Reg) (s : State) : Out := s.alu [ga, gb] gd fun c => c.rd ga ||| c.rd gb
def execXor (gd ga gb : Reg) (s : State) : Out := s.alu [ga, gb] gd fun c => c.rd ga ^^^ c.rd gb
def execShl (gd ga gb : Reg) (s : State) : Out :=
  s.alu [ga, gb] gd fun c => c.rd ga <<< ((c.rd gb).toNat % 64)
def execShr (gd ga gb : Reg) (s : State) : Out :=
  s.alu [ga, gb] gd fun c => c.rd ga >>> ((c.rd gb).toNat % 64)
def execSra (gd ga gb : Reg) (s : State) : Out :=
  s.alu [ga, gb] gd fun c => (c.rd ga).sshiftRight ((c.rd gb).toNat % 64)
def execMin (gd ga gb : Reg) (s : State) : Out :=
  s.alu [ga, gb] gd fun c => if (c.rd ga).slt (c.rd gb) then c.rd ga else c.rd gb
def execMax (gd ga gb : Reg) (s : State) : Out :=
  s.alu [ga, gb] gd fun c => if (c.rd ga).slt (c.rd gb) then c.rd gb else c.rd ga
def execMinu (gd ga gb : Reg) (s : State) : Out :=
  s.alu [ga, gb] gd fun c => if (c.rd ga).ult (c.rd gb) then c.rd ga else c.rd gb
def execMaxu (gd ga gb : Reg) (s : State) : Out :=
  s.alu [ga, gb] gd fun c => if (c.rd ga).ult (c.rd gb) then c.rd gb else c.rd ga
def execSeq (gd ga gb : Reg) (s : State) : Out := s.alu [ga, gb] gd fun c => ofBool64 (c.rd ga == c.rd gb)
def execSlt (gd ga gb : Reg) (s : State) : Out := s.alu [ga, gb] gd fun c => ofBool64 ((c.rd ga).slt (c.rd gb))
def execSltu (gd ga gb : Reg) (s : State) : Out :=
  s.alu [ga, gb] gd fun c => ofBool64 ((c.rd ga).ult (c.rd gb))
def execClz (gd ga : Reg) (s : State) : Out := s.alu [ga] gd fun c => BitVec.ofNat 64 (clz64 (c.rd ga))
def execPopc (gd ga : Reg) (s : State) : Out := s.alu [ga] gd fun c => BitVec.ofNat 64 (popFrom (c.rd ga) 64)
def execDivu (gd ga gb : Reg) (s : State) : Out := s.divOp ga gb gd divuW
def execDivs (gd ga gb : Reg) (s : State) : Out := s.divOp ga gb gd divsW
def execRemu (gd ga gb : Reg) (s : State) : Out := s.divOp ga gb gd remuW
def execRems (gd ga gb : Reg) (s : State) : Out := s.divOp ga gb gd remsW

/-! Immediates and constants (R209). -/

def execAddi (gd ga : Reg) (imm : BitVec 16) (s : State) : Out :=
  s.alu [ga] gd fun c => c.rd ga + imm.signExtend 64
def execAndi (gd ga : Reg) (imm : BitVec 16) (s : State) : Out :=
  s.alu [ga] gd fun c => c.rd ga &&& imm.zeroExtend 64
def execOri (gd ga : Reg) (imm : BitVec 16) (s : State) : Out :=
  s.alu [ga] gd fun c => c.rd ga ||| imm.zeroExtend 64
def execXori (gd ga : Reg) (imm : BitVec 16) (s : State) : Out :=
  s.alu [ga] gd fun c => c.rd ga ^^^ imm.zeroExtend 64
def execShli (gd ga : Reg) (sh : BitVec 6) (s : State) : Out := s.alu [ga] gd fun c => c.rd ga <<< sh.toNat
def execShri (gd ga : Reg) (sh : BitVec 6) (s : State) : Out := s.alu [ga] gd fun c => c.rd ga >>> sh.toNat
def execSrai (gd ga : Reg) (sh : BitVec 6) (s : State) : Out :=
  s.alu [ga] gd fun c => (c.rd ga).sshiftRight sh.toNat
def execLi (gd : Reg) (imm : BitVec 16) (s : State) : Out := s.alu [] gd fun _ => imm.signExtend 64

/-- Entry `i` of an image's constant table (R204). -/
def State.constOf (s : State) (c : Ctx) (i : Nat) : Word :=
  match s.image? c.image with
  | some m => m.consts.getD i 0
  | none => 0

def execLik (gd : Reg) (idx : BitVec 16) (s : State) : Out := s.alu [] gd fun c => s.constOf c idx.toNat
def execSlti (gd ga : Reg) (imm : BitVec 16) (s : State) : Out :=
  s.alu [ga] gd fun c => ofBool64 ((c.rd ga).slt (imm.signExtend 64))
def execSltiu (gd ga : Reg) (imm : BitVec 16) (s : State) : Out :=
  s.alu [ga] gd fun c => ofBool64 ((c.rd ga).ult (imm.zeroExtend 64))

/-! Branches, calls and returns (R210 to R213). -/

/-- PC + a signed bundle offset; a target below bundle 0 is no bundle (R196 refuses it). -/
def jumpTo (pc : Nat) (off : Int) : Nat := ((pc : Int) + off).toNat

/-- A taken branch takes effect when the residue is empty, its target presented 2 ac later (R181, R213). -/
def Ctx.take (c : Ctx) (target : Nat) : Ctx := { c with branch := some (target, 2) }

def State.branchOp (s : State) (srcs : List Reg) (cond : Ctx → Bool) (off : Int) : Out :=
  s.gate srcs 0 (.next (s.retire fun c => if cond c then c.take (jumpTo c.pc off) else c))

def execBeq (ga gb : Reg) (off : BitVec 16) (s : State) : Out :=
  s.branchOp [ga, gb] (fun c => c.rd ga == c.rd gb) off.toInt
def execBne (ga gb : Reg) (off : BitVec 16) (s : State) : Out :=
  s.branchOp [ga, gb] (fun c => c.rd ga != c.rd gb) off.toInt
def execBlt (ga gb : Reg) (off : BitVec 16) (s : State) : Out :=
  s.branchOp [ga, gb] (fun c => (c.rd ga).slt (c.rd gb)) off.toInt
def execBge (ga gb : Reg) (off : BitVec 16) (s : State) : Out :=
  s.branchOp [ga, gb] (fun c => !(c.rd ga).slt (c.rd gb)) off.toInt
def execBltu (ga gb : Reg) (off : BitVec 16) (s : State) : Out :=
  s.branchOp [ga, gb] (fun c => (c.rd ga).ult (c.rd gb)) off.toInt
def execBgeu (ga gb : Reg) (off : BitVec 16) (s : State) : Out :=
  s.branchOp [ga, gb] (fun c => !(c.rd ga).ult (c.rd gb)) off.toInt

/-- BFS and BFC read the flag as it stands in the ac of issue (R211). -/
def execBfs (f : FlagNo) (off : BitVec 16) (s : State) : Out := s.branchOp [] (fun c => c.flag f) off.toInt
def execBfc (f : FlagNo) (off : BitVec 16) (s : State) : Out := s.branchOp [] (fun c => !c.flag f) off.toInt

/-- BAF waits as R141 gives and tests one bit of an aggregate (R211). -/
def execBaf (ga : Reg) (agg : BitVec 2) (inv : Bool) (off : BitVec 16) (s : State) : Out :=
  s.gate [ga] 0
    (if (s.arr s.act.arr).cfQuiet s.act.ctx then
       let b := s.aggBit s.act.arr s.act.ctx agg.toNat ((s.me.rd ga).toNat % 32)
       s.branchOp [ga] (fun _ => b != inv) off.toInt
     else .next s.keep)

def execJmp (off : BitVec 26) (s : State) : Out := s.branchOp [] (fun _ => true) off.toInt

def execCall (off : BitVec 26) (s : State) : Out :=
  if s.me.rets.length ≥ 16 then .next (s.faultSlot fReturn)
  else .next (s.retire fun c => { c.take (jumpTo c.pc off.toInt) with rets := (c.pc + 1) :: c.rets })

def execRet (s : State) : Out :=
  match s.me.rets with
  | [] => .next (s.faultSlot fReturn)
  | p :: t => .next (s.retire fun c => { c.take p with rets := t })

/-- The number of bundles of a context's image; with no image every index lies inside. -/
def State.bundleCount (s : State) (c : Ctx) : Nat :=
  match s.image? c.image with
  | some m => m.count
  | none => 2 ^ 64

def execJr (ga : Reg) (s : State) : Out :=
  s.gate [ga] 0
    (if (s.me.rd ga).toNat < s.bundleCount s.me then .next (s.retire fun c => c.take (c.rd ga).toNat)
     else .next (s.faultSlot fFetch))

/-! Loops (R214 to R219). -/

def execLoop (ga : Reg) (off : BitVec 16) (s : State) : Out :=
  s.gate [ga] 0
    (let n := (s.me.rd ga).toNat
     let last := jumpTo s.me.pc off.toInt
     if s.me.loops.length ≥ 4 then .next (s.faultSlot fLoop)
     else if n = 0 then .next (s.retire (·.take (last + 1)))
     else .next (s.retire fun c => { c with loops := ⟨c.pc + 1, last, n⟩ :: c.loops }))

/-- LOOP_BACK_EDGE (R214, R215): the top entry is processed at its end bundle. -/
def execLoopBackEdge (a : ArrId) (c : CtxId) (s : State) : Out :=
  .next (s.modCtx a c fun x =>
    match x.loops with
    | [] => { x with pc := x.pc + 1 }
    | e :: t =>
      if e.remaining ≤ 1 then { x with loops := t, pc := e.last + 1 }
      else { x with loops := { e with remaining := e.remaining - 1 } :: t, pc := e.start })

/-- MLOOP (R217): its presentations follow; with n = 0 it is over at once and the body is skipped. -/
def execMloop (gcount : Reg) (iim1 : BitVec 4) (stm1 : BitVec 3) (_bodym1 : BitVec 7) (s : State) : Out :=
  s.gate [gcount] 0
    (.next (s.retire fun c =>
      { c with mloop := some ⟨(c.rd gcount).toNat, iim1.toNat + 1, stm1.toNat + 1, c.pc + 1, 0, 0, [], false⟩ }))

/-- An MLOOP is over: the bundle after its body is next, or the start of a LOOP whose last bundle is the MLOOP's (R217, R214;
assumption 44). -/
def Ctx.endMloop (c : Ctx) (m : MLoop) : Ctx :=
  let next := m.base + m.ii * m.st
  match c.loops with
  | e :: t =>
    if e.last + 1 = m.base then
      if e.remaining ≤ 1 then { c with mloop := none, loops := t, pc := next }
      else { c with mloop := none, loops := { e with remaining := e.remaining - 1 } :: t, pc := e.start }
    else { c with mloop := none, pc := next }
  | [] => { c with mloop := none, pc := next }

/-- LBRK (R216, R219). -/
def execLbrk (s : State) : Out :=
  match s.me.mloop with
  | some m =>
    let st := match s.slotOp with | some o => o.stage | none => 0
    .next (s.retire fun c => { c with mloop := some { m with n := min m.n (m.k - st + 1) } })
  | none =>
    match s.me.loops with
    | [] => .next (s.faultSlot fLoop)
    | e :: t => .next (s.retire fun c => { c.take (e.last + 1) with loops := t })

/-! Flags and selectors (R220, R221). -/

def execFset (f : FlagNo) (s : State) : Out := .next (s.retire (·.oweFlag s.now f true))
def execFclr (f : FlagNo) (s : State) : Out := .next (s.retire (·.oweFlag s.now f false))
def execFmov (fd fs : FlagNo) (s : State) : Out :=
  .next (s.retire fun c => if fd = fs then c else c.oweFlag s.now fd (c.capFlag fs))
def execFget (gd : Reg) (s : State) : Out := s.alu [] gd fun c => c.capFlags.zeroExtend 64

/-- Change a selector pair; sp0 stays (R139). -/
def Ctx.modSel (c : Ctx) (p : SelNo) (f : Sel → Sel) : Ctx :=
  if p = 0 then c else { c with sp := c.sp.set p.toNat (f (c.sp[p.toNat]'p.isLt)) p.isLt }

def execSelc (sp : SelNo) (ga : Reg) (s : State) : Out :=
  s.gate [ga] 0 (.next (s.retire fun c => c.modSel sp fun p => { p with cols := (c.rd ga).truncate 32 }))
def execSelr (sp : SelNo) (ga : Reg) (s : State) : Out :=
  s.gate [ga] 0 (.next (s.retire fun c => c.modSel sp fun p => { p with rows := (c.rd ga).truncate 32 }))
def execSelk (sp : SelNo) (skew : BitVec 2) (origin : BitVec 5) (s : State) : Out :=
  .next (s.retire fun c => c.modSel sp fun p => { p with skew := skew, origin := origin })

/-- SELG; a skew of 11 raises the descriptor fault and the pair is unchanged (R139, R221). -/
def execSelg (sp : SelNo) (ga gb : Reg) (s : State) : Out :=
  s.gate [ga, gb] 0
    (if (s.me.rd gb).extractLsb' 0 2 = 3 then .next (s.faultSlot fDescr)
     else .next (s.retire fun c => c.modSel sp fun _ =>
       { cols := (c.rd ga).extractLsb' 0 32, rows := (c.rd ga).extractLsb' 32 32,
         skew := (c.rd gb).extractLsb' 0 2, origin := (c.rd gb).extractLsb' 2 5 }))

/-! Waiting, the lease, TRAP (R222 to R224, R227). -/

/-- WAIT issues in the first ac at or beyond its deadline (R222). -/
def execWait (ga : Reg) (imm : BitVec 16) (s : State) : Out :=
  s.gate [ga] 0
    (let deadline := (s.me.rd ga).toNat + imm.toNat
     if s.now ≥ deadline then .next (s.retire id)
     else if s.phase = 0 then .next ((s.atAc deadline (.waitDeadline s.act.arr s.act.ctx)).hold 1)
     else .next s.keep)

/-- YIELD (R223): the context is switched out at the end of its bundle, its count of bundles is reset. -/
def execYield (s : State) : Out :=
  .next ((s.modArr s.act.arr fun x => { x with streak := 0 }).retire fun c => { c with yields := true })

/-- LEASE (R224): a request, granted at once where nobody holds the lease. -/
def State.seekLease (s : State) (a : ArrId) (c : CtxId) : State :=
  match (s.arr a).holder with
  | none => s.grant a c
  | some d => if d = c then s else s.modArr a fun x => { x with reqs := x.reqs.set c.val true c.isLt }

def execLease (s : State) : Out := .next ((s.seekLease s.act.arr s.act.ctx).retire id)

/-- UNLEASE (R224): REQ is cleared, and a held lease is given up at the end of the bundle. -/
def execUnlease (s : State) : Out :=
  let held := (s.arr s.act.arr).holder == some s.act.ctx
  .next ((s.modArr s.act.arr fun x => { x with reqs := x.reqs.set s.act.ctx.val false s.act.ctx.isLt }).retire fun c =>
    { c with drops := c.drops || held })

/-- The residue holds nothing but the actor's slot: NODE, CKPT, TRAP and END issue last (R225). -/
def State.alone (s : State) : Bool := s.me.residue.all fun o => o.slot == s.act.slot

/-- TRAP (R227): a fatal trap. -/
def execTrap (_code : BitVec 16) (s : State) : Out :=
  if s.alone then .next (s.faultSlot fTrap) else .next s.keep

def execKats (ga : Reg) (s : State) : Out := s.gate [ga] 0 (.next (s.retire fun c => { c with kat := c.rd ga }))

/-! System registers (R230 to R234). -/

/-- sr.lease (R153). -/
def State.leaseWord (s : State) (a : ArrId) (c : CtxId) : Word :=
  let x := s.arr a
  let held := x.holder == some c
  let base : Nat := (if held then 1 else 0) + (if x.reqs[c] then 2 else 0)
  match x.holder with
  | none => BitVec.ofNat 64 base
  | some d => BitVec.ofNat 64 (base + 4 * d.val + 16 + 2 ^ 16 * (x.remain % 2 ^ 15))

/-- sr.ringhd and sr.ringtl (R306). -/
def MsgRing.headWord (r : MsgRing) : Word := r.log2n ++ r.base ++ 0#8 ++ r.head
def MsgRing.tailWord (r : MsgRing) : Word := r.count ++ 0#8 ++ r.tail

/-- A log pointer of a context (R64). -/
def State.logPtr (s : State) (c : Ctx) (f : Ring → Nat) : Word :=
  match s.ring? c.ring with
  | some r => BitVec.ofNat 64 (f r)
  | none => 0

/-- The value of a system register (R232 to R234). -/
def State.readSr (s : State) (a : ArrId) (c : CtxId) (n : Nat) : Word :=
  let x := s.ctxOf a c
  match n with
  | 0x000 => BitVec.ofNat 64 c.val
  | 0x001 => x.larr.zeroExtend 64
  | 0x002 => BitVec.ofNat 64 a.val
  | 0x003 => x.team.zeroExtend 64
  | 0x004 => x.tsize.zeroExtend 64
  | 0x005 => x.rank.zeroExtend 64
  | 0x008 => s.cycle
  | 0x009 => x.bundles
  | 0x010 => s.logPtr x (·.tail)
  | 0x011 => s.logPtr x (·.pub)
  | 0x012 => s.logPtr x (·.fold)
  | 0x013 => x.ovac.zeroExtend 64
  | 0x018 => (0#59 ++ x.chain ++ BitVec.ofBool x.sec ++ BitVec.ofBool x.rm ++ BitVec.ofBool x.chk)
  | 0x019 => s.leaseWord a c
  | 0x01A => x.fpflags.zeroExtend 64
  | 0x01B => x.seed.zeroExtend 64
  | 0x01C => x.node.zeroExtend 64
  | 0x020 => s.aggWord a c 0
  | 0x021 => s.aggWord a c 1
  | 0x022 => s.aggWord a c 2
  | 0x023 => s.aggWord a c 3
  | 0x028 => x.rings[0].headWord
  | 0x029 => x.rings[1].headWord
  | 0x02A => x.rings[2].headWord
  | 0x02B => x.rings[3].headWord
  | 0x02C => x.rings[0].tailWord
  | 0x02D => x.rings[1].tailWord
  | 0x02E => x.rings[2].tailWord
  | 0x02F => x.rings[3].tailWord
  | 0x030 => x.q[0]
  | 0x031 => x.q[1]
  | 0x032 => x.q[2]
  | 0x033 => x.q[3]
  | 0x034 => x.q[4]
  | 0x035 => x.q[5]
  | 0x036 => x.q[6]
  | 0x037 => x.q[7]
  | _ => 0

/-- Whether a read or write of a system register may issue (R231). -/
def State.srReady (s : State) (a : ArrId) (c : CtxId) (n : Nat) (wr : Bool) : Bool :=
  if n = 0x01A then (s.arr a).cQuiet c
  else if 0x020 ≤ n ∧ n ≤ 0x023 ∧ wr = false then (s.arr a).cfQuiet c
  else true

def execRdsr (gd : Reg) (sr : BitVec 16) (s : State) : Out :=
  if s.srReady s.act.arr s.act.ctx sr.toNat false then
    s.alu [] gd fun _ => s.readSr s.act.arr s.act.ctx sr.toNat
  else .next s.keep

/-- WRSR: the writable fields, at the end of the issue ac (R230, R231). A write of an RO register has no
effect. -/
def execWrsr (ga : Reg) (sr : BitVec 16) (s : State) : Out :=
  s.gate [ga] 0
    (if s.srReady s.act.arr s.act.ctx sr.toNat true then
       match sr.toNat with
       | 0x013 => .next (s.retire fun c => { c with ovac := (c.rd ga).truncate 32 })
       | 0x018 => .next (s.retire fun c => c.owe s.now .status (c.rd ga))
       | 0x01A => .next (s.retire fun c => { c with fpflags := c.fpflags &&& ~~~((c.rd ga).truncate 7) })
       | 0x01B =>
         .next ((s.sendDown s.act.arr s.act.ctx (.wrsr ga sr) (s.me.rd ga)).retire fun c =>
           { c with seed := (c.rd ga).truncate 32 })
       | _ => .next (s.retire id)
     else .next s.keep)

end Sys2Proof.Machine
end

