-- ==== Sys2Proof/Machine/CellOps.lean ====
section
/-! DEFINITION. What a C op does in one executing cell (R235 to R256): one function per op, over the operand
words it has read. -/

namespace Sys2Proof.Machine

/-- The lanes of a word, lane 0 first (R156). -/
def lanes (w : Nat) (x : CWord) : List Nat :=
  (List.range (256 / w)).map fun k => (x.toNat >>> (k * w)) % 2 ^ w

/-- A word from its lanes. -/
def ofLanes (w : Nat) (l : List Nat) : CWord := BitVec.ofNat 256 (l.foldr (fun v acc => v + acc * 2 ^ w) 0)

/-- Lane width by vector type (R156, R187). -/
def laneW (ty : BitVec 2) : Nat := if ty = 1 ∨ ty = 2 then 16 else 32

/-- The floating-point format of a vector type. -/
def tyFmt (ty : BitVec 2) : Fmt := if ty = 1 then bf16 else if ty = 2 then fp16 else fp32

/-- What a C op finds in a cell: its operands with side fields, the lane predicate, RM and the LFSR. -/
structure CellIn where
  a : CWord
  aSide : BitVec 32
  b : CWord
  bSide : BitVec 32
  d : CWord
  cp : BitVec 32
  rm : Bool
  lfsr : BitVec 32

/-- What it leaves: the result and its side field, sticky flags, cp and cf, and the LFSR. -/
structure CellOut where
  data : CWord
  side : BitVec 32 := Config.oneF32
  flags : FpFlags := 0
  cp : Option (BitVec 32) := none
  cf : Option Bool := none
  lfsr : Option (BitVec 32) := none

def CellIn.round (i : CellIn) : Round := if i.rm then .rtz else .rne

/-- Lanes under cp: an enabled lane takes `f`, a disabled one keeps its old value and raises nothing
(R240). -/
def byLane (cp : BitVec 32) (f : Nat → Nat → Nat × FpFlags) :
    Nat → List Nat → List Nat → List Nat → List Nat × FpFlags
  | k, o :: os, x :: xs, y :: ys =>
    let (r, g) := byLane cp f (k + 1) os xs ys
    if cp.getLsbD k then
      let (v, fl) := f x y
      (v :: r, fl ||| g)
    else (o :: r, g)
  | _, _, _, _ => ([], 0)

def lanewise (w : Nat) (i : CellIn) (f : Nat → Nat → Nat × FpFlags) : CellOut :=
  let (l, fl) := byLane i.cp f 0 (lanes w i.d) (lanes w i.a) (lanes w i.b)
  { data := ofLanes w l, flags := fl }

/-- A compare writes whole lanes, cp and cf (R241). -/
def compareLanes (w : Nat) (i : CellIn) (f : Nat → Nat → Bool) : CellOut :=
  let t := List.zipWith f (lanes w i.a) (lanes w i.b)
  { data := ofLanes w (t.map fun b => if b then 2 ^ w - 1 else 0)
    cp := some (BitVec.ofNat 32 (t.foldr (fun b acc => (if b then 1 else 0) + 2 * acc) 0))
    cf := some (t.any id) }

/-! Floating point (R242). -/

def cellVadd (ty : BitVec 2) (i : CellIn) : CellOut := lanewise (laneW ty) i ((tyFmt ty).sum i.round)
def cellVsub (ty : BitVec 2) (i : CellIn) : CellOut := lanewise (laneW ty) i ((tyFmt ty).diff i.round)
def cellVmul (ty : BitVec 2) (i : CellIn) : CellOut := lanewise (laneW ty) i ((tyFmt ty).prod i.round)

/-- Elements that a fused op takes from a source: every lane, or the even lanes of a 16-bit type (R159). -/
def evens (ty : BitVec 2) (x : CWord) : List Nat :=
  if ty = 1 ∨ ty = 2 then (List.range 8).map fun k => (x.toNat >>> (32 * k)) % 2 ^ 16 else lanes 32 x

/-- Lane by lane with the destination as addend, exact product, one rounding to FP32 (R159, R239). -/
def fusedLanes (f : Fmt) (r : Round) (subtract : Bool) (cp : BitVec 32) :
    Nat → List Nat → List Nat → List Nat → List Nat × FpFlags
  | k, o :: os, x :: xs, y :: ys =>
    let (t, g) := fusedLanes f r subtract cp (k + 1) os xs ys
    if cp.getLsbD k then
      let (v, fl) := f.fused fp32 r subtract o x y
      (v :: t, fl ||| g)
    else (o :: t, g)
  | _, _, _, _ => ([], 0)

def cellFused (ty : BitVec 2) (subtract : Bool) (i : CellIn) : CellOut :=
  let (l, fl) := fusedLanes (tyFmt ty) i.round subtract i.cp 0 (lanes 32 i.d) (evens ty i.a) (evens ty i.b)
  { data := ofLanes 32 l, flags := fl }

def cellVfma (ty : BitVec 2) (i : CellIn) : CellOut := cellFused ty false i
def cellVfms (ty : BitVec 2) (i : CellIn) : CellOut := cellFused ty true i
def cellVmin (ty : BitVec 2) (i : CellIn) : CellOut :=
  lanewise (laneW ty) i fun x y => ((tyFmt ty).minLane x y, 0)
def cellVmax (ty : BitVec 2) (i : CellIn) : CellOut :=
  lanewise (laneW ty) i fun x y => ((tyFmt ty).maxLane x y, 0)
def cellVabs (ty : BitVec 2) (i : CellIn) : CellOut := lanewise (laneW ty) i fun x _ => ((tyFmt ty).absLane x, 0)
def cellVneg (ty : BitVec 2) (i : CellIn) : CellOut := lanewise (laneW ty) i fun x _ => ((tyFmt ty).negLane x, 0)
def cellVcmpeq (ty : BitVec 2) (i : CellIn) : CellOut :=
  compareLanes (laneW ty) i fun x y => ((tyFmt ty).value x).eqv ((tyFmt ty).value y)
def cellVcmplt (ty : BitVec 2) (i : CellIn) : CellOut :=
  compareLanes (laneW ty) i fun x y => ((tyFmt ty).value x).lt ((tyFmt ty).value y)
def cellVcmple (ty : BitVec 2) (i : CellIn) : CellOut :=
  compareLanes (laneW ty) i fun x y =>
    ((tyFmt ty).value x).lt ((tyFmt ty).value y) || ((tyFmt ty).value x).eqv ((tyFmt ty).value y)

/-- Lane by lane, a where cp is set and b elsewhere; bits are copied (R242). -/
def pick (cp : BitVec 32) : Nat → List Nat → List Nat → List Nat
  | k, x :: xs, y :: ys => (if cp.getLsbD k then x else y) :: pick cp (k + 1) xs ys
  | _, _, _ => []

def cellVsel (ty : BitVec 2) (i : CellIn) : CellOut :=
  { data := ofLanes (laneW ty) (pick i.cp 0 (lanes (laneW ty) i.a) (lanes (laneW ty) i.b)) }

/-! Slow class (R160, R243). -/

def cellSlow (k : Slow) (ty : BitVec 2) (i : CellIn) : CellOut :=
  lanewise (laneW ty) i fun x _ => k.eval (tyFmt ty) i.round x

def cellVrcp (ty : BitVec 2) (i : CellIn) : CellOut := cellSlow .rcp ty i
def cellVrsq (ty : BitVec 2) (i : CellIn) : CellOut := cellSlow .rsq ty i
def cellVexp2 (ty : BitVec 2) (i : CellIn) : CellOut := cellSlow .exp2 ty i
def cellVlog2 (ty : BitVec 2) (i : CellIn) : CellOut := cellSlow .log2 ty i
def cellVtanh (ty : BitVec 2) (i : CellIn) : CellOut := cellSlow .tanh ty i

/-! Conversions (R244, R245). -/

/-- Source and destination lane widths of a conversion code. -/
def convWidths (conv : Nat) : Nat × Nat :=
  match conv with
  | 0x00 | 0x01 | 0x04 | 0x05 => (32, 16)
  | 0x02 | 0x03 | 0x06 | 0x07 => (16, 16)
  | 0x08 | 0x0B => (32, 8)
  | 0x09 | 0x0A | 0x0C | 0x0D => (16, 8)
  | 0x0E => (8, 32)
  | 0x0F | 0x10 => (8, 16)
  | 0x11 | 0x12 => (16, 32)
  | 0x13 => (32, 32)
  | 0x14 => (32, 8)
  | 0x15 | 0x17 => (16, 32)
  | 0x16 | 0x18 => (16, 8)
  | 0x19 => (32, 32)
  | 0x1A | 0x1B => (8, 32)
  | _ => (32, 8)

/-- The stochastic codes. -/
def convStoch (conv : Nat) : Bool := (4 ≤ conv && conv ≤ 7) || (0x0B ≤ conv && conv ≤ 0x0D)

/-- One lane of a conversion (R163, R164). -/
def convLane (conv : Nat) (r : Round) (draw : Nat) (x : Nat) : Nat × FpFlags :=
  match conv with
  | 0x00 => bf16.ofVal r (fp32.value x)
  | 0x01 => fp16.ofVal r (fp32.value x)
  | 0x02 => bf16.ofVal r (fp16.value x)
  | 0x03 => fp16.ofVal r (bf16.value x)
  | 0x04 => bf16.ofVal (.stoch draw) (fp32.value x)
  | 0x05 => fp16.ofVal (.stoch draw) (fp32.value x)
  | 0x06 => bf16.ofVal (.stoch draw) (fp16.value x)
  | 0x07 => fp16.ofVal (.stoch draw) (bf16.value x)
  | 0x08 => toMf8 none (fp32.value x)
  | 0x09 => toMf8 none (bf16.value x)
  | 0x0A => toMf8 none (fp16.value x)
  | 0x0B => toMf8 (some draw) (fp32.value x)
  | 0x0C => toMf8 (some draw) (bf16.value x)
  | 0x0D => toMf8 (some draw) (fp16.value x)
  | 0x0E => fp32.ofVal .rne (mf8Value x)
  | 0x0F => bf16.ofVal .rne (mf8Value x)
  | 0x10 => fp16.ofVal .rne (mf8Value x)
  | 0x11 => fp32.ofVal .rne (bf16.value x)
  | 0x12 => fp32.ofVal .rne (fp16.value x)
  | 0x13 => toIntLane 32 r (fp32.value x)
  | 0x14 => toIntLane 8 r (fp32.value x)
  | 0x15 => toIntLane 32 r (bf16.value x)
  | 0x16 => toIntLane 8 r (bf16.value x)
  | 0x17 => toIntLane 32 r (fp16.value x)
  | 0x18 => toIntLane 8 r (fp16.value x)
  | 0x19 => fp32.ofVal r (intVal (toInt 32 x))
  | 0x1A => (ofInt 32 (toInt 8 x), 0)
  | 0x1B => fp32.ofVal .rne (intVal (toInt 8 x))
  | _ => let (v, sat) := satInt 8 (toInt 32 x); (v, if sat then fSAT else 0)

/-- Destination lanes from `k`: lane k takes source lane k + first - part x Ls where the part covers it, keeps
its old value elsewhere; each enabled lane of a stochastic code takes one LFSR step (R165, R244). -/
def convLanes (conv : Nat) (r : Round) (cp : BitVec 32) (src : List Nat) (lo hi from_ : Nat) :
    Nat → List Nat → BitVec 32 → List Nat × FpFlags × BitVec 32
  | k, o :: os, l =>
    if lo ≤ k ∧ k < hi ∧ cp.getLsbD k then
      let l1 := if convStoch conv then lfsrStep l else l
      let (v, f) := convLane conv r (lfsrDraw l1) (src.getD (k - lo + from_) 0)
      let (t, g, l2) := convLanes conv r cp src lo hi from_ (k + 1) os l1
      (v :: t, f ||| g, l2)
    else
      let (t, g, l2) := convLanes conv r cp src lo hi from_ (k + 1) os l
      (o :: t, g, l2)
  | _, [], l => ([], 0, l)

def cellVcvt (conv : BitVec 5) (part : BitVec 2) (i : CellIn) : CellOut :=
  let (ws, wd) := convWidths conv.toNat
  let ls := 256 / ws
  let ld := 256 / wd
  let (lo, hi, from_) :=
    if ld > ls then (part.toNat * ls, part.toNat * ls + ls, 0)
    else if ld < ls then (0, ld, part.toNat * ld)
    else (0, ld, 0)
  let (l, f, s) := convLanes conv.toNat i.round i.cp (lanes ws i.a) lo hi from_ 0 (lanes wd i.d) i.lfsr
  { data := ofLanes wd l, flags := f, lfsr := some s }

/-! Integer (R246). -/

def cellInt (i : CellIn) (f : BitVec 32 → BitVec 32 → BitVec 32) : CellOut :=
  lanewise 32 i fun x y => ((f (BitVec.ofNat 32 x) (BitVec.ofNat 32 y)).toNat, 0)

def cellViadd (i : CellIn) : CellOut := cellInt i (· + ·)
def cellVisub (i : CellIn) : CellOut := cellInt i (· - ·)
def cellVimul (i : CellIn) : CellOut := cellInt i (· * ·)
def cellVand (i : CellIn) : CellOut := cellInt i (· &&& ·)
def cellVor (i : CellIn) : CellOut := cellInt i (· ||| ·)
def cellVxor (i : CellIn) : CellOut := cellInt i (· ^^^ ·)
def cellVshl (i : CellIn) : CellOut := cellInt i fun x y => x <<< (y.toNat % 32)
def cellVshr (i : CellIn) : CellOut := cellInt i fun x y => x >>> (y.toNat % 32)
def cellVsra (i : CellIn) : CellOut := cellInt i fun x y => x.sshiftRight (y.toNat % 32)
def cellVicmpeq (i : CellIn) : CellOut := compareLanes 32 i fun x y => x == y
def cellVicmplt (i : CellIn) : CellOut := compareLanes 32 i fun x y => decide (toInt 32 x < toInt 32 y)

/-! Moves, permutes and reductions (R247, R248). -/

def cellVmov (ty : BitVec 2) (i : CellIn) : CellOut :=
  { lanewise (laneW ty) i (fun x _ => (x, 0)) with side := i.aSide }

def cellVbcl (ty : BitVec 2) (i : CellIn) : CellOut :=
  let l := lanes (laneW ty) i.a
  let j := (i.b.toNat % 2 ^ 32) % l.length
  { data := ofLanes (laneW ty) (l.map fun _ => l.getD j 0), side := i.aSide }

def cellVperm (ty : BitVec 2) (i : CellIn) : CellOut :=
  let l := lanes (laneW ty) i.a
  { data := ofLanes (laneW ty) ((lanes (laneW ty) i.b).map fun j => l.getD (j % l.length) 0), side := i.aSide }

/-- Disabled lanes replaced. -/
def orElse (cp : BitVec 32) (z : Nat) (l : List Nat) : List Nat := pick cp 0 l (l.map fun _ => z)

/-- The tree of R170 over eight FP32 lanes. -/
def sumTree (r : Round) (l : List Nat) : Nat × FpFlags :=
  let e := fun k => l.getD k 0
  let (a, f1) := fp32.sum r (e 0) (e 1)
  let (b, f2) := fp32.sum r (e 2) (e 3)
  let (c, f3) := fp32.sum r (e 4) (e 5)
  let (d, f4) := fp32.sum r (e 6) (e 7)
  let (x, f5) := fp32.sum r a b
  let (y, f6) := fp32.sum r c d
  let (z, f7) := fp32.sum r x y
  (z, f1 ||| f2 ||| f3 ||| f4 ||| f5 ||| f6 ||| f7)

def cellVrsum (ty : BitVec 2) (i : CellIn) : CellOut :=
  let l := orElse i.cp 0 (lanes (laneW ty) i.a)
  let (v, f) : Nat × FpFlags :=
    if ty = 3 then (l.foldl (· + ·) 0 % 2 ^ 32, 0)
    else if ty = 0 then sumTree i.round l
    else
      let w := l.map fun x => (fp32.ofVal .rne ((tyFmt ty).value x)).1
      let (a, f1) := sumTree i.round (w.take 8)
      let (b, f2) := sumTree i.round (w.drop 8)
      let (c, f3) := fp32.sum i.round a b
      let (d, f4) := (tyFmt ty).ofVal i.round (fp32.value c)
      (d, f1 ||| f2 ||| f3 ||| f4)
  { data := ofLanes (laneW ty) (l.map fun _ => v), flags := f }

def cellVrmax (ty : BitVec 2) (i : CellIn) : CellOut :=
  let f := tyFmt ty
  let low := if ty = 3 then 2 ^ 31 else f.signBit true + f.infBits
  let l := orElse i.cp low (lanes (laneW ty) i.a)
  let v := l.foldl (fun m x =>
    if ty = 3 then (if toInt 32 m < toInt 32 x then x else m) else f.maxLane m x) low
  { data := ofLanes (laneW ty) (l.map fun _ => v) }

def cellVmacf (ty : BitVec 2) (i : CellIn) : CellOut := cellFused ty false i

/-! MMA (R168, R169, R250). -/

/-- Elements of a word by MMA type: 32 MF8, 16 BF16 or FP16. -/
def mmaElems (ty : BitVec 2) (x : CWord) : List FVal :=
  if ty = 0 then (lanes 8 x).map mf8Value
  else if ty = 1 then (lanes 16 x).map bf16.value
  else (lanes 16 x).map fp16.value

/-- The cv word of an MMA: `wk` are the eight weight blocks and `sc` the scales of the latch, `part` the
incoming partial (R168, R169). -/
def mmaWord (ty : BitVec 2) (a : CWord) (sa : BitVec 32) (wk : List CWord) (sc : CWord) (part : CWord) :
    CWord × FpFlags :=
  let step := fun (k : Nat) =>
    let w := wk.getD k 0
    let p := (lanes 32 part).getD k 0
    if ty = 3 then satAdd32 (dotInt (lanes 8 a) (lanes 8 w)) p
    else mmaLane (mmaElems ty a) (fp32.value sa.toNat) (mmaElems ty w)
      (fp32.value ((lanes 32 sc).getD k 0)) p
  let rs := (List.range 8).map step
  (ofLanes 32 (rs.map (·.1)), rs.foldl (fun f r => f ||| r.2) 0)

/-! KATC (R255, R256). -/

/-- Test element i of block k of the cell in row r and column c. -/
def katElem (ty : BitVec 2) (r c k i : Nat) : Nat :=
  let g := ((r * 32 + c) * 0x9E37 + k * 0x79B9 + i * 0x2545) % 2 ^ 16
  let s := g / 2 ^ 15
  if ty = 0 then s * 128 + 64 + g % 64
  else if ty = 1 then s * 2 ^ 15 + 0x3F * 2 ^ 8 + g % 2 ^ 8
  else if ty = 2 then s * 2 ^ 15 + 7 * 2 ^ 11 + g % 2 ^ 11
  else g % 2 ^ 8

/-- A test block as a word. -/
def katBlock (ty : BitVec 2) (r c k : Nat) : CWord :=
  if ty = 0 ∨ ty = 3 then ofLanes 8 ((List.range 32).map (katElem ty r c k))
  else ofLanes 16 ((List.range 16).map (katElem ty r c k))

/-- Eight scales of 1.0. -/
def unitScales : CWord := ofLanes 32 (List.replicate 8 0x3F800000)

/-- The test lanes of a cell, over those of the cell above. -/
def katCell (ty : BitVec 2) (r c : Nat) (above : CWord) : CWord :=
  (mmaWord ty (katBlock ty r c 8) Config.oneF32 ((List.range 8).map (katBlock ty r c)) unitScales above).1

/-- The CRC-64 over the test lanes of a row, column 0 lane 0 to column 31 lane 7 (R256). -/
def katCrc (row : List CWord) : BitVec 64 :=
  crc64 ((row.map fun w => (List.range 32).map fun i => byteOf w i).flatten)

/-- The result of an op in a cell that only reads a, b and d (R237 to R248). -/
def cellEval (ins : Instr) (i : CellIn) : CellOut :=
  match ins with
  | .vadd _ _ _ _ ty => cellVadd ty i
  | .vsub _ _ _ _ ty => cellVsub ty i
  | .vmul _ _ _ _ ty => cellVmul ty i
  | .vfma _ _ _ _ ty => cellVfma ty i
  | .vfms _ _ _ _ ty => cellVfms ty i
  | .vmin _ _ _ _ ty => cellVmin ty i
  | .vmax _ _ _ _ ty => cellVmax ty i
  | .vabs _ _ _ _ ty => cellVabs ty i
  | .vneg _ _ _ _ ty => cellVneg ty i
  | .vcmpeq _ _ _ _ ty => cellVcmpeq ty i
  | .vcmplt _ _ _ _ ty => cellVcmplt ty i
  | .vcmple _ _ _ _ ty => cellVcmple ty i
  | .vsel _ _ _ _ ty => cellVsel ty i
  | .vrcp _ _ _ _ ty => cellVrcp ty i
  | .vrsq _ _ _ _ ty => cellVrsq ty i
  | .vexp2 _ _ _ _ ty => cellVexp2 ty i
  | .vlog2 _ _ _ _ ty => cellVlog2 ty i
  | .vtanh _ _ _ _ ty => cellVtanh ty i
  | .vcvt _ _ conv part _ => cellVcvt conv part i
  | .viadd _ _ _ _ => cellViadd i
  | .visub _ _ _ _ => cellVisub i
  | .vimul _ _ _ _ => cellVimul i
  | .vand _ _ _ _ => cellVand i
  | .vor _ _ _ _ => cellVor i
  | .vxor _ _ _ _ => cellVxor i
  | .vshl _ _ _ _ => cellVshl i
  | .vshr _ _ _ _ => cellVshr i
  | .vsra _ _ _ _ => cellVsra i
  | .vicmpeq _ _ _ _ => cellVicmpeq i
  | .vicmplt _ _ _ _ => cellVicmplt i
  | .vmov _ _ _ _ ty => cellVmov ty i
  | .vbcl _ _ _ _ ty => cellVbcl ty i
  | .vperm _ _ _ _ ty => cellVperm ty i
  | .vrsum _ _ _ _ ty => cellVrsum ty i
  | .vrmax _ _ _ _ ty => cellVrmax ty i
  | .vmacf _ _ _ _ ty => cellVmacf ty i
  | _ => { data := i.a, side := i.aSide }

end Sys2Proof.Machine
end

