-- ==== Sys2Proof/Machine/Wave.lean ====
section
/-! DEFINITION. C ops in the array: selection (R140), operands (R136, R137, R237), issue (R135, R235), the
execution of one row, slow results (R243), captures at the edges (R143, R269) and known answers (R256). -/

namespace Sys2Proof.Machine

/-- A cell executes an op with this selector pair (R140). -/
def cellSelected (p : Sel) (r c : Nat) : Bool :=
  let d := (r + 32 - p.origin.toNat) % 32
  let b := if p.skew = 1 then (c + 32 - d) % 32 else if p.skew = 2 then (c + d) % 32 else c
  p.rows.getLsbD r && p.cols.getLsbD b

def Arr.mAt (x : Arr) (cell r : Nat) : CWord := Sparse.get 0 x.mrf (cell * 48 + r)
def Arr.oAt (x : Arr) (cell r : Nat) : CWord := Sparse.get 0 x.opf (cell * 8 + r)
def Arr.lastAt (x : Arr) (cell i : Nat) : CWord := Sparse.get 0 x.lrf (cell * 2 + i)

/-- ch (0), cv (1) or cw (2) of a context's bank (R36). -/
def Arr.commAt (x : Arr) (cell : Nat) (c : CtxId) (w : Nat) : Comm := Sparse.get {} x.comm ((cell * 4 + c.val) * 3 + w)

def Arr.cpAt (x : Arr) (cell : Nat) (c : CtxId) : BitVec 32 := Sparse.get 0xFFFFFFFF x.cp (cell * 4 + c.val)

def Arr.latchAt (x : Arr) (cell l part : Nat) : CWord := Sparse.get 0 x.latch ((cell * 4 + l) * 9 + part)

/-- The vector type whose lanes rid and cid fill (R237). -/
def indexTy : Instr → BitVec 2
  | .vadd _ _ _ _ t | .vsub _ _ _ _ t | .vmul _ _ _ _ t | .vfma _ _ _ _ t | .vfms _ _ _ _ t
  | .vmin _ _ _ _ t | .vmax _ _ _ _ t | .vabs _ _ _ _ t | .vneg _ _ _ _ t | .vcmpeq _ _ _ _ t
  | .vcmplt _ _ _ _ t | .vcmple _ _ _ _ t | .vsel _ _ _ _ t | .vrcp _ _ _ _ t | .vrsq _ _ _ _ t
  | .vexp2 _ _ _ _ t | .vlog2 _ _ _ _ t | .vtanh _ _ _ _ t | .vmov _ _ _ _ t | .vbcl _ _ _ _ t
  | .vperm _ _ _ _ t | .vrsum _ _ _ _ t | .vrmax _ _ _ _ t | .vmacf _ _ _ _ t => t
  | .wld .. | .wrd .. => 0
  | _ => 3

/-- The type whose lanes the bundle constant fills (R177): VCVT has ty 00. -/
def constTy (i : Instr) : BitVec 2 :=
  match i with
  | .vcvt .. => 0
  | _ => indexTy i

/-- An index in every lane of a type (R237). -/
def indexWord (ty : BitVec 2) (n : Nat) : CWord :=
  if ty = 3 then ofLanes 32 (List.replicate 8 n)
  else
    let f := tyFmt ty
    ofLanes f.width (List.replicate (256 / f.width) (f.ofVal .rne (.fin false n 0)).1)

/-- The bundle constant (R177). -/
def constWord (ty : BitVec 2) (e : BitVec 24) : CWord :=
  if ty = 0 then ofLanes 32 (List.replicate 8 (e.toNat * 256))
  else if ty = 3 then ofLanes 32 (List.replicate 8 (e.signExtend 32).toNat)
  else ofLanes 16 (List.replicate 16 (e.toNat % 2 ^ 16))

/-- A word with a side field of 1.0. -/
def plain (w : CWord) : CWord × BitVec 32 := (w, Config.oneF32)

def Comm.word (c : Comm) : CWord × BitVec 32 := (c.data, c.side)

/-- The cv (from 0) or ch (from 32) words that the op took along from row 31 of the position above
(R137; assumption 25). -/
def COp.carried (o : COp) (i : Nat) : CWord × BitVec 32 := o.sample.getD i (plain 0)

/-- A source operand of the cell in row r, column c of chain position p, array `x` (R136, R137, R237). -/
def Arr.operand (x : Arr) (o : COp) (p r c : Nat) (code : Opnd) : CWord × BitVec 32 :=
  let cell := r * 32 + c
  let k := code.toNat
  if k < 48 then plain (x.mAt cell k)
  else if k < 0x38 then plain (x.oAt cell (k - 48))
  else match k with
  | 0x38 => plain (x.lastAt cell 0)
  | 0x39 => plain (x.lastAt cell 1)
  | 0x3A => (x.commAt cell o.ctx 0).word
  | 0x3B => (x.commAt cell o.ctx 1).word
  | 0x3C =>
    if c = 0 then
      match o.west with
      | some ws => ws.getD (32 * p + r) (plain 0)
      | none => plain 0
    else (x.commAt (cell - 1) o.ctx 0).word
  | 0x3D => if c = 31 then plain 0 else (x.commAt (cell + 1) o.ctx 0).word
  | 0x3E =>
    if r = 0 then
      if p = 0 then
        match o.push with
        | some (false, ws) => ws.getD c (plain 0)
        | _ => plain 0
      else o.carried c
    else (x.commAt (cell - 32) o.ctx 1).word
  | 0x3F => if r = 31 then plain 0 else (x.commAt (cell + 32) o.ctx 1).word
  | 0x40 =>
    if r = 0 then (if p = 0 then plain 0 else o.carried (32 + c))
    else (x.commAt (cell - 32) o.ctx 0).word
  | 0x41 => if r = 31 then plain 0 else (x.commAt (cell + 32) o.ctx 0).word
  | 0x42 => if c = 0 then plain 0 else (x.commAt (cell - 1) o.ctx 1).word
  | 0x43 => if c = 31 then plain 0 else (x.commAt (cell + 1) o.ctx 1).word
  | 0x45 => plain (constWord (constTy o.ins) (o.kc.getD 0))
  | 0x46 => plain (indexWord (indexTy o.ins) (32 * p + r))
  | 0x47 => plain (indexWord (indexTy o.ins) c)
  | 0x48 => (x.commAt cell o.ctx 2).word
  | _ => plain 0

/-- Where a destination code writes (R238). -/
def destReg (code : Opnd) : Option CellReg :=
  let k := code.toNat
  if k < 48 then some (.m k)
  else if k < 0x38 then some (.o (k - 48))
  else if k = 0x3A then some (.comm 0)
  else if k = 0x3B then some (.comm 1)
  else none

/-- The writes of one cell for an op of the common form (R236 to R241). -/
def commonWrites (o : COp) (cell : Nat) (dst : Opnd) (r : CellOut) : List CellWrite :=
  let w := fun (g : CellReg) (d : CWord) (sd : BitVec 32) => (⟨cell, o.ctx, g, d, sd⟩ : CellWrite)
  (match destReg dst with | some g => [w g r.data r.side] | none => []) ++ [w .last r.data 0] ++
  (match r.cp with | some v => [w .cp (v.zeroExtend 256) 0] | none => []) ++
  (match r.cf with | some v => [w .cf (if v then 1 else 0) 0] | none => []) ++
  (match r.lfsr with | some v => [w .lfsr (v.zeroExtend 256) 0] | none => [])

/-- One executing cell: its writes and sticky flags. -/
def Arr.runCell (x : Arr) (o : COp) (p r c : Nat) : List CellWrite × FpFlags :=
  let cell := r * 32 + c
  let w := fun (g : CellReg) (d : CWord × BitVec 32) => (⟨cell, o.ctx, g, d.1, d.2⟩ : CellWrite)
  let rd := fun code => x.operand o p r c code
  match o.ins with
  | .mma _ shift commit part latch cl zp _ ty =>
    let a := rd 0x3C
    let above := if zp then (0 : CWord) else (rd 0x3E).1
    let l := latch.toNat
    let (v, f) := mmaWord ty a.1 a.2 ((List.range 8).map (x.latchAt cell l)) (x.latchAt cell l 8) above
    let old := (x.commAt cell o.ctx 2).word
    let cw : CWord × BitVec 32 :=
      if shift then
        if p = 0 ∧ r = 0 then
          match o.push with
          | some (true, ws) => ws.getD c (plain 0)
          | _ => plain 0
        else o.cwOld.getD c (plain 0)
      else old
    ([w (.comm 1) (plain v), w (.comm 0) a, w .last (plain v)] ++
      (if shift then [w (.comm 2) cw] else []) ++
      (if commit then [w (.latch cl.toNat part.toNat) cw] else []), f)
  | .wld part a latch _ => ([w (.latch latch.toNat part.toNat) (rd a)], 0)
  | .wrd dst part latch _ =>
    (commonWrites o cell dst { data := x.latchAt cell latch.toNat part.toNat }, 0)
  | .katc _ => ([], 0)
  | .vmacf dst a b _ ty =>
    let av := rd a
    let bv := rd b
    let r := cellVmacf ty { a := av.1, aSide := av.2, b := bv.1, bSide := bv.2, d := (rd dst).1,
                            cp := x.cpAt cell o.ctx, rm := o.rm, lfsr := 0 }
    (commonWrites o cell dst r ++
      (if a = 0x3C then [w (.comm 0) av] else []) ++ (if b = 0x3E then [w (.comm 1) bv] else []), r.flags)
  | i =>
    match cellFields i with
    | none => ([], 0)
    | some (_, dst, a, b) =>
      let av := rd a
      let bv := rd b
      let r := cellEval i { a := av.1, aSide := av.2, b := bv.1, bSide := bv.2, d := (rd dst).1,
                            cp := x.cpAt cell o.ctx, rm := o.rm, lfsr := x.lfsrAt p cell }
      (commonWrites o cell dst r, r.flags)

/-- A row: the writes of its selected cells and their flags. -/
def Arr.runRow (x : Arr) (o : COp) (p r : Nat) : List CellWrite × FpFlags :=
  let rs := ((List.range 32).filter (cellSelected o.sel r)).map (x.runCell o p r)
  ((rs.map (·.1)).flatten, rs.foldl (fun f e => f ||| e.2) 0)

/-- Where a cell register of a write stands. -/
def CellWrite.place (w : CellWrite) : Option ErrAt :=
  match w.reg with
  | .m r => some (.m w.cell r)
  | .o r => some (.o w.cell r)
  | .comm k => some (.comm w.cell w.ctx k)
  | .latch l k => some (.latch w.cell l k)
  | _ => none

/-- The last-result file shifts (R35): an error in l0 is one in l1 from now on. -/
def Arr.shiftLastErr (x : Arr) (cell : Nat) : Arr :=
  { x with errs := (x.errs.filter fun e => e.place != .last cell 1).map fun e =>
      if e.place = .last cell 0 then { e with place := .last cell 1 } else e }

/-- The write of one cell register at the end of an ac; a result enters the last-result file (R35). An
error in a register goes with its next write (R38). -/
def Arr.applyWrite (x : Arr) (p : Nat) (w : CellWrite) : Arr :=
  let y := match w.place with
    | some e => if x.errs.isEmpty then x else x.clearErr e fun _ => true
    | none => x
  match w.reg with
  | .m r => { y with mrf := Sparse.set 0 y.mrf (w.cell * 48 + r) w.data }
  | .o r => { y with opf := Sparse.set 0 y.opf (w.cell * 8 + r) w.data }
  | .comm k => { y with comm := Sparse.set {} y.comm ((w.cell * 4 + w.ctx.val) * 3 + k) ⟨w.data, w.side⟩ }
  | .last =>
    { y.shiftLastErr w.cell with
      lrf := Sparse.set 0 (Sparse.set 0 y.lrf (w.cell * 2 + 1) (y.lastAt w.cell 0)) (w.cell * 2) w.data }
  | .latch l k => { y with latch := Sparse.set 0 y.latch ((w.cell * 4 + l) * 9 + k) w.data }
  | .cp => { y with cp := Sparse.set 0xFFFFFFFF y.cp (w.cell * 4 + w.ctx.val) (w.data.truncate 32) }
  | .cf => { y with cf := Sparse.set false y.cf (w.cell * 4 + w.ctx.val) (w.data != 0) }
  | .lfsr => y.setLfsr p w.cell (w.data.truncate 32)
  | .shadow => y.saveLfsr p w.cell w.ctx

/-- The end of an ac: what this ac's rows wrote takes effect (R136). -/
def Arr.commitPend (x : Arr) : Arr :=
  { x.pend.foldl (fun z w => z.applyWrite z.chainPos w) x with pend := [] }

/-! What an op reads (R38, R235). -/

/-- Where the word of a source operand stands in the array, as `Arr.operand` reads it; none for a constant, and for what comes
from outside the array. -/
def COp.place (o : COp) (r c : Nat) (code : Opnd) : Option ErrAt :=
  let cell := r * 32 + c
  let k := code.toNat
  let at_ := fun (b : Bool) (n w : Nat) => if b then some (ErrAt.comm n o.ctx w) else none
  if k < 48 then some (.m cell k)
  else if k < 0x38 then some (.o cell (k - 48))
  else match k with
  | 0x38 => some (.last cell 0)
  | 0x39 => some (.last cell 1)
  | 0x3A => at_ true cell 0
  | 0x3B => at_ true cell 1
  | 0x3C => at_ (c != 0) (cell - 1) 0
  | 0x3D => at_ (c != 31) (cell + 1) 0
  | 0x3E => at_ (r != 0) (cell - 32) 1
  | 0x3F => at_ (r != 31) (cell + 32) 1
  | 0x40 => at_ (r != 0) (cell - 32) 0
  | 0x41 => at_ (r != 31) (cell + 32) 0
  | 0x42 => at_ (c != 0) (cell - 1) 1
  | 0x43 => at_ (c != 31) (cell + 1) 1
  | 0x48 => at_ true cell 2
  | _ => none

/-- An op with no b operand (R236). -/
def oneSource : Instr → Bool
  | .vabs .. | .vneg .. | .vrcp .. | .vrsq .. | .vexp2 .. | .vlog2 .. | .vtanh .. | .vcvt .. | .vmov .. | .vrsum .. | .vrmax ..
  | .wld .. => true
  | _ => false

/-- The lanes of the destination that cp can disable (R240); none for an op that writes every lane. -/
def keptLanes : Instr → Nat
  | .vadd _ _ _ _ t | .vsub _ _ _ _ t | .vmul _ _ _ _ t | .vmin _ _ _ _ t | .vmax _ _ _ _ t | .vabs _ _ _ _ t
  | .vneg _ _ _ _ t | .vrcp _ _ _ _ t | .vrsq _ _ _ _ t | .vexp2 _ _ _ _ t | .vlog2 _ _ _ _ t | .vtanh _ _ _ _ t
  | .vmov _ _ _ _ t => 256 / laneW t
  | .vfma .. | .vfms .. | .vmacf .. => 8
  | .vcvt _ _ conv _ _ => 256 / (convWidths conv.toNat).2
  | .viadd .. | .visub .. | .vimul .. | .vand .. | .vor .. | .vxor .. | .vshl .. | .vshr .. | .vsra .. => 8
  | _ => 0

/-- The op reads its destination as a source: an addend, the part of a narrowing conversion that stays, or a disabled lane
(R239, R240, R244). -/
def readsDst (i : Instr) (cp : BitVec 32) : Bool :=
  (match i with
   | .vfma .. | .vfms .. | .vmacf .. => true
   | .vcvt _ _ conv _ _ => decide ((convWidths conv.toNat).2 < (convWidths conv.toNat).1)
   | _ => false) || (List.range (keptLanes i)).any fun k => !cp.getLsbD k

/-- The words that one executing cell reads. The word that SHIFT takes from above was read as the op ran there
(`COp.shiftBad`). -/
def Arr.cellReads (x : Arr) (o : COp) (r c : Nat) : List ErrAt :=
  let cell := r * 32 + c
  let at_ := fun (l : List Opnd) => l.filterMap (o.place r c)
  match o.ins with
  | .mma _ shift commit _ latch _ zp _ ty =>
    at_ (0x3C :: if zp then [] else [0x3E]) ++ (List.range (if ty = 3 then 8 else 9)).map (.latch cell latch.toNat) ++
      (if !shift && commit then [.comm cell o.ctx 2] else [])
  | .wrd _ part latch _ => [.latch cell latch.toNat part.toNat]
  | .katc _ => []
  | i =>
    match cellFields i with
    | none => []
    | some (_, d, a, b) =>
      at_ ([a] ++ (if oneSource i then [] else [b]) ++ (if readsDst i (x.cpAt cell o.ctx) then [d] else []))

/-- The words that a row's selected cells read. -/
def Arr.rowReads (x : Arr) (o : COp) (r : Nat) : List ErrAt :=
  ((List.range 32).filter (cellSelected o.sel r)).flatMap (x.cellReads o r)

/-- The words of row 31 that row 0 of the position below reads (R137). -/
def COp.edgeReads (o : COp) : List ErrAt :=
  let cells := (List.range 32).filter (cellSelected o.sel 0)
  let at_ := fun (w : Nat) => cells.map fun c => ErrAt.comm (31 * 32 + c) o.ctx w
  match o.ins with
  | .mma _ _ _ _ _ _ zp _ _ => if zp then [] else at_ 1
  | i =>
    match cellFields i with
    | none => []
    | some (_, d, a, b) =>
      let codes := [a] ++ (if oneSource i then [] else [b]) ++ [d]
      (if codes.contains 0x3E then at_ 1 else []) ++ (if codes.contains 0x40 then at_ 0 else [])

/-- A SHIFT takes, in some selected cell of a row, a cw from the row above that stood with an error when the op ran there: the
write of that row has since put another in its place (R38, R252). -/
def COp.shiftBad (o : COp) (row : Nat) : Bool :=
  match o.ins with
  | .mma _ true .. => decide (row ≠ 0) && o.cwBad.any fun c => cellSelected o.sel (row % 32) c
  | _ => false

/-- Words of an array are read on behalf of a context: an error that stands in one is a detected data error (R38). -/
def State.readWords (s : State) (b : ArrId) (l : List ErrAt) (a : ArrId) (c : CtxId) (seg : Nat) : State :=
  if (s.arr b).errs.isEmpty then s else
  if (s.arr b).errs.any fun e => e.detected && l.contains e.place then s.raiseData a c 0x0003 seg else s

def Arr.modOp (x : Arr) (id : Nat) (f : COp → COp) : Arr :=
  { x with wave := modWhere (fun o : COp => o.id == id) f x.wave }

/-- One outstanding event of an op is done; an op with none left has left the array. -/
def Arr.opDone (x : Arr) (id : Nat) : Arr :=
  let y := x.modOp id fun o => { o with left := o.left - 1 }
  { y with wave := y.wave.filter fun o => !(o.id == id && o.left == 0) }

/-- The op leaves the south edge of position p (R135, R145): it takes along cv and ch of row 31, and goes on
to the next position, or to the collector. -/
def State.leaveEdge (s : State) (a : ArrId) (o : COp) (p : Nat) : State :=
  let b := s.chainArr a o.ctx p
  let x := s.arr b
  let words := fun k => (List.range 32).map fun c => (x.commAt (31 * 32 + c) o.ctx k).word
  let s1 := s.modArr a (·.modOp o.id fun q => { q with sample := words 1 ++ words 0 })
  if 32 * (p + 1) < o.rows then
    (s1.readWords b o.edgeReads a o.ctx o.seg).atAc (s.now + (if p % 2 = 0 then 1 else 6))
      (.cOpRowExecute a o.id (32 * (p + 1)))
  else
    let s2 : State := match o.ins, o.capt with
      | .katc _, _ => s1.atAc (s.now + 1) (.katcCheck a o.id)
      | _, some cp =>
        if cp.east then s1
        else (s1.readWords b ((List.range 32).map fun c => .comm (31 * 32 + c) o.ctx 1) a o.ctx o.seg).atAc (s.now + 1)
          (.southCapture a o.id)
      | _, none => s1
    s2.modArr a fun z => (z.modOp o.id fun q => { q with done := o.rows + 1 }).opDone o.id

/-- C_OP_ROW_EXECUTE (R135, R136, R138, R145): the op executes in one chain row; row number rows + p stands
for its leaving position p. -/
def execCOpRowExecute (a : ArrId) (op row : Nat) (s : State) : Out :=
  match (s.arr a).wave.find? (·.id == op) with
  | none => .next s
  | some o =>
    if row ≥ o.rows then .next (s.leaveEdge a o (row - o.rows)) else
    let p := row / 32
    let r := row % 32
    let b := s.chainArr a o.ctx p
    let sp := s.einjArr b fun e => ((s.arr b).rowReads o r).contains e
    let x := sp.arr b
    let s0 := sp.modArr a (·.modOp op fun q => { q with done := row + 1 })
    let owed := fun (w : Nat → CellWrite) =>
      s0.modArr b fun z => { z with pend := z.pend ++ (List.range 32).map fun c => w (r * 32 + c) }
    let s1 : State :=
      match o.ins with
      | .wrsr _ _ => owed fun cell => ⟨cell, o.ctx, .lfsr, (lfsrSeed (o.kat.truncate 32) (1024 * p + cell)).zeroExtend 256, 0⟩
      | .ckpt => owed fun cell => ⟨cell, o.ctx, .shadow, 0, 0⟩
      | .dataErrorTake _ _ => owed fun cell => ⟨cell, o.ctx, .lfsr, (x.shadowAt p cell o.ctx).zeroExtend 256, 0⟩
      | .katc ty =>
        s0.modArr a (·.modOp op fun q =>
          { q with katRow := (List.range 32).map fun c => katCell ty r c (q.katRow.getD c 0) })
      | i =>
        let (ws, f) := x.runRow o p r
        let olds := (List.range 32).map fun c => (x.commAt (r * 32 + c) o.ctx 2).word
        let bads := (List.range 32).filter fun c => x.errs.any fun e => e.detected && e.place == .comm (r * 32 + c) o.ctx 2
        let s2 := s0.modArr a (·.modOp op fun q => { q with cwOld := olds, cwBad := bads })
        let s3 :=
          if isSlow i then
            (s2.modArr a (·.modOp op fun q => { q with slow := q.slow ++ [(row, ws, f)] })).atEnd
              (s.now + 3) (.slowResultWrite a op row)
          else
            (s2.modArr b fun z => { z with pend := z.pend ++ ws }).modCtx a o.ctx fun y =>
              { y with fpflags := y.fpflags ||| f }
        let s4 := if o.shiftBad row then s3.raiseData a o.ctx 0x0003 o.seg else s3
        if x.errs.isEmpty then s4 else s4.readWords b (x.rowReads o r) a o.ctx o.seg
    let s4 := match o.capt with
      | some cp => if cp.east then s1.atAc (s.now + 1) (.eastCapture a op row) else s1
      | none => s1
    let s5 :=
      if r = 31 then s4.atAc (s.now + 1) (.cOpRowExecute a op (o.rows + p))
      else s4.atAc (s.now + 1) (.cOpRowExecute a op (row + 1))
    .next (s5.modArr a (·.opDone op))

/-- SLOW_RESULT_WRITE (R243): a slow op's results of one row and its flags, at the end of T + 3, ahead of the
other writes of that ac. -/
def execSlowResultWrite (a : ArrId) (op row : Nat) (s : State) : Out :=
  match (s.arr a).wave.find? (·.id == op) with
  | none => .next s
  | some o =>
    match o.slow.find? (·.1 == row) with
    | none => .next s
    | some (_, ws, f) =>
      let b := s.chainArr a o.ctx (row / 32)
      let s1 := s.modArr b fun z => ws.foldl (fun y w => y.applyWrite y.chainPos w) z
      let s2 := s1.modCtx a o.ctx fun y => { y with fpflags := y.fpflags ||| f }
      .next (s2.modArr a fun z =>
        (z.modOp op fun q => { q with slow := q.slow.filter (·.1 != row) }).opDone op)

/-- The words of an item of the collector's order. -/
def State.modItem (s : State) (a : ArrId) (c : CtxId) (op : Nat) (f : CollItem → CollItem) : State :=
  s.modArr a fun x => { x with coll := x.coll.set c.val (modWhere (fun i : CollItem => i.op == op) f x.coll[c]) c.isLt }

/-- Samples that wait in the collector buffer (R40): the words of one south capture, or those that east captures took in one
ac, of which some is still to be written. -/
def Arr.samples (x : Arr) : Nat :=
  ((x.coll.toList.flatMap fun l => l.flatMap fun i =>
    match i.kind with
    | .capture k _ => (i.words.drop i.sent).map fun w => (k.east, w.1)
    | _ => []).eraseDups).length

/-- The hold on paired bundles: it begins at 64 samples and ends below 32 (R40). -/
def Arr.checkHold (x : Arr) : Arr :=
  { x with collHold := if x.collHold then decide (32 ≤ x.samples) else decide (64 ≤ x.samples) }

/-- SOUTH_CAPTURE (R143, R269): the 32 words of row 31's cv enter the collector. -/
def execSouthCapture (a : ArrId) (op : Nat) (s : State) : Out :=
  match (s.arr a).wave.find? (·.id == op) with
  | none => .next s
  | some o =>
    let ws := (List.range 32).map fun c => (s.now, c, (o.carried c).1)
    .next ((s.modItem a o.ctx op fun i => { i with words := i.words ++ ws, full := true }).modArr a fun x =>
      (x.opDone op).checkHold)

/-- EAST_CAPTURE (R143, R269): ch of column 31 in one chain row enters the collector. -/
def execEastCapture (a : ArrId) (op row : Nat) (s : State) : Out :=
  match (s.arr a).wave.find? (·.id == op) with
  | none => .next s
  | some o =>
    let b := s.chainArr a o.ctx (row / 32)
    let w := ((s.arr b).commAt ((row % 32) * 32 + 31) o.ctx 0).data
    .next (((s.readWords b [.comm ((row % 32) * 32 + 31) o.ctx 0] a o.ctx o.seg).modItem a o.ctx op fun i =>
      { i with words := i.words ++ [(s.now, row, w)], full := i.full || decide (row + 1 = o.rows) }).modArr a
        fun x => (x.opDone op).checkHold)

/-- The stamp of a context's most recent release. -/
def State.lastStamp (s : State) (x : Ctx) : Nat :=
  match s.ring? x.ring with
  | some r => if r.pub = 0 then 0 else Sparse.get 0 r.stamps (r.pub - 1)
  | none => 0

/-- A known-answer check passes at a stamp: what was sampled below it is in no suspect range any more (R341, R344). -/
def Arr.passed (x : Arr) (stamp now : Nat) : Arr :=
  { x with passStamp := stamp, passAc := now, sampler := 0, takers := x.takers.filter fun e => decide (stamp ≤ e.2) }

/-- KATC_CHECK (R256, R341, R344): the last position's test lanes against the constant. -/
def execKatcCheck (a : ArrId) (op : Nat) (s : State) : Out :=
  match (s.arr a).wave.find? (·.id == op) with
  | none => .next s
  | some o =>
    let s1 := s.modArr a (·.opDone op)
    if katCrc o.katRow = o.kat then
      let st := s.lastStamp (s.ctxOf a o.ctx)
      .next ((List.range (o.rows / 32)).foldl (fun t p => t.modArr (s.chainArr a o.ctx p) fun x =>
        x.passed st s.now) s1)
    else
      let s2 := s1.report (ctxRec a o.ctx (s.ctxOf a o.ctx) 0x0005 2)
      .next (s2.raiseData a o.ctx 0x0005 o.seg)

/-! Issue of a C op. -/

/-- Offsets of the register a neighbour code names: 0 ch or 1 cv, row and column distance. -/
def neighbourOf (code : Opnd) : Option (Nat × Int × Int) :=
  match code.toNat with
  | 0x3C => some (0x3A, 0, -1)
  | 0x3D => some (0x3A, 0, 1)
  | 0x3E => some (0x3B, -1, 0)
  | 0x3F => some (0x3B, 1, 0)
  | 0x40 => some (0x3A, -1, 0)
  | 0x41 => some (0x3A, 1, 0)
  | 0x42 => some (0x3B, 0, -1)
  | 0x43 => some (0x3B, 0, 1)
  | k => if k ≤ 0x37 ∨ k = 0x3A ∨ k = 0x3B then some (k, 0, 0) else none

/-- Registers that a C op reads or writes, with the cell that holds them relative to its own (R243). -/
def touches (i : Instr) : List (Nat × Int × Int) :=
  match i with
  | .mma _ _ _ _ _ _ zp _ _ =>
    [(0x3B, 0, 0), (0x3A, 0, 0), (0x3A, 0, -1)] ++ (if zp then [] else [(0x3B, -1, 0)])
  | .vmacf d a b _ _ =>
    ([d, a, b].filterMap neighbourOf) ++ (if a = 0x3C then [(0x3A, 0, 0)] else []) ++
      (if b = 0x3E then [(0x3B, 0, 0)] else [])
  | _ =>
    match cellFields i with
    | some (_, d, a, b) => ([d, a] ++ if oneSource i then [] else [b]).filterMap neighbourOf
    | none => []

/-- The row of a chain of `n` positions at a row distance `d` from row `r` of position `p`: row 31 of the position above for a
row 0 below the first; none across the edge. -/
def rowAt (n p r : Nat) (d : Int) : Option Nat :=
  let k : Int := (32 * p + r : Nat) + d
  if 0 ≤ k ∧ k < 32 * n ∧ (k / 32 = p ∨ d < 0) then some (k % 32).toNat else none

/-- In some cell that the op selects, a register it touches has a slow-class write pending in the cell that
holds it (R183, R243). -/
def Arr.slowHazard (x : Arr) (c : CtxId) (now n : Nat) (i : Instr) (sel : Sel) : Bool :=
  x.wave.any fun o =>
    o.ctx == c && isSlow o.ins && decide (now ≤ o.issued + 4) &&
    match cellFields o.ins with
    | none => false
    | some (_, d, _, _) =>
      (touches i).any fun t =>
        t.1 == d.toNat && decide ((now : Int) ≤ o.issued + 3 + t.2.1) &&
        (List.range n).any fun p => (List.range 1024).any fun cell =>
          let k : Int := (cell % 32 : Nat) + t.2.2
          cellSelected sel (cell / 32) (cell % 32) && decide (0 ≤ k ∧ k < 32) &&
            match rowAt n p (cell / 32) t.2.1 with
            | some r => cellSelected o.sel r k.toNat
            | none => false

/-- The selector pair of a C op as captured (R140, R180). -/
def Ctx.selOf (x : Ctx) (i : Instr) : Sel :=
  match cellFields i with
  | some (p, _, _, _) => x.capSp[p.toNat]'p.isLt
  | none => {}

/-- A C op enters the array (R135): what it captured at issue descends with it. -/
def State.inject (s : State) (i : Instr) : State :=
  let a := s.act.arr
  let c := s.act.ctx
  let x := s.arr a
  let y := s.me
  let rows := 32 * chainLen y.chain
  let fed := y.fed.getD ⟨none, none, none⟩
  let extra := (if isSlow i then rows else 0) +
    (match i, fed.capt with
     | .katc _, _ => 1
     | _, some k => if k.east then rows else 1
     | _, none => 0)
  let op : COp :=
    { id := x.opNo, ctx := c, ins := i, sel := y.selOf i, rm := y.rm, kc := s.ext, issued := s.now,
      west := fed.west, push := fed.push, capt := fed.capt, kat := y.kat, katRow := [], sample := [],
      cwOld := [], cwBad := [], slow := [], seg := y.seg, order := y.order, rows := rows, done := 0, left := rows + 1 + extra }
  let item : List CollItem := match fed.capt with
    | some k =>
      let int := match i with
        | .mma _ _ _ _ _ _ _ _ ty => ty == 3
        | j => indexTy j == 3 && (match j with | .vcvt .. => false | _ => true)
      [⟨x.opNo, .capture k int, [], false, 0, y.seg, y.order⟩]
    | none => []
  ((s.modArr a fun z =>
    { z with
      wave := z.wave ++ [op], opNo := z.opNo + 1,
      coll := z.coll.set c.val (z.coll[c] ++ item) c.isLt }).modCtx a c fun z => { z with fed := none }).atAc
    (s.now + 3) (.cOpRowExecute a x.opNo 0)

/-- The actor's slot is paired with slot 2 (R178). -/
def State.paired (s : State) : Bool := match s.slotOp with | some o => o.paired | none => false

/-- With CHK, the actor's C op would meet a slow-class result early (R183, R243). -/
def State.meetsSlow (s : State) (i : Instr) : Bool :=
  s.me.capChk && (s.arr s.act.arr).slowHazard s.act.ctx s.now (chainLen s.me.chain) i (s.me.selOf i)

/-- The feed of the actor's bundle stands staged, and its E slot waits for nothing else (R142, R179). -/
def State.partnerFed (s : State) : Bool :=
  match s.me.residue.find? (·.slot == 2) with
  | none => true
  | some e =>
    s.me.waitOk e.wait && decide (s.me.edgeQ.length < 8) && !(s.arr s.act.arr).collHold &&
    (!feeds e.ins || match s.me.staged with | t :: _ => t.ins == e.ins && t.waitFor == 0 | [] => false)

/-- A C op issues: it needs the lease (R152), a paired one its feed (R142), and with CHK no slow-class result
it would meet early (R183). It raises no fault in the cells (R235). -/
def State.cellOp (s : State) (i : Instr) : Out :=
  if (s.arr s.act.arr).holder != some s.act.ctx then .next ((s.seekLease s.act.arr s.act.ctx).keep)
  else if s.paired && s.me.fed.isNone && !(s.meetsSlow i && s.partnerFed) then .next s.keep
  else if s.meetsSlow i then .next (s.faultSlot fHazard)
  else .next ((s.inject i).retire id)

def execVadd (dst a b : Opnd) (sp : SelNo) (ty : BitVec 2) (s : State) : Out := s.cellOp (.vadd dst a b sp ty)
def execVsub (dst a b : Opnd) (sp : SelNo) (ty : BitVec 2) (s : State) : Out := s.cellOp (.vsub dst a b sp ty)
def execVmul (dst a b : Opnd) (sp : SelNo) (ty : BitVec 2) (s : State) : Out := s.cellOp (.vmul dst a b sp ty)
def execVfma (dst a b : Opnd) (sp : SelNo) (ty : BitVec 2) (s : State) : Out := s.cellOp (.vfma dst a b sp ty)
def execVfms (dst a b : Opnd) (sp : SelNo) (ty : BitVec 2) (s : State) : Out := s.cellOp (.vfms dst a b sp ty)
def execVmin (dst a b : Opnd) (sp : SelNo) (ty : BitVec 2) (s : State) : Out := s.cellOp (.vmin dst a b sp ty)
def execVmax (dst a b : Opnd) (sp : SelNo) (ty : BitVec 2) (s : State) : Out := s.cellOp (.vmax dst a b sp ty)
def execVabs (dst a b : Opnd) (sp : SelNo) (ty : BitVec 2) (s : State) : Out := s.cellOp (.vabs dst a b sp ty)
def execVneg (dst a b : Opnd) (sp : SelNo) (ty : BitVec 2) (s : State) : Out := s.cellOp (.vneg dst a b sp ty)
def execVcmpeq (dst a b : Opnd) (sp : SelNo) (ty : BitVec 2) (s : State) : Out :=
  s.cellOp (.vcmpeq dst a b sp ty)
def execVcmplt (dst a b : Opnd) (sp : SelNo) (ty : BitVec 2) (s : State) : Out :=
  s.cellOp (.vcmplt dst a b sp ty)
def execVcmple (dst a b : Opnd) (sp : SelNo) (ty : BitVec 2) (s : State) : Out :=
  s.cellOp (.vcmple dst a b sp ty)
def execVsel (dst a b : Opnd) (sp : SelNo) (ty : BitVec 2) (s : State) : Out := s.cellOp (.vsel dst a b sp ty)
def execVrcp (dst a b : Opnd) (sp : SelNo) (ty : BitVec 2) (s : State) : Out := s.cellOp (.vrcp dst a b sp ty)
def execVrsq (dst a b : Opnd) (sp : SelNo) (ty : BitVec 2) (s : State) : Out := s.cellOp (.vrsq dst a b sp ty)
def execVexp2 (dst a b : Opnd) (sp : SelNo) (ty : BitVec 2) (s : State) : Out := s.cellOp (.vexp2 dst a b sp ty)
def execVlog2 (dst a b : Opnd) (sp : SelNo) (ty : BitVec 2) (s : State) : Out := s.cellOp (.vlog2 dst a b sp ty)
def execVtanh (dst a b : Opnd) (sp : SelNo) (ty : BitVec 2) (s : State) : Out := s.cellOp (.vtanh dst a b sp ty)
def execVcvt (dst a : Opnd) (conv : BitVec 5) (part : BitVec 2) (sp : SelNo) (s : State) : Out :=
  s.cellOp (.vcvt dst a conv part sp)
def execViadd (dst a b : Opnd) (sp : SelNo) (s : State) : Out := s.cellOp (.viadd dst a b sp)
def execVisub (dst a b : Opnd) (sp : SelNo) (s : State) : Out := s.cellOp (.visub dst a b sp)
def execVimul (dst a b : Opnd) (sp : SelNo) (s : State) : Out := s.cellOp (.vimul dst a b sp)
def execVand (dst a b : Opnd) (sp : SelNo) (s : State) : Out := s.cellOp (.vand dst a b sp)
def execVor (dst a b : Opnd) (sp : SelNo) (s : State) : Out := s.cellOp (.vor dst a b sp)
def execVxor (dst a b : Opnd) (sp : SelNo) (s : State) : Out := s.cellOp (.vxor dst a b sp)
def execVshl (dst a b : Opnd) (sp : SelNo) (s : State) : Out := s.cellOp (.vshl dst a b sp)
def execVshr (dst a b : Opnd) (sp : SelNo) (s : State) : Out := s.cellOp (.vshr dst a b sp)
def execVsra (dst a b : Opnd) (sp : SelNo) (s : State) : Out := s.cellOp (.vsra dst a b sp)
def execVicmpeq (dst a b : Opnd) (sp : SelNo) (s : State) : Out := s.cellOp (.vicmpeq dst a b sp)
def execVicmplt (dst a b : Opnd) (sp : SelNo) (s : State) : Out := s.cellOp (.vicmplt dst a b sp)
def execVmov (dst a b : Opnd) (sp : SelNo) (ty : BitVec 2) (s : State) : Out := s.cellOp (.vmov dst a b sp ty)
def execVbcl (dst a b : Opnd) (sp : SelNo) (ty : BitVec 2) (s : State) : Out := s.cellOp (.vbcl dst a b sp ty)
def execVperm (dst a b : Opnd) (sp : SelNo) (ty : BitVec 2) (s : State) : Out := s.cellOp (.vperm dst a b sp ty)
def execVrsum (dst a b : Opnd) (sp : SelNo) (ty : BitVec 2) (s : State) : Out := s.cellOp (.vrsum dst a b sp ty)
def execVrmax (dst a b : Opnd) (sp : SelNo) (ty : BitVec 2) (s : State) : Out := s.cellOp (.vrmax dst a b sp ty)
def execVmacf (dst a b : Opnd) (sp : SelNo) (ty : BitVec 2) (s : State) : Out := s.cellOp (.vmacf dst a b sp ty)
def execMma (a : Opnd) (shift commit : Bool) (part : BitVec 4) (latch cl : BitVec 2) (zp : Bool) (sp : SelNo)
    (ty : BitVec 2) (s : State) : Out := s.cellOp (.mma a shift commit part latch cl zp sp ty)
def execWld (part : BitVec 4) (a : Opnd) (latch : BitVec 2) (sp : SelNo) (s : State) : Out :=
  s.cellOp (.wld part a latch sp)
def execWrd (dst : Opnd) (part : BitVec 4) (latch : BitVec 2) (sp : SelNo) (s : State) : Out :=
  s.cellOp (.wrd dst part latch sp)
def execKatc (ty : BitVec 2) (s : State) : Out := s.cellOp (.katc ty)

end Sys2Proof.Machine
end

