-- ==== Sys2Proof/Machine/AStore.lean ====
section
/-! DEFINITION. The array store: banks (R39), arbitration (R40), tags (R41, R42) and errors (R43). -/

namespace Sys2Proof.Machine

/-- The bank of AS word number `w` (R39), the word number being offset / 32. -/
def asBank (w : Nat) : Nat := (w % 64) ^^^ (w / 64 % 64)

def Arr.asWord (x : Arr) (w : Nat) : CWord := Sparse.get 0 x.asw w
def Arr.tagAt (x : Arr) (w : Nat) : Bool := Sparse.get false x.tags w

/-- A tag as a requester sees it: a word reserved by a staged feed is empty (R263). -/
def Arr.full (x : Arr) (w : Nat) : Bool := x.tagAt w && !x.reserved.contains w

/-- A change of a tag wakes its waiters in the next ac (R41). -/
def State.putTag (s : State) (a : ArrId) (w : Nat) (full : Bool) : State :=
  let x := s.arr a
  let s1 := s.modArr a fun y =>
    { (if y.errs.isEmpty then y else y.clearErr (.tag w) fun _ => true) with tags := Sparse.set false y.tags w full }
  if x.tagAt w != full && x.asReqs.any (fun r => r.word == w && r.waiting) then
    s1.atAc (s.now + 1) (.tagWaiterRetry a w)
  else s1

/-- A 64-bit chunk of a word of which a mask covers every byte, or some bytes. -/
def chunkAll (mask : BitVec 32) (k : Nat) : Bool := mask.extractLsb' (8 * k) 8 == 0xFF
def chunkSome (mask : BitVec 32) (k : Nat) : Bool := mask.extractLsb' (8 * k) 8 != 0

/-- Write the bytes of a mask. -/
def mergeWord (old new : CWord) (mask : BitVec 32) : CWord :=
  BitVec.ofNat 256 (((List.range 32).map fun i =>
    (if mask.getLsbD i then byteOf new i else byteOf old i).toNat * 256 ^ i).foldl (· + ·) 0)

/-- A write of an AS word; what was wrong in the chunks that it writes is gone (R43). -/
def Arr.putWord (x : Arr) (w : Nat) (v : CWord) (mask : BitVec 32) : Arr :=
  { (if x.errs.isEmpty then x else x.clearErr (.as w) (chunkSome mask)) with
    asw := Sparse.set 0 x.asw w (mergeWord (x.asWord w) v mask) }

/-- The condition of a tag mode (R41). -/
def TagMode.holds (m : TagMode) (full : Bool) : Bool :=
  match m with
  | .ignore | .setFull | .setEmpty => true
  | .fullKeep | .fullTake => full
  | .emptyPut => !full

/-- The tag that a mode leaves (R41). -/
def TagMode.after (m : TagMode) (tag : Bool) : Bool :=
  match m with
  | .ignore | .fullKeep => tag
  | .fullTake | .setEmpty => false
  | .emptyPut | .setFull => true

/-- Words that an ETAG of the context has still to set: its later accesses wait for them (R275). -/
def Ctx.etagCovers (c : Ctx) (w : Nat) : Bool :=
  c.edgeQ.any fun e =>
    match e.kind with
    | .etag _ word count => decide (word ≤ w ∧ w < word + count)
    | .etest _ _ => false

/-- The context a request acts for, where its later accesses obey R275. -/
def AsWho.orderedCtx : AsWho → Option CtxId
  | .mLoad c _ | .mStore c _ | .mTag c | .sendRead c | .descr c _ | .feed c _ _ _ _ => some c
  | _ => none

/-- Precedence (R40): requesters refused 16 times first, then by class, then as they came. -/
def AsReq.before (p q : AsReq) : Bool :=
  let pa := decide (p.refused ≥ 16)
  let qa := decide (q.refused ≥ 16)
  if pa != qa then pa else if p.cls != q.cls then decide (p.cls < q.cls) else decide (p.id < q.id)

def bestReq : List AsReq → Option AsReq
  | [] => none
  | r :: rs =>
    match bestReq rs with
    | none => some r
    | some q => if r.before q then some r else some q

/-- Ask for a word. -/
def State.askAs (s : State) (a owner : ArrId) (cls : Nat) (who : AsWho) (word : Nat) (mode : TagMode)
    (write : Bool) (mask : BitVec 32) (data : CWord) : State :=
  s.modArr a fun x =>
    { x with
      reqNo := x.reqNo + 1
      asReqs := x.asReqs ++ [⟨x.reqNo, owner, cls, who, word, mode, write, mask, data, 0, false⟩] }

/-- The head of a context's issued edge ops asks for its word (R261, R275, R276). -/
def State.askEdge (s : State) (a : ArrId) (c : CtxId) : State :=
  match (s.ctxOf a c).edgeQ with
  | [] => s
  | e :: _ =>
    match e.kind with
    | .etag f w _ => s.askAs a a 3 (.edge c) w (if f then .setFull else .setEmpty) false 0 0
    | .etest _ w => s.askAs a a 3 (.edge c) w .ignore false 0 0

/-- ETEST's access is made 4 ac after issue or later (R276). -/
def Ctx.edgeRipe (c : Ctx) (now : Nat) : Bool :=
  match c.edgeQ with
  | e :: _ =>
    match e.kind with
    | .etest _ _ => decide (e.issued + 4 ≤ now)
    | .etag _ _ _ => true
  | [] => true

/-- A request that a bank may look at in this ac. -/
def State.asEligible (s : State) (a : ArrId) (bank : Nat) (r : AsReq) : Bool :=
  asBank r.word == bank && !r.waiting &&
  match r.who.orderedCtx with
  | some c => !(s.ctxOf r.owner c).etagCovers r.word || a != r.owner
  | none =>
    match r.who with
    | .edge c => (s.ctxOf r.owner c).edgeRipe s.now
    | _ => true

/-- Bytes `off` to `off + size - 1` of a word, zero-extended (R286). -/
def wordBytes (v : CWord) (off size : Nat) : Word :=
  BitVec.ofNat 64 ((v.toNat >>> (8 * off)) % 2 ^ (8 * size))

/-- Place a feed's word (R142). -/
def placeFeed (ws : List (CWord × BitVec 32)) (pos : Nat) (scale : Bool) (v : CWord) (off : Nat) :
    List (CWord × BitVec 32) :=
  match ws[pos]? with
  | some e => ws.set pos (if scale then (e.1, (wordBytes v off 4).truncate 32) else (v, e.2))
  | none => ws

/-- A word read for a staged feed arrives. `pos` counts 1,024 for each 4-byte step within a scale word. -/
def Ctx.feedWord (c : Ctx) (b : ArrId) (id pos : Nat) (push scale : Bool) (w : Nat) (reserve : Bool) (v : CWord) :
    Ctx :=
  { c with staged := modWhere (fun t : Staged => t.id == id) (fun t =>
      let k := pos % 1024
      let off := 4 * (pos / 1024)
      { t with
        waitFor := t.waitFor - 1
        reserved := if reserve then t.reserved ++ [(b, w)] else t.reserved
        west := if push then t.west else t.west.map fun ws => placeFeed ws k scale v off
        push := if push then t.push.map fun p => (p.1, placeFeed p.2 k scale v off) else t.push }) c.staged }

/-- What follows a bank access, by the requester; `bad`: an error was met that is not corrected. -/
def State.asDone (s : State) (a : ArrId) (r : AsReq) (v : CWord) (full bad : Bool) : State :=
  let o := r.owner
  match r.who with
  | .mLoad c id =>
    match (s.ctxOf o c).loadQ.find? (·.id == id) with
    | none => s
    | some e =>
      s.modCtx o c fun x =>
        { (x.deliver e.gd (wordBytes v (e.pa % 32) e.size)) with loadQ := x.loadQ.filter (·.id != id) }
  | .mStore c id => s.modCtx o c fun x => { x with storeQ := x.storeQ.filter (·.id != id) }
  | .mTag c => s.modCtx o c fun x => { x with descBuf := x.descBuf ++ [(6, v)] }
  | .sendRead c => s.modCtx o c fun x => { x with descBuf := x.descBuf ++ [(8, v)] }
  | .descr c part => s.modCtx o c fun x => { x with descBuf := x.descBuf ++ [(part, v)] }
  | .edge c =>
    match (s.ctxOf o c).edgeQ with
    | [] => s
    | e :: t =>
      let s1 := s.modCtx o c fun x =>
        match e.kind with
        | .etag f w n => { x with edgeQ := if n ≤ 1 then t else { e with kind := .etag f (w + 1) (n - 1) } :: t }
        | .etest f _ =>
          { x with
            edgeQ := t
            delayed := x.delayed ++ [⟨s.now, e.order, .flag f, if full then 1 else 0⟩] }
      s1.askEdge o c
  | .feed c pc pos push scale =>
    let take := r.mode == .fullTake
    let s1 := if take then s.modArr a fun x => { x with reserved := x.reserved ++ [r.word] } else s
    s1.modCtx o c (·.feedWord a pc pos push scale r.word take v)
  | .capture c =>
    s.modArr o fun x => { x with coll := x.coll.set c.val (match x.coll[c] with
      | [] => []
      | i :: t => { i with sent := i.sent + 1 } :: t) c.isLt }
  | .copyRead pool =>
    s.modArr o fun x =>
      let f := fun (l : List CopyJob) => match l with
        | [] => []
        | j :: t => { j with asBuf := some v, asBad := bad, asWait := 2 } :: t
      if pool then { x with poolq := f x.poolq } else { x with near := f x.near }
  | .copyWrite pool =>
    s.modArr o fun x =>
      let f := fun (l : List CopyJob) => match l with
        | [] => []
        | j :: t => { j with asWait := 2 } :: t
      if pool then { x with poolq := f x.poolq } else { x with near := f x.near }
  | .net => s.soon (.messagePlace a)

/-- The head job of an array copy engine (R131). -/
def Arr.headCopy (x : Arr) (pool : Bool) : Option CopyJob := (if pool then x.poolq else x.near).head?

/-- The context that a detected error of an access concerns (R43): the one that issued it, or that issued the copy or the
message, with the segment of its run. -/
def State.blame (s : State) (a : ArrId) (r : AsReq) : Option (ArrId × CtxId × Nat) :=
  let own := fun (c : CtxId) => some (r.owner, c, (s.ctxOf r.owner c).seg)
  match r.who with
  | .mLoad c _ | .mStore c _ | .mTag c | .sendRead c | .descr c _ | .edge c | .feed c _ _ _ _ => own c
  | .capture c => (match (s.arr r.owner).coll[c] with | i :: _ => some (r.owner, c, i.seg) | [] => own c)
  | .copyRead pool | .copyWrite pool =>
    (s.arr r.owner).headCopy pool |>.bind fun j => if j.away then none else some (j.arr, j.ctx, j.seg)
  | .net =>
    match (s.arr a).net with
    | m :: _ => if m.remote.isSome then none else some (m.src, m.srcCtx, (s.ctxOf m.src m.srcCtx).seg)
    | [] => none

/-- A mode that writes the tag (R41). -/
def TagMode.writes : TagMode → Bool
  | .ignore | .fullKeep => false
  | _ => true

/-- A mode that tests the tag (R41). -/
def TagMode.tests : TagMode → Bool
  | .fullKeep | .fullTake | .emptyPut => true
  | _ => false

/-- The chunks of a word that an access must read: all of them, or those that a write covers in part. -/
def AsReq.chunks (r : AsReq) (k : Nat) : Bool := if r.write then chunkSome r.mask k && !chunkAll r.mask k else true

/-- The errors that an access of a word meets (R43): an armed injection is placed first, single bits are corrected, and the
answer is whether an error stands that cannot be corrected, in the data or, where the tag is tested, in the tag. -/
def State.asRead (s : State) (a : ArrId) (r : AsReq) : Bool × State :=
  let reads : Bool := !r.write || (List.range 4).any r.chunks
  let data : Bool := match r.who with | .edge _ => false | _ => reads
  let s0 := if data then s.einjArr a (· == .as r.word) else s
  let (b1, s1) := if data then s0.readErr a (.as r.word) r.chunks else (false, s0)
  let edge : Bool := match r.who with | .edge _ => r.mode == .ignore | _ => false
  let (b2, s2) := if r.mode.tests || edge then s1.readErr a (.tag r.word) fun _ => true else (false, s1)
  (b1 || b2, s2)

/-- AS_BANK_ACCESS (R40, R41): the bank looks at its requests in order of precedence; one whose tag condition
fails becomes a tag waiter without using the bank, and the first whose condition holds is served: test,
data and tag in one step. A tag that the test reads with an error is a data error either way (R43). -/
def execAsBankAccess (a : ArrId) (bank : Fin 64) (s : State) : Out :=
  let x := s.arr a
  match bestReq (x.asReqs.filter (s.asEligible a bank.val)) with
  | none => .next s
  | some r =>
    let tag := x.full r.word
    if r.mode.holds tag then
      let who := s.blame a r
      let (bad, s0) := s.asRead a r
      let v := (s0.arr a).asWord r.word
      let s1 := s0.modArr a fun y =>
        { y with asReqs := y.asReqs.filter (·.id != r.id), asUsed := bank.val :: y.asUsed }
      let s2 := if r.write then s1.modArr a (·.putWord r.word r.data r.mask) else s1
      let reserve : Bool := match r.who with
        | .feed .. => r.mode == .fullTake
        | _ => false
      let s3 := if reserve || !r.mode.writes then s2 else s2.putTag a r.word (r.mode.after (x.tagAt r.word))
      let s4 := s3.asDone a r v tag bad
      .next (match bad, who with
        | true, some (b, c, g) => s4.raiseData b c 0x0003 g
        | _, _ => s4)
    else
      let (bad, s0) := s.readErr a (.tag r.word) fun _ => true
      let s1 := s0.modArr a fun y =>
        { y with asReqs := modWhere (fun q : AsReq => q.id == r.id) (fun q => { q with waiting := true, refused := 0 }) y.asReqs }
      .next (match bad, s.blame a r with
        | true, some (b, c, g) => s1.raiseData b c 0x0003 g
        | _, _ => s1)

/-- TAG_WAITER_RETRY (R41): the waiters on a word are retried in the ac after a change of its tag. -/
def execTagWaiterRetry (a : ArrId) (word : Nat) (s : State) : Out :=
  .next (s.modArr a fun y =>
    { y with asReqs := modWhere (fun q : AsReq => q.word == word) (fun q => { q with waiting := false }) y.asReqs })

/-- The end of an ac for the banks: a request that its bank could look at and did not serve was refused (R40); one that waits
on a tag or on its turn was not, and its count of consecutive refusals starts again. -/
def Arr.endBanks (x : Arr) (asks : AsReq → Bool) : Arr :=
  { x with
    asUsed := []
    asReqs := x.asReqs.map fun r => { r with refused := if asks r then r.refused + 1 else 0 } }

end Sys2Proof.Machine
end

