-- ==== Sys2Proof/Machine/EdgeOps.lean ====
section
/-! DEFINITION. The E slot: descriptors (R257 to R260), staging and issue of feeds (R261 to R268), captures
and the collector (R269 to R273), descriptor loads (R274) and tag ops (R275, R276). -/

namespace Sys2Proof.Machine

/-! Fields of a feed descriptor (R258). -/

def fdCur (d : BitVec 256) : Nat := (d.extractLsb' 0 24).toNat
def fdWstride (d : BitVec 256) : Int := (d.extractLsb' 32 32).toInt
def fdFstride (d : BitVec 256) : Int := (d.extractLsb' 64 32).toInt
def fdGstride (d : BitVec 256) : Nat := (d.extractLsb' 96 32).toNat
def fdCount (d : BitVec 256) : Nat := (d.extractLsb' 128 32).toNat
def fdSbase (d : BitVec 256) : Nat := (d.extractLsb' 160 24).toNat
def fdLimit (d : BitVec 256) : Nat := (d.extractLsb' 192 16).toNat
def fdWords (d : BitVec 256) : Nat := (d.extractLsb' 208 5).toNat + 1
def fdSmode (d : BitVec 256) : Bool := d.getLsbD 216
def fdSfen (d : BitVec 256) : Bool := d.getLsbD 218
def fdSflag (d : BitVec 256) : FlagNo := d.extractLsb' 220 4

/-- Replace the field of `n` bits at `lo`. -/
def putField {w : Nat} (d : BitVec w) (lo n v : Nat) : BitVec w :=
  (d &&& ~~~(BitVec.ofNat w ((2 ^ n - 1) * 2 ^ lo))) ||| BitVec.ofNat w (v % 2 ^ n * 2 ^ lo)

/-- The advance of a descriptor by one feed (R263). -/
def fdAdvance (d : BitVec 256) (status : Bool) : BitVec 256 :=
  let d1 := putField d 128 32 (fdCount d + 1)
  let d2 := putField d1 0 24 (((fdCur d : Int) + fdFstride d) % 2 ^ 24).toNat
  if status then setBit d2 217 else d2

/-! Fields of a capture descriptor (R259). -/

def cdKind (d : BitVec 256) : Nat := (d.extractLsb' 0 2).toNat
def cdDeskew (d : BitVec 256) : Bool := d.getLsbD 2
def cdEaRow (d : BitVec 256) : Nat := (d.extractLsb' 8 7).toNat
def cdN (d : BitVec 256) : Nat := (d.extractLsb' 16 16).toNat
def cdDbase (d : BitVec 256) : Nat := (d.extractLsb' 32 24).toNat
def cdDstride (d : BitVec 256) : Int := (d.extractLsb' 64 32).toInt
def cdJ (d : BitVec 256) : Nat := (d.extractLsb' 96 32).toNat
def cdDfmt (d : BitVec 256) : Nat := (d.extractLsb' 128 3).toNat

/-- The fields of a tile handle that WFEEDT reads (R267, R296). -/
def tileField (h : BitVec 512) (byte n : Nat) : Nat := (h.extractLsb' (8 * byte) (8 * n)).toNat

def tileSigned (h : BitVec 512) (byte : Nat) : Int := (h.extractLsb' (8 * byte) 32).toInt

/-- The reserved bits of a tile handle are zero. -/
def tileClean (h : BitVec 512) : Bool :=
  h.extractLsb' 5 27 == 0 && h.extractLsb' (8 * 52) 96 == 0

/-! Staging. -/

/-- The feed descriptors that a feed uses, in order of use (R265). -/
def feedFds : Instr → List (BitVec 3)
  | .wfeed fd _ _ _ | .wfeedg fd _ _ _ _ | .wfeedt fd _ _ _ _ | .npush fd _ _ _ _ => [fd]
  | .dfeed fd _ _ _ _ pd => [fd, pd]
  | _ => []

def feedTag : Instr → TagMode
  | .wfeed _ _ t _ | .wfeedg _ _ t _ _ | .wfeedt _ _ t _ _ | .npush _ _ t _ _ | .dfeed _ _ t _ _ _ =>
    if t = 1 then .fullKeep else if t = 2 then .fullTake else .ignore
  | _ => .ignore

def advanceAll (fds : Vector (BitVec 256) 8) (i : Instr) (status : Bool) : Vector (BitVec 256) 8 :=
  (feedFds i).foldl (fun v n => v.set n.toNat (fdAdvance (v[n.toNat]'n.isLt) status) n.isLt) fds

/-- The descriptors as they stand when the next staging begins: earlier staged feeds have used theirs
(R262). -/
def Ctx.stagedFd (c : Ctx) : Vector (BitVec 256) 8 :=
  c.staged.foldl (fun v t => advanceAll v t.ins t.status) c.fd

/-- One word that a feed reads: its position, the AS offset, and whether a scale is read beside it. -/
structure FeedRead where
  pos   : Nat
  push  : Bool
  off   : Int
  scale : Option Nat
  deriving DecidableEq, Repr

/-- The words that a descriptor serves from a base address (R264). -/
def feedReads (d : BitVec 256) (base : Int) (push : Bool) : List FeedRead :=
  (List.range (fdWords d)).map fun (w : Nat) =>
    let a := base + (w : Int) * fdWstride d
    ⟨w, push, a, if fdSmode d then some ((((fdSbase d : Int) + a / 32 * 4) % 2 ^ 24).toNat) else none⟩

/-- The words of a tile row: those read, and every word's clipped bytes with the fill (R267). -/
def tileReads (d : BitVec 256) (h : BitVec 512) : List FeedRead × List (Nat × BitVec 32 × CWord) :=
  let y := tileSigned h 32 + fdCount d
  let fill := (h.extractLsb' 32 32).toNat
  let fillWord := BitVec.ofNat 256 ((List.range 8).foldl (fun v i => v + fill * 2 ^ (32 * i)) 0)
  let rows := (List.range (fdWords d)).map fun (r : Nat) =>
    let x := tileSigned h 36 + 32 * (r : Int)
    let mask := (List.range 32).foldl (fun (m : BitVec 32) (b : Nat) =>
      if y < 0 ∨ y ≥ tileField h 24 4 ∨ x + b < 0 ∨ x + b ≥ tileField h 28 4 then setBit m b else m) 0
    (r, mask, (tileField h 8 8 : Int) + y * tileField h 16 4 + x)
  (rows.filterMap fun e => if e.2.1 = 0xFFFFFFFF then none else some ⟨e.1, false, e.2.2, none⟩,
   rows.filterMap fun e => if e.2.1 = 0 then none else some (e.1, e.2.1, fillWord))

/-- What a feed stages: its reads, clipped bytes, STATUS, a descriptor fault (R264 to R268). -/
structure FeedPlan where
  reads  : List FeedRead := []
  clips  : List (Nat × BitVec 32 × CWord) := []
  status : Bool := false
  fault  : Bool := false
  deriving DecidableEq, Repr

/-- Entry `k` of an index vector (R260). -/
def ivEntry (v : BitVec 512) (k : Nat) : Nat := (v.extractLsb' (16 * k) 16).toNat

/-- The words that a feed serves, its tile handle as `th` gives it. -/
def Ctx.feedPlan (c : Ctx) (th : Vector (BitVec 512) 16) (i : Instr) : FeedPlan :=
  let fds := c.stagedFd
  let at_ := fun (n : BitVec 3) => fds[n.toNat]'n.isLt
  match i with
  | .wfeed fd _ _ _ => { reads := feedReads (at_ fd) (fdCur (at_ fd)) false }
  | .npush fd _ _ _ _ => { reads := feedReads (at_ fd) (fdCur (at_ fd)) true }
  | .dfeed fd _ _ _ _ pd =>
    let p := if pd = fd then fdAdvance (at_ fd) false else at_ pd
    { reads := feedReads (at_ fd) (fdCur (at_ fd)) false ++ feedReads p (fdCur p) true }
  | .wfeedg fd _ _ _ v =>
    let d := at_ fd
    let idx := ivEntry (c.iv[v.toNat]'v.isLt) (fdCount d % 32)
    if idx = 0xFFFF then {}
    else if idx ≥ fdLimit d then { status := true }
    else { reads := feedReads d ((fdCur d : Int) + idx * fdGstride d) false }
  | .wfeedt fd _ _ _ t =>
    let h := th[t.toNat]'t.isLt
    if !tileClean h || h.extractLsb' 0 2 != 1 || tileSigned h 36 % 32 != 0 then { fault := true }
    else let (r, k) := tileReads (at_ fd) h; { reads := r, clips := k }
  | _ => {}

/-- The offsets of a read lie in the array store and in the plan (R268). -/
def FeedRead.ok (p : Plan) (r : FeedRead) : Bool :=
  decide (0 ≤ r.off ∧ r.off < 0x1000000) && p.holds (r.off.toNat / 32 * 32) 32 &&
  match r.scale with
  | some k => p.holds k 4
  | none => true

/-- An E op of a bundle that control may not be staged past: it can transfer control (R262). -/
def transfers : Instr → Bool
  | .beq .. | .bne .. | .blt .. | .bge .. | .bltu .. | .bgeu .. | .bfs .. | .bfc .. | .baf .. | .jmp _
  | .call _ | .ret | .jr _ | .loop .. | .mloop .. | .lbrk | .endt | .trap _ | .node _ => true
  | _ => false

/-- An E.D op, which staging does not pass until it has issued (R262). -/
def isDescrOp : Instr → Bool
  | .eaclr .. | .eadrain .. | .fdset .. | .cdset .. | .ivld .. | .etag .. | .etest .. => true
  | _ => false

/-- An op of a bundle behind which nothing is staged until it has issued: a transfer of control, QSYNC, and TDESC, so that a
feed reads its tile handle as its first presentation would (R262). -/
def stopsStaging : Instr → Bool
  | .qsync | .tdesc .. => true
  | i => transfers i

/-- The next feed to stage behind the `n` staged ones, seen from the bundle `pc` along the fall-through path
and LOOP back edges; `ops` gives the slot ops of a bundle, `here` those of the one presented that are still to issue (R262). -/
def nextFeed (ops : Nat → List Instr) : Nat → Option (List Instr) → Nat → List LoopEntry → Nat → Option (Nat × Instr)
  | 0, _, _, _, _ => none
  | fuel + 1, here, pc, loops, n =>
    let is := here.getD (ops pc)
    if is.any isDescrOp then none else
    match is.find? fun i => !(feedFds i).isEmpty, n with
    | some i, 0 => some (pc, i)
    | f, _ =>
      if is.any stopsStaging then none else
      let n' := if f.isSome then n - 1 else n
      match loops with
      | e :: t =>
        if e.last = pc then
          if e.remaining ≤ 1 then nextFeed ops fuel none (pc + 1) t n'
          else nextFeed ops fuel none e.start ({ e with remaining := e.remaining - 1 } :: t) n'
        else nextFeed ops fuel none (pc + 1) loops n'
      | [] => nextFeed ops fuel none (pc + 1) loops n'

/-- The decoded slot ops of a bundle in memory, where it decodes. -/
def State.bundleAt (s : State) (c : Ctx) (pc : Nat) : Option Bundle :=
  match s.image? c.image with
  | none => none
  | some m =>
    if pc < m.count then
      (decodeBundle (BitVec.ofNat 128 (bytesToNat (Memory.bytes s.mem (m.codePa + 16 * pc) 16)))).toOption
    else none

def bundleOps (b : Bundle) : List Instr := [b.s, b.c, b.e, b.m]

/-- The feed that the feeder would stage next for a context, and whether its bundle stands presented: that one's, or, for the running
context, one of a later bundle (R262). How far ahead the sequencer has fetched is not stated: at most 16
bundles here (assumption 26). -/
def State.nextStage (s : State) (a : ArrId) (c : CtxId) : Option (Bool × Nat × Instr) :=
  let x := s.ctxOf a c
  if x.run != .active || decide (8 ≤ x.staged.length) || !x.edgeQ.isEmpty then none else
  let here := x.residue.map (·.ins)
  let ops := fun pc =>
    match s.bundleAt x pc with
    | some b => bundleOps b
    | none => [.qsync]
  match x.residue.find? (fun o => !(feedFds o.ins).isEmpty), x.staged with
  | some o, [] => if x.mloop.isSome || !(here.any isDescrOp) then some (true, o.pc, o.ins) else none
  | _, _ =>
    if x.mloop.isSome || (here.isEmpty && (s.arr a).running != c) then none
    else (nextFeed ops (if (s.arr a).running == c && x.branch.isNone then 16 else 1) (if here.isEmpty then none else some here)
      x.pc x.loops x.staged.length).map fun e => (false, e)

/-- FEED_STAGE (R262 to R268): staging of a feed begins, its descriptor, index vector and tile as they stand;
every position asks its own array store for the words (R146). -/
def execFeedStage (a : ArrId) (c : CtxId) (s : State) : Out :=
  match s.nextStage a c with
  | none => .next s
  | some (presented, pc, i) =>
    let x := s.ctxOf a c
    let p := x.feedPlan (if presented then x.capTh else x.th) i
    let plan := s.planOf x
    let n := chainLen x.chain
    let blank : List (CWord × BitVec 32) := List.replicate (32 * n) (plain 0)
    let push : Option (Bool × List (CWord × BitVec 32)) := match i with
      | .dfeed _ _ _ _ pt _ | .npush _ _ _ _ pt => some (pt, List.replicate 32 (plain 0))
      | _ => none
    let west := match i with
      | .npush .. => none
      | _ => some blank
    let fault := if p.fault then some fDescr else if p.reads.all (·.ok plan) then none else some fAsRange
    let reads := if fault.isSome then [] else p.reads
    let id := (s.arr a).reqNo
    let cost := (reads.map fun r => (if r.push then 1 else n) * (if r.scale.isSome then 2 else 1)).foldl (· + ·) 0
    let clips := ((List.range n).map fun k => p.clips.map fun e => (32 * k + e.1, e.2)).flatten
    let t : Staged :=
      { id := id, pc := pc, ins := i, west := west, push := push, clips := clips, status := p.status,
        reserved := [], waitFor := cost, fault := fault }
    let s1 := s.modArr a fun y => { y.modCtx c fun z => { z with staged := z.staged ++ [t] } with reqNo := id + 1 }
    .next (reads.foldl (fun u r =>
      (List.range (if r.push then 1 else n)).foldl (fun v k =>
        let b := v.chainArr a c k
        let pos := 32 * k + r.pos
        let v1 := v.askAs b a 2 (.feed c id pos r.push false) (r.off.toNat / 32) (feedTag i) false 0 0
        match r.scale with
        | none => v1
        | some q => v1.askAs b a 2 (.feed c id (pos + 1024 * (q % 32 / 4)) r.push true) (q / 32) .ignore false 0 0)
        u) s1)

/-! Issue of a paired E op. -/

/-- The words taken by a feed become empty (R263). -/
def State.takeReserved (s : State) (l : List (ArrId × Nat)) : State :=
  l.foldl (fun t e =>
    (t.modArr e.1 fun z => { z with reserved := z.reserved.erase e.2 }).putTag e.1 e.2 false) s

/-- A staged word with its clipped bytes replaced (R267). -/
def clipWords (ws : List (CWord × BitVec 32)) (clips : List (Nat × BitVec 32 × CWord)) : List (CWord × BitVec 32) :=
  clips.foldl (fun l e => l.modify e.1 fun v => (mergeWord v.1 e.2.2 e.2.1, v.2)) ws

/-- The capture that an op names, and the advance of J (R269). -/
def Ctx.takeCapture (c : Ctx) (cd : BitVec 3) (put east : Bool) : Option Capture × Ctx :=
  if cd = 0 then (none, c) else
  let d := c.cd[cd.toNat]'cd.isLt
  (some ⟨d, cdJ d, put, east⟩, { c with cd := c.cd.set cd.toNat (putField d 96 32 (cdJ d + 1)) cd.isLt })

/-- The C op paired with the actor's E op can issue in this ac: its slot is ready, the context holds the
lease, no slow result is met early, and the collector has room (R179, R183, R40). -/
def State.partnerReady (s : State) : Bool :=
  let a := s.act.arr
  let c := s.act.ctx
  s.me.todo.contains 1 && (s.arr a).holder == some c && !(s.arr a).collHold &&
  match s.me.residue.find? (·.slot == 1) with
  | some o => !s.meetsSlow o.ins
  | none => false

/-- The edge unit holds as many ops of the context as it can (R261). -/
def State.edgeFull (s : State) : Bool := decide (8 ≤ s.me.edgeQ.length)

/-- Issue of an E.F op with the C op of its bundle: its feed is used, its descriptors advance, STATUS sets
SFLAG at the end of the ac, and its capture is taken (R142, R263, R269). -/
def State.feedOp (s : State) (i : Instr) (cd : BitVec 3) (put east : Bool) : Out :=
  if !s.partnerReady || s.edgeFull then .next s.keep else
  match feedFds i with
  | [] =>
    let (k, me) := s.me.takeCapture cd put east
    .next (s.retire fun _ => { me with fed := some ⟨none, none, k⟩ })
  | fds =>
    match s.me.staged with
    | [] => .next s.keep
    | t :: rest =>
      if t.ins != i || t.waitFor != 0 then .next s.keep
      else match t.fault with
      | some code => .next (s.faultSlot code)
      | none =>
        let s1 := s.takeReserved t.reserved
        let (k, me) := s1.me.takeCapture cd put east
        let west := t.west.map fun w => clipWords w t.clips
        let me1 := { me with staged := rest, fd := advanceAll me.fd i t.status, fed := some ⟨west, t.push, k⟩ }
        let me2 := fds.foldl (fun y n =>
          let d := me.fd[n.toNat]'n.isLt
          if t.status && fdSfen d then y.oweFlag s.now (fdSflag d) true else y) me1
        .next (s1.retire fun _ => me2)

def execWfeed (fd cd : BitVec 3) (ftag : BitVec 2) (ctag : Bool) (s : State) : Out :=
  s.feedOp (.wfeed fd cd ftag ctag) cd ctag false
def execDfeed (fd cd : BitVec 3) (ftag : BitVec 2) (ctag pt : Bool) (pd : BitVec 3) (s : State) : Out :=
  s.feedOp (.dfeed fd cd ftag ctag pt pd) cd ctag false
def execWfeedg (fd cd : BitVec 3) (ftag : BitVec 2) (ctag : Bool) (iv : BitVec 2) (s : State) : Out :=
  s.feedOp (.wfeedg fd cd ftag ctag iv) cd ctag false
def execWfeedt (fd cd : BitVec 3) (ftag : BitVec 2) (ctag : Bool) (th : BitVec 4) (s : State) : Out :=
  s.feedOp (.wfeedt fd cd ftag ctag th) cd ctag false
def execNpush (fd cd : BitVec 3) (ftag : BitVec 2) (ctag pt : Bool) (s : State) : Out :=
  s.feedOp (.npush fd cd ftag ctag pt) cd ctag false
def execSpull (cd : BitVec 3) (ctag : Bool) (s : State) : Out := s.feedOp (.spull cd ctag) cd ctag false
def execEpull (cd : BitVec 3) (ctag : Bool) (s : State) : Out := s.feedOp (.epull cd ctag) cd ctag true

/-! The collector. -/

def Arr.eaAt (x : Arr) (row e : Nat) : BitVec 32 := Sparse.get 0 x.ea (row * 256 + e)

/-- The 64-bit chunks of the 8 EA elements from `e` on. -/
def eaChunks (e k : Nat) : Bool := decide (e / 2 ≤ k ∧ k < e / 2 + 4)

/-- A write of EA elements; what was wrong in the chunks that it writes is gone (R44). -/
def Arr.putEa (x : Arr) (row e : Nat) (l : List Nat) : Arr :=
  { (if x.errs.isEmpty then x else x.clearErr (.ea row) fun k => decide (e / 2 ≤ k ∧ k < (e + l.length) / 2)) with
    ea := (List.range l.length).foldl (fun m k => Sparse.set 0 m (row * 256 + e + k) (BitVec.ofNat 32 (l.getD k 0))) x.ea }

/-- The destination row of a captured word: by column for a south capture (R144, R270). -/
def Capture.row (k : Capture) (idx : Nat) : Option Nat :=
  let n := cdN k.desc
  if !k.east && cdDeskew k.desc then
    if idx ≤ k.j ∧ k.j - idx < n then some (k.j - idx) else none
  else if k.j < n then some k.j else none

/-- Accumulate a word into eight EA elements (R170, R271). -/
def accumulate (int : Bool) (old new : List Nat) : List (Nat × FpFlags) :=
  (old.zip new).map fun e => if int then satAdd32 (toInt 32 e.1) e.2 else fp32.sum .rne e.1 e.2

/-- The last position of a context's chain, whose EA and array store its captures reach (R146). -/
def State.lastPos (s : State) (a : ArrId) (c : CtxId) : ArrId :=
  s.chainArr a c (chainLen (s.ctxOf a c).chain - 1)

/-- A read of EA chunks by the collector: an armed injection is placed first, single bits are corrected, and an error that
cannot be is the context's (R44, R43). -/
def State.eaRead (s : State) (a b : ArrId) (c : CtxId) (row seg : Nat) (chunks : Nat → Bool) : State :=
  let (bad, s1) := (s.einjArr b (· == .ea row)).readErr b (.ea row) chunks
  if bad then s1.raiseData a c 0x0003 seg else s1

/-- One EA word of a capture is written. -/
def State.captureEa (s : State) (a : ArrId) (c : CtxId) (it : CollItem) (k : Capture) (int : Bool)
    (idx : Nat) (w : CWord) : State :=
  match k.row idx with
  | none => s
  | some i =>
    let n := chainLen (s.ctxOf a c).chain
    let b := s.lastPos a c
    let row := cdEaRow k.desc + (if k.east then i * n + idx / 32 else i)
    let e := idx % 32 * 8
    if cdKind k.desc = 0 then s.modArr b (·.putEa row e (lanes 32 w)) else
    let s1 := s.eaRead a b c row it.seg (eaChunks e)
    let old := (List.range 8).map fun l => ((s1.arr b).eaAt row (e + l)).toNat
    let r := accumulate int old (lanes 32 w)
    (s1.modArr b (·.putEa row e (r.map (·.1)))).modCtx a c fun y =>
      { y with fpflags := r.foldl (fun f v => f ||| v.2) y.fpflags }

/-- Conversion of one EA element in a drain, and bytes per element (R273). -/
def drainLane (dfmt : Nat) (v : Nat) : Nat × FpFlags :=
  match dfmt with
  | 1 => convLane 0x00 .rne 0 v
  | 2 => convLane 0x01 .rne 0 v
  | 3 => convLane 0x08 .rne 0 v
  | 5 => convLane 0x1C .rne 0 v
  | _ => (v, 0)

def drainBytes (dfmt : Nat) : Nat :=
  match dfmt with
  | 0 | 4 => 4
  | 1 | 2 => 2
  | _ => 1

/-- Words of a drained row. -/
def drainWords (dfmt : Nat) : Nat := 8 * drainBytes dfmt

/-- Word `w` of a drained EA row with the flags of its elements. -/
def Arr.drainWord (x : Arr) (dfmt row w : Nat) : CWord × FpFlags :=
  let n := 32 / drainBytes dfmt
  let r := (List.range n).map fun l => drainLane dfmt (x.eaAt row (w * n + l)).toNat
  (ofLanes (8 * drainBytes dfmt) (r.map (·.1)), r.foldl (fun f v => f ||| v.2) 0)

/-- The AS offset of row i, word w under a capture descriptor. -/
def cdOffset (d : BitVec 256) (i w : Nat) : Int := (cdDbase d : Int) + i * cdDstride d + 32 * w

/-- A captured or drained word is written to the array store, under its tag mode (R41, R271). -/
def State.putCapture (s : State) (a : ArrId) (c : CtxId) (put : Bool) (off : Int) (v : CWord) : State :=
  s.askAs (s.lastPos a c) a 1 (.capture c) (off.toNat / 32) (if put then .emptyPut else .ignore) true
    0xFFFFFFFF v

def setColl (x : Arr) (c : CtxId) (l : List CollItem) : Arr := { x with coll := x.coll.set c.val l c.isLt }

/-- The collector awaits a bank for a context. -/
def State.collBusy (s : State) (a : ArrId) (c : CtxId) : Bool :=
  (s.arr (s.lastPos a c)).asReqs.any fun r => r.owner == a && r.who == .capture c

/-- The collector can go on for a context. -/
def State.collReady (s : State) (a : ArrId) (c : CtxId) : Bool :=
  !s.collBusy a c &&
  match (s.arr a).coll[c] with
  | [] => false
  | i :: _ =>
    match i.kind with
    | .capture _ _ => i.full || decide (i.sent < i.words.length)
    | _ => true

/-- COLLECTOR_WRITE (R40, R271 to R273): the next word of the head of the context's capture order, its
columns ascending; a finished item leaves. -/
def execCollectorWrite (a : ArrId) (c : CtxId) (s : State) : Out :=
  if !s.collReady a c then .next s else
  match (s.arr a).coll[c] with
  | [] => .next s
  | it :: rest =>
    let pop := fun (u : State) => u.modArr a fun x => (setColl x c rest).checkHold
    let step := fun (u : State) =>
      u.modArr a fun x => (setColl x c ({ it with sent := it.sent + 1 } :: rest)).checkHold
    match it.kind with
    | .clear row n =>
      let b := s.lastPos a c
      .next (pop ((List.range n).foldl (fun u i => u.modArr b (·.putEa (row + i) 0 (List.replicate 256 0))) s))
    | .capture k int =>
      match it.words[it.sent]? with
      | none => .next (pop s)
      | some (_, idx, w) =>
        if cdKind k.desc = 2 then
          match k.row idx with
          | none => .next (step s)
          | some i => .next (s.putCapture a c k.put (cdOffset k.desc i idx) w)
        else .next (step (s.captureEa a c it k int idx w))
    | .drain d put row n =>
      let per := drainWords (cdDfmt d)
      if it.sent ≥ n * per then .next (pop s) else
      let b := s.lastPos a c
      let i := it.sent / per
      let w := it.sent % per
      let n := 32 / drainBytes (cdDfmt d)
      let s0 := s.eaRead a b c (row + i) it.seg fun k => decide (w * n / 2 ≤ k ∧ k < (w + 1) * n / 2)
      let (v, f) := (s0.arr b).drainWord (cdDfmt d) (row + i) w
      let s1 := s0.modCtx a c fun y => { y with fpflags := y.fpflags ||| f }
      .next (s1.putCapture a c put (cdOffset d i w) v)

/-- EA rows that exist and are planned (R44, R272). -/
def Plan.eaOk (p : Plan) (row n : Nat) : Bool :=
  decide (row + n ≤ 128 ∧ p.eaFirst ≤ row ∧ row + n ≤ p.eaFirst + p.eaCount)

/-- The first row of EACLR and EADRAIN. -/
def Ctx.eaFirst (c : Ctx) (ga : Reg) (first : BitVec 7) : Nat := (c.rd ga + first.zeroExtend 64).toNat

/-- An item of the context's capture order, made at issue. -/
def State.collect (s : State) (k : CollKind) : State :=
  s.modArr s.act.arr fun x =>
    { setColl x s.act.ctx (x.coll[s.act.ctx] ++ [⟨x.opNo, k, [], true, 0, s.me.seg, s.me.order⟩]) with
      opNo := x.opNo + 1 }

def execEaclr (ga : Reg) (cntm1 : BitVec 5) (first : BitVec 7) (s : State) : Out :=
  s.gate [ga] 0
    (let f := s.me.eaFirst ga first
     let n := cntm1.toNat + 1
     if s.edgeFull then .next s.keep
     else if (s.planOf s.me).eaOk f n then .next ((s.collect (.clear f n)).retire id)
     else .next (s.faultSlot fDescr))

/-- The words that a drain writes lie in the plan (R273). -/
def Plan.drainOk (p : Plan) (d : BitVec 256) (n : Nat) : Bool :=
  (List.range n).all fun i => (List.range (drainWords (cdDfmt d))).all fun w =>
    let o := cdOffset d i w
    decide (0 ≤ o ∧ o < 0x1000000) && p.holds o.toNat 32

def execEadrain (cd : BitVec 3) (ctag : Bool) (ga : Reg) (cntm1 : BitVec 5) (first : BitVec 7) (s : State) : Out :=
  s.gate [ga] 0
    (let f := s.me.eaFirst ga first
     let n := cntm1.toNat + 1
     let d := s.me.cd[cd.toNat]'cd.isLt
     let p := s.planOf s.me
     if s.edgeFull then .next s.keep
     else if p.eaOk f n && cdKind d == 2 && p.drainOk d n then .next ((s.collect (.drain d ctag f n)).retire id)
     else .next (s.faultSlot fDescr))

/-! Loads of descriptors, index vectors and tile handles (R274, R296). -/

/-- The image words that the actor's slot has read, none while one is still to come. -/
def Ctx.imageWords (c : Ctx) (slot : Fin 4) (n : Nat) : Option (List CWord) :=
  (List.range n).mapM fun k => (c.descBuf.find? (·.1 == slot.val * 2 + k)).map (·.2)

def Ctx.dropImage (c : Ctx) (slot : Fin 4) : Ctx :=
  { c with descBuf := c.descBuf.filter fun e => e.1 / 2 != slot.val }

/-- The offset of an image lies in the array store and in the plan. -/
def State.imageOk (s : State) (off : Word) (n : Nat) : Bool :=
  decide (off.toNat + 32 * n ≤ 0x1000000) && (s.planOf s.me).holds off.toNat (32 * n)

/-- A load of an image of `n` words at an AS offset: its read is made from first presentation on, it stays as residue until the
read is complete and 4 ac have passed, and is then checked: alignment, range, and the image (R274). An image that is not
aligned or not in range has no read to wait for. -/
def State.loadImage (s : State) (off : Word) (align n : Nat) (load : List CWord → Ctx → Option Ctx) : Out :=
  let sound := off.toNat % align == 0 && s.imageOk off n
  if s.phase = 0 then
    let s1 := if !sound then s else (List.range n).foldl (fun (u : State) k =>
      u.askAs s.act.arr s.act.arr 3 (.descr s.act.ctx (s.act.slot.val * 2 + k)) (off.toNat / 32 + k) .ignore
        false 0 0) s
    .next (s1.hold (s.now + 4))
  else if s.now < s.phase then .next s.keep
  else if off.toNat % align ≠ 0 then .next (s.faultSlot fAlign)
  else if !s.imageOk off n then .next (s.faultSlot fAsRange)
  else
    match s.me.imageWords s.act.slot n with
    | none => .next s.keep
    | some l =>
      match load l s.me with
      | none => .next ((s.modMe (·.dropImage s.act.slot)).faultSlot fDescr)
      | some _ => .next (s.retire fun c => ((load l c).getD c).dropImage s.act.slot)

/-- The same in the E slot: the edge unit accepts the op where it has room, and loads it behind the tag ops that were issued
before it (R261). -/
def State.loadEdge (s : State) (off : Word) (n : Nat) (load : List CWord → Ctx → Option Ctx) : Out :=
  if (if s.phase = 0 then s.edgeFull else !s.me.edgeQ.isEmpty) then .next s.keep else s.loadImage off 32 n load

/-- The check of a feed descriptor image (R258, R274). -/
def fdOk (d : BitVec 256) : Bool :=
  d.extractLsb' 24 8 == 0 && d.extractLsb' 184 8 == 0 && d.extractLsb' 213 3 == 0 && !d.getLsbD 219 &&
  d.extractLsb' 224 32 == 0 && d.extractLsb' 0 5 == 0 && d.extractLsb' 32 5 == 0 && d.extractLsb' 64 5 == 0 &&
  d.extractLsb' 96 5 == 0 && d.extractLsb' 160 2 == 0

/-- The words that an AS capture descriptor can address lie in the plan (R259). -/
def Plan.cdAsOk (p : Plan) (d : BitVec 256) (n : Nat) : Bool :=
  (List.range (cdN d)).all fun i => (List.range (32 * n)).all fun w =>
    let o := cdOffset d i w
    decide (0 ≤ o ∧ o < 0x1000000) && p.holds o.toNat 32

/-- The check of a capture descriptor image (R259, R274); `n` is the chain length. -/
def cdOk (p : Plan) (n : Nat) (d : BitVec 256) : Bool :=
  d.extractLsb' 3 5 == 0 && !d.getLsbD 15 && d.extractLsb' 56 8 == 0 && d.extractLsb' 131 125 == 0 &&
  d.extractLsb' 32 5 == 0 && d.extractLsb' 64 5 == 0 && cdKind d != 3 && cdN d != 0 && decide (cdDfmt d < 6) &&
  (if cdKind d = 2 then p.cdAsOk d n
   else decide (cdEaRow d + cdN d ≤ 128) && p.eaOk (cdEaRow d) (cdN d * n))

/-- The check of a tile handle image (R296). -/
def tileOk (h : BitVec 512) : Bool :=
  let ss := (h.extractLsb' 0 2).toNat
  let ds := (h.extractLsb' 2 2).toNat
  let rows := tileField h 40 4
  let bytes := tileField h 44 4
  tileClean h && decide (ss ≤ 1 ∧ ds ≤ 2) && (!h.getLsbD 4 || decide (ss = 0 ∧ ds = 1)) &&
  decide (1 ≤ rows ∧ 1 ≤ bytes ∧ rows * bytes ≤ 2 ^ 36) && decide (tileField h 48 4 % 4 = 0 ∧ tileField h 48 4 < 0x1000000)

def execFdset (fd : BitVec 3) (ga : Reg) (imm : BitVec 12) (s : State) : Out :=
  s.gate [ga] 0
    (s.loadEdge (s.me.rd ga + immE imm s.ext * 32) 1 fun l c =>
      match l with
      | [d] => if fdOk d then some { c with fd := c.fd.set fd.toNat d fd.isLt } else none
      | _ => none)

def execCdset (cd : BitVec 3) (ga : Reg) (imm : BitVec 12) (s : State) : Out :=
  s.gate [ga] 0
    (s.loadEdge (s.me.rd ga + immE imm s.ext * 32) 1 fun l c =>
      match l with
      | [d] => if cdOk (s.planOf c) (chainLen c.chain) d then some { c with cd := c.cd.set cd.toNat d cd.isLt } else none
      | _ => none)

/-- Two image words as one. -/
def joinWords : List CWord → BitVec 512
  | [lo, hi] => hi ++ lo
  | _ => 0

/-- IVLD: the offset need only be a multiple of 32 (R274). -/
def execIvld (iv : BitVec 2) (ga : Reg) (imm : BitVec 12) (s : State) : Out :=
  s.gate [ga] 0
    (s.loadEdge (s.me.rd ga + immE imm s.ext * 64) 2 fun l c =>
      some { c with iv := c.iv.set iv.toNat (joinWords l) iv.isLt })

/-- TDESC (R296). -/
def execTdesc (ga : Reg) (th : BitVec 4) (s : State) : Out :=
  s.gate [ga] 0
    (s.loadImage (s.me.rd ga) 64 2 fun l c =>
      if tileOk (joinWords l) then some { c with th := c.th.set th.toNat (joinWords l) th.isLt } else none)

/-! Tags (R275, R276). -/

/-- The edge unit takes an op, which then waits its turn (R261). -/
def State.edgeOp (s : State) (k : EdgeKind) : State :=
  let first := s.me.edgeQ.isEmpty
  let s1 := s.modMe fun c => { c with edgeQ := c.edgeQ ++ [⟨c.order, s.now, k⟩] }
  if first then s1.askEdge s.act.arr s.act.ctx else s1

def execEtag (full : Bool) (ga gb : Reg) (s : State) : Out :=
  s.gate [ga, gb] 0
    (let off := (s.me.rd ga).toNat
     let n := (s.me.rd gb).toNat
     if s.edgeFull then .next s.keep
     else if off % 32 ≠ 0 then .next (s.faultSlot fAlign)
     else if n = 0 then .next (s.retire id)
     else if off + 32 * n > 0x1000000 || !(s.planOf s.me).holdsWords off n then .next (s.faultSlot fAsRange)
     else .next ((s.edgeOp (.etag full (off / 32) n)).retire id))

def execEtest (f : FlagNo) (ga : Reg) (s : State) : Out :=
  s.gate [ga] 0
    (let off := (s.me.rd ga).toNat
     if s.edgeFull then .next s.keep
     else if off % 32 ≠ 0 then .next (s.faultSlot fAlign)
     else if off + 32 > 0x1000000 || !(s.planOf s.me).holds off 32 then .next (s.faultSlot fAsRange)
     else .next ((s.edgeOp (.etest f (off / 32))).retire id))

end Sys2Proof.Machine
end

