-- ==== Sys2Proof/Machine/Fold.lean ====
section
/-! DEFINITION. The fold engines (R71, R77), protected folds (R106 to R110), records of other packages (R71,
R109), and the parity holder (R108). -/

namespace Sys2Proof.Machine

/-! Order at a slice. -/

def Seg.nextAt (g : Seg) (slice : Nat) : Nat := Sparse.get g.first g.next slice
def Seg.touches (g : Seg) (slice : Nat) : Bool := g.touch.getLsbD slice
def Seg.reportedAt (g : Seg) (slice : Nat) : Bool := g.reported.getLsbD slice

def State.modSeg (s : State) (ring rel : Nat) (f : Seg → Seg) : State :=
  { s with segs := modWhere (fun g : Seg => g.ring == ring && g.rel == rel) f s.segs }

/-- The lowest-stamped segment of a list. -/
def lowest : List Seg → Option Seg
  | [] => none
  | g :: t =>
    match lowest t with
    | none => some g
    | some h => if g.stamp < h.stamp then some g else some h

/-- Segments that a slice has still to report, their stamps known. -/
def State.openSegs (s : State) (slice : Nat) : List Seg :=
  s.segs.filter fun g => g.touches slice && !g.reportedAt slice && decide (g.known ≤ s.now)

/-- The records of a segment that a slice has passed over, in order. -/
def Seg.waitingAt (g : Seg) (slice : Nat) : List Nat := (g.waiting.filter (·.1 == slice)).map (·.2)

/-- Every record of a segment is complete at a slice: none is passed over, no fold of it is outstanding and none is held. -/
def State.segClean (s : State) (g : Seg) (slice : Nat) : Bool :=
  decide (g.nextAt slice = g.rel) && (g.waitingAt slice).isEmpty &&
  !(s.folds.any fun f => f.slice == slice && f.ring == g.ring && f.stamp == g.stamp) &&
  !(s.holds.any fun h => h.held.any fun e => e.1 == g.stamp && homeSlice e.2.2.line.toNat == slice)

/-- The next record of a segment homed at a slice, or the release record. -/
def Ring.nextHomed (r : Ring) (slice n rel : Nat) : Nat → Nat
  | 0 => rel
  | k + 1 =>
    if n ≥ rel then rel
    else match r.recs.get none (n % r.n) with
      | some rc => if homeSlice rc.line.toNat = slice then n else Ring.nextHomed r slice (n + 1) rel k
      | none => Ring.nextHomed r slice (n + 1) rel k

/-! Applying a record. -/

/-- A line that an outstanding fold holds at a slice. -/
def State.lineHeld (s : State) (l : Nat) : Bool := s.folds.any fun f => f.line == l

/-- A local line named by a local address, by a peer-window address that carries this package's number, or by one of a member that
this package stands for: rebuilt in a region here, or, this package being a spare, under the number of the package before it (R116). -/
def State.localLine (s : State) (l : Nat) : Option Nat :=
  let pa := 64 * l
  if rangeOf pa == .hbm then some l
  else if rangeOf pa == .peer && peerOf pa == s.pkgNo then some ((pa - Config.peerBase) % 2 ^ 41 / 64)
  else if s.homeLine l ≠ l then some (s.homeLine l)
  else (s.redirects.find? fun e => rangeOf pa == .peer && e.target == s.pkgNo && e.pkg == s.pkgNo && s.inRegion e pa).map fun e =>
    (e.base * 65536 + ((pa - Config.peerBase) % 2 ^ 41 - Config.windowBase e.pgid e.member * 65536)) / 64

/-- The line that a record of another package is for: one here, or, of a lost member, that member's. -/
def State.lineNamed (s : State) (l : Nat) : Nat := (s.localLine l).getD l

/-- A line that a fold holds, or for which a record of another package that arrived before waits (R103). -/
def State.lineWanted (s : State) (l : Nat) : Bool := s.lineHeld l || s.peerRecs.any fun p => s.lineNamed p.rcd.line.toNat == l

/-- A page under fold hold that covers a line by its old name. -/
def State.foldHold (s : State) (l : Nat) : Option Hold := s.holds.find? fun h => h.fold && h.inOld l

/-- A slice has still to apply the record of number `n` of a segment. -/
def Seg.owes (g : Seg) (slice n : Nat) : Bool := decide (g.nextAt slice ≤ n) || g.waiting.contains (slice, n)

/-- Record `n` of a segment, naming line `k` for line `l` of a page that has moved or is moving, waits for the earlier records for
that line under another name: those of older segments and of its own, and those that the hold still keeps (R129). -/
def State.behind (s : State) (g : Seg) (n k l : Nat) : Bool :=
  (s.holds.any fun h => h.inNew l && h.held.any fun e =>
    (decide (e.1 < g.stamp) || (e.1 == g.stamp && decide (e.2.1 < n))) && s.named e.2.2.line.toNat == l) ||
  ((s.forwards.any fun f => decide (f.newPa ≤ 64 * l ∧ 64 * l < f.newPa + f.size)) || s.holds.any fun h => h.renamed && h.inNew l) &&
    s.segs.any fun q => (decide (q.stamp < g.stamp) || q.stamp == g.stamp) &&
      match s.ring? q.ring with
      | none => false
      | some r => (List.range (if q.stamp = g.stamp then n - q.first else q.rel - q.first)).any fun i =>
        match r.recs.get none ((q.first + i) % r.n) with
        | some rc => !rc.rel && rc.line.toNat != k && s.named rc.line.toNat == l && q.owes (homeSlice rc.line.toNat) (q.first + i)
        | none => false

/-- A record of a context's team, for a report about its log. -/
def State.foldReport (s : State) (reason : Nat) (r : Ring) (g : Seg) (l : Nat) : State :=
  s.report { errRec reason 4 2 r.slot with
    addr := 64 * l, lo := g.stamp, asid := r.asid.toNat, team := r.team, rank := r.rank, flags := 0x20 }

/-- XOR a delta into each parity line that this package holds live in the stripe, scaled where the line is Q. The line
carries the parity flag and no owner. -/
def State.applyDelta (s : State) (w : ProtWindow) (g : Group) (home offset : Nat) (d : LineData) : State :=
  let st := offset / 65536
  (g.holders st).foldl (fun u h =>
    match u.heldUnit w g h offset with
    | none => u
    | some l =>
      let (old, _, u1) := u.homeRead l 0
      let d1 := if h = st % g.n then d else gfLine home d
      let u2 := u1.homeWrite l (BitVec.allOnes 64) (old ^^^ d1) 0 false
      u2.modLine l fun m => { m with parity := true, owner := 0 }) s

/-- A protected fold writes the home line itself: it is not one of a lost member whose line is only reconstructed (R114). -/
def State.foldsHome (s : State) (w : ProtWindow) (g : Group) (m off : Nat) : Bool := (s.heldUnit w g m off).isSome

/-- The folds of a slice that wait for parity holders; at 16 its engine stalls (R108). -/
def State.protBusy (s : State) (slice : Nat) : Bool :=
  decide (16 ≤ (s.folds.filter fun f => !f.peer && f.slice == slice).length)

/-- A protected fold whose holders have all answered is complete (R108): the home line is written and released; of a line of a lost
member the copy held here is superseded. -/
def State.finishFold (s : State) (f : PFold) : State :=
  let s1 := { s with folds := s.folds.filter (·.tag != f.tag) }
  let s2 := if f.home then s1.homeWrite f.line f.rcd.mask f.rcd.data f.asid true else s1.evictL2 f.line
  match f.src with
  | some (p, tag) => s2.send (.recordAck p tag false)
  | none => s2

/-- Finish every protected fold that waits for nothing. -/
def State.finishFolds (s : State) : State :=
  s.folds.foldl (fun u f => if !f.peer && f.holders.isEmpty && !f.waits then u.finishFold f else u) s

/-- A protected fold goes on with the old value of its line, at byte `off` of member `m`'s window (R108): its deltas go out to the
live holders; with none left it is complete at once. A line of a lost member is folded by its reconstructor, without a home write,
which applies the delta to a parity line of its own and scales that of another Q holder to its own coefficient (R114; assumption 31). -/
def State.foldGo (s : State) (f : PFold) (w : ProtWindow) (g : Group) (m off : Nat) (old : LineData) : State :=
  let d := old ^^^ mergeLine old f.rcd.data f.rcd.mask
  let rot := off / 65536 % g.n
  let s1 := s.applyDelta w g m off d
  let far := (g.holders (off / 65536)).filter fun h => (s.heldUnit w g h off).isNone
  if far.isEmpty then s1.finishFold f else
  let key := (g.pgid * 128 + f.slice) * 32 + rot
  let fseq := Sparse.get 0 s1.foldSeq key
  let dOf := fun (h : Nat) => if h = rot ∨ m = g.index then d else gfLine ((m + 255 - g.index) % 255) d
  far.foldl (fun u h => u.send (.delta (s.redirect (g.member h)) g.pgid s.pkgNo f.slice rot fseq off (dOf h) false))
    { s1 with
      folds := modWhere (fun h : PFold => h.tag == f.tag) (fun h => { h with holders := far, fseq := fseq, waits := false }) s1.folds
      foldSeq := Sparse.set 0 s1.foldSeq key (fseq + 1) }

/-- Begin the protected fold of a line, at byte `off` of member `m`'s window (R108): the line is held, and its old value is read, or
reconstructed first (R114, R118). -/
def State.protFold (s : State) (slice ring seq stamp l : Nat) (asid : BitVec 16) (rc : Record) (w : ProtWindow)
    (g : Group) (m off : Nat) (src : Option (Nat × Nat)) : State :=
  let f : PFold :=
    { tag := s.foldTag, slice := slice, ring := ring, seq := seq, stamp := stamp, line := l, peer := false,
      src := src, rcd := rc, pgid := g.pgid, holders := [], rot := off / 65536 % g.n, fseq := 0,
      home := s.foldsHome w g m off, asid := asid, sec := false, dest := s.pkgNo, waits := true }
  let s1 := { s with folds := s.folds ++ [f], foldTag := s.foldTag + 1 }
  if s.needsMend l then
    ((if (s.lostAt (64 * l)).isSome then s1 else (s1.failLevel (s1.homeLine l)).2).startMend l (.fold f.tag) g.pgid m off)
  else
    let (old, _, s2) := s1.homeRead l asid
    s2.foldGo f w g m off old

/-- Fold a record of a lost member's protected line here, as its reconstructor (R114). None: it waits for the line, for its parity
line or the folds outstanding. -/
def State.lostFold (s : State) (slice ring seq stamp l : Nat) (asid : BitVec 16) (rc : Record) (g : Group) (m : Nat)
    (src : Option (Nat × Nat)) : Option State :=
  match s.groupWindow g.pgid with
  | none => none
  | some w =>
    let off := s.lostOffset g m (64 * l)
    if s.lineHeld l || s.parityLocked w g off || s.protBusy slice then none
    else some (s.protFold slice ring seq stamp l asid rc w g m off src)

/-- A protected stripe that is being rebuilt cannot fold now, nor a record that is newer than the command to leave the group
(R105, R116). -/
def Group.foldsHeld (g : Group) (st stamp : Nat) : Bool :=
  (match g.leaving with | some (_, bound) => decide (bound < stamp) | none => false) || (match g.rebuild with | some (_, _, _, p) => p == st | none => false)

/-- Why a record is not applied now: its own line waits and the engine goes on, or the engine stalls. -/
inductive Later where
  | passes | stalls
  deriving DecidableEq, Repr

/-- A record as another package knows its line: this package's own lines by their peer-window addresses (R15). -/
def State.outRecord (s : State) (rc : Record) : Record :=
  if rangeOf (64 * rc.line.toNat) = .hbm then
    { rc with line := BitVec.ofNat 46 ((Config.peerBase + s.pkgNo * 2 ^ 41) / 64 + rc.line.toNat) }
  else rc

/-- A record for a line of another package is sent to a package, which then owes an answer (R71). -/
def State.sendRecord (s : State) (slice n dest : Nat) (g : Seg) (r : Ring) (l : Nat) (rc : Record) : State :=
  let f : PFold :=
    { tag := s.foldTag, slice := slice, ring := g.ring, seq := n, stamp := g.stamp, line := l, peer := true, src := none,
      rcd := { rc with line := BitVec.ofNat 46 l }, pgid := 0, holders := [], rot := 0, fseq := 0, home := false, asid := r.asid, sec := r.sec,
      dest := dest, waits := false }
  { s with folds := s.folds ++ [f], foldTag := s.foldTag + 1 }.send (.record dest f.tag (s.outRecord f.rcd) r.sec r.asid)

/-- Every route to a package is down (R71, R111, R366). -/
def State.unreachable (s : State) (pkg : Nat) : Bool :=
  (List.finRange 16).all fun p => !(s.ports[p]).up || !Config.reaches p pkg

/-- A record for a line that another package owns, or of a lost member (R71, R109, R114, R115). -/
def State.applyFar (s : State) (slice : Nat) (g : Seg) (r : Ring) (n l : Nat) (rc : Record) : Except Later State :=
  let pkg := if rangeOf (64 * l) = .peer then peerOf (64 * l) else s.pkgNo
  if s.unprotectedGone pkg && rc.kind != 1 then .ok s
  else if decide (16 ≤ (s.folds.filter fun f => f.peer && f.slice == slice).length) then .error .stalls
  else match s.lostAt (64 * l) with
  | none =>
    if rc.kind != 1 && s.unreachable (s.redirect pkg) then .ok (s.foldReport 0x0021 r g l)
    else .ok (s.sendRecord slice n (s.redirect pkg) g r l rc)
  | some (q, m, st) =>
    if q.stripeLost st 0 then
      .ok (s.report { errRec 0x0034 4 2 r.slot with
        addr := 64 * l, lo := (q.lostRun st).1, hi := (q.lostRun st).2, asid := r.asid.toNat, team := r.team, rank := r.rank, flags := 0x20 })
    else if q.foldsHeld st 0 then .error .passes
    else if q.reconstructs st then
      (match s.lostFold slice g.ring n g.stamp l r.asid rc q m none with
      | some u => .ok u
      | none => .error (if s.protBusy slice then .stalls else .passes))
    else .ok (s.sendRecord slice n (s.redirect (q.member ((q.holders st).headD 0))) g r l rc)

/-- A line of a window that this package has given up by isolation: its protected records are discarded (R111). -/
def State.isolatedAt (s : State) (l : Nat) : Bool := s.isolated.any fun e => decide (e.1 ≤ l / 1024 ∧ l / 1024 ≤ e.2)

/-- A protected record for a line whose parity this package runs: its own window's, or that of a member that it has rebuilt
(R108, R116). A window that has been left has none, and its lines are folded as they are (assumption 144). -/
def State.applyProt (s : State) (slice : Nat) (g : Seg) (r : Ring) (n l : Nat) (rc : Record) : Except Later State :=
  match s.dataUnit l with
  | some (w, q, m, off) =>
    if q.foldsHeld (off / 65536) g.stamp || s.parityLocked w q off then .error .passes
    else if s.protBusy slice then .error .stalls
    else .ok (s.protFold slice g.ring n g.stamp l r.asid rc w q m off none)
  | none =>
    .ok (if s.isolatedAt l || (s.unitOf l).isSome || (s.windowAt (64 * l)).isSome then s else s.homeWrite l rc.mask rc.data r.asid true)

/-- Apply record `n` of a segment to the line that it is for now (R71). -/
def State.applyLine (s : State) (slice : Nat) (g : Seg) (r : Ring) (n l : Nat) (rc : Record) : Except Later State :=
  if s.lineWanted l then .error .passes
  else if s.behind g n rc.line.toNat l then .error .stalls
  else if rangeOf (64 * l) == .peer || (s.lostAt (64 * l)).isSome then s.applyFar slice g r n l rc
  else if s.pageRetired (64 * l) then .ok (s.foldReport 0x0013 r g l)
  else if rangeOf (64 * l) == .pool then
    match s.physFault (64 * l) true .pool with
    | some _ => .ok (s.foldReport 0x0025 r g l)
    | none => .ok (s.homeWrite l rc.mask rc.data r.asid true)
  else if rc.kind = 1 then s.applyProt slice g r n l rc
  else .ok (s.homeWrite l rc.mask rc.data r.asid true)

/-- Apply record `n` of a segment at its slice (R71): a damaged one ends its team (R66), one for a page under fold hold is held. -/
def State.applyRecord (s : State) (slice : Nat) (g : Seg) (r : Ring) (n : Nat) (rc : Record) : Except Later State :=
  let l0 := s.placed rc.line.toNat
  let l := s.homeLine (s.named rc.line.toNat)
  if !recOk rc then
    let s1 := s.report { errRec 0x0020 4 2 r.slot with
      addr := 64 * l, lo := g.stamp, asid := r.asid.toNat, team := r.team, rank := r.rank, detail := n % 2 ^ 32,
      flags := 0x20 }
    .ok (s1.terminateTeam r.team none)
  else match s.foldHold l0 with
  | some h =>
    if (h.held.filter fun e => homeSlice e.2.2.line.toNat == slice).length ≥ 1024 then .error .stalls
    else .ok { s with holds := modWhere (· == h) (fun k => { k with held := k.held ++ [(g.stamp, n, rc)] }) s.holds }
  | none => s.applyLine slice g r n l rc

/-- What a slice does next: report a segment, try a record that it passed over, or go on to the next record. -/
inductive FoldAct where
  | report | retry (n : Nat) | take
  deriving DecidableEq, Repr

/-- A record that was passed over is tried again: none if it still waits. -/
def State.foldRetry (s : State) (slice : Nat) (g : Seg) (n : Nat) : Option State :=
  let done := fun (u : State) => u.modSeg g.ring g.rel fun q => { q with waiting := q.waiting.erase (slice, n) }
  match s.ring? g.ring with
  | none => some (done s)
  | some r =>
    match r.recs.get none (n % r.n) with
    | none => some (done s)
    | some rc => match s.applyRecord slice g (r.at_ n) n rc with
      | .ok u => some (done u)
      | .error _ => none

/-- A record passed over for the same line stands before record `n` of its segment. -/
def State.passedOver (s : State) (slice : Nat) (g : Seg) (r : Ring) (n : Nat) (rc : Record) : Bool :=
  (g.waitingAt slice).any fun k => decide (k < n) &&
    match r.recs.get none (k % r.n) with
    | some q => s.named q.line.toNat == s.named rc.line.toNat
    | none => false

/-- The first record passed over that can be applied now, none before it naming its line. -/
def State.retryFirst (s : State) (slice : Nat) (g : Seg) : Option Nat :=
  match s.ring? g.ring with
  | none => (g.waitingAt slice).head?
  | some r => (g.waitingAt slice).find? fun n =>
    (match r.recs.get none (n % r.n) with | some rc => !s.passedOver slice g r n rc | none => true) &&
      (s.foldRetry slice g n).isSome

/-- What a slice can do next (R71): it begins a segment only after it has applied every record of every lower one. -/
def State.foldNext (s : State) (slice : Nat) : Option (Seg × FoldAct) :=
  let gs := s.openSegs slice
  match lowest gs with
  | none => none
  | some g =>
    if s.segClean g slice then some (g, .report)
    else match lowest (gs.filter fun q => decide (q.nextAt slice < q.rel) || !(q.waitingAt slice).isEmpty) with
      | none => none
      | some q => match s.retryFirst slice q with
        | some n => some (q, .retry n)
        | none => if q.nextAt slice < q.rel then some (q, .take) else none

/-- The next record that a slice looks at, and the state after it; none: the engine stalls. -/
def State.foldStep (s : State) (slice : Nat) (g : Seg) : Option State :=
  match s.ring? g.ring with
  | none => some (s.modSeg g.ring g.rel fun q => { q with next := Sparse.set q.first q.next slice q.rel })
  | some r =>
    let n := r.nextHomed slice (g.nextAt slice) g.rel (g.rel - g.first)
    let step := fun (u : State) (k : Nat) =>
      u.modSeg g.ring g.rel fun q => { q with next := Sparse.set q.first q.next slice k }
    let pass := some ((step s (n + 1)).modSeg g.ring g.rel fun q => { q with waiting := q.waiting ++ [(slice, n)] })
    if n ≥ g.rel then some (step s g.rel)
    else match r.recs.get none (n % r.n) with
      | none => some (step s (n + 1))
      | some rc =>
        if s.passedOver slice g r n rc then pass
        else match s.applyRecord slice g (r.at_ n) n rc with
          | .ok u => some (step u (n + 1))
          | .error .passes => pass
          | .error .stalls => none

/-- The fold engine of a slice can act. -/
def State.foldReady (s : State) (slice : Nat) : Bool :=
  match s.foldNext slice with
  | some (g, .take) => (s.foldStep slice g).isSome
  | some _ => true
  | none => false

/-- FOLD_SEGMENT (R71): the engine applies its next record in stamp order, or one whose line was held, or reports a segment whose
records are all complete there. -/
def execFoldSegment (slice : SliceId) (s : State) : Out :=
  match s.foldNext slice.val with
  | none => .next s
  | some (g, .report) => .next (s.modSeg g.ring g.rel fun q => { q with reported := setBit q.reported slice.val })
  | some (g, .retry n) => .next ((s.foldRetry slice.val g n).getD s)
  | some (g, .take) => .next ((s.foldStep slice.val g).getD s)

/-! Records from other packages (R71, R109). -/

/-- A package is a lost member of a group, and is not being rebuilt: what it sends for the group is discarded (R111). -/
def State.lostSender (s : State) (g : Group) (pkg : Nat) : Bool :=
  g.lost.any fun m => (g.member m == pkg || s.redirect (g.member m) == pkg) &&
    !(match g.rebuild with | some (x, t, _, _) => x == m && t == pkg | none => false)

/-- The group, the stripe and the member of a line of another package's record, where this package runs its parity. -/
def State.recordUnit (s : State) (line : Nat) : Option (Group × Nat × Nat) :=
  match s.localLine line with
  | some l => (s.unitOf l).map fun e => (e.2.1, e.2.2.2 / 65536, e.2.2.1)
  | none => (s.lostAt (64 * line)).map fun e => (e.1, e.2.2, e.2.1)

/-- A record of another package at its home here (R71, R106, R109, R111, R114, R195): applied and answered, answered out of range,
or discarded without an answer. One for a page that moves waits under its hold, and then goes to the page's new place (R129). None: it
waits for its line or for a fold. -/
def State.takeRecord (s : State) (p0 : PeerRecord) : Option State :=
  let p : PeerRecord := match s.localLine p0.rcd.line.toNat with
    | some l => { p0 with rcd := { p0.rcd with line := BitVec.ofNat 46 (s.named l) } }
    | none => p0
  if (match s.localLine p.rcd.line.toNat with | some l => (s.foldHold l).isSome | none => false) then none else
  let bad := fun (l reason : Nat) =>
    (s.report { s.abortRec reason 4 (homeSlice l) (64 * l) with asid := p.asid.toNat }).send (.recordAck p.src p.tag true)
  let held := fun (g : Group) (st : Nat) => g.foldsHeld st (match g.leaving with
    | some (_, bound) => if p.late then bound + 1 else 0
    | none => 0)
  match s.localLine p.rcd.line.toNat with
  | none =>
    let l := p.rcd.line.toNat
    match s.lostAt (64 * l) with
    | none => some (if s.isolatedAt l && p.rcd.kind == 1 then s else s.send (.recordAck p.src p.tag true))
    | some (g, m, st) =>
      if s.lostSender g p.src then some s
      else if p.rcd.kind != 1 || !g.reconstructs st || (g.parity st).contains m then some (s.send (.recordAck p.src p.tag true))
      else if g.stripeLost st 0 then some (bad l 0x0034)
      else if held g st then none
      else s.lostFold (homeSlice l) 0 0 0 l p.asid p.rcd g m (some (p.src, p.tag))
  | some l =>
    let pa := 64 * l
    match s.unitOf l with
    | some (w, g, m, off) =>
      if (g.parity (off / 65536)).contains m then some (bad l 0x0021)
      else if !p.sec && s.secureAt pa then some (bad l 0x0022)
      else if s.sealedAt pa then some (bad l 0x0022)
      else if s.lostSender g p.src || (g.lostIn (off / 65536)).contains m then some s
      else if s.lineHeld l || held g (off / 65536) || s.parityLocked w g off || s.protBusy (homeSlice l) then none
      else some (s.protFold (homeSlice l) 0 0 0 l p.asid { p.rcd with line := BitVec.ofNat 46 l } w g m off (some (p.src, p.tag)))
    | none =>
      if (s.windowAt pa).isSome then some (bad l 0x0021)
      else if p.rcd.kind = 1 && s.isolatedAt l then some s
      else match s.physFault pa p.sec .logged with
      | some (_, reason) => some (bad l reason)
      | none =>
        if s.privateAt pa then some (bad l 0x0021)
        else if s.sealedAt pa then some (bad l 0x0022)
        else if s.lineHeld l then none
        else some ((s.homeWrite l p.rcd.mask p.rcd.data p.asid true).send (.recordAck p.src p.tag false))

/-- The records of other packages that wait are taken in order of arrival, those for one line never out of it (R103). -/
def State.takeRecords (s : State) : State :=
  (s.peerRecs.foldl (fun (acc : List PeerRecord × State) p =>
    if acc.1.any fun q => s.lineNamed q.rcd.line.toNat == s.lineNamed p.rcd.line.toNat then (acc.1 ++ [p], acc.2)
    else match acc.2.takeRecord p with
      | some u => (acc.1, u)
      | none => (acc.1 ++ [p], acc.2)) ([], { s with peerRecs := [] })) |> fun r => { r.2 with peerRecs := r.1 }

/-- PEER_RECORD_RECEIVE (R71, R103, R106, R109): a record of another package, in the world and for the ASID of its log (R31, R49),
is applied at its home here, in order of arrival for each line, or answered out of range. -/
def execPeerRecordReceive (src : Sender) (tag : Nat) (rec : Record) (s : State) : Out :=
  let late : Bool := match s.recordUnit rec.line.toNat with | some (g, _, _) => g.leaving.isSome | none => false
  .next (State.takeRecords { s with peerRecs := s.peerRecs ++ [⟨src.pkg, tag, rec, src.sec, src.asid, late⟩] })

/-- PEER_RECORD_ACK (R71): the owner's answer lets the engine count the record; the owner's line is superseded, so a
copy held here goes. Out of range: an error record. An answer that counts none has no effect. -/
def execPeerRecordAck (tag : Nat) (outOfRange : Bool) (s : State) : Out :=
  match s.folds.find? fun f => f.peer && f.tag == tag with
  | none => .next s
  | some f =>
    let s1 := { s with folds := s.folds.filter fun g => !(g.peer && g.tag == tag) }
    if outOfRange then
      let slot := match s.ring? f.ring with | some r => r.slot | none => 0
      .next (s1.report { errRec 0x0021 4 2 slot with addr := 64 * f.line, lo := f.stamp, asid := f.asid.toNat, flags := 0x20 })
    else
      let s2 := { s1 with
        mem := Memory.storeMask s1.mem (64 * f.line) f.rcd.mask.toNat (lineBytes f.rcd.data) 0 }
      .next (s2.modLine f.line fun m => { m with l2 := .invalid, l2way := 0, errL2 := 0 })

/-- Records for unprotected lines of a package that no route reaches any more are dropped and counted, each with its error record
(R71). -/
def State.dropUnreached (s : State) : State :=
  s.folds.foldl (fun (u : State) f =>
    if f.peer && f.rcd.kind != 1 && rangeOf (64 * f.line) == .peer && u.unreachable (u.redirect (peerOf (64 * f.line))) then
      let slot := match u.ring? f.ring with | some r => r.slot | none => 0
      ({ u with folds := u.folds.filter fun g => !(g.peer && g.tag == f.tag) }).report
        { errRec 0x0021 4 2 slot with addr := 64 * f.line, lo := f.stamp, asid := f.asid.toNat, flags := 0x20 }
    else u) s

/-! The parity holder (R108). -/

/-- The series of a home package, slice and rotation. A new one expects number 0, since a registration starts the counts of every
member afresh; in a group that has lost a member it begins with the first number that arrives, the sender's count going on, and
applies those below it, too, as they come (assumption 145). -/
def State.series? (s : State) (pgid src slice rot seq : Nat) : Series :=
  match s.series.find? fun x => x.pgid == pgid && x.src == src && x.slice == slice && x.rot == rot with
  | some x => x
  | none =>
    let first := match s.group? pgid with | some g => if g.epoch = 0 then 0 else seq | none => 0
    { pgid := pgid, src := src, slice := slice, rot := rot, next := first, held := [], recent := [], first := first, early := [] }

def State.putSeries (s : State) (x : Series) : State :=
  { s with series := (s.series.filter fun y =>
      !(y.pgid == x.pgid && y.src == x.src && y.slice == x.slice && y.rot == x.rot)) ++ [x] }

/-- A number of a series that has been applied. -/
def Series.applied (x : Series) (seq : Nat) : Bool := (decide (x.first ≤ seq) || x.early.contains seq) && decide (seq < x.next)

/-- The last 64 entries of a list. -/
def last64 {α : Type} (l : List α) : List α := l.drop (l.length - 64)

/-- Apply what a series holds from its next number on, acknowledging each (R108); `n` bounds the number. -/
def State.runSeries (s : State) (w : ProtWindow) (g : Group) (home : Nat) (x : Series) : Nat → State
  | 0 => s.putSeries x
  | n + 1 =>
    match x.held.find? (·.1 == x.next) with
    | none => s.putSeries x
    | some (seq, off, d) =>
      let s1 := (s.applyDelta w g home off d).send (.deltaAck (s.redirect (g.member home)) g.pgid x.slice x.rot seq)
      State.runSeries s1 w g home
        { x with
          next := seq + 1, held := x.held.filter (·.1 != seq), recent := last64 (x.recent ++ [(seq, off, d)]) } n

/-- A delta of a lost member's series that the other holder has sent (R112): it is applied unless it has been, in any order, while
the exchange lasts. What comes from the lost member itself is discarded (R111; assumption 32). -/
def State.reconcile (s : State) (w : ProtWindow) (g : Group) (home slice rot seq off : Nat) (d : LineData) (exchange : Bool) : State :=
  let x := s.series? g.pgid (g.member home) slice rot 0
  if !exchange || g.q = 0 || !(g.awaits.any fun e => e.1 == home && (g.parity rot).contains e.2) || x.applied seq ||
      x.recent.any (·.1 == seq) then s
  else (s.applyDelta w g home off d).putSeries { x with recent := x.recent ++ [(seq, off, d)] }

/-- The member that a package is, or stands for after a rebuild (R116). -/
def State.memberOf (s : State) (g : Group) (pkg : Nat) : Option Nat :=
  match g.members.idxOf? pkg with
  | some m => some m
  | none => (List.range g.n).find? fun m => s.redirect (g.member m) == pkg

/-- PARITY_DELTA_RECEIVE (R108, R113): a delta of a home package is applied in series order; one ahead of a gap is
kept, one already applied is acknowledged again, one for a locked line waits. -/
def execParityDeltaReceive (pgid src : Nat) (slice rot : Nat) (seq : Nat) (offset : Nat) (delta : Delta)
    (s : State) : Out :=
  match s.group? pgid, s.pw.toList.find? fun w => w.ena && w.pgid.toNat == pgid with
  | some g, some w =>
    match s.memberOf g src with
    | none => .next s
    | some home =>
      if delta.exchange || s.lostSender g src then .next (s.reconcile w g home slice rot seq offset delta.data delta.exchange)
      else if s.parityLocked w g offset then
        .next (s.atAc (s.now + 1) (.parityDeltaReceive pgid src slice rot seq offset delta))
      else
        let x := s.series? pgid src slice rot seq
        if x.applied seq then .next (s.send (.deltaAck src pgid slice rot seq))
        else if seq < x.next then
          .next (((s.applyDelta w g home offset delta.data).putSeries
            { x with early := seq :: x.early, recent := last64 (x.recent ++ [(seq, offset, delta.data)]) }).send (.deltaAck src pgid slice rot seq))
        else
          let held := if x.held.any (·.1 == seq) then x.held else x.held ++ [(seq, offset, delta.data)]
          .next (s.runSeries w g home { x with held := held } held.length)
  | _, _ => .next s

/-- Records sent to a package that was lost before it answered, whose reconstructor is this package, are folded here as soon
as they can be (R114). -/
def State.retryLost (s : State) : State :=
  s.folds.foldl (fun (u : State) (f : PFold) =>
    if !f.peer || f.rcd.kind != 1 || f.dest != u.pkgNo then u else
    match u.lostAt (64 * f.line) with
    | none => u
    | some (g, m, st) =>
      if !g.reconstructs st || g.foldsHeld st 0 || g.stripeLost st 0 then u else
      let u1 := { u with folds := u.folds.filter fun h => !(h.peer && h.tag == f.tag) }
      (u1.lostFold f.slice f.ring f.seq f.stamp f.line f.asid f.rcd g m f.src).getD u) s

/-- PARITY_ACK_RECEIVE (R108): a holder's acknowledgement; the last one completes the fold. -/
def execParityAckReceive (holder : Holder) (slice rot : Nat) (seq : Nat) (s : State) : Out :=
  let s1 := { s with folds := s.folds.map fun f : PFold =>
    if !f.peer && f.pgid == holder.pgid && f.slice == slice && f.rot == rot && f.fseq == seq then
      (match s.group? f.pgid with
      | some g => { f with holders := f.holders.filter fun m => s.redirect (g.member m) != holder.pkg }
      | none => f)
    else f }
  .next s1.finishFolds

end Sys2Proof.Machine
end

