-- ==== Sys2Proof/Machine/Mend.lean ====
section
/-! DEFINITION. The reconstruction of a line (R113): its locks, the lines that it reads at their homes, and what becomes of the value
(R114, R116, R118, R120). -/

namespace Sys2Proof.Machine

def State.modMend (s : State) (id : Nat) (f : Mend → Mend) : State := { s with mends := modWhere (·.id == id) f s.mends }

def Mend.stripe (m : Mend) : Nat := m.off / 65536

/-- The data units that are lost to it (R113): the line's own, those of lost members, and those whose homes cannot read them. -/
def Mend.missing (m : Mend) (g : Group) : List Nat :=
  (List.range g.n).filter fun k => !(g.parity m.stripe).contains k &&
    (k == m.member || (g.lostIn m.stripe).contains k || m.bad.contains k)

/-- The data lines that it reads. -/
def Mend.sources (m : Mend) (g : Group) : List Nat :=
  (List.range g.n).filter fun k => !(g.parity m.stripe).contains k && !(m.missing g).contains k

/-- The parity lines that it reads (R113): as many as data units are lost, that of P first. -/
def Mend.parities (m : Mend) (g : Group) : List Nat :=
  ((g.holders m.stripe).filter fun h => h != m.member && !m.bad.contains h).take (m.missing g).length

/-- The lost units outnumber the live parity lines. -/
def Mend.hopeless (m : Mend) (g : Group) : Bool := decide ((m.parities g).length < (m.missing g).length)

/-- A parity line is locked for it, or unlocked again: here, or at another holder (R113). -/
def State.lockUnit (s : State) (w : ProtWindow) (g : Group) (m : Mend) (on : Bool) (h : Nat) : State :=
  match s.heldUnit w g h m.off with
  | some l => { s with locked := if on then s.locked ++ [(l, s.pkgNo)] else s.locked.erase (l, s.pkgNo) }
  | none => s.send (.lock (s.redirect (g.member h)) g.pgid h m.off on)

/-- It begins afresh: its locks are released, and what it has asked for is no longer waited for. -/
def State.againMend (s : State) (w : ProtWindow) (g : Group) (m : Mend) : State :=
  let s1 := m.locked.foldl (fun (u : State) h => u.lockUnit w g m false h) s
  { s1 with asks := s1.asks.filter fun k => match k.who with | .mend id _ => id != m.id | _ => true }.modMend m.id fun x =>
    { x with step := 0, locked := [], owed := [], got := [] }

/-- A member's line has come, or cannot be read. -/
def Mend.take (m : Mend) (k : Nat) (bad : Bool) (d : LineData) : Mend :=
  if !m.owed.contains k then m
  else if bad then { m with owed := m.owed.erase k, bad := k :: m.bad }
  else { m with owed := m.owed.erase k, got := m.got ++ [(k, d)] }

/-- The owner of a data line has answered. -/
def State.mendAnswer (s : State) (id k : Nat) (bad : Bool) (d : LineData) : State := s.modMend id (·.take k bad d)

/-- A holder has locked its parity line. -/
def State.takeLocked (s : State) (pkg pgid member off : Nat) : State :=
  { s with mends := s.mends.map fun m : Mend =>
      if m.pgid == pgid && m.off == off && m.step == 1 &&
          (match s.group? pgid with | some g => s.redirect (g.member member) == pkg && !s.lostSender g pkg | none => false) then
        { m with owed := m.owed.erase member }
      else m }

/-- A holder has read its parity line. -/
def State.takeParityLine (s : State) (pkg pgid member off : Nat) (bad : Bool) (d : LineData) : State :=
  { s with mends := s.mends.map fun m : Mend =>
      if m.pgid == pgid && m.off == off && m.step == 3 &&
          (match s.group? pgid with | some g => s.redirect (g.member member) == pkg && !s.lostSender g pkg | none => false) then
        m.take member bad d
      else m }

/-- A line of a channel under retirement stands in its new slot, with a value or poisoned (R120). -/
def State.moved (s : State) (l : Nat) (v : Option LineData) : State :=
  let s1 := match v with
    | some d => { s with mem := Memory.storeMask s.mem (64 * l) (2 ^ 64 - 1) (lineBytes d) 0 }.modLine l fun x =>
        { x with poison := false, errHbm := 0 }
    | none => s.modLine l fun x =>
        { x with l2 := .invalid, l2way := 0, tarn := .invalid, tway := 0, poison := true, errHbm := 0 }
  { s1 with retChan := s1.retChan.map fun r =>
      { r with slot := r.slot + 1, poisoned := if v.isNone then r.poisoned ++ [r.slot] else r.poisoned } }

/-- A line of a lost member is written to the region in which it is rebuilt, with a value or poisoned (R116, R118). -/
def State.rebuilt (s : State) (m : Mend) (g : Group) (v : Option LineData) : State :=
  let all := BitVec.allOnes 64
  let s1 := match v with
    | some d =>
      if (g.parity m.stripe).contains m.member then
        (s.homeWrite m.line all d 0 true).modLine m.line fun x => { x with parity := true, owner := 0 }
      else s.homeWrite m.line all d 0 true
    | none => s.modLine m.line fun x => { x with poison := true }
  s1.modGroup m.pgid fun h => { h with lines := h.lines + 1 }

/-- A line that was unreadable here is written back with its value, or poisoned where there is none (R118). -/
def State.corrected (s : State) (l level : Nat) (v : Option LineData) : State :=
  let unit_ := if level = 1 then homeSlice l else if level = 2 then (tarnPlace (s.place l).1 (s.place l).2).1 else (s.place l).1
  let s1 := s.modLine l fun x => { x with
    errL2 := if x.l2 == .dirty then x.errL2 else 0, errTarn := if x.tarn == .dirty then x.errTarn else 0, errHbm := 0 }
  match v with
  | some d => (s1.homeWrite l (BitVec.allOnes 64) d (s1.lineMeta l).owner true).report { errRec 0x0011 level 1 unit_ with addr := 64 * l }
  | none => (s1.modLine l fun x => { x with poison := true }).report { errRec 0x0010 level 2 unit_ with addr := 64 * l }

/-- The old value of a fold is known, or its stripe is lost: its record is dropped, with its error record (R114). -/
def State.foldMended (s : State) (m : Mend) (w : ProtWindow) (g : Group) (tag : Nat) (v : Option LineData) : State :=
  match s.folds.find? (fun f : PFold => f.tag == tag), v with
  | none, _ => s
  | some f, some d => s.foldGo f w g m.member m.off d
  | some f, none =>
    let s1 := { s with folds := s.folds.filter (·.tag != tag) }.report
      { errRec 0x0034 4 2 f.slice with addr := 64 * f.line, lo := m.stripe, hi := m.stripe, asid := f.asid.toNat, flags := 0x20 }
    match f.src with
    | some (p, t) => s1.send (.recordAck p t true)
    | none => s1

/-- It ends with a value, or with none where its stripe does not give one; the locks are released (R113, step 4). -/
def State.endMend (s : State) (w : ProtWindow) (g : Group) (m : Mend) (v : Option LineData) : State :=
  let s1 := m.locked.foldl (fun (u : State) h => u.lockUnit w g m false h) { s with mends := s.mends.filter (·.id != m.id) }
  match m.use with
  | .read => s1.fetched m.line (v.getD 0) v.isNone 0
  | .fold tag => s1.foldMended m w g tag v
  | .own level => s1.corrected m.line level v
  | .unit => s1.rebuilt m g v
  | .moved => s1.moved m.line v

/-- An exchange of R112 that concerns the stripe has still to end. -/
def Group.exchanging (g : Group) (st : Nat) : Bool :=
  g.awaits.any fun e => (g.lostIn st).contains e.1 && (g.parity st).contains e.2

/-- The data lines that stand here are read, each once no fold holds it (R113, step 2); one that is poisoned or unreadable is a
lost unit. -/
def State.mendReads (s : State) (w : ProtWindow) (g : Group) (m : Mend) : State :=
  m.owed.foldl (fun (u : State) k =>
    match u.heldUnit w g k m.off with
    | none => u
    | some l =>
      if u.lineHeld l then u
      else if u.needsMend l then u.mendAnswer m.id k true 0
      else
        let (d, p, u1) := u.homeRead l 0
        u1.mendAnswer m.id k p d) s

/-- A reconstruction takes its next step (R113). -/
def State.runMend (s : State) (w : ProtWindow) (g : Group) (m : Mend) : State :=
  match m.step with
  | 0 =>
    if g.exchanging m.stripe then s
    else if m.hopeless g then s.endMend w g m none
    else
      let ps := m.parities g
      (ps.foldl (fun (u : State) h => u.lockUnit w g m true h) s).modMend m.id fun x =>
        { x with step := 1, locked := ps, owed := ps.filter fun h => (s.heldUnit w g h m.off).isNone }
  | 1 =>
    if !m.owed.isEmpty then s else
    let ks := m.sources g
    ((ks.filter fun k => (s.heldUnit w g k m.off).isNone).foldl (fun (u : State) k =>
      u.request (.mend m.id k) (64 * State.unitLine w g k m.off) .read true 0) s).modMend m.id fun x => { x with step := 2, owed := ks }
  | 2 =>
    if !m.owed.isEmpty then s.mendReads w g m
    else if m.parities g != m.locked then s.againMend w g m
    else
      let here := m.locked.filter fun h => (s.heldUnit w g h m.off).isSome
      let far := m.locked.filter fun h => (s.heldUnit w g h m.off).isNone
      let s1 := far.foldl (fun (u : State) h => u.send (.parityRead (u.redirect (g.member h)) g.pgid h m.off)) s
      (s1.modMend m.id fun x => { x with step := 3, owed := m.locked }) |> fun u => here.foldl (fun (v : State) h =>
        match v.heldUnit w g h m.off with
        | none => v
        | some l =>
          let (d, p, v1) := v.homeRead l 0
          v1.mendAnswer m.id h p d) u
  | _ =>
    if !m.owed.isEmpty then s
    else if m.locked.any m.bad.contains then s.againMend w g m
    else if (match m.use with | .fold _ => true | _ => false) && m.locked.any (fun h => match s.heldUnit w g h m.off with
        | some l => s.locked.any fun e => e.1 == l && e.2 != s.pkgNo
        | none => false) then s
    else s.endMend w g m (unitValue g m.stripe m.got m.member)

/-- Each reconstruction under way, of those for one offset of a group the first, takes its next step. One that has nothing left to
reconstruct ends: the line of a read is no longer lost, or the group is not known any more. -/
def State.mendTick (s : State) : State :=
  s.mends.foldl (fun (u : State) m0 =>
    match u.mends.find? fun m => m.pgid == m0.pgid && m.off == m0.off with
    | none => u
    | some m =>
      if m.id != m0.id then u else
      match u.group? m.pgid, u.groupWindow m.pgid with
      | some g, some w =>
        if m.use == .read && (u.lostAt (64 * m.line)).isNone then
          m.locked.foldl (fun (v : State) h => v.lockUnit w g m false h) { u with mends := u.mends.filter (·.id != m.id) }
        else u.runMend w g m
      | _, _ => { u with mends := u.mends.filter (·.id != m.id) }) s

/-! What a holder does for another package's reconstruction. -/

/-- The parity line of a member that stands here. -/
def State.parityHere (s : State) (pgid member off : Nat) : Option Nat :=
  match s.group? pgid, s.groupWindow pgid with
  | some g, some w => if (g.parity (off / 65536)).contains member then s.heldUnit w g member off else none
  | _, _ => none

/-- A parity line is locked for another package's reconstruction, which is told, or unlocked (R113, step 1). -/
def State.takeLock (s : State) (pkg pgid member off : Nat) (on : Bool) : State :=
  match s.group? pgid, s.parityHere pgid member off with
  | some g, some l =>
    if s.lostSender g pkg then s
    else if on then { s with locked := s.locked ++ [(l, pkg)] }.send (.locked pkg pgid member off)
    else { s with locked := s.locked.erase (l, pkg) }
  | _, _ => s

/-- A parity line is read for another package (R113, step 3). -/
def State.takeParityRead (s : State) (pkg pgid member off : Nat) : State :=
  match s.group? pgid, s.parityHere pgid member off with
  | some g, some l =>
    if s.lostSender g pkg then s else
    let (d, p, s1) := s.homeRead l 0
    s1.send (.parityLine pkg pgid member off p d)
  | _, _ => s

/-- A lock of a parity line waits while this package folds a record of a lost member at its offset (R114, R116). -/
def State.lockWaits (s : State) (pgid off : Nat) : Bool :=
  s.folds.any fun f => !f.peer && f.pgid == pgid && !f.home &&
    match s.lostAt (64 * f.line) with
    | some (g, m, _) => s.lostOffset g m (64 * f.line) == off
    | none => false

/-- DEGRADED_READ (R113): the reconstruction of a lost member's line begins at its reconstructor. -/
def execDegradedRead (line : Nat) (s : State) : Out :=
  .next (if s.restores line && s.needsMend line then (s.awaitMend line).getD s else s)

end Sys2Proof.Machine
end

