-- ==== Sys2Proof/Machine/MemOps.lean ====
section
/-! DEFINITION. Loads, stores, array-store scalar accesses and atomics (R278 to R286, R291, R292), MON (R293),
and how the queues perform them (R83 to R87, R96, R97). -/

namespace Sys2Proof.Machine

/-! Issue. -/

/-- An access faults; for a page that is not present the slot waits for the page (R279, R337). -/
def State.faultM (s : State) (code addr : Nat) : State :=
  if code = fNotPresent then (s.modMe fun c => { c with pageWait := some addr }).faultSlot code
  else s.faultSlot code

/-- An address that tasks reach read-only (R70, R326): in the sync area of the team, by its DVA, or in the publication entry of a log
of this package. -/
def State.pubEntryAt (s : State) (team dva pa : Nat) : Bool :=
  (match s.team? team with
    | some t => decide (t.sync ≤ dva ∧ dva < t.sync + 2 ^ 22)
    | none => false) ||
  s.rings.any fun r => match s.pubAddr r with | some p => p / 64 == pa / 64 | none => false

/-- The frame of a DVA access at issue (R83, R278 to R280): room in its queues, translation and checks; a store, an
atomic or MON to a page in a write-protect window waits (R130). -/
def State.memIssue (s : State) (u : Use) (addr : Word) (size : Nat) (room : Bool) (k : Target → State → Out) : Out :=
  if !room then .next s.keep else
  match s.accessM s.act.arr s.act.ctx u addr size with
  | (.error code, s1) => .next (if code = fWalking then s1.keep else s1.faultM code addr.toNat)
  | (.ok t, s1) =>
    if u.writes && s1.pubEntryAt s1.me.team.toNat addr.toNat t.pa then .next (s1.faultSlot fPermission)
    else if (u.writes || u == .watch) && t.wp then .next s1.keep
    else k t s1

/-- The frame of an array-store access at issue (R17, R278, R286). -/
def State.asIssue (s : State) (addr : Word) (size : Nat) (room : Bool) (k : State → Out) : Out :=
  if !room then .next s.keep
  else if 0x1000000 ≤ addr.toNat then .next (s.faultSlot fAsRange)
  else if addr.toNat % size ≠ 0 then .next (s.faultSlot fAlign)
  else if !(s.planOf s.me).holds addr.toNat size then .next (s.faultSlot fAsRange)
  else k s

def Ctx.loadRoom (c : Ctx) : Bool := decide (c.loadQ.length < 32)
def Ctx.storeRoom (c : Ctx) : Bool := decide (c.storeQ.length < 32)

/-- A queue entry at issue. -/
def Ctx.entry (c : Ctx) (op : QOp) (now : Nat) : QEntry :=
  { id := c.mseq, op := op, dva := 0, pa := 0, size := 0, cls := 0, kind := .logged, gd := 0, data := 0, cmp := 0,
    code := 0, mode := .ignore, order := 0, scope := 0, word := 0, phase := 0, issued := now, mark := 0, seg := c.seg,
    seen := none }

def Ctx.entryAt (c : Ctx) (op : QOp) (now : Nat) (t : Target) (addr : Word) (size : Nat) : QEntry :=
  { c.entry op now with dva := addr.toNat, pa := t.pa, size := size, kind := t.kind }

def Ctx.pushLoad (c : Ctx) (e : QEntry) : Ctx :=
  { (c.await e.gd) with loadQ := c.loadQ ++ [e], mseq := c.mseq + 1 }

def Ctx.pushStore (c : Ctx) (e : QEntry) : Ctx :=
  { c with storeQ := c.storeQ ++ [e], mseq := c.mseq + 1 }

/-- Bytes of the signature of a rerun (R340). -/
def Ctx.sign (c : Ctx) (b : List Byte) : Ctx :=
  if c.rerun.isSome then { c with sigBytes := c.sigBytes ++ b } else c

/-- A release qualifier in the signature (R340). -/
def Ctx.signScope (c : Ctx) (order : BitVec 2) (scope : BitVec 3) : Ctx :=
  if order.getLsbD 1 then c.sign [scope.zeroExtend 8] else c

/-- A load of a line that misses in the view cache while the log buffer holds an entry of its class, or either is of class 0,
waits until the log has taken the entry (R65). -/
def State.loadAppend (s : State) (t : Target) (cls : BitVec 2) (k : State → Out) : Out :=
  let a := s.act.arr
  let c := s.act.ctx
  let l := t.pa / 64
  if t.kind.isLogged && !((s.arr a).vc.any (·.ownOf c l)) && s.me.buf.any (fun b => b.line == l && (cls == 0 || cls == b.acls)) then
    match s.appendThrough a c l 17 with
    | some u => k u
    | none => .next s.keep
  else k s

def execLd (gd ga : Reg) (size cls : BitVec 2) (disp : BitVec 12) (s : State) : Out :=
  s.gate [ga] gd
    (let addr := addrM (s.me.rd ga) disp s.ext (sizeM size)
     s.memIssue .load addr (sizeM size) s.me.loadRoom fun t v => v.loadAppend t cls fun u =>
       .next (u.retire fun c => c.pushLoad { c.entryAt .ld u.now t addr (sizeM size) with gd := gd, cls := cls }))

def execLds (gd ga : Reg) (size order : BitVec 2) (scope : BitVec 3) (s : State) : Out :=
  s.gate [ga] gd
    (let addr := s.me.rd ga
     s.memIssue .load addr (sizeA size) s.me.loadRoom fun t v => v.loadAppend t 0 fun u =>
       .next (u.retire fun c =>
         (c.signScope order scope).pushLoad
           { c.entryAt .lds u.now t addr (sizeA size) with gd := gd, order := order, scope := scope }))

/-- A younger store meets a release that is still queued: it enters the log buffer behind it (R90). -/
def Ctx.releaseAhead (c : Ctx) : Bool :=
  c.storeQ.any (fun q => q.op == .release || q.order.getLsbD 1 || q.unentered) || c.loadQ.any fun q => q.order.getLsbD 1

/-- A store of the context is about to patch its own copy of a line: an older load that has not performed keeps the own bytes
that it may return (R86). -/
def State.keepSeen (s : State) (a : ArrId) (c : CtxId) (l : Nat) : State :=
  let x := s.ctxOf a c
  let older := fun q : QEntry => (q.op == .ld || q.op == .lds) && q.kind.isLogged && q.pa / 64 == l && q.seen.isNone
  if x.loadQ.any older then
    let own := s.ownBytes x l
    s.modCtx a c fun y => { y with loadQ := modWhere older (fun q => { q with seen := some own }) y.loadQ }
  else s

/-- A line of which the context has no copy, and which its home slice cannot give at once: it has to be asked of its owner (R47,
R83) or reconstructed (R113, R118). The own copy is built once a load has it. -/
def State.lineUnknown (s : State) (a : ArrId) (c : CtxId) (l : Nat) : Bool :=
  ((!s.ours l && !s.copyHere l) || s.needsMend l) && !((s.arr a).vc.any fun v => v.ownOf c l)

/-- A store to a logged, protected or pool line at issue (R65, R74, R282, R284): it patches the issuer's own copy,
takes its index entry and enters the log buffer, at once or behind a queued release. -/
def State.logStore (s : State) (op : QOp) (t : Target) (addr : Word) (v : Word) (n : Nat) (cls : BitVec 2) : Out :=
  let a := s.act.arr
  let c := s.act.ctx
  let l := t.pa / 64
  let (d, m) := atByte v.toNat (t.pa % 64) n
  let e : QEntry := { s.me.entryAt op s.now t addr n with data := v, cls := cls }
  let put := fun (u : State) (ph : Nat) =>
    let u0 := u.keepSeen a c l
    let u1 := if op == .logst then u0.patchLogst a c l d m else if u0.lineUnknown a c l then u0 else u0.patchView a c l d m
    let u2 := u1.modCtx a c (·.takeIndex l)
    let u3 := if ph = 1 then u2.enterStore a c l t.kind cls m d else u2
    Host.Outcome.next (u3.retire fun x =>
      (x.sign ((recBytes (dataRecord l t.kind cls m d false false)).take 80)).pushStore { e with phase := ph })
  if !s.me.indexRoom l then .next s.keep
  else if s.me.releaseAhead then put s 0
  else if s.releasing s.me.ring then .next s.keep
  else match s.entering s.me l with
    | .enters => put s 1
    | .waits => .next s.keep
    | .forces => .next (s.startRelease s.me.ring 5 false true false s.me.mseq).keep

/-- ST and LOGST (R282, R284). -/
def State.storeOp (s : State) (u : Use) (op : QOp) (gs ga : Reg) (size cls : BitVec 2) (disp : BitVec 12) : Out :=
  s.gate [gs, ga] 0
    (let addr := addrM (s.me.rd ga) disp s.ext (sizeM size)
     let v := s.me.rd gs
     s.memIssue u addr (sizeM size) s.me.storeRoom fun t w =>
       if t.kind.isLogged then w.logStore op t addr v (sizeM size) cls
       else .next (w.retire fun c => c.pushStore { c.entryAt op w.now t addr (sizeM size) with data := v, cls := cls }))

def execSt (gs ga : Reg) (size cls : BitVec 2) (disp : BitVec 12) (s : State) : Out :=
  s.storeOp .store .st gs ga size cls disp
def execLogst (gs ga : Reg) (size cls : BitVec 2) (disp : BitVec 12) (s : State) : Out :=
  s.storeOp .logst .logst gs ga size cls disp

/-- The tag mode of ASLD and ASST (R193, R286). -/
def tagModeOf (mode : BitVec 2) : TagMode :=
  if mode = 1 then .fullKeep else if mode = 2 then .fullTake else if mode = 3 then .emptyPut else .ignore

/-- An older ASST of the context to an array-store word that has not performed. -/
def Ctx.asstPending (c : Ctx) (w : Nat) : Bool := c.storeQ.any fun q => q.op == .asst && q.pa / 32 == w

/-- An ordered load that younger stores wait for: its release or its acquire is not complete (R90, R91). -/
def QEntry.holdsStores (q : QEntry) : Bool := q.order.getLsbD 0 || (q.order.getLsbD 1 && decide (q.phase < 3))

/-- A load of an array-store word issued now would stand at the head of its queue: no older load or acquire is outstanding, and
no store to that word (R84). -/
def Ctx.headLoad (c : Ctx) (w : Nat) : Bool :=
  c.loadQ.isEmpty && !c.asstPending w && c.storeQ.all fun q => !q.order.getLsbD 0

/-- So would a store, no older store being outstanding, nor a release or an acquire of a load. -/
def Ctx.headStore (c : Ctx) : Bool := c.storeQ.isEmpty && c.loadQ.all fun q => !q.holdsStores

/-- The bytes and the mask of a store within an array-store word. -/
def asBytes (v : Word) (off n : Nat) : CWord × BitVec 32 :=
  (BitVec.ofNat 256 (v.toNat % 2 ^ (8 * n) * 2 ^ (8 * off)), BitVec.ofNat 32 ((2 ^ n - 1) * 2 ^ off))

/-- An access of the M slot under a tag condition (R41, R286): once it stands at the head of its queue (R83) the bank is asked, and the slot stays as residue until the bank has made the test, the access and the tag's change in one step. -/
def State.tagAccess (s : State) (free : Bool) (word : Nat) (md : TagMode) (write : Bool) (data : CWord × BitVec 32)
    (issue : CWord → Ctx → Ctx) : Out :=
  if s.phase = 0 then
    if free then
      .next ((s.askAs s.act.arr s.act.arr 3 (.mTag s.act.ctx) word md write data.2 data.1).hold 1)
    else .next s.keep
  else
    match s.me.descBuf.find? (·.1 == 6) with
    | none => .next s.keep
    | some e => .next (s.retire fun c => issue e.2 { c with descBuf := c.descBuf.filter (·.1 != 6) })

/-- ASLD (R286): without a tag condition the read is made 4 ac or more after issue; with one it is made at issue. -/
def execAsld (gd ga : Reg) (size mode : BitVec 2) (disp : BitVec 12) (s : State) : Out :=
  s.gate [ga] gd
    (let addr := addrM (s.me.rd ga) disp s.ext (sizeM size)
     let md := tagModeOf mode
     let w := addr.toNat / 32
     s.asIssue addr (sizeM size) s.me.loadRoom fun u =>
       let e : QEntry := { u.me.entry .asld u.now with
         dva := addr.toNat, pa := addr.toNat, size := sizeM size, gd := gd, mode := md }
       if md == .ignore then .next (u.retire fun c => c.pushLoad e)
       else u.tagAccess (u.me.headLoad w) w md false (0, 0) fun v c =>
         c.pushLoad { e with data := wordBytes v (addr.toNat % 32) (sizeM size), phase := 2 })

def execAsst (gs ga : Reg) (size mode : BitVec 2) (disp : BitVec 12) (s : State) : Out :=
  s.gate [gs, ga] 0
    (let addr := addrM (s.me.rd ga) disp s.ext (sizeM size)
     let md := tagModeOf mode
     s.asIssue addr (sizeM size) s.me.storeRoom fun u =>
       if md == .ignore then .next (u.retire fun c =>
         c.pushStore { c.entry .asst u.now with
           dva := addr.toNat, pa := addr.toNat, size := sizeM size, data := c.rd gs, mode := md })
       else u.tagAccess (u.me.headStore && !u.releasing u.me.ring) (addr.toNat / 32) md true
         (asBytes (u.me.rd gs) (addr.toNat % 32) (sizeM size)) fun _ c => c)

/-- PRF (R285): an address that would fault is dropped. -/
def execPrf (ga : Reg) (disp : BitVec 12) (s : State) : Out :=
  s.gate [ga] 0
    (if !s.me.loadRoom then .next s.keep else
     let addr := addrM (s.me.rd ga) disp s.ext 1
     match s.accessM s.act.arr s.act.ctx .load addr 1 with
     | (.error code, s1) => .next (if code = fWalking then s1.keep else ({ s with walks := s1.walks } : State).retire id)
     | (.ok t, s1) => .next (s1.retire fun c => c.pushLoad (c.entryAt .prf s1.now t addr 1)))

/-- MON enters the load queue (R293). -/
def execMon (ga : Reg) (size : BitVec 2) (entry : BitVec 3) (s : State) : Out :=
  s.gate [ga] 0
    (let addr := s.me.rd ga
     s.memIssue .watch addr (sizeM size) s.me.loadRoom fun t u =>
       .next (u.retire fun c =>
         c.pushLoad { c.entryAt .mon u.now t addr (sizeM size) with code := entry.zeroExtend 6 }))

/-! Atomics (R291, R292). -/

/-- The value that an atomic writes; `w` bits take part. -/
def atomicNew (code w old b c : Nat) : Nat :=
  let k := 2 ^ w
  let x := old % k
  let y := b % k
  match code with
  | 0x10 => (x + y) % k
  | 0x11 => (fp32.sum .rne x y).1
  | 0x12 => x &&& y
  | 0x13 => x ||| y
  | 0x14 => x ^^^ y
  | 0x15 => if toInt w x ≤ toInt w y then x else y
  | 0x16 => if toInt w x ≤ toInt w y then y else x
  | 0x17 => min x y
  | 0x18 => max x y
  | 0x19 => y
  | _ => if x = c % k then y else x

/-- Issue of an atomic: an entry in each queue, or with gd g0 a reduction with a store-queue entry alone. -/
def State.atomicOp (s : State) (code : BitVec 6) (gd ga gb : Reg) (n : Nat) (order : BitVec 2) (scope : BitVec 3)
    (srcs : List Reg) : Out :=
  s.gate srcs gd
    (let addr := s.me.rd ga
     s.memIssue .atomic addr n (s.me.storeRoom && (gd == 0 || s.me.loadRoom)) fun t u =>
       .next (u.retire fun c =>
         let e : QEntry := { c.entryAt (if gd = 0 then .reduce else .atomic) u.now t addr n with
           gd := gd, data := c.rd gb, cmp := c.rd gd, code := code, order := order, scope := scope }
         let c1 := c.signScope order scope
         if gd = 0 then c1.pushStore e
         else { (c1.await gd) with loadQ := c1.loadQ ++ [e], storeQ := c1.storeQ ++ [e], mseq := c1.mseq + 1 }))

def execAadd (gd ga gb : Reg) (size order : BitVec 2) (scope : BitVec 3) (s : State) : Out :=
  s.atomicOp 0x10 gd ga gb (sizeA size) order scope [ga, gb]
def execAfadd (gd ga gb : Reg) (order : BitVec 2) (scope : BitVec 3) (s : State) : Out :=
  s.atomicOp 0x11 gd ga gb 4 order scope [ga, gb]
def execAand (gd ga gb : Reg) (size order : BitVec 2) (scope : BitVec 3) (s : State) : Out :=
  s.atomicOp 0x12 gd ga gb (sizeA size) order scope [ga, gb]
def execAor (gd ga gb : Reg) (size order : BitVec 2) (scope : BitVec 3) (s : State) : Out :=
  s.atomicOp 0x13 gd ga gb (sizeA size) order scope [ga, gb]
def execAxor (gd ga gb : Reg) (size order : BitVec 2) (scope : BitVec 3) (s : State) : Out :=
  s.atomicOp 0x14 gd ga gb (sizeA size) order scope [ga, gb]
def execAmin (gd ga gb : Reg) (size order : BitVec 2) (scope : BitVec 3) (s : State) : Out :=
  s.atomicOp 0x15 gd ga gb (sizeA size) order scope [ga, gb]
def execAmax (gd ga gb : Reg) (size order : BitVec 2) (scope : BitVec 3) (s : State) : Out :=
  s.atomicOp 0x16 gd ga gb (sizeA size) order scope [ga, gb]
def execAminu (gd ga gb : Reg) (size order : BitVec 2) (scope : BitVec 3) (s : State) : Out :=
  s.atomicOp 0x17 gd ga gb (sizeA size) order scope [ga, gb]
def execAmaxu (gd ga gb : Reg) (size order : BitVec 2) (scope : BitVec 3) (s : State) : Out :=
  s.atomicOp 0x18 gd ga gb (sizeA size) order scope [ga, gb]
def execAswp (gd ga gb : Reg) (size order : BitVec 2) (scope : BitVec 3) (s : State) : Out :=
  s.atomicOp 0x19 gd ga gb (sizeA size) order scope [ga, gb]
/-- ACAS compares with gd as read at first presentation (R291). -/
def execAcas (gd ga gb : Reg) (size order : BitVec 2) (scope : BitVec 3) (s : State) : Out :=
  s.atomicOp 0x1A gd ga gb (sizeA size) order scope [gd, ga, gb]

/-! The release and acquire parts of a queued access (R90, R91, R96). -/

def State.setEntry (s : State) (a : ArrId) (c : CtxId) (id : Nat) (f : QEntry → QEntry) : State :=
  s.modCtx a c fun x =>
    { x with
      loadQ := modWhere (fun q : QEntry => q.id == id) f x.loadQ
      storeQ := modWhere (fun q : QEntry => q.id == id) f x.storeQ }

def State.popEntry (s : State) (a : ArrId) (c : CtxId) (id : Nat) : State :=
  s.modCtx a c fun x =>
    { x with loadQ := x.loadQ.filter (·.id != id), storeQ := x.storeQ.filter (·.id != id) }

/-- The group and stripe of a protected line, of this package's window or of another member's. -/
def State.guardOf (s : State) (l : Nat) : Option (Group × Nat) :=
  match s.dataUnit l with
  | some (_, g, _, off) => some (g, off / 65536)
  | none =>
    let pa := 64 * l
    if rangeOf pa != .peer then none else
    (s.groups.find? fun g =>
      let m := g.members.idxOf (peerOf pa)
      let page := (pa - Config.peerBase) % 2 ^ 41 / 65536
      let first := Config.windowBase g.pgid m
      decide (m < g.n ∧ first ≤ page ∧ page < first + g.k) && !(g.parity (page - first)).contains m).map fun g =>
        (g, g.peerStripe (g.members.idxOf (peerOf pa)) pa)

/-- The groups of unguarded stripes that a survivable release counts records of (R110): those that the log retains, and those before
them by their pages. -/
def State.unguardedGroups (s : State) (r : Ring) : List Nat :=
  (r.lines s.named r.oldest r.pub ++ r.guards.map (· * 1024)).foldl (fun l ln =>
    match s.guardOf ln with
    | some (g, st) => if (g.holders st).isEmpty then insertNat g.pgid l else l
    | none => l) []

/-- A survivable release completes (R110): unguarded ones are counted by group and window. -/
def State.survived (s : State) (ring : Nat) : State :=
  match s.ring? ring with
  | none => s
  | some r =>
    (s.unguardedGroups r).foldl (fun u p =>
      { u with unguarded :=
          if u.unguarded.any (fun e => e.1 == p && e.2.1 == u.winNo) then
            modWhere (fun e : Nat × Nat × Nat => e.1 == p && e.2.1 == u.winNo) (fun e => (e.1, e.2.1, e.2.2 + 1)) u.unguarded
          else u.unguarded ++ [(p, u.winNo, 1)] }) s

def State.foldedTo (s : State) (ring n : Nat) : Bool :=
  match s.ring? ring with | some r => decide (n ≤ r.fold) | none => true

def State.pubOf (s : State) (ring : Nat) : Nat := match s.ring? ring with | some r => r.pub | none => 0

/-- The next part of a queued release (R90, R95): phase 0 starts it once every older load has performed and every older store
has at its scope (R89), 1 waits for its completion, 2 at scope .sv for the folds. -/
def State.relPart (s : State) (a : ArrId) (c : CtxId) (e : QEntry) : Option State :=
  let x := s.ctxOf a c
  match e.phase with
  | 0 =>
    if x.loadQ.any (fun q => q.id < e.id) || !s.storesDone a c e.scope e.id || s.releasing x.ring then none
    else some ((s.startRelease x.ring e.scope false false false e.id).setEntry a c e.id fun q => { q with phase := 1 })
  | 1 =>
    if s.releasing x.ring then none
    else some (s.setEntry a c e.id fun q => { q with phase := if e.scope = 6 then 2 else 3, mark := s.pubOf x.ring })
  | _ =>
    if s.foldedTo x.ring e.mark then some ((s.survived x.ring).setEntry a c e.id fun q => { q with phase := 3 }) else none

/-- The acquire part of a queued access begins (R91, R96); a writer's package being lost, the context ends (R75, step 1). -/
def State.acqStart (s : State) (a : ArrId) (c : CtxId) (e : QEntry) : State :=
  let k := s.scopeKeys a c e.scope
  if s.ranksLost (s.ctxOf a c).team.toNat k.2 then (s.popEntry a c e.id).askCtx a c fPkgLost else
  (s.startAcquire a c e.scope k.1 k.2).setEntry a c e.id fun q => { q with phase := 4 }

/-- It goes on; the access leaves its queues once it is complete. -/
def State.acqPart (s : State) (a : ArrId) (c : CtxId) (e : QEntry) : Option State :=
  if !s.acquireReady (s.ctxOf a c) then none else
  match s.stepAcquire a c with
  | (true, s1) => some (s1.popEntry a c e.id)
  | (false, s1) => some s1

/-- An access has performed: it leaves, or its acquire begins, once every older load has performed (R91); phase 9 waits for
these. -/
def State.performed (s : State) (a : ArrId) (c : CtxId) (e : QEntry) : State :=
  if !e.order.getLsbD 0 then s.popEntry a c e.id
  else if (s.ctxOf a c).loadQ.any (fun q => q.id < e.id) then s.setEntry a c e.id fun q => { q with phase := 9 }
  else s.acqStart a c e

/-! Lines of other owners (R15, R83, R97). -/

/-- The owner of an entry's line is asked, and the entry waits in a phase for the answer. -/
def State.askOwner (s : State) (a : ArrId) (c : CtxId) (e : QEntry) (phase : Nat) (op : AskOp) : State :=
  let x := s.ctxOf a c
  (s.request (.entry a c e.id) e.pa op x.sec x.asid).setEntry a c e.id fun q => { q with phase := phase }

/-- A line of the host of which this package holds the exclusive right, or asks for or writes it: every access of it here waits, the
home slice serving one at a time, and the host does not write it meanwhile (R97, R101). -/
def State.exclusive (s : State) (l : Nat) : Bool :=
  s.arrays.toList.any (fun x => x.ctxs.toList.any fun y => y.storeQ.any fun e =>
    e.kind == .host && e.pa / 64 == l && (e.op == .atomic || e.op == .reduce) && decide (6 ≤ e.phase ∧ e.phase ≤ 8)) ||
  (List.range 40).any fun e => ((s.copyQ e false).head?.toList ++ (s.copyQ e true).head?.toList).any fun j =>
    j.op == 0x24 && rangeOf (64 * l) == .host && j.got == some l

def State.hostBusy (s : State) (l : Nat) : Bool :=
  rangeOf (64 * l) == .host && (s.exclusive l || s.asks.any fun k => k.pa / 64 == l)

/-- An entry waits for an owner's answer. -/
def QEntry.asked (q : QEntry) : Bool := q.phase == 5 || q.phase == 7

/-- A load of a logged, protected or pool line finds no line of the view cache to bind its value from. -/
def State.viewMiss (s : State) (a : ArrId) (c : CtxId) (e : QEntry) : Bool :=
  e.seen.isSome || !((s.arr a).vc.any fun v => v.ownOf c (e.pa / 64) ||
    (!(s.ctxOf a c).hasOwn (e.pa / 64) && v.viewOf (s.ctxOf a c) (e.pa / 64)))

/-- A load asks the owner of its line: one of a view does so where neither the view cache nor the slice has a copy. -/
def State.loadAsks (s : State) (a : ArrId) (c : CtxId) (e : QEntry) : Bool :=
  let l := e.pa / 64
  e.phase != 6 && !s.ours l && (!e.kind.isLogged || (!s.copyHere l && s.viewMiss a c e))

/-- Such a load, or one of a line whose home is here, waits for the line's reconstruction (R113, R118). -/
def State.loadMends (s : State) (a : ArrId) (c : CtxId) (e : QEntry) : Bool :=
  e.kind.isLogged && s.needsMend (e.pa / 64) && s.viewMiss a c e

/-! Loads perform. -/

/-- A DVA store or atomic of the queue that has not performed (R83). -/
def QEntry.unperformed (q : QEntry) : Bool :=
  ((q.op == .st || q.op == .logst) && !q.kind.isLogged) || q.op == .atomic || q.op == .reduce

/-- Alias classes meet (R84). Atomics are of class 0. -/
def clsMeet (x y : BitVec 2) : Bool := x == y || x == 0 || y == 0

/-- The load waits for an older store to its line (R84). -/
def Ctx.aliasWait (c : Ctx) (e : QEntry) : Bool :=
  c.storeQ.any fun q => q.id < e.id && q.unperformed && q.pa / 64 == e.pa / 64 && clsMeet q.cls e.cls

/-- Older stores that the load's class does not meet and that touch its bytes (R85), oldest first. -/
def Ctx.racing (c : Ctx) (e : QEntry) : List QEntry :=
  c.storeQ.filter fun q =>
    q.id < e.id && q.unperformed && decide (q.pa < e.pa + e.size ∧ e.pa < q.pa + q.size)

/-- The line with the first `k` racing stores applied, `k` being free (R85; assumption 17). -/
def State.raceLine (s : State) (rs : List QEntry) (d : LineData) : LineData × State :=
  if rs.isEmpty then (d, s) else
  let (k, s1) := s.draw (rs.length + 1)
  ((rs.take k).foldl (fun v q => let (w, m) := atByte q.data.toNat (q.pa % 64) q.size; mergeLine v w m) d, s1)

/-- A read that binds poisoned bytes (R345): of a pool line it ends the context as extent gone (R134). -/
def State.consume (s : State) (a : ArrId) (c : CtxId) (kind : Kind) (seg : Nat) : State :=
  if kind == .pool then s.askCtx a c fExtent else s.raiseData a c 0x0013 seg

/-- The value of a load is bound (R83, R86, R87): of a line that a younger store has patched since, the home line and the own
bytes older than the load; the copy that a younger load reads follows the home line then. -/
def State.bindLoad (s : State) (a : ArrId) (c : CtxId) (e : QEntry) : State :=
  let x := s.ctxOf a c
  let l := e.pa / 64
  let finish := fun (u : State) (d : LineData) (p : Bool) =>
    let u1 := u.modCtx a c (·.deliver e.gd (lineField d (e.pa % 64) e.size))
    let u2 := if p then u1.consume a c e.kind e.seg else u1
    u2.performed a c e
  if e.kind.isLogged then
    match e.seen with
    | some (own, m) => let (d, p, s1) := s.homeRead l x.asid; finish (s1.vcReload a c l) (mergeLine d own m) p
    | none => let (v, s1) := s.viewLine a c l; finish s1 v.data v.poison
  else if e.kind == .owned then
    let (v, s1) := s.ownedLine a c l
    let (d, s2) := s1.raceLine (x.racing e) v.data
    finish s2 d v.poison
  else
    let (d, p, s1) := s.homeRead l x.asid
    let (d1, s2) := s1.raceLine (x.racing e) d
    finish s2 d1 p

/-- A watch-table loss or shoot-down is noted for the context's next MWAIT (R295). -/
def Ctx.note (c : Ctx) (why : Nat) : Ctx := if c.spurious = 0 then { c with spurious := why } else c

/-- MON performs at home (R293, R295): it reads and arms in one step; a full watch table evicts its oldest entry. -/
def State.arm (s : State) (a : ArrId) (c : CtxId) (e : QEntry) : State :=
  let l := e.pa / 64
  let n : BitVec 3 := e.code.truncate 3
  let (d, p, s1) := s.homeRead l (s.ctxOf a c).asid
  let tab := s1.watchTab.filter fun w => !(w.arr == a && w.ctx == c && w.entry == n)
  let here := tab.filter fun w => w.slice == homeSlice l
  let s2 : State := match here with
    | old :: _ =>
      if here.length < 256 then { s1 with watchTab := tab }
      else ({ s1 with watchTab := tab.erase old }).modCtx old.arr old.ctx (·.note 1)
    | [] => { s1 with watchTab := tab }
  let ref : WatchRef := ⟨homeSlice l, a, c, n⟩
  let s3 := { s2 with watchTab := s2.watchTab ++ [ref] }
  let s4 := s3.modCtx a c fun x =>
    { x with watch := x.watch.set n.toNat ⟨true, e.dva, e.pa, e.size, lineField d (e.pa % 64) e.size, false⟩ n.isLt }
  (if p then s4.consume a c e.kind e.seg else s4).popEntry a c e.id

/-- PRF performs (R285): of a line to be asked of its owner, with the request (`State.loadStep`). -/
def State.prefetch (s : State) (a : ArrId) (c : CtxId) (e : QEntry) : State :=
  let l := e.pa / 64
  let s1 := if e.kind.isLogged then (s.viewLine a c l).2
    else if e.kind == .owned then (s.ownedLine a c l).2
    else s.probe l (s.ctxOf a c).asid
  s1.popEntry a c e.id

/-- The head of the load queue makes its next step. None: it cannot yet. -/
def State.loadStep (s : State) (a : ArrId) (c : CtxId) : Option State :=
  let x := s.ctxOf a c
  match x.loadQ with
  | [] => none
  | e :: _ =>
    if e.asked || x.storeQ.any (fun q => q.id < e.id && q.order.getLsbD 0) then none else
    match e.op with
    | .ld | .lds =>
      if e.order.getLsbD 1 && decide (e.phase < 3) then s.relPart a c e
      else if e.phase = 4 then s.acqPart a c e
      else if x.aliasWait e then none
      else if s.loadMends a c e then s.awaitMend (e.pa / 64)
      else if s.loadAsks a c e then (if s.hostBusy (e.pa / 64) then none else some (s.askOwner a c e 5 .read))
      else some (s.bindLoad a c e)
    | .asld =>
      if e.phase = 2 then
        (if s.now < e.issued + 4 then none
         else some ((s.modCtx a c (·.deliver e.gd e.data)).popEntry a c e.id))
      else if e.phase ≠ 0 ∨ s.now < e.issued + 4 ∨ x.storeQ.any (fun q => q.id < e.id && q.op == .asst && q.pa / 32 == e.pa / 32)
      then none
      else some ((s.askAs a a 3 (.mLoad c e.id) (e.pa / 32) e.mode false 0 0).setEntry a c e.id fun q => { q with phase := 1 })
    | .prf =>
      if s.loadMends a c e then s.awaitMend (e.pa / 64)
      else if s.hostBusy (e.pa / 64) then none
      else some (if s.loadAsks a c e then (s.request (.fill x.asid) e.pa .read x.sec x.asid).popEntry a c e.id else s.prefetch a c e)
    | .mon =>
      if x.aliasWait e || (s.loadAsks a c e && s.hostBusy (e.pa / 64)) then none
      else some (if s.loadAsks a c e then s.askOwner a c e 5 (.watch e.size) else s.arm a c e)
    | .atomic => none
    | _ => some (s.popEntry a c e.id)

/-! Stores perform. -/

/-- The view line and the own copy that a context would read of a line leave the view cache. -/
def Arr.dropCopies (x : Arr) (c : CtxId) (asid : BitVec 16) (l : Nat) : Arr :=
  (x.dropViews asid (· == l)).dropOwn c (· == l)

/-- The value that an entry's atomic writes. -/
def QEntry.atomicValue (e : QEntry) (old : Word) : Nat :=
  atomicNew e.code.toNat (8 * e.size) old.toNat e.data.toNat e.cmp.toNat

/-- An atomic executes at the home slice of its line (R291, R97): old value, poison. Of a pool line the issuer keeps no older
copy (R292), and a device completes the write (R89). -/
def State.doAtomic (s : State) (a : ArrId) (c : CtxId) (e : QEntry) : Word × Bool × State :=
  let l := e.pa / 64
  let x := s.ctxOf a c
  let s1 := if e.kind == .owned then s.writeBackOwned a (·.ownedBy c l) true else s
  let (d, p, s2) := s1.homeRead l x.asid
  let old := lineField d (e.pa % 64) e.size
  let s3 := s2.homeStore e.pa (e.atomicValue old) e.size x.asid
  let s4 := if e.kind == .pool then
      let (w, m) := atByte (e.atomicValue old) (e.pa % 64) e.size
      (s3.modArr a (·.dropCopies c x.asid l)).request (.posted a c) e.pa (.write m w) x.sec x.asid
    else s3
  (old, p, s4)

/-- The read half of an entry, which consumes the poison that it has met; a reduction has none (R292, R345). -/
def State.atomicEnds (s : State) (a : ArrId) (c : CtxId) (e : QEntry) (old : Word) (poison : Bool) : State :=
  let s1 := if e.op == .atomic then s.modCtx a c (·.deliver e.gd old) else s
  (if poison && e.op == .atomic then s1.consume a c e.kind e.seg else s1).performed a c e

/-- The next step of an atomic at the head of its queues. On a line of another package the owner executes it, and answers with
the old value; on one of the host the home slice obtains the line exclusive, executes it, writes the result back and gives the
line up (R97, R291). -/
def State.atomicStep (s : State) (a : ArrId) (c : CtxId) (e : QEntry) : State :=
  let l := e.pa / 64
  if s.ours l then let (old, p, s1) := s.doAtomic a c e; s1.atomicEnds a c e old p
  else if e.kind != .host then
    if e.phase = 6 then s.atomicEnds a c e (e.word.truncate 64) (e.mark = 1)
    else s.askOwner a c e 5 (.atomic e.code e.size e.data e.cmp)
  else if e.phase = 6 then
    let (d, p, s1) := s.homeRead l (s.ctxOf a c).asid
    let old := lineField d (e.pa % 64) e.size
    let (w, m) := atByte (e.atomicValue old) (e.pa % 64) e.size
    ((s1.known l m w).setEntry a c e.id fun q => { q with word := old.zeroExtend 256, mark := if p then 1 else 0 }).askOwner a c e 7
      (.write m w)
  else if e.phase = 8 then (s.evictL2 l).atomicEnds a c e (e.word.truncate 64) (e.mark = 1)
  else s.askOwner a c e 5 .own

/-- A SEND at the head of the store queue goes to its target (R307, R20); it performs when the word is placed. -/
def State.sendStep (s : State) (a : ArrId) (c : CtxId) (e : QEntry) : Option State :=
  if e.phase ≠ 0 then none else
  let x := s.ctxOf a c
  let ring : Fin 4 := ⟨e.code.toNat % 4, by omega⟩
  let sent := fun (u : State) => u.setEntry a c e.id fun q => { q with phase := 1 }
  match s.peer x.team.toNat (BitVec.ofNat 64 e.dva) with
  | .here b larr =>
    match s.taskAt x.team.toNat larr with
    | some (_, d) => some ((sent s).arrive b ⟨a, c, none, some (d, ring), 0, e.word, 0xFFFFFFFF, false, none, none⟩)
    | none => some ((s.popEntry a c e.id).askCtx a c fDescr)
  | .away rank => some ((sent s).send (.peerMessage x.team.toNat x.rank.toNat rank ring.val e.word))
  | .invalid => none
  | _ => some (s.popEntry a c e.id)

/-- A logged store behind a release enters the log buffer in its turn (R65, R74, R90). -/
def State.enterQueued (s : State) (a : ArrId) (c : CtxId) (e : QEntry) : Option State :=
  let x := s.ctxOf a c
  let (d, m) := atByte e.data.toNat (e.pa % 64) e.size
  match s.entering x (e.pa / 64) with
  | .enters => some ((s.enterStore a c (e.pa / 64) e.kind e.cls m d).popEntry a c e.id)
  | .waits => none
  | .forces => some (s.startRelease x.ring 5 false true false e.id)

/-- A store that does not append records: at its home slice, in the owner's view line, or at the owner of its line, which has to
accept it (R83). -/
def State.storeHome (s : State) (a : ArrId) (c : CtxId) (e : QEntry) : State :=
  let (d, m) := atByte e.data.toNat (e.pa % 64) e.size
  if e.kind == .owned then (s.ownedStore a c (e.pa / 64) d m).popEntry a c e.id
  else if s.ours (e.pa / 64) then (s.homeWrite (e.pa / 64) m d (s.ctxOf a c).asid false).popEntry a c e.id
  else if e.phase = 6 then s.popEntry a c e.id
  else s.askOwner a c e 5 (.write m d)

/-- The entry of the store queue whose turn it is: the head or, while the owners of the first ones have still to answer, a
release behind them (R89). -/
def Ctx.storeTurn (c : Ctx) : Option QEntry :=
  match c.storeQ with
  | [] => none
  | h :: t =>
    if !h.asked then some h
    else (t.find? fun q => !q.asked).bind fun q => if q.op == .release || (q.order.getLsbD 1 && decide (q.phase < 3)) then some q else none

/-- The store queue makes its next step. None: it cannot yet. -/
def State.storeStep (s : State) (a : ArrId) (c : CtxId) : Option State :=
  let x := s.ctxOf a c
  match x.storeTurn with
  | none => none
  | some e =>
    if x.loadQ.any (fun q => q.id < e.id && q.holdsStores) || s.heldBack x.ring e.id && !(e.op == .release || e.order.getLsbD 1) then
      none
    else match e.op with
    | .st | .logst =>
      if e.kind.isLogged then (if e.phase = 0 then s.enterQueued a c e else some (s.popEntry a c e.id))
      else if e.phase = 0 && s.hostBusy (e.pa / 64) then none
      else some (s.storeHome a c e)
    | .asst =>
      if e.phase ≠ 0 then none else
      let (v, m) := asBytes e.data (e.pa % 32) e.size
      some ((s.askAs a a 3 (.mStore c e.id) (e.pa / 32) e.mode true m v).setEntry a c e.id fun q => { q with phase := 1 })
    | .send => s.sendStep a c e
    | .release => if e.phase < 3 then s.relPart a c e else some (s.popEntry a c e.id)
    | .reduce | .atomic =>
      if e.order.getLsbD 1 && decide (e.phase < 3) then s.relPart a c e
      else if e.phase = 4 then s.acqPart a c e
      else if e.phase = 9 then (if x.loadQ.any fun q => q.id < e.id then none else some (s.acqStart a c e))
      else if e.op == .atomic && (x.loadQ.head?.map (·.id)) != some e.id then none
      else if (e.phase = 0 || e.phase = 3) && s.hostBusy (e.pa / 64) then none
      else some (s.atomicStep a c e)
    | _ => some (s.popEntry a c e.id)

/-- QUEUE_PERFORM (R83): the context's load or store queue makes its next step; an access that has performed leaves. -/
def execQueuePerform (a : ArrId) (c : CtxId) (store : Bool) (s : State) : Out :=
  .next (((if store then s.storeStep a c else s.loadStep a c)).getD s)

end Sys2Proof.Machine
end

