-- ==== Sys2Proof/Machine/SyncOps.lean ====
section
/-! DEFINITION. Ordering ops (R287 to R290), MWAIT (R294, R295), messages (R306 to R308) and barriers (R309,
R310). -/

namespace Sys2Proof.Machine

/-! Releases and acquires (R287 to R289). -/

/-- REL and RELSV enter the store queue. -/
def State.releaseOp (s : State) (scope : BitVec 3) : Out :=
  if !s.me.storeRoom then .next s.keep
  else .next (s.retire fun c =>
    (c.sign [scope.zeroExtend 8]).pushStore { c.entry .release s.now with scope := scope })

def execRel (scope : BitVec 3) (s : State) : Out := s.releaseOp scope
def execRelsv (s : State) : Out := s.releaseOp 6

/-- Every older load of the actor has performed, and every older store at a scope (R89, R93). -/
def State.accessesDone (s : State) (scope : BitVec 3) : Bool :=
  s.me.loadQ.isEmpty && s.storesDone s.act.arr s.act.ctx scope s.me.mseq

/-- An acquire may sample: every older load has performed and no older acquire is under way (R91). -/
def Ctx.maySample (c : Ctx) : Bool := c.loadQ.isEmpty && c.acquire.isNone && c.storeQ.all fun q => !q.order.getLsbD 0

/-- An array lies in the part of the package that a scope names around another (R91, R288). -/
def inScope (scope : BitVec 3) (a b : ArrId) : Bool :=
  match scope.toNat with
  | 0 => a == b
  | 1 => ArrId.quad a == ArrId.quad b
  | 2 => ArrId.die a == ArrId.die b
  | _ => true

/-- The operand of ACQ resolved (R288): keys and remote ranks, or a fault. A task that has ended is of the team still, and its
log is acquired; a follower's number names no task. -/
def State.acqOperand (s : State) (w : Word) (scope : BitVec 3) : Except Nat (List Nat × List Nat) :=
  if w.getLsbD 35 || (scope.toNat < 4 && w.extractLsb' 34 30 != 0) then .error fDescr else
  match s.team? s.me.team.toNat with
  | none => .ok ([], [])
  | some t =>
    let bits := (List.range 32).filter fun i => w.getLsbD i
    if bits.any fun i => decide (t.ntasks * t.chain ≤ i) then .error fPeer else
    let arrs := (t.tasks.filter fun k => (bits.isEmpty || bits.contains k.larr) && inScope scope s.act.arr k.arr).map (·.larr)
    let first := (w.extractLsb' 36 14).toNat
    let count := (w.extractLsb' 50 14).toNat
    if !w.getLsbD 34 && count != 0 && decide (first + count > t.tsize) then .error fPeer else
    let far := if w.getLsbD 34 then t.farRanks
      else if count = 0 then [] else t.farRanks.filter fun r => decide (first ≤ r ∧ r < first + count)
    if s.ranksLost t.id far then .error fPkgLost
    else .ok (arrs ++ (if w.getLsbD 32 then (List.range 8).map (128 + ·) else []) ++
      (if w.getLsbD 33 then (List.range 8).map (136 + ·) else []), far)

/-- The slot waits for an acquire under way, then goes on. -/
def State.awaitAcquire (s : State) (k : State → State) : State :=
  match s.stepAcquire s.act.arr s.act.ctx with
  | (true, s1) => k s1
  | (false, s1) => s1.keep

def execAcq (ga : Reg) (scope : BitVec 3) (s : State) : Out :=
  s.gate [ga] 0
    (if s.phase = 0 then
       if !s.me.maySample then .next s.keep
       else match s.acqOperand (s.me.rd ga) scope with
         | .error code => .next (s.faultSlot code)
         | .ok (keys, ranks) => .next ((s.startAcquire s.act.arr s.act.ctx scope keys ranks).hold 1)
     else .next (s.awaitAcquire fun u => u.retire id))

/-- FENCE (R93); at scope .sv every published record is folded too (R110). -/
def execFence (scope : BitVec 3) (s : State) : Out :=
  if !s.accessesDone scope then .next s.keep
  else if scope = 6 then
    if s.foldedTo s.me.ring (s.pubOf s.me.ring) then .next ((s.survived s.me.ring).retire id) else .next s.keep
  else .next (s.retire id)

/-- The tail that a FENCESC of stamp `σ` takes of a log (R94, step 2): past its newest segment stamped below. -/
def State.tailBelow (s : State) (r : Ring) (σ : Nat) : Nat :=
  let old := r.stamps.foldl (fun m e => if e.2 < σ then max m (e.1 + 1) else m) 0
  s.segs.foldl (fun m g => if g.ring = r.id ∧ g.stamp < σ then max m (g.rel + 1) else m) old

/-- The ranks on other packages that a FENCESC acquires (R94). -/
def State.farBelow (s : State) (a : ArrId) (c : CtxId) (scope : BitVec 3) : List Nat :=
  match s.team? (s.ctxOf a c).team.toNat with
  | some t => if scope = 4 then t.farRanks else []
  | none => []

/-- Step 2 of FENCESC: an acquire of every log in the scope up to its newest segment stamped below `σ`. -/
def State.startBelow (s : State) (a : ArrId) (c : CtxId) (scope : BitVec 3) (σ : Nat) : State :=
  let s1 := s.startAcquire a c scope (s.scopeKeys a c scope).1 (s.farBelow a c scope)
  s1.modCtx a c fun y =>
    { y with acquire := y.acquire.map fun q =>
        { q with writers := q.writers.map fun w =>
            if remoteKey ≤ w.key then w
            else match s.ring? w.ring with
              | some r => { w with tail := s.tailBelow r σ }
              | none => w } }

/-- FENCESC (R94): a release, an acquire of what is stamped below it, a FENCE. Toward ranks on other packages .team acts as
FENCE.pod and the acquire of R76; the package of one being lost, it faults (R75, step 1). -/
def execFencesc (scope : BitVec 3) (s : State) : Out :=
  let ring := s.me.ring
  match s.phase with
  | 0 =>
    if !s.accessesDone scope || s.releasing ring || !s.me.maySample then .next s.keep
    else .next ((s.startRelease ring scope false false false s.me.mseq).hold 1)
  | 1 =>
    if s.releasing ring || !s.me.maySample then .next s.keep
    else if s.ranksLost s.me.team.toNat (s.farBelow s.act.arr s.act.ctx scope) then .next (s.faultSlot fPkgLost)
    else
      let σ := match s.ring? ring with
        | some r => if r.pub = 0 then 0 else Sparse.get 0 r.stamps (r.pub - 1)
        | none => 0
      .next ((s.startBelow s.act.arr s.act.ctx scope σ).hold 2)
  | _ => .next (s.awaitAcquire fun u => if u.accessesDone scope then u.retire id else u.keep)

/-- Append log-buffer entries until none is left or the log is full. -/
def State.drainBuf (s : State) (a : ArrId) (c : CtxId) : Nat → State
  | 0 => s
  | n + 1 =>
    if (s.ctxOf a c).buf.isEmpty then s else
    match s.appendOldest a c with
    | some s1 => State.drainBuf s1 a c n
    | none => s

/-- QSYNC (R88). -/
def execQsync (s : State) : Out :=
  if !s.me.loadQ.isEmpty || !s.me.storeQ.isEmpty || s.releasing s.me.ring then .next s.keep else
  let s1 := s.drainBuf s.act.arr s.act.ctx 16
  if s1.me.buf.isEmpty then .next (s1.retire id) else .next s1.keep

/-- VCINV of the lines that a test names (R290). -/
def State.vcDiscard (s : State) (lines : Nat → Bool) : State :=
  let c := s.act.ctx
  let s1 := s.writeBackOwned s.act.arr (fun v => v.owner == c && lines v.line) false
  s1.modArr s.act.arr fun x =>
    { x with vc := x.vc.filter fun v =>
        !(lines v.line && ((v.st == .view && v.asid == s.me.asid) || (v.st == .own && v.owner == c))) }

def execVcinv (ga : Reg) (s : State) : Out :=
  s.gate [ga] 0
    (if s.me.rd ga = 0 then .next ((s.vcDiscard fun _ => true).retire id)
     else match s.accessM s.act.arr s.act.ctx .load (s.me.rd ga) 1 with
       | (.error code, s1) => .next (if code = fWalking then s1.keep else s1.faultM code (s.me.rd ga).toNat)
       | (.ok t, s1) => .next ((s1.vcDiscard fun l => l / 1024 == t.pa / 65536).retire id))

/-! MWAIT (R293 to R295). -/

/-- WATCH_SATISFY (R293): the satisfaction of an armed entry is noted once. -/
def execWatchSatisfy (a : ArrId) (c : CtxId) (entry : BitVec 3) (s : State) : Out :=
  .next (s.modCtx a c fun x =>
    let w := x.watch[entry.toNat]'entry.isLt
    if w.armed then { x with watch := x.watch.set entry.toNat { w with satisfied := true } entry.isLt } else x)

/-- The entries satisfied, as the SAT field (R294). -/
def Ctx.satisfied (c : Ctx) : BitVec 8 :=
  (List.range 8).foldl (fun b i =>
    if h : i < 8 then (if (c.watch[i]).armed && (c.watch[i]).satisfied then setBit b i else b) else b) 0

/-- Disarm the entries that a mask names. -/
def State.disarm (s : State) (a : ArrId) (c : CtxId) (m : BitVec 8) : State :=
  let s1 := s.modCtx a c fun x =>
    { x with watch := Vector.ofFn fun i : Fin 8 => if m.getLsbD i.val then {} else x.watch[i] }
  { s1 with watchTab := s1.watchTab.filter fun w => !(w.arr == a && w.ctx == c && m.getLsbD w.entry.toNat) }

/-- What MWAIT decides in this ac (R294): its result and whether it acquires, or it waits. -/
def State.mwaitDecide (s : State) (deadline : Nat) : Option (Word × Bool × State) :=
  let sat := s.me.satisfied
  if sat != 0 then some ((sat ++ 0#8).zeroExtend 64, true, s.disarm s.act.arr s.act.ctx sat)
  else if s.me.spurious ≠ 0 then
    some (BitVec.ofNat 64 (2 + s.me.spurious * 2 ^ 16), false,
      (s.disarm s.act.arr s.act.ctx 0xFF).modMe fun c => { c with spurious := 0 })
  else if s.now ≥ deadline then some (1, false, s)
  else none

/-- MWAIT: phase 0 its release, if it has one, 1 and 2 the wait for it, 3 the decision, 4 and 5 its acquire. -/
def execMwait (gd ga : Reg) (order : BitVec 2) (scope : BitVec 3) (s : State) : Out :=
  s.gate [ga] gd
    (let ring := s.me.ring
     let deadline := (s.me.rd ga).toNat
     let decide_ : Out :=
       match s.mwaitDecide deadline with
       | none => .next (if s.phase = 3 then s.keep else (s.atAc deadline (.mwaitDeadline s.act.arr s.act.ctx)).hold 3)
       | some (v, ok, s1) =>
         let s2 := s1.modMe fun c => c.wr s.now gd v
         if ok && order.getLsbD 0 then .next (s2.hold 4) else .next (s2.retire id)
     match s.phase with
     | 0 =>
       if !order.getLsbD 1 then decide_
       else if !s.accessesDone scope || s.releasing ring then .next s.keep
       else .next ((s.startRelease ring scope false false false s.me.mseq).hold 1 |>.modMe (·.signScope order scope))
     | 1 => if s.releasing ring then .next s.keep else .next (s.hold 2)
     | 2 =>
       if scope = 6 && !s.foldedTo ring (s.pubOf ring) then .next s.keep
       else if scope = 6 then .next ((s.survived ring).hold 6) else decide_
     | 4 =>
       if !s.me.maySample then .next s.keep
       else
         let k := s.scopeKeys s.act.arr s.act.ctx scope
         if s.ranksLost s.me.team.toNat k.2 then .next (s.faultSlot fPkgLost)
         else .next ((s.startAcquire s.act.arr s.act.ctx scope k.1 k.2).hold 5)
     | 5 => .next (s.awaitAcquire fun u => u.retire id)
     | _ => decide_)

/-! Messages (R306 to R308). -/

/-- SEND (R307): the word is read at issue, after every older ASST to it, and the message enters the store queue. -/
def execSend (ga gb : Reg) (ring : BitVec 2) (s : State) : Out :=
  s.gate [ga, gb] 0
    (let off := (s.me.rd gb).toNat
     let ref := s.me.rd ga
     if s.phase = 0 then
       if off % 32 ≠ 0 then .next (s.faultSlot fAlign)
       else if 0x1000000 ≤ off || !(s.planOf s.me).holds off 32 then .next (s.faultSlot fAsRange)
       else if !peerClean ref || peerOffset ref != 0 then .next (s.faultSlot fDescr)
       else match s.peer s.me.team.toNat ref with
         | .bad => .next (s.faultSlot fDescr)
         | .outside => .next (s.faultSlot fPeer)
         | .invalid => .next s.keep
         | _ =>
           if s.me.asstPending (off / 32) then .next s.keep
           else .next ((s.askAs s.act.arr s.act.arr 3 (.sendRead s.act.ctx) (off / 32) .ignore false 0 0).hold 1)
     else match s.me.descBuf.find? (·.1 == 8) with
       | none => .next s.keep
       | some (_, v) =>
         if !s.me.storeRoom then .next s.keep
         else .next (s.retire fun c =>
           { c.pushStore { c.entry .send s.now with dva := ref.toNat, code := ring.zeroExtend 6, word := v } with
             descBuf := c.descBuf.filter (·.1 != 8) }))

/-- Advance a ring's slot offset by one slot, modulo the ring (R307, R308). -/
def MsgRing.next (r : MsgRing) (off : BitVec 24) : BitVec 24 :=
  r.base + BitVec.ofNat 24 ((off.toNat - r.base.toNat + 32) % (32 * 2 ^ r.log2n.toNat))

/-- A word of a copy has performed at its target (R303): of one of this package, or, the last of a chunk, which is now applied and
acknowledged (R372). -/
def State.wordPlaced (s : State) (m : NetMsg) : State :=
  let s1 : State := match m.copy with
    | none => s
    | some id =>
      let f := fun j : CopyJob => { j with sent := j.sent.erase (s.pkgNo, id) }
      (s.modCopy m.src.val false id f).modCopy m.src.val true id f
  match m.chunk with
  | none => s1
  | some (pkg, seq) => (s1.putChunks { s1.chunksTo pkg with applied := seq }).send (.chunkAck pkg seq 0)

/-- MESSAGE_PLACE (R307, R302): the bank has written the word at the head of the interface: TAIL and COUNT move on,
the sender's SEND performs, and the next word asks for its bank. A copy counts the word as written (R303). -/
def execMessagePlace (a : ArrId) (s : State) : Out :=
  match (s.arr a).net with
  | [] => .next s
  | m :: rest =>
    if !m.posted then .next (s.postNet a) else
    let s1 := s.modArr a fun x => { x with net := rest }
    let s2 : State := match m.ring with
      | none => s1
      | some (c, n) =>
        s1.modCtx a c fun x =>
          let r := x.rings[n]
          { x with rings := x.rings.set n.val { r with tail := r.next r.tail, count := r.count + 1 } n.isLt }
    let s3 : State :=
      if m.ring.isNone then s2.wordPlaced m
      else match m.remote with
      | some (pkg, team, rank) => s2.send (.placed pkg team rank true)
      | none => s2.sendOver m.src m.srcCtx
    .next (s3.postNet a)

/-- PEER_ENTRY_VALID (R20): an entry of a team's map becomes valid; the messages and copy beats that wait for it proceed in the
next ac. -/
def execPeerEntryValid (team larr : Nat) (s : State) : Out :=
  let s1 := s.modTeam team fun t => { t with map := t.map.modify larr fun e =>
    if e.valid then e else { e with valid := true, since := s.now } }
  let sends := (List.finRange 32).flatMap fun a => ((List.finRange 4).filter fun c =>
    let x := s.ctxOf a c
    x.team.toNat == team && (match x.storeTurn with | some e => e.op == .send && e.phase == 0 | none => false)).map fun c =>
      Instr.queuePerform a c true
  let copies := (List.finRange 32).flatMap fun a =>
    (if (s.arr a).near.any (fun j => j.op == 0x25 && j.team == team) then [Instr.copyBeat a.val false] else []) ++
    if (s.arr a).poolq.any (fun j => j.op == 0x25 && j.team == team) then [Instr.copyBeat a.val true] else []
  .next ((sends ++ copies).foldl (fun (u : State) i => u.atAc (s.now + 1) i) s1)

/-- RCV (R308): a tag wait on the slot at HEAD, which an older ETAG of the context sets first (R275). -/
def execRcv (gd : Reg) (ring : BitVec 2) (s : State) : Out :=
  s.gate [] gd
    (let n : Fin 4 := ⟨ring.toNat, ring.isLt⟩
     let r := s.me.rings[n]
     if r.log2n = 0 then .next (s.faultSlot fDescr)
     else if s.me.etagCovers (r.head.toNat / 32) || !(s.arr s.act.arr).full (r.head.toNat / 32) then .next s.keep
     else .next (s.retire fun c =>
       { c.wr s.now gd (r.head.zeroExtend 64) with
         rings := c.rings.set n.val { r with head := r.next r.head } n.isLt }))

/-! Barriers (R309, R310). -/

/-- The quad, die or package that a barrier scope names around an array. -/
def barrierUnit (scope : Nat) (a : ArrId) : Nat :=
  if scope = 1 then ArrId.quad a else if scope = 2 then ArrId.die a else 0

/-- The ranks that take part in a barrier. -/
def State.participants (s : State) (b : Barrier) : List Nat :=
  match s.team? b.team with
  | none => []
  | some t =>
    if b.scope = 7 then (List.range t.tsize).filter fun r => !(t.tasks.any fun k => k.rank == r && k.ended)
    else if b.scope = 5 then List.range t.tsize
    else (t.tasks.filter fun k => barrierUnit b.scope k.arr == b.unit_).map (·.rank)

def Barrier.is (b : Barrier) (team scope unit_ id : Nat) : Bool :=
  b.team == team && b.scope == scope && b.unit_ == unit_ && b.id == id

/-- A rank arrives at a barrier; the last one completes the generation at the end of the ac. -/
def State.arriveAt (s : State) (team scope unit_ id rank : Nat) : State :=
  let s1 : State := if s.barriers.any (·.is team scope unit_ id) then s
    else { s with barriers := s.barriers ++ [⟨s.barriers.foldl (fun m b => max m (b.no + 1)) 0, team, scope, unit_, id, 0, []⟩] }
  let bs := modWhere (fun b : Barrier => b.is team scope unit_ id) (fun b => { b with here := insertNat rank b.here })
    s1.barriers
  let s2 := { s1 with barriers := bs }
  match s2.barriers.find? (·.is team scope unit_ id) with
  | none => s2
  | some b => if (s2.participants b).all fun r => b.here.contains r then s2.atEnd s.now (.barrierComplete b.no) else s2

/-- The generation that a context would arrive at. -/
def State.genOf (s : State) (team scope unit_ id : Nat) : Nat :=
  match s.barriers.find? (·.is team scope unit_ id) with
  | some b => b.gen
  | none => 0

/-- BARRIER_COMPLETE (R309): the generation of barrier `no` completes once every participant has arrived; waiting
contexts are released. -/
def execBarrierComplete (no : Nat) (s : State) : Out :=
  match s.barriers.find? (·.no == no) with
  | none => .next s
  | some b =>
    if b.here.isEmpty || !((s.participants b).all fun r => b.here.contains r) then .next s else
    let s1 := { s with barriers := modWhere (fun q : Barrier => q.no == no) (fun q => { q with gen := q.gen + 1, here := [] }) s.barriers }
    let tasks := match s.team? b.team with | some t => t.tasks | none => []
    .next (tasks.foldl (fun u k =>
      if b.scope = 5 ∨ b.scope = 7 ∨ barrierUnit b.scope k.arr = b.unit_ then
        u.modCtx k.arr k.ctx fun x =>
          if x.team.toNat = b.team then { x with arrived := x.arrived.erase (b.scope, b.id, b.gen) } else x
      else u) s1)

/-- An arrival of the actor at a barrier; in a rerun, one that the first run made is skipped (R310). -/
def State.arriveMe (s : State) (scope id : Nat) : State :=
  if 0 < s.me.skip then (s.modMe fun c => { c with skip := c.skip - 1, arrivals := c.arrivals + 1 })
  else
    let team := s.me.team.toNat
    let u := barrierUnit scope s.act.arr
    let g := s.genOf team scope u id
    let s1 := s.modMe fun c => { c with arrived := c.arrived ++ [(scope, id, g)], arrivals := c.arrivals + 1 }
    let far : Bool := match s.team? team with
      | some t => decide (t.ntasks < t.tsize) && decide (scope = 5 ∨ scope = 7)
      | none => false
    let s2 := if far then s1.send (.arrived team scope id g s.me.rank.toNat) else s1
    s2.arriveAt team scope u id s.me.rank.toNat

/-- BARA may issue: older releases are complete, and so is the previous arrival at the barrier (R309). -/
def State.mayArrive (s : State) (scope id : Nat) : Bool :=
  s.me.storeQ.all (·.op != .release) && !(s.me.arrived.any fun e => e.1 == scope && e.2.1 == id)

def execBara (id : BitVec 4) (scope : BitVec 3) (s : State) : Out :=
  if s.me.skip = 0 && !s.mayArrive scope.toNat id.toNat then .next s.keep
  else .next ((s.arriveMe scope.toNat id.toNat).retire fun c => c)

def execBarw (id : BitVec 4) (scope : BitVec 3) (s : State) : Out :=
  if s.me.arrived.any fun e => e.1 == scope.toNat && e.2.1 == id.toNat then .next s.keep else .next (s.retire fun c => c)

def execBar (id : BitVec 4) (scope : BitVec 3) (s : State) : Out :=
  if s.phase = 0 then
    if 0 < s.me.skip then .next ((s.arriveMe scope.toNat id.toNat).retire fun c => c)
    else if !s.mayArrive scope.toNat id.toNat then .next s.keep
    else .next ((s.arriveMe scope.toNat id.toNat).hold 1)
  else if s.me.arrived.any fun e => e.1 == scope.toNat && e.2.1 == id.toNat then .next s.keep
  else .next (s.retire fun c => c)

end Sys2Proof.Machine
end

