-- ==== Sys2Proof/Machine/CopyOps.lean ====
section
/-! DEFINITION. Copies (R99, R100, R131, R132, R297 to R305) of the array copy engines and of the bulk copy engines
(R316, R322). Engines 0 to 31 are the arrays', 32 to 39 the bulk copy engines. -/

namespace Sys2Proof.Machine

/-! The window of a copy (R297). A COPY job moves one row; its handle field holds the length. -/

def CopyJob.rows (j : CopyJob) : Nat := if j.bulk then 1 else tileField j.th 40 4
def CopyJob.wbytes (j : CopyJob) : Nat := if j.bulk then j.th.toNat else tileField j.th 44 4
def CopyJob.srcAs (j : CopyJob) : Bool := !j.bulk && j.op != 0x22 && j.th.extractLsb' 0 2 == 1
def CopyJob.dstAs (j : CopyJob) : Bool := !j.bulk && j.th.extractLsb' 2 2 == 1
def CopyJob.dspace (j : CopyJob) : Nat := if j.bulk then 0 else (j.th.extractLsb' 2 2).toNat
def CopyJob.joins (j : CopyJob) : Bool := !j.bulk && j.th.getLsbD 4
def CopyJob.rs (j : CopyJob) : Nat := if j.bulk then 0 else tileField j.th 16 4
def CopyJob.drs (j : CopyJob) : Nat := if j.bulk then 0 else tileField j.th 20 4
def CopyJob.dsbase (j : CopyJob) : Nat := tileField j.th 48 4

/-- Where byte `b` of row `i` comes from: a given byte, or an address in the source space; and whether it is
clipped. -/
def CopyJob.source (j : CopyJob) (i b : Nat) : (Byte ⊕ Nat) × Bool :=
  if j.bulk then
    (.inr (if j.op = 0x22 then j.ga.toNat + b % 8 else j.ga.toNat + b), false)
  else if j.op = 0x22 then (.inl (byteOf j.ga (b % 8)), false)
  else
    let y := tileSigned j.th 32 + i
    let x := tileSigned j.th 36 + b
    if y < 0 ∨ y ≥ tileField j.th 24 4 ∨ x < 0 ∨ x ≥ tileField j.th 28 4 then
      (.inl (byteOf (j.th.extractLsb' 32 32) (b % 4)), true)
    else (.inr (j.ga.toNat + y.toNat * j.rs + x.toNat), false)

/-- The destination address of byte `b` of row `i`. -/
def CopyJob.dest (j : CopyJob) (i b : Nat) : Nat :=
  (if j.op = 0x25 then peerOffset j.gb else j.gb.toNat) + i * j.drs + b

/-- Bytes of a source unit: an array-store word or a line. -/
def CopyJob.unitSize (j : CopyJob) : Nat := if j.srcAs then 32 else 64

/-- The end of the beat that starts at the job's column: a destination line, or an array-store word. -/
def CopyJob.beatEnd (j : CopyJob) : Nat :=
  let d := j.dest j.row j.col
  let u := if j.dspace = 0 then 64 else 32
  min j.wbytes (j.col + (u - d % u))

/-! Checks that complete a copy before its first byte (R297 to R302). -/

def CopyJob.elem (j : CopyJob) : Nat := if j.opt then 2 else 4

def CopyJob.shape (j : CopyJob) : Nat :=
  let ds := j.dspace
  let allowed := if j.op = 0x24 then ds == 0 else if j.op = 0x25 then ds == 2 else ds ≤ 1
  let m32 := fun (l : List Nat) => l.all fun n => n % 32 == 0
  if j.rows = 0 ∨ allowed = false then 0x12
  else if j.joins && !(j.op == 0x21 || j.op == 0x23) then 0x12
  else if j.srcAs && !m32 [j.ga.toNat, j.rs, j.wbytes] then 0x11
  else if ds != 0 && !m32 [j.dest 0 0, j.drs, j.wbytes] then 0x11
  else if j.joins && !m32 [j.ga.toNat, j.rs, j.wbytes] then 0x11
  else if j.op == 0x24 && !([j.ga.toNat, j.gb.toNat, j.rs, j.drs, j.wbytes].all (fun n => n % j.elem == 0) &&
      (j.bulk || tileSigned j.th 36 % j.elem == 0)) then 0x11
  else 0

/-! Engines. -/

/-- The job at the head of an engine's queue is changed. -/
def State.putHead (s : State) (e : Nat) (pool : Bool) (j : CopyJob) : State :=
  s.setCopyQ e pool (match s.copyQ e pool with | [] => [] | _ :: t => j :: t)

/-- The ring that a job's records go to (R65, R79). -/
def State.copyRing (s : State) (e : Nat) (j : CopyJob) : Nat :=
  if j.bulk then 128 + (e - 32) else (s.issuer j).ring

/-- Translate and check an address of a copy, for the engine that makes it. Publication entries are read-only (R70, R126). -/
def State.copyAccess (s : State) (e : Nat) (pool : Bool) (j : CopyJob) (u : Use) (dva : Nat) : Except Nat Target × State :=
  if dva ≥ 2 ^ 55 then (.error 0x16, s)
  else match s.access (.copy e pool) j.asid j.sec (if j.bulk then none else some j.rank.toNat) u dva with
    | (.ok t, s1) => (if u.writes && s1.pubEntryAt j.team dva t.pa then .error fPermission else .ok t, s1)
    | r => r

/-! Chunks to other packages (R372). -/

def Chunk.size (k : Chunk) : Nat := (k.runs.map fun r => r.2.length).foldl (· + ·) 0

/-- The chunk that a copy is filling is sent, in the copy's world and for its ASID (R31). -/
def State.sendPart (s : State) (j : CopyJob) : State × CopyJob :=
  match j.part with
  | none => (s, j)
  | some (p, k) =>
    let c := s.chunksTo p
    let m := { k with seq := c.nextOut }
    ((s.putChunks { c with nextOut := c.nextOut + 1, unacked := c.unacked ++ [m] }).send (.chunk p m),
      { j with part := none, sent := j.sent ++ [(p, m.seq)] })

/-- A run of bytes joins the copy's chunk to a package, which is sent once it holds 4,096 bytes; one for another place goes first. -/
def State.addRun (s : State) (j : CopyJob) (p rank reduce addr : Nat) (bs : List Byte) : State × CopyJob :=
  let fresh : Chunk := ⟨0, rank, reduce, j.sec, j.asid, []⟩
  let same := match j.part with | some (q, k) => q == p && k.rank == rank && k.reduce == reduce | none => true
  let (s1, j1) := if same then (s, j) else s.sendPart j
  let k := match j1.part with | some e => e.2 | none => fresh
  let room := 4096 - k.size
  let j2 := { j1 with part := some (p, { k with runs := k.runs ++ [(addr, bs.take room)] }) }
  if bs.length < room then (s1, j2)
  else
    let (s2, j3) := s1.sendPart j2
    (s2, if bs.length = room then j3 else { j3 with part := some (p, { fresh with runs := [(addr + room, bs.drop room)] }) })

/-- The chunks that some copies are filling are sent as they are: a copy stops at the end of a chunk (R372), and the bytes that it
has moved are on their way (R127). -/
def State.flushParts (s : State) (p : CopyJob → Bool) : State :=
  (List.range 40).foldl (fun (u : State) e => [false, true].foldl (fun (v : State) pool =>
    ((v.copyQ e pool).filter fun j => j.part.isSome && p j).foldl (fun (w : State) j =>
      let r := w.sendPart j
      r.1.modCopy e pool j.id fun k => { k with part := none, sent := r.2.sent }) v) u) s

/-- A copy stops on a page that is not present: it waits at the back of its queue, a page-request record is
written (R132). -/
def State.copyPend (s : State) (e : Nat) (pool : Bool) (j : CopyJob) (dva : Nat) : State :=
  let (s0, k) := s.sendPart j
  let s1 := s0.report { errRec 0x0024 (if j.bulk then 10 else 0) 0 (e % 32) with
    addr := dva, asid := j.asid.toNat, queue := (if j.bulk then (match s.job? j.job with | some k => k.queue.val | none => 0xFFFF) else (s.issuer j).queue),
    rank := j.rank.toNat, flags := 0x10 }
  s1.setCopyQ e pool (match s1.copyQ e pool with
    | [] => []
    | _ :: t => t ++ [{ k with pageWait := some dva, stale := false, ready := false }])

/-- A copy completes with a status (R303, R304). -/
def State.copyEnd (s : State) (e : Nat) (pool : Bool) (j : CopyJob) (status : Nat) : State :=
  let (s1, k) := s.sendPart j
  (s1.putHead e pool { k with status := status, done := true, stale := false }).soon (.copyComplete e pool)

/-- How the gathering of a beat comes out: everything up to a byte is there, something has been fetched, a walk is waited for, or a
status is met, the earlier bytes of the beat being moved first. -/
inductive Gather where
  | ready (last : Nat)
  | fetched (s : State)
  | waits
  | stop (s : State) (code : Nat) (addr : Nat)

/-- A line as a copy engine's log shows it: a bulk copy engine sees its own unfolded records (R86). -/
def State.patchRing (s : State) (ring l : Nat) (d : LineData) : LineData :=
  match s.ring? ring with
  | none => d
  | some r =>
    (List.range (r.tail - r.fold)).foldl (fun v i =>
      match r.recs.get none ((r.fold + i) % r.n) with
      | some rc => if !rc.rel && s.named rc.line.toNat == l then mergeLine v rc.data rc.mask else v
      | none => v) d

/-- Read a source line in the issuer's view (R22, R99): data, poison. -/
def State.copyLine (s : State) (e : Nat) (j : CopyJob) (t : Target) : LineData × Bool × State :=
  let l := t.pa / 64
  if j.bulk || (j.away && t.kind.isLogged) then
    let (d, p, s1) := s.homeRead l j.asid
    (s1.patchRing (s1.copyRing e j) l d, p, s1)
  else if t.kind.isLogged then let (v, s1) := s.viewLine j.arr j.ctx l; (v.data, v.poison, s1)
  else if t.kind == .owned && !j.away then let (v, s1) := s.ownedLine j.arr j.ctx l; (v.data, v.poison, s1)
  else s.homeRead l j.asid

/-- The scale of the data word at a physical address (R26), read through the same view; the address of the scale is checked as
every physical address is (R15, R30). -/
def State.scaleAt (s : State) (e : Nat) (j : CopyJob) (t : Target) (pa : Nat) : Except Nat (BitVec 32) × State :=
  match s.fw.toList.find? fun w => w.ena && decide (w.base.toNat ≤ pa / 65536 ∧ pa / 65536 ≤ w.limit.toNat) with
  | none => (.ok Config.oneF32, s)
  | some w =>
    let q := w.sbase.toNat * 64 + (pa - w.base.toNat * 65536) / 32 * 4
    match s.physFault q j.sec t.kind with
    | some (c, reason) =>
      (.error (Use.copyRead.abortCode c),
        if reason = 0 then s else
        s.report { errRec reason (if j.bulk then 10 else 0) 2 (e % 32) with addr := q, asid := j.asid.toNat })
    | none =>
      let (d, p, s1) := s.copyLine e j { t with pa := q }
      (if p then .error 0x13 else .ok ((lineField d (q % 64) 4).truncate 32), s1)

/-- A source line has to be asked of its owner: no view and no slice has a copy of it. -/
def State.copyAsks (s : State) (j : CopyJob) (t : Target) : Bool :=
  let l := t.pa / 64
  !s.ours l && j.got != some l &&
  !(t.kind.isLogged && (s.copyHere l || (!j.bulk && !j.away && (s.arr j.arr).vc.any fun v => v.ownOf j.ctx l ||
    (!(s.ctxOf j.arr j.ctx).hasOwn l && v.viewOf (s.ctxOf j.arr j.ctx) l))))

/-- The job at the head asks an owner and waits for the answer. -/
def State.copyRequest (s : State) (e : Nat) (pool : Bool) (j : CopyJob) (pa : Nat) (op : AskOp) : State :=
  (s.putHead e pool { j with asWait := 1 }).request (.copy e pool j.id) pa op j.sec j.asid

/-- Keys above this hold the two scales of a line in a job's buffer, and above the next one mark an array-store word that was read
with an error. -/
def scaleKey : Nat := 2 ^ 60
def badKey : Nat := 2 ^ 61

/-- Fetch what byte `b` of the current row needs. -/
def State.gatherByte (s : State) (e : Nat) (pool : Bool) (j : CopyJob) (b : Nat) : Gather :=
  match (j.source j.row b).1 with
  | .inl _ => .ready b
  | .inr addr =>
    let k := addr / j.unitSize
    if j.srcBuf.any (·.1 == k) then .ready b
    else if j.srcBuf.any (·.1 == badKey + k) then .stop s 0x13 addr
    else if j.srcAs then
      if addr ≥ 0x1000000 || !(s.planOf (s.issuer j)).holds (k * 32) 32 then .stop s 0x10 addr
      else .fetched ((s.putHead e pool { j with asWait := 1 }).askAs j.arr j.arr 4 (.copyRead pool) k .ignore false 0 0)
    else match s.copyAccess e pool j .copyRead addr with
      | (.error code, s1) =>
        if code = fWalking then (if s1.walks.length = s.walks.length then .waits else .fetched s1) else .stop s1 code addr
      | (.ok t, s1) =>
        if s1.needsMend (t.pa / 64) then (match s1.awaitMend (t.pa / 64) with | some u => .fetched u | none => .waits)
        else if s1.copyAsks j t then (if s1.hostBusy (t.pa / 64) then .waits else .fetched (s1.copyRequest e pool j t.pa .read))
        else
          let (d, p, s2) := s1.copyLine e j t
          let w0 := t.pa / 64 * 64
          let (c0, s3) := if j.joins then s2.scaleAt e j t w0 else (.ok 0, s2)
          let (c1, s4) := if j.joins then s3.scaleAt e j t (w0 + 32) else (.ok 0, s3)
          if p then .stop s2 (if t.kind == .pool then fExtent else 0x13) addr
          else match c0, c1 with
          | .error c, _ => .stop s3 c addr
          | _, .error c => .stop s4 c addr
          | .ok x0, .ok x1 => .fetched (s4.putHead e pool
            { j with
              got := none
              srcBuf := j.srcBuf ++ [(k, d), (scaleKey + k, BitVec.ofNat 512 (x0.toNat + x1.toNat * 2 ^ 32))] })

/-- Gather from byte `b` for `n` bytes: all present, or something fetched, or a status at a byte. -/
def State.gather (s : State) (e : Nat) (pool : Bool) (j : CopyJob) (b : Nat) : Nat → Gather
  | 0 => .ready b
  | n + 1 =>
    match s.gatherByte e pool j b with
    | .ready _ => State.gather s e pool j (b + 1) n
    | .fetched s1 => .fetched s1
    | .waits => .waits
    | .stop s1 code addr => if b = j.col then .stop s1 code addr else .ready b

/-- The value of a gathered byte. -/
def CopyJob.byteAt (j : CopyJob) (b : Nat) : Byte :=
  match (j.source j.row b).1 with
  | .inl v => v
  | .inr addr =>
    match j.srcBuf.find? (·.1 == addr / j.unitSize) with
    | some (_, d) => byteOf d (addr % j.unitSize)
    | none => 0

/-- The scale of the array-store word that holds byte `b`: 1.0 for a word whose bytes are all clipped (R298). -/
def CopyJob.scaleOf (j : CopyJob) (b : Nat) : BitVec 32 :=
  match (List.range 32).findSome? fun i =>
      match (j.source j.row (b + i)).1 with | .inr a => some a | .inl _ => none with
  | none => Config.oneF32
  | some a =>
    match j.srcBuf.find? (·.1 == scaleKey + a / 64) with
    | some (_, d) => if a % 64 < 32 then d.extractLsb' 0 32 else d.extractLsb' 32 32
    | none => Config.oneF32

/-- The lowest source address that row `i` reads from its byte `b` on. -/
def CopyJob.lowest (j : CopyJob) (i b : Nat) : Option Nat :=
  if j.op = 0x22 ∨ j.wbytes ≤ b ∨ j.rows ≤ i then none
  else if j.bulk then some (j.ga.toNat + b)
  else
    let y := tileSigned j.th 32 + i
    let x := max 0 (tileSigned j.th 36 + b)
    if y < 0 ∨ y ≥ tileField j.th 24 4 ∨ x ≥ min (tileField j.th 28 4 : Int) (tileSigned j.th 36 + j.wbytes) then none
    else some (j.ga.toNat + y.toNat * j.rs + x.toNat)

/-- A fetched unit is kept while the rest of the row, from byte `b`, or a later row reads of it: a source line is read whole, in one
step (R99). The addresses of a row rise, and so do those of one byte from row to row. -/
def CopyJob.keeps (j : CopyJob) (b : Nat) (k : Nat) : Bool :=
  let reach := fun (m : Option Nat) => match m with | some a => decide (a < (k % scaleKey + 1) * j.unitSize) | none => false
  reach (j.lowest j.row b) || reach (j.lowest (j.row + 1) 0)

/-- The job after the bytes up to `last` of its row have been written. -/
def CopyJob.advance (j : CopyJob) (last : Nat) : CopyJob :=
  let bs := (List.range (last - j.col)).map fun i => (j.source j.row (j.col + i)).2
  let n := if j.op = 0x22 then bs.length else (bs.filter (!·)).length
  let k : CopyJob :=
    { j with
      bytes := j.bytes + n, clip := j.clip || (j.op != 0x22 && bs.any (· == true))
      srcBuf := j.srcBuf.filter fun u => j.keeps last u.1
      asBuf := none, asWait := 0, stage := 0, got := none, stale := false }
  if last ≥ j.wbytes then { k with row := j.row + 1, col := 0 } else { k with col := last }

/-! Writing at the destination. -/

/-- Elements added at home (R301), from a byte of a line. -/
def addElems (bf : Bool) (old new : List Byte) : List Byte :=
  let n := if bf then 2 else 4
  let f := if bf then bf16 else fp32
  ((List.range (new.length / n)).map fun k =>
    natToBytes n (f.sum .rne (bytesToNat ((old.drop (k * n)).take n)) (bytesToNat ((new.drop (k * n)).take n))).1).flatten

/-- Bytes placed in a line, as data and mask. -/
def placeBytes (off : Nat) (bs : List Byte) : LineData × BitVec 64 := atByte (bytesToNat bs) off bs.length

/-- Append a copy's record for the issuer (R65, R74, R100). None: it waits, for a store to the line that has patched the own copy
and has still to enter the log among others; a forced publication may begin, behind the releases that are queued (R67, R90). -/
def State.copyAppend (s : State) (e : Nat) (j : CopyJob) (t : Target) (bs : List Byte) : Option (State × Bool) :=
  let ring := s.copyRing e j
  let l := t.pa / 64
  let (d, m) := placeBytes (t.pa % 64) bs
  let x := s.issuer j
  let full : Bool := match s.ring? ring with
    | some r => decide (r.tail - r.pub + (if j.bulk then 0 else x.buf.length) + 1 > r.n - 1)
    | none => false
  if full then
    (if s.releasing ring || (!j.bulk && !j.away && x.releaseAhead) then none
    else
      let u := s.startRelease ring 5 false true false x.mseq
      some (match if j.bulk then s.job? j.job else none with
        | some k => u.modQueue k.queue.val fun q => { q with forced := q.forced + 1 }
        | none => u, false))
  else if !j.bulk && !j.away && x.storeQ.any (fun q => q.unentered && q.pa / 64 == l) then none
  else if !j.bulk && !j.away && !x.indexRoom l then none
  else
    let s1 := if j.bulk || j.away then some s else s.appendThrough j.arr j.ctx l 17
    match s1 with
    | none => none
    | some u =>
      (if j.bulk then u.appendFor ring (dataRecord l t.kind 0 m d true false) j.asid j.sec
        else u.append ring (dataRecord l t.kind 0 m d true false)).map fun v =>
        (if j.bulk || j.away then v else v.patchPresent j.arr j.ctx l d m, true)

/-- A copy of a peer line goes to its owner as a chunk; what is known here of the line follows. -/
def State.copyFar (s : State) (j : CopyJob) (pa reduce : Nat) (bs new : List Byte) : State × CopyJob × Bool :=
  let p := s.redirect (peerOf pa)
  let (s1, k) := s.addRun j p 0 reduce ((pa - Config.peerBase) % 2 ^ 41) bs
  let (d, m) := placeBytes (pa % 64) new
  (s1.known (pa / 64) m d, k, true)

/-- Write bytes within one line of the host's memory, with their owner's acceptance; what is added there is added on the line
held exclusive, which is then given up (R97, R301). -/
def State.copyHost (s : State) (e : Nat) (pool : Bool) (j : CopyJob) (pa : Nat) (bs : List Byte) : State × CopyJob × Bool :=
  let l := pa / 64
  if j.op != 0x24 || j.stage = 5 then
    let (d, m) := placeBytes (pa % 64) bs
    if j.got = some l then (if j.op = 0x24 then s.evictL2 l else s, { j with stage := 0 }, true)
    else
      let s1 := s.copyRequest e pool j pa (.write m d)
      (s1, ((s1.copyQ e pool).head?).getD j, false)
  else if j.got = some l then
    let (old, _, s1) := s.homeRead l j.asid
    let (d, m) := placeBytes (pa % 64) (addElems j.opt ((lineBytes old).drop (pa % 64)) bs)
    let s2 := (s1.known l m d).copyRequest e pool { j with got := none, stage := 5 } pa (.write m d)
    (s2, ((s2.copyQ e pool).head?).getD j, false)
  else
    let s1 := s.copyRequest e pool j pa .own
    (s1, ((s1.copyQ e pool).head?).getD j, false)

/-- Write bytes within one line of a DVA destination: none if it waits, else the state, the job, and whether they are
written. A beat that a migration's write protection holds is no longer in flight (R127, R130). -/
def State.copyPut (s : State) (e : Nat) (pool : Bool) (j : CopyJob) (t : Target) (bs : List Byte) : Option (State × CopyJob × Bool) :=
  let l := t.pa / 64
  let far := rangeOf t.pa == .peer && !s.ours l
  if t.wp then (if j.stale then some (s, { j with stale := false }, false) else none)
  else if t.kind.isLogged && j.op != 0x24 then (s.copyAppend e j t bs).map fun r => (r.1, j, r.2)
  else if t.kind == .host then (if j.got != some l && s.hostBusy l then none else some (s.copyHost e pool j t.pa bs))
  else if j.op = 0x24 then
    let s0 := if t.kind == .owned && !j.away then s.writeBackOwned j.arr (·.ownedBy j.ctx l) true else s
    let (old, _, s1) := s0.homeRead l j.asid
    let new := addElems j.opt ((lineBytes old).drop (t.pa % 64)) bs
    let (d, m) := placeBytes (t.pa % 64) new
    if far then some (s1.copyFar j t.pa (if j.opt then 2 else 1) bs new)
    else
      let s2 := s1.homeWrite l m d j.asid false
      some (if t.kind == .pool && !j.bulk && !j.away then s2.modArr j.arr (·.dropCopies j.ctx j.asid l) else s2, j, true)
  else
    let (d, m) := placeBytes (t.pa % 64) bs
    if t.kind == .owned && !j.away then some (s.ownedCopy j.arr j.ctx l d m, j, true)
    else if far then some (s.copyFar j t.pa 0 bs bs)
    else some (s.homeWrite l m d j.asid true, j, true)

/-- A status of a translation ends the copy; a page not present makes it wait, and so does a walk. -/
def State.copyFail (s : State) (e : Nat) (pool : Bool) (j : CopyJob) (code addr : Nat) : State :=
  if code = fWalking then s else
  if code = fNotPresent then s.copyPend e pool j addr else s.copyEnd e pool j code

/-- Ask the array store for a word of the destination, to be set full (R41, R297). -/
def State.copyAsWrite (s : State) (e : Nat) (pool : Bool) (j : CopyJob) (off : Nat) (bs : List Byte) (stage : Nat) : State :=
  let m := BitVec.ofNat 32 ((2 ^ bs.length - 1) * 2 ^ (off % 32))
  let v := BitVec.ofNat 256 (bytesToNat bs * 2 ^ (8 * (off % 32)))
  (s.putHead e pool { j with asWait := 1, stage := stage }).askAs j.arr j.arr 4 (.copyWrite pool) (off / 32) .setFull true m v

/-- An array-store byte of a copy lies in the store and in the plan. -/
def State.copyAsOk (s : State) (j : CopyJob) (off n : Nat) : Bool :=
  decide (off + n ≤ 0x1000000) && (s.planOf (s.issuer j)).holds (off / 32 * 32) 32

/-- A beat written to a DVA destination: the job goes on, or waits for it. None: no progress. -/
def State.copyWritten (s : State) (e : Nat) (pool : Bool) (j : CopyJob) (dva : Nat) (bs : List Byte) (next : CopyJob → CopyJob) :
    Option State :=
  match s.copyAccess e pool j (if j.op = 0x24 then .copyReduce else .copyWrite) dva with
  | (.error code, s1) =>
    if code = fWalking && s1.walks.length == s.walks.length then none else some (s1.copyFail e pool j code dva)
  | (.ok t, s1) => (s1.copyPut e pool j t bs).map fun r => r.1.putHead e pool (if r.2.2 then next r.2.1 else r.2.1)

/-- Bytes within one array-store word, as they arrive at a network interface to be written there and set full (R302). -/
def netBytes (off : Nat) (bs : List Byte) : NetMsg :=
  { src := 0, srcCtx := 0, remote := none, ring := none, word := off / 32
    data := BitVec.ofNat 256 (bytesToNat bs * 2 ^ (8 * (off % 32)))
    mask := BitVec.ofNat 32 ((2 ^ bs.length - 1) * 2 ^ (off % 32)), posted := false, copy := none, chunk := none }

/-- Write what has been gathered up to byte `last`. A peer reference to the issuer's own array acts there directly (R20). -/
def State.copyWrite (s : State) (e : Nat) (pool : Bool) (j : CopyJob) (last : Nat) : Option State :=
  let bs := (List.range (last - j.col)).map fun i => j.byteAt (j.col + i)
  let d := j.dest j.row j.col
  match j.dspace with
  | 0 => s.copyWritten e pool j d bs (·.advance last)
  | 1 =>
    if !s.copyAsOk j d bs.length then some (s.copyEnd e pool j 0x10)
    else some (s.copyAsWrite e pool { j with upto := last } d bs 1)
  | _ =>
    match s.peer (s.issuer j).team.toNat j.gb with
    | .here b _ =>
      if !s.copyAsOk j d bs.length then some (s.copyEnd e pool j 0x10)
      else if b = j.arr then some (s.copyAsWrite e pool { j with upto := last } d bs 1)
      else some ((s.putHead e pool { j.advance last with sent := j.sent ++ [(s.pkgNo, j.id)] }).arrive b
        { netBytes d bs with src := j.arr, srcCtx := j.ctx, copy := some j.id })
    | .away rank =>
      let p := match s.team? (s.issuer j).team.toNat with
        | some t => (s.rankPkg t rank).getD 0
        | none => 0
      if !s.copyAsOk j d bs.length then some (s.copyEnd e pool j 0x10)
      else
        let (s1, k) := s.addRun j p ((s.issuer j).team.toNat * 2 ^ 14 + rank) 3 d bs
        some (s1.putHead e pool (k.advance last))
    | .invalid => none
    | _ => some (s.copyEnd e pool j 0x12)

/-- The stamp of CPYG, after every payload byte (R300). -/
def State.copyStamp (s : State) (e : Nat) (pool : Bool) (j : CopyJob) : Option State :=
  let d := j.gb.toNat + j.rows * j.drs
  let bs := natToBytes 8 j.stampNo
  if j.dspace = 1 then
    if d % 32 ≠ 0 then some (s.copyEnd e pool j 0x11)
    else if !s.copyAsOk j d 32 then some (s.copyEnd e pool j 0x10)
    else some (s.copyAsWrite e pool j d (natToBytes 32 j.stampNo) 3)
  else if d % 8 ≠ 0 then some (s.copyEnd e pool j 0x11)
  else s.copyWritten e pool j d bs fun k => { k with stamped := true, asWait := 0, stage := 0, got := none, stale := false }

/-- What follows an array-store access of the job at the head. -/
def CopyJob.asReturned (j : CopyJob) : CopyJob :=
  match j.asBuf with
  | some v =>
    let k := match (List.range (j.beatEnd - j.col)).findSome? fun i =>
        match (j.source j.row (j.col + i)).1 with
        | .inr a => if j.srcBuf.any (·.1 == a / 32) then none else some (a / 32)
        | .inl _ => none with
      | some n => n
      | none => 0
    { j with srcBuf := j.srcBuf ++ [(if j.asBad then badKey + k else k, v.zeroExtend 512)], asBuf := none, asBad := false, asWait := 0 }
  | none => { j with asWait := 0 }

/-- The next beat of the copy at the head of an engine's queue. None: it cannot be made yet. -/
def State.copyStep (s : State) (e : Nat) (pool : Bool) : Option State :=
  match s.copyQ e pool with
  | [] => none
  | j :: _ =>
    if j.pageWait.isSome || j.asWait == 1 then none
    else if j.done then
      (if j.bulk && j.token && !s.releasing (s.copyRing e j) then some (s.soon (.copyComplete e pool)) else none)
    else if j.stopped || j.status != 0 then some (s.copyEnd e pool j j.status)
    else if j.asWait = 2 then
      match j.asBuf, j.stage with
      | some _, _ => some (s.putHead e pool j.asReturned)
      | none, 1 =>
        if j.joins then
          let off := j.dsbase + j.dest j.row j.col / 32 * 4
          if !s.copyAsOk j off 4 then some (s.copyEnd e pool j 0x10)
          else some (s.copyAsWrite e pool j off (natToBytes 4 (j.scaleOf j.col).toNat) 2)
        else some (s.putHead e pool (j.advance j.upto))
      | none, 2 => some (s.putHead e pool (j.advance j.upto))
      | none, _ => some (s.putHead e pool { j with stamped := true, asWait := 0, stage := 0 })
    else if j.row = 0 ∧ j.col = 0 ∧ j.shape ≠ 0 then some (s.copyEnd e pool j j.shape)
    else if j.row ≥ j.rows then
      if j.part.isSome then (let (s1, k) := s.sendPart j; some (s1.putHead e pool k))
      else if !j.sent.isEmpty then none
      else if j.op == 0x23 && j.opt && !j.stamped then s.copyStamp e pool j
      else some (s.copyEnd e pool j 0)
    else match s.gather e pool j j.col (j.beatEnd - j.col) with
      | .fetched s1 => some s1
      | .waits => none
      | .stop s1 code addr => some (s1.copyFail e pool j code addr)
      | .ready last => s.copyWrite e pool j last

/-- COPY_BEAT (R99, R297): the engine makes the next beat of the copy at the head of a class queue. -/
def execCopyBeat (engine : Nat) (pool : Bool) (s : State) : Out := .next ((s.copyStep engine pool).getD s)

/-- The token of a copy (R303). -/
def CopyJob.tokenWord (j : CopyJob) : Word :=
  BitVec.ofNat 64 (j.bytes % 2 ^ 40 + j.status % 256 * 2 ^ 40 + (if j.clip then 2 ^ 48 else 0))

/-- The queue's progress counter moves on (R332). -/
def State.progress (s : State) (q : Nat) : State := s.modQueue q fun x => { x with prog := x.prog + 1, progAc := s.now }

/-- A COPY job completes with the release of its records (R316); one that was terminated completes as failed (R346). -/
def State.copyJobDone (s : State) (job ring : Nat) : State :=
  match s.job? job with
  | none => s
  | some k =>
    let pub := match s.ring? ring with | some r => r.pub | none => 0
    let s1 := s.modJob job fun x => { x with rings := [ring], team := pub }
    (if k.failed then s1.failJob job else s1.completeJob job false).progress k.queue.val

/-- COPY_COMPLETE (R303, R316): the copy at the head leaves its queue and its token is written; a COPY job first
releases its records at .pkg. -/
def execCopyComplete (engine : Nat) (pool : Bool) (s : State) : Out :=
  match s.copyQ engine pool with
  | [] => .next s
  | j :: t =>
    if !j.done then .next s
    else if j.bulk then
      let ring := s.copyRing engine j
      if !j.token then
        if s.releasing ring then .next ((s.putHead engine pool { j with token := true }).atAc (s.now + 1) (.copyComplete engine pool))
        else .next ((s.startRelease ring 3 false false false 0).putHead engine pool { j with token := true })
      else if s.releasing ring then .next s
      else .next (((s.setCopyQ engine pool t).forgetWalks (· == .copy engine pool)).copyJobDone j.job ring)
    else
      let s1 := (s.setCopyQ engine pool t).forgetWalks (· == .copy engine pool)
      if j.stopped then .next s1
      else if j.away then
        let s2 := if j.gd = 0 then s1 else s1.modTeam j.team fun t =>
          { t with tokens := t.tokens ++ [(j.rank.toNat, j.gd, j.tokenWord)] }
        .next (s2.progress (s1.issuer j).queue)
      else
        let x := s.ctxOf j.arr j.ctx
        let s2 := if decide (j.gd.toNat < 8) && j.gd != 0 && decide (j.seg < x.nodeSeg) then
            s1.modTeam j.team fun t => { t with tokens := t.tokens ++ [(j.rank.toNat, j.gd, j.tokenWord)] } else s1
        .next ((s2.modCtx j.arr j.ctx (·.deliver j.gd j.tokenWord)).progress x.queue)

/-! Issue (R297, R299, R131). -/

/-- Some number below `n` passes a test. -/
def anyBelow (p : Nat → Bool) : Nat → Bool
  | 0 => false
  | n + 1 => p n || anyBelow p n

/-- Some page of `n` bytes at a DVA translates to the pool. -/
def State.poolPages (s : State) (asid : BitVec 16) (sec : Bool) (dva n : Nat) : Bool :=
  n != 0 && anyBelow (fun i =>
    match s.walk asid sec ((dva / 65536 + i) * 65536) with
    | .ok (e, _) => leafKind e == 5
    | .error _ => false) ((dva + n - 1) / 65536 + 1 - dva / 65536)

/-- The first byte of a row that is read, and how many are. -/
def CopyJob.rowRead (j : CopyJob) (i : Nat) : Nat × Nat :=
  if j.bulk then (j.ga.toNat, if j.op = 0x22 then 0 else j.wbytes)
  else if j.op = 0x22 then (0, 0)
  else
    let y := tileSigned j.th 32 + i
    let x0 := max 0 (tileSigned j.th 36)
    let x1 := min (tileField j.th 28 4 : Int) (tileSigned j.th 36 + j.wbytes)
    if y < 0 ∨ y ≥ tileField j.th 24 4 ∨ x1 ≤ x0 then (0, 0)
    else (j.ga.toNat + y.toNat * j.rs + x0.toNat, (x1 - x0).toNat)

/-- The copy has a source or a destination line, its stamp among them, in the pool (R131). A page that does not translate when it issues counts as none
(assumption 138). -/
def State.poolSide (s : State) (j : CopyJob) : Bool :=
  anyBelow (fun i =>
    (!j.srcAs && s.poolPages j.asid j.sec (j.rowRead i).1 (j.rowRead i).2) ||
    (j.dspace == 0 && j.op != 0x25 && s.poolPages j.asid j.sec (j.dest i 0) j.wbytes)) j.rows ||
  (!j.bulk && j.op == 0x23 && j.opt && j.dspace == 0 && s.poolPages j.asid j.sec (j.dest j.rows 0) 8)

/-- A copy is issued (R297). One that a task issues after it has been asked to stop with its team, or for a relaunch, stops before its
first beat (R304, R343). -/
def State.copyOp (s : State) (op : Nat) (gd ga gb : Reg) (th : BitVec 4) (opt : Bool) : Out :=
  s.gate [ga, gb] gd
    (let x := s.me
     let h := x.th[th.toNat]'th.isLt
     let stamp := op == 0x23 && opt
     let j : CopyJob :=
         { id := s.copyNo, op := op, arr := s.act.arr, ctx := s.act.ctx, job := 0, gd := gd, ga := x.rd ga, gb := x.rd gb,
           th := h, opt := opt, stampNo := x.stamps + 1, asid := x.asid, sec := x.sec, rank := x.rank, seg := x.seg,
           row := 0, col := 0, bytes := 0, clip := false, status := 0, srcBuf := [], asBuf := none, asWait := 0,
           pageWait := none, stamped := false, stopped := x.ask == some fTerminated || x.ask == some askRelaunch
           done := false, token := true, stage := 0, bulk := false, sent := [], part := none, asBad := false, got := none, stale := false, upto := 0, ready := false, team := x.team.toNat, away := false }
     let pool := s.poolSide j
     let q := s.copyQ s.act.arr.val pool
     if q.length ≥ 16 then .next s.keep
     else
       let word := match s.slotOp with | some o => encode o.ins | none => 0
       let s1 := { s with copyNo := s.copyNo + 1 }.setCopyQ s.act.arr.val pool (q ++ [j])
       .next (s1.retire fun c =>
         ({ c with stamps := if stamp then c.stamps + 1 else c.stamps }.sign
           (natToBytes 4 word.toNat ++ natToBytes 8 (c.rd ga).toNat ++ natToBytes 8 (c.rd gb).toNat)).await gd))

def execCpy (gd ga gb : Reg) (th : BitVec 4) (s : State) : Out := s.copyOp 0x21 gd ga gb th false
def execCpys (gd ga gb : Reg) (th : BitVec 4) (s : State) : Out := s.copyOp 0x22 gd ga gb th false
def execCpyg (gd ga gb : Reg) (th : BitVec 4) (stamp : Bool) (s : State) : Out := s.copyOp 0x23 gd ga gb th stamp
def execCpyr (gd ga gb : Reg) (th : BitVec 4) (bf16 : Bool) (s : State) : Out := s.copyOp 0x24 gd ga gb th bf16
def execCpyx (gd ga gb : Reg) (th : BitVec 4) (s : State) : Out := s.copyOp 0x25 gd ga gb th false

/-- A page is now mapped: the copies that wait on it go on, those of a pre-empted task when it is resumed (R132). -/
def State.wakeCopies (s : State) (p : BitVec 16 → Nat → Bool) : State :=
  let f := fun (l : List CopyJob) => l.map fun j =>
    match j.pageWait with
    | some v => if !p j.asid v then j else if j.away then { j with ready := true } else { j with pageWait := none }
    | none => j
  let s1 := { s with arrays := s.arrays.map fun x : Arr => { x with near := f x.near, poolq := f x.poolq } }
  { s1 with bces := s1.bces.map fun b : Bce => { b with near := f b.near, pool := f b.pool } }

end Sys2Proof.Machine
end

