-- ==== Sys2Proof/Machine/NodeOps.lean ====
section
/-! DEFINITION. CKPT, NODE and END (R149, R150, R225, R226, R228, R327). -/

namespace Sys2Proof.Machine

/-- The sequencer snapshot with PC + 1 as the next bundle (R150). -/
def Ctx.snapshot (c : Ctx) (relSeq : Nat) : Snapshot :=
  { pc := c.pc + 1, g := c.g, flags := c.flags, loops := c.loops, mloop := c.mloop, q := c.q, rets := c.rets, sp := c.sp,
    iv := c.iv, th := c.th, fd := c.fd, cd := c.cd, kat := c.kat, chk := c.chk, rm := c.rm, relSeq := relSeq }

/-- A segment begins at a snapshot (R150): arrivals and signature bytes are counted afresh. -/
def Ctx.beginAt (c : Ctx) (n : Snapshot) : Ctx :=
  { c with
    snap := some n, taken := none, seg := c.seg + 1, segBase := c.seg + 1, arrivals := 0, skip := 0, sigBytes := [],
    sigCount := 0 }

/-- A segment begins with the registers as they stand. -/
def Ctx.beginSegment (c : Ctx) (relSeq : Nat) : Ctx := c.beginAt (c.snapshot relSeq)

/-- Every copy of a context, in whatever engine. -/
def State.copiesOf (s : State) (a : ArrId) (c : CtxId) : List CopyJob :=
  s.arrays.toList.foldl (fun l x => l ++ (x.near ++ x.poolq).filter fun j => j.arr == a && j.ctx == c && !j.away) []

/-- The g registers whose copy is pending. -/
def State.tokens (s : State) (a : ArrId) (c : CtxId) : BitVec 32 :=
  (s.copiesOf a c).foldl (fun m j => if j.gd = 0 then m else setBit m j.gd.toNat) 0

/-- A rerun has reached its segment end, whose own steps are not yet made (R340). -/
def State.segmentEnd (s : State) (k : Out) : Out :=
  if s.me.rerun.isSome then .next ((s.soon (.segmentEndSignature s.act.arr s.act.ctx)).hold 0) else k

/-- A release of NODE, CKPT or END may begin: the slot is the last of its bundle (R225) and every older access
has performed at .team (R90). -/
def State.mayRelease (s : State) : Bool := s.alone && s.accessesDone 4 && !s.releasing s.me.ring

/-- The queues of the actor hold nothing, so that its context can leave the array. -/
def State.queuesEmpty (s : State) : Bool := s.me.loadQ.isEmpty && s.me.storeQ.isEmpty

/-- A data error met while NODE, CKPT or END waits for the older accesses is taken there: the segment is still the one
that the error belongs to (R339). -/
def State.orError (s : State) (k : Out) : Out :=
  if s.me.dataErr.isSome then .next ((s.soon (.dataErrorTake s.act.arr s.act.ctx)).keep) else k

/-- CKPT (R226): phase 0 waits for every owed value, takes the snapshot, copies the LFSRs and starts the release, 1 waits for
it: the segment begins at the snapshot, with the release's record as its log position. -/
def execCkpt (s : State) : Out :=
  if s.phase = 0 then
    if !s.mayRelease || s.me.sb != 0 || s.me.dv != 0 || !s.me.delayed.isEmpty then .next s.keep
    else s.orError (s.segmentEnd
      (.next ((((s.modMe fun c => { c with taken := some (c.snapshot 0) }).sendDown s.act.arr s.act.ctx .ckpt 0).startRelease
        s.me.ring 4 true false false s.me.mseq).hold 1)))
  else if s.releasing s.me.ring then .next s.keep
  else
    let rel := s.pubOf s.me.ring - 1
    .next (s.retire fun c => c.beginAt { (c.taken.getD (c.snapshot rel)) with relSeq := rel })

/-! NODE. -/

/-- The place of a task's node record (R326). -/
def State.nodeAddr (s : State) (x : Ctx) : Option Nat :=
  match s.team? x.team.toNat with
  | some t => s.hardDva t.asid t.sec (t.sync + 0x100000 + 128 * x.rank.toNat)
  | none => none

/-- The words of a node record (R327). -/
def State.nodeWords (s : State) (x : Ctx) (idx pending : Nat) : List Nat :=
  let (tail, stamp) : Nat × Nat := match s.ring? x.ring with
    | some r => (r.tail, Sparse.get 0 r.stamps (r.pub - 1))
    | none => (0, 0)
  [(x.pc + 1) % 2 ^ 32 + idx * 2 ^ 32 + 2 ^ 48 + pending * 2 ^ 56] ++
  (List.range 7).map (fun i => (x.gv (BitVec.ofNat 5 (i + 1))).toNat) ++
  [x.flags.toNat, x.bundles.toNat, x.stamps, tail, stamp, 0, 0, 0]

def State.writeNode (s : State) (x : Ctx) (ws : List Nat) : State :=
  match s.nodeAddr x with
  | none => (match s.team? x.team.toNat with
    | some t => s.noteAbort t.asid t.sec (t.sync + 0x100000 + 128 * x.rank.toNat) 5
    | none => s)
  | some pa => (s.hardWrite pa (ws.take 8) x.asid x.sec .nobody).hardWrite (pa + 64) (ws.drop 8) x.asid x.sec .nobody

/-- A task's entry of its team. -/
def State.modTask (s : State) (team rank : Nat) (f : Task → Task) : State :=
  s.modTeam team fun t => { t with tasks := modWhere (fun k : Task => k.rank == rank) f t.tasks }

/-- The pre-emption point is passed: sr.node, progress, a new segment (R225, R332, R150). -/
def State.passNode (s : State) (idx : BitVec 16) : State :=
  let s1 := (s.sendDown s.act.arr s.act.ctx .ckpt 0).progress s.me.queue
  s1.retire fun c => { c.beginSegment (s.pubOf c.ring - 1) with node := idx, nodeSeg := c.seg + 1 }

/-- NODE (R225, R149): phase 0 starts the release, 1 waits for it and arrives at the team barrier, 2 waits for the
barrier and writes the node record, after which a token that comes for a copy pending in it is kept beside it (R330), 3 is the
pre-emption point, where a task of a team under a request stops. -/
def execNode (idx : BitVec 16) (s : State) : Out :=
  match s.phase with
  | 0 =>
    if !s.mayRelease then .next s.keep
    else s.orError (s.segmentEnd (.next ((s.startRelease s.me.ring 4 false false true s.me.mseq).hold 1)))
  | 1 =>
    if s.releasing s.me.ring || !s.me.arrived.isEmpty then .next s.keep
    else .next ((s.arriveMe 7 0).hold 2)
  | 2 =>
    let tok := s.tokens s.act.arr s.act.ctx
    if !s.me.arrived.isEmpty || (s.me.sb &&& ~~~tok) != 0 || s.me.dv != 0 || !s.me.delayed.isEmpty then .next s.keep
    else
      let s1 := s.writeNode s.me (s.nodeWords s.me idx.toNat (tok.toNat / 2 % 128))
      let s2 := s1.modTeam s.me.team.toNat fun t =>
        { t with
          tasks := modWhere (fun k : Task => k.rank == s.me.rank.toNat) (fun k => { k with node := true }) t.tasks
          tokens := t.tokens.filter fun k => k.1 != s.me.rank.toNat }
      .next ((s2.modMe fun c => { c with nodeSeg := c.seg + 1 }).hold 3)
  | _ =>
    let asked := match s.team? s.me.team.toNat with | some t => t.request.isSome | none => false
    if asked && !s.queuesEmpty then .next s.keep
    else if asked then .next ((s.keepWith fun c => { c with run := .parked }).progress s.me.queue) else .next (s.passNode idx)

/-! END (R228). -/

/-- The team barrier of NODE counts a task that has ended as arrived (R330). -/
def State.endArrives (s : State) (team : Nat) : State :=
  match s.barriers.find? (·.is team 7 0 0) with
  | none => s
  | some b => if !b.here.isEmpty && (s.participants b).all fun r => b.here.contains r then s.atEnd s.now (.barrierComplete b.no) else s

/-- The package-map entries of task `k` (R323): its own number and those of its chain's followers. -/
def Team.entriesOf (t : Team) (k : Nat) : List Nat := k :: (List.range (t.chain - 1)).map fun p => t.ntasks + k * (t.chain - 1) + p

/-- A task that has ended is not in the team for a peer reference (R331). -/
def Team.strike (t : Team) (k : Nat) : Team :=
  { t with map := (t.entriesOf k).foldl (fun m i => m.modify i fun e : MapEntry => { e with inTeam := false }) t.map }

/-- The task has ended: its record says so, its context is free, and its team may be complete. -/
def State.finishTask (s : State) (a : ArrId) (c : CtxId) : State :=
  let x := s.ctxOf a c
  let team := x.team.toNat
  let s1 := match s.nodeAddr x with
    | some pa => s.hardBytes (pa + 6) ((Memory.read s.mem (pa + 6)).toNat ||| 2) 1 x.asid x.sec .nobody
    | none => s
  let s2 := ((s1.progress x.queue).modTask team x.rank.toNat fun k => { k with ended := true, placed := false }).modTeam team
    fun t => t.strike x.larr.toNat
  (((s2.modCtx a c fun y => { y with run := .ended }).freeCtx a c).endArrives team).teamCheck team

/-- END: phase 0 waits for the C ops, slow results and copies and starts the release, 1 waits for it. -/
def execEndt (s : State) : Out :=
  let a := s.act.arr
  let c := s.act.ctx
  if s.phase = 0 then
    if !s.mayRelease || !(s.arr a).cQuiet c || !(s.copiesOf a c).isEmpty then .next s.keep
    else s.orError (s.segmentEnd (.next ((s.startRelease s.me.ring 4 false false false s.me.mseq).hold 1)))
  else if s.releasing s.me.ring || !s.queuesEmpty then .next s.keep
  else .next ((s.retire id).finishTask a c)

end Sys2Proof.Machine
end

