-- ==== Sys2Proof/Machine/Issue.lean ====
section
/-! DEFINITION. Fetch, presentation, residue, context switches, the gated sequencer, the end of a lease quantum and
the passes of MLOOP (R151, R152, R173 to R182, R213 to R219). -/

namespace Sys2Proof.Machine

/-- The ready slots of a residue, in the order S, C's partner E, C, M: those whose wait spec holds (R179). The
M slot under a not-present fault waits for its page (R337). -/
def Ctx.readySlots (x : Ctx) : List (Fin 4) :=
  ([0, 2, 1, 3] : List (Fin 4)).filter fun k =>
    x.residue.any fun o => o.slot == k && x.waitOk o.wait && !(k == 3 && x.pageWait.isSome)

/-- A presentation of the residue: its ready slots are to issue in this ac. A C slot takes a lease that nobody holds
(R224). -/
def State.represent (s : State) (a : ArrId) (c : CtxId) : State :=
  let ks := (s.ctxOf a c).readySlots
  let s1 := s.modArr a fun z =>
    { z.modCtx c (fun y : Ctx => { y with todo := ks }) with lastAc := s.now, nextAc := s.now + 1 }
  if ks.contains 1 && (s.arr a).holder.isNone then s1.grant a c else s1

/-- The g registers that a fixed-latency result is still owed to (R183). -/
def Ctx.owedRegs (x : Ctx) : BitVec 32 :=
  x.delayed.foldl (fun m d => match d.target with | .g r => setBit m r.toNat | _ => m) 0

/-- The first presentation of the slot ops of a bundle, or of an MLOOP group: sources are captured (R180). -/
def State.presentOps (s : State) (a : ArrId) (c : CtxId) (pc : Nat) (ops : List SlotOp) (stall : Nat) : State :=
  let s1 := s.modCtx a c fun x =>
    { x with
      pc := pc, order := x.order + 1, cap := x.g, capPend := x.sb, capDv := x.dv, capHaz := if x.chk then x.owedRegs else 0
      capChk := x.chk, capFlags := x.flags, capSp := x.sp, capTh := x.th, residue := ops, stall := stall, faults := []
      pageWait := none, branch := none }
  s1.represent a c

/-- The non-NOP slots of a bundle, each with its wait spec, pairing and extension (R173 to R178). -/
def slotOps (b : Bundle) (pc stage : Nat) : List SlotOp :=
  let pair := match b.hdr with | some h => h.pair | none => false
  let ext := fun (k : Nat) => match b.hdr with
    | some h => (match h.ext with | some (t, e) => if t.toNat = k then some e else none | none => none)
    | none => none
  let ws : Option (Bool × FlagNo) × Option (Bool × FlagNo) × Option (Bool × FlagNo) := match b.hdr with
    | some h => (h.wait1, h.wait2, h.wait3)
    | none => (none, none, none)
  ([⟨0, b.s, none, false, none, pc, stage, 0⟩, ⟨1, b.c, ws.1, pair, ext 1, pc, stage, 0⟩,
    ⟨2, b.e, ws.2.1, pair, ext 2, pc, stage, 0⟩, ⟨3, b.m, ws.2.2, false, ext 3, pc, stage, 0⟩] : List SlotOp).filter
      fun o => o.ins != .nop

def stallOf (b : Bundle) : Nat := match b.hdr with | some h => h.stall.toNat | none => 0

/-- A fetch (R195, R30): only from a bundle of the image whose page is sealed for the context's world; a secure
sequencer fetches only from secure addresses, another only from non-secure ones. -/
def State.fetch (s : State) (x : Ctx) (pc : Nat) : Option Bundle :=
  match s.image? x.image with
  | none => none
  | some m =>
    let pa := m.codePa + 16 * pc
    if (s.sealed.any fun e => e.1 == pa / 65536 && e.2.1 == x.sec) && s.secureAt pa == x.sec then s.bundleAt x pc
    else none

/-- A fetch that R195 refuses raises the fatal unsealed-fetch fault at the bundle. -/
def State.fetchFault (s : State) (a : ArrId) (c : CtxId) : State :=
  (s.modCtx a c fun x => { x with faults := [(0, fFetch)] }).soon (.contextFatalFault a c)

/-- What the tables say of the fetch of a bundle of an image that has a device virtual address: the code and the address of a
refusal (R125, R126). They must lead to the bundle's place in the sealed image (R195). -/
def State.fetchAsk (s : State) (a : ArrId) (c : CtxId) (pc : Nat) : Option (Nat × Nat) × State :=
  let x := s.ctxOf a c
  match (s.image? x.image).bind fun m => m.codeAt.map fun d => (m, d) with
  | none => (none, s)
  | some (m, d) =>
    let at_ := d + 16 * pc
    match s.access (.ctx a c) x.asid x.sec (some x.rank.toNat) .fetch at_ with
    | (.error code, s1) => (some (code, at_), s1)
    | (.ok t, s1) => (if t.pa = m.codePa + 16 * pc then none else some (fFetch, at_), s1)

/-- The same for several bundles: the first refusal. -/
def State.fetchAsks (s : State) (a : ArrId) (c : CtxId) : List Nat → Option (Nat × Nat) × State
  | [] => (none, s)
  | pc :: t =>
    match s.fetchAsk a c pc with
    | (some r, s1) => (some r, s1)
    | (none, s1) => State.fetchAsks s1 a c t

/-- The bundles that the next presentation of a context with no residue fetches: the one at its PC, or an MLOOP group. -/
def Ctx.fetchPcs (x : Ctx) : List Nat :=
  match x.mloop with
  | none => [x.pc]
  | some m => if m.opened then ((m.groups.headD []).filter fun e => decide (m.k - e.1 < m.n)).map (·.2) else []

/-- A refused fetch: it is asked again in the next ac while its walk is under way, waits for its page where that is not
present, with the page request of R337, and is fatal otherwise (R126). -/
def State.fetchRefused (s : State) (a : ArrId) (c : CtxId) (r : Nat × Nat) : State :=
  if r.1 = fWalking then s.modArr a fun z => { z with nextAc := s.now + 1 }
  else if r.1 = fNotPresent then
    (s.modCtx a c fun x => { x with faults := [(0, fNotPresent)], pageWait := some r.2 }).soon (.pageRequestFault a c)
  else (s.modCtx a c fun x => { x with faults := [(0, r.1)] }).soon (.contextFatalFault a c)

/-- The bundles of a presentation are read at their slices (R55; assumption 5). -/
def State.fetchTraffic (s : State) (a : ArrId) (c : CtxId) (pcs : List Nat) : State :=
  match s.image? (s.ctxOf a c).image with
  | none => s
  | some m => pcs.foldl (fun (u : State) pc => u.viewTraffic a c ((m.codePa + 16 * pc) / 64) 0 16) s

/-- The next bundle of a context is fetched and presented. -/
def State.present (s : State) (a : ArrId) (c : CtxId) : State :=
  let x := s.ctxOf a c
  match s.fetch x x.pc with
  | none => s.fetchFault a c
  | some b => s.presentOps a c x.pc (slotOps b x.pc 0) (stallOf b)

/-- RESIDUE_REPRESENT (R179): the running context's residue is presented again. -/
def execResidueRepresent (a : ArrId) (c : CtxId) (s : State) : Out :=
  let x := s.ctxOf a c
  if (s.arr a).running == c && x.run == .active && !x.residue.isEmpty && x.todo.isEmpty then .next (s.represent a c)
  else .next s

/-! Contexts in turn. -/

/-- The next ready context in rotation after the running one (R151). -/
def Arr.nextAble (x : Arr) : Option CtxId :=
  [x.running + 1, x.running + 2, x.running + 3].find? fun d => x.able.getLsbD d.val

/-- Switched out with an MWAIT in the residue, because another slot blocks or the bundle yields (R295). -/
def Ctx.switchedOut (c : Ctx) (yields : Bool) : Ctx :=
  if c.residue.any (fun o => match o.ins with | .mwait .. => true | _ => false) &&
      (yields || decide (1 < c.residue.length)) then { c with spurious := 2 } else c

/-- A yield is done once its bundle has ended (R223). -/
def Ctx.yielded (c : Ctx) : Ctx := { c with yields := c.yields && !c.residue.isEmpty }

/-- CONTEXT_SWITCH (R151): to the next ready context, whose first bundle issues 2 ac after the old one's last; with
none, a context that yields goes on, and otherwise fetch is gated. -/
def execContextSwitch (a : ArrId) (s : State) : Out :=
  let x := s.arr a
  match x.nextAble with
  | some d => .next (s.modArr a fun z =>
      { z.modCtx z.running (fun y : Ctx => (y.switchedOut y.yields).yielded) with
        running := d, gated := false, streak := 0, nextAc := max s.now (z.lastAc + 2) })
  | none => .next (s.modArr a fun z =>
      { z.modCtx z.running Ctx.yielded with streak := 0, gated := z.gated || !z.able.getLsbD z.running.val })

/-- BUNDLE_COUNT_EXPIRE (R151): after 4,096 bundles without blocking the context yields. -/
def execBundleCountExpire (a : ArrId) (s : State) : Out :=
  .next (s.modArr a fun z => { z.modCtx z.running (fun y : Ctx => { y with yields := true }) with streak := 0 })

/-- A gated sequencer restarts for a ready context, which is presented in the next ac (R151); another than the one that ran has
that one switched out (R295). Of several ready ones the one that ran is taken, then by rotation (assumption 155). -/
def State.wake (s : State) (a : ArrId) : State :=
  s.modArr a fun z =>
    if !z.gated then z else
    let d := if z.able.getLsbD z.running.val then z.running else (z.nextAble).getD z.running
    let y := if d = z.running then z else z.modCtx z.running (fun x : Ctx => x.switchedOut x.yields)
    { y with gated := false, running := d, streak := 0, nextAc := max z.nextAc (s.now + 1) }

/-- SEQUENCER_WAKE (R151). -/
def execSequencerWake (a : ArrId) (s : State) : Out := .next (s.wake a)

/-- WAIT_DEADLINE (R222): a WAIT's deadline is reached and its context is ready. -/
def execWaitDeadline (a : ArrId) (c : CtxId) (s : State) : Out :=
  if (s.ctxOf a c).run == .active && (s.arr a).gated then
    .next ((s.modArr a fun z => { z with able := setBit z.able c.val }).wake a)
  else .next s

/-- MWAIT_DEADLINE (R294): likewise for an MWAIT. -/
def execMwaitDeadline (a : ArrId) (c : CtxId) (s : State) : Out :=
  if (s.ctxOf a c).run == .active && (s.arr a).gated then
    .next ((s.modArr a fun z => { z with able := setBit z.able c.val }).wake a)
  else .next s

/-- LEASE_QUANTUM_END (R152): the lease passes by rotation, or stays for a new quantum. -/
def execLeaseQuantumEnd (a : ArrId) (s : State) : Out :=
  match (s.arr a).holder with
  | none => .next s
  | some c => .next (s.grant a (((s.arr a).nextReq c).getD c))

/-- The lease passes at once from a holder that is blocked to a requesting context (R152). -/
def State.passBlocked (s : State) (a : ArrId) : State :=
  match (s.arr a).holder with
  | none => s
  | some c =>
    if (s.arr a).able.getLsbD c.val || !(s.ctxOf a c).todo.isEmpty then s else
    match (s.arr a).nextReq c with
    | some d => s.grant a d
    | none => s

/-! MLOOP. -/

/-- The g registers that a bundle writes. -/
def writesReg (b : Bundle) : List Reg := ((bundleOps b).map target).filter (· != 0)

def writesFlag (b : Bundle) : List FlagNo := (bundleOps b).filterMap flagTarget

def writesSel (b : Bundle) : List SelNo := (bundleOps b).filterMap selTarget

/-- The selector pair that a bundle's C op names. -/
def namesSel (b : Bundle) : List SelNo := ((cellFields b.c).map (·.1)).toList

def meetLists {α : Type} [BEq α] (l m : List α) : Bool := l.any m.contains

/-- Two stage bundles collide (R218). -/
def collide (x y : Bundle) : Bool :=
  (((bundleOps x).zip (bundleOps y)).any fun p => p.1 != .nop && p.2 != .nop) ||
  meetLists (writesReg x) (writesReg y) || meetLists (writesFlag x) (writesFlag y) ||
  meetLists (writesSel x) (namesSel y) || meetLists (writesSel y) (namesSel x)

/-- The live stages of pass `k`, oldest iteration first (R217). -/
def MLoop.live (m : MLoop) : List Nat :=
  (List.range m.st).reverse.filter fun st => decide (st ≤ m.k ∧ m.k - st < m.n)

/-- The groups of a cycle of a pass (R217): a stage bundle that collides with the group opens the next. -/
def formGroups (fetch : Nat → Option Bundle) : List (Nat × Nat) → List (Nat × Nat) → List (List (Nat × Nat))
  | [], g => if g.isEmpty then [] else [g]
  | e :: t, g =>
    match fetch e.2 with
    | none => (if g.isEmpty then [] else [g]) ++ [e] :: formGroups fetch t []
    | some b =>
      if g.any fun o => match fetch o.2 with | some d => collide d b | none => true then
        g :: formGroups fetch t [e]
      else formGroups fetch t (g ++ [e])

/-- sr.q0 to sr.q7 in pass `k` (R219). -/
def MLoop.qs (m : MLoop) : Vector Word 8 :=
  Vector.ofFn fun j : Fin 8 => if j.val < m.st then BitVec.ofInt 64 ((m.k : Int) - j.val) else 0

/-- The loop is done: the passes 0 to n + stages - 2 have been made, or n is 0 (R217). -/
def MLoop.over (m : MLoop) : Bool := m.n == 0 || decide (m.n + m.st < m.k + 2)

/-- A group is presented as one bundle; a stage squashed since by LBRK is left out (R218, R219). -/
def State.presentGroup (s : State) (a : ArrId) (c : CtxId) (m : MLoop) (g : List (Nat × Nat)) : State :=
  let x := s.ctxOf a c
  let g1 := g.filter fun e => decide (m.k - e.1 < m.n)
  match g1 with
  | [] => s
  | e :: _ =>
    let bs := g1.map fun o => (s.fetch x o.2).map fun b => (o, b)
    if bs.any (·.isNone) then s.fetchFault a c else
    let ops := (bs.map fun o => match o with | some (p, b) => slotOps b p.2 p.1 | none => []).flatten
    let stall := (bs.map fun o => match o with | some (_, b) => stallOf b | none => 0).foldl max 0
    let s1 := s.presentOps a c e.2 ops stall
    if ops.isEmpty then s1.settleAt a c else s1

/-- MLOOP_PRESENTATION (R217 to R219): the next cycle of a pass is opened, its next group is presented, or the loop
ends. -/
def execMloopPresentation (a : ArrId) (c : CtxId) (s : State) : Out :=
  let x := s.ctxOf a c
  match x.mloop with
  | none => .next s
  | some m =>
    if !x.residue.isEmpty || x.run != .active then .next s
    else if m.opened then
      match m.groups with
      | g :: t => .next ((s.modCtx a c fun y => { y with mloop := some { m with groups := t } }).presentGroup a c m g)
      | [] =>
        let m1 : MLoop := if m.c + 1 < m.ii then { m with c := m.c + 1, opened := false }
          else { m with c := 0, k := m.k + 1, opened := false }
        .next (s.modCtx a c fun y => { y with mloop := some m1 })
    else if m.over then .next (s.modCtx a c (·.endMloop m))
    else
      let at_ := m.live.map fun st => (st, m.base + st * m.ii + m.c)
      let gs := formGroups (s.fetch x) at_ []
      .next (s.modCtx a c fun y => { y with mloop := some { m with groups := gs, opened := true }, q := m.qs })

end Sys2Proof.Machine
end

