-- ==== Sys2Proof/Machine/Mailbox.lean ====
section
/-! DEFINITION. The response of a management mailbox (R363). -/

namespace Sys2Proof.Machine

/-- Bytes written into sparse bytes from an offset. -/
def putBytes (m : Sparse Byte) (off : Nat) : List Byte → Sparse Byte
  | [] => m
  | b :: t => putBytes (Sparse.set 0 m off b) (off + 1) t

/-- `n` sparse bytes from an offset. -/
def getBytes (m : Sparse Byte) (off : Nat) : Nat → List Byte
  | 0 => []
  | n + 1 => Sparse.get 0 m off :: getBytes m (off + 1) n

/-- The response of a command (R363): TAG, STATUS and results; BUSY clears, DONE sets and vector 1 fires. -/
def State.respond (s : State) (fn : FnId) (status : Nat) (results : List Byte) : State :=
  (s.modFunc fn fun f =>
    { f with
      resp := putBytes [] 0 (getBytes f.req 4 4 ++ natToBytes 2 status ++ [0, 0] ++ results.take 56)
      busy := false, mbdone := true }).send (.msix fn 1)

/-- A command that only function 0 may give (R363). -/
def State.onlyFn0 (s : State) (fn : FnId) (k : Out) : Out := if fn != 0 then .next (s.respond fn 4 []) else k

/-- A secure function (R31, R367). -/
def State.fnSecure (s : State) (fn : FnId) : Bool := s.cfg.fnSec.getLsbD fn.val

end Sys2Proof.Machine
end

