-- ==== Sys2Proof/Machine/Contain.lean ====
section
/-! DEFINITION. Faults and containment: a context that stops (R334 to R338), data errors and reruns (R339 to R341),
retired arrays, relaunch and suspect notices (R342 to R344), and the end of a stopped team (R333, R338, R343). -/

namespace Sys2Proof.Machine

/-! Stopping. -/

/-- The slot op of a slot in the residue. -/
def Ctx.slotAt (x : Ctx) (slot : Nat) : Option SlotOp := x.residue.find? (·.slot.val == slot)

/-- CONTEXT_FATAL_FAULT (R335, R338): the fault that the presentation reports, or the stop that was asked for at the
bundle boundary. -/
def execContextFatalFault (a : ArrId) (c : CtxId) (s : State) : Out :=
  let x := s.ctxOf a c
  if x.run != .active then .next s
  else match fatalOf x.faults with
  | some (slot, code) =>
    let pc := match x.slotAt slot with | some o => o.pc | none => x.pc
    match ((x.slotAt slot).map (·.ins) : Option Instr) with
    | some (.trap k) => .next (s.takeFatal a c slot code (if code = fTrap then k.toNat else pc) (if code = fTrap then pc else 0))
    | _ => .next (s.takeFatal a c slot code pc 0)
  | none =>
    match x.ask with
    | none => .next s
    | some code =>
      if code = fTerminated ∨ code = askRelaunch then .next ((s.stopAt a c code).discardUnpublished a c)
      else .next (s.takeFatal a c 0 code x.pc 0)

/-- TERMINATION_NOTICE_RECEIVE (R338): the package stops its ranks of a pod team. -/
def execTerminationNoticeReceive (team : Nat) (s : State) : Out := .next (s.endTeam team none)

/-- PAGE_REQUEST_FAULT (R337): the M slot stays as residue, waiting for its page, and the record of reason 0x0024 is
written. -/
def execPageRequestFault (a : ArrId) (c : CtxId) (s : State) : Out :=
  let x := s.ctxOf a c
  if x.run != .active || x.faults.isEmpty then .next s
  else
    let slot := x.faults.foldl (fun m e => min m e.1) 3
    let s1 := s.report { ctxRec a c x 0x0024 0 with
      addr := x.pageWait.getD 0, detail := x.pc, fault := fNotPresent, flags := BitVec.ofNat 8 (c.val + 4 * slot + 16) }
    .next (s1.modCtx a c fun y => { y with faults := [] })

/-! Relaunch (R343). -/

/-- An array that a job may be placed on (R323, R342). -/
def State.usable (s : State) (a : ArrId) : Bool := !s.cfg.disabled.getLsbD a.val && !s.retArrays.getLsbD a.val

/-- The chains that can be formed from arrays that may lead and arrays that may follow, in ascending order (R145). -/
def chainsFrom (chain : Nat) (heads tails : List ArrId) : List (List ArrId) :=
  let quadPairs := fun (l : List ArrId) => l.flatMap fun a => (tails.filter fun b => b != a && ArrId.quad b == ArrId.quad a).map fun b => [a, b]
  if chain = 1 then heads.map fun a => [a]
  else if chain = 2 then quadPairs heads
  else (quadPairs heads).flatMap fun p =>
    ((quadPairs tails).filter fun q => q.all fun y => ArrId.die y == ArrId.die (p.headD 0) ^^^ 1).map
      fun q => p ++ q

/-- Chains for `n` tasks among candidates, none sharing an array: the first choice in order that can be completed. -/
def seatTasks (cands : List (List ArrId)) : Nat → List ArrId → Option (List (List ArrId))
  | 0, _ => some []
  | n + 1, used => cands.findSome? fun ch =>
    if ch.any used.contains then none else (seatTasks cands n (used ++ ch)).map fun t => ch :: t

/-- The regions in which A arrays may lie (R323): a quad, a die, a base die or all. -/
def regionsFor (chain arrays : Nat) : List (List ArrId) :=
  let by_ := fun (size : Nat) => (List.range (32 / size)).map fun i => (List.finRange 32).filter fun a : ArrId => a.val / size == i
  if chain = 4 then (if arrays ≤ 16 then by_ 16 else by_ 32)
  else if arrays ≤ 4 then by_ 4 else if arrays ≤ 8 then by_ 8 else if arrays ≤ 16 then by_ 16 else by_ 32

/-- The usable arrays, were they all free, can hold a gang (R343). -/
def State.canHold (s : State) (tasks chain : Nat) : Bool :=
  (regionsFor chain (tasks * chain)).any fun r => (seatTasks (chainsFrom chain (r.filter s.usable) (r.filter s.usable)) tasks []).isSome

/-- The tasks of a team on this package return to their node records; `skip` has stopped already. With too few usable
arrays left the team is terminated (R343). -/
def State.relaunchHere (s : State) (team : Nat) (skip : Option (ArrId × CtxId)) : State :=
  match s.team? team with
  | none => s
  | some t =>
    if t.dead || t.relaunch then s
    else if !s.canHold t.ntasks t.chain then
      (s.report { errRec 0x0043 5 2 0 with queue := t.queue.val, team := team, asid := t.asid.toNat }).terminateTeam team skip
    else
      let s1 := s.report { errRec 0x0007 5 2 0 with queue := t.queue.val, team := team, asid := t.asid.toNat }
      let s2 := s1.modTeam team fun u => { u with relaunch := true, request := none, wdAc := none }
      t.tasks.foldl (fun u k =>
        if k.placed then u.modCopies k.arr k.ctx fun j => if (s.ctxOf k.arr k.ctx).nodeSeg ≤ j.seg then { j with stopped := true } else j
        else u) (s2.askTeam team skip askRelaunch)

/-- A relaunch; in a pod team every other package is told (R343). -/
def State.relaunchTeam (s : State) (team : Nat) (skip : Option (ArrId × CtxId)) : State :=
  match s.team? team with
  | none => s
  | some t =>
    if t.dead || t.relaunch then s
    else
      let s1 := s.relaunchHere team skip
      if t.tsize > t.ntasks ∧ (s1.team? team).any (·.relaunch) then s1.send (.relaunch team) else s1

/-- RELAUNCH_NOTICE_RECEIVE (R343). -/
def execRelaunchNoticeReceive (team : Nat) (s : State) : Out := .next (s.relaunchHere team none)

/-- A context stops for a relaunch of its team. -/
def State.stopRelaunch (s : State) (a : ArrId) (c : CtxId) : State :=
  let team := (s.ctxOf a c).team.toNat
  ((s.stopAt a c askRelaunch).discardUnpublished a c).relaunchTeam team (some (a, c))

/-! Array retirement and suspect notices (R342, R344). -/

/-- The teams with a kernel on an array, or with a chain in which it follows. -/
def State.teamsOn (s : State) (a : ArrId) : List Nat :=
  let here := fun (k : Task) => match (s.arr a).leader with
    | some (b, c) => k.arr == b && k.ctx == c
    | none => k.arr == a
  (s.teams.filter fun t => t.tasks.any fun k => k.placed && here k).map (·.id)

/-- An array is retired (R342, R344): the mask, the record of reason 0x0006, the suspect notices with their records, also of the
package's teams that acquired in the range from the last passing stamp to that of the array's newest release, and
the relaunch of every team with a kernel there (R343). -/
def State.retireArray (s : State) (a : ArrId) : State :=
  if s.retArrays.getLsbD a.val then s else
  let x := s.arr a
  let lo := x.passStamp
  let hi := x.relStamp
  let note := fun (reason sev : Nat) => { errRec reason 7 sev a.val with lo := lo, hi := hi, flags := 0x20 }
  let s1 := { s with retArrays := setBit s.retArrays a.val }.report (note 0x0006 3)
  let s2 := ((List.range 512).filter fun p => x.sampler.getLsbD p).foldl (fun u p => u.send (.suspect p a.val lo hi)) s1
  let s3 := (x.takers.filter fun e => decide (lo ≤ e.2)).foldl (fun u e =>
    u.report (match s.team? e.1 with
      | some t => { note 0x0008 2 with team := t.id, asid := t.asid.toNat, queue := t.queue.val }
      | none => { note 0x0008 2 with team := e.1 })) (s2.report (note 0x0008 2))
  (s.teamsOn a).foldl (fun u t => u.relaunchTeam t none) s3

/-- SUSPECT_NOTICE_RECEIVE (R344): a record of reason 0x0009 and nothing else. -/
def execSuspectNoticeReceive (pkg : Nat) (arr : Nat) (lo hi : Nat) (s : State) : Out :=
  .next (s.report { errRec 0x0009 7 0 arr with lo := lo, hi := hi, detail := pkg, flags := 0x20 })

/-- The lanes that the known-answer operands give below row 31 of one array (R255, R256). -/
def katLanes (ty : BitVec 2) : List CWord :=
  (List.range 32).foldl (fun row r => (List.range 32).map fun c => katCell ty r c (row.getD c 0)) (List.replicate 32 0)

/-- The lanes that an array's cells give in a test: its defects, which no rule can tell, may show (assumption 132). -/
def State.testLanes (s : State) (a : ArrId) (ty : BitVec 2) : List CWord :=
  ((katLanes ty).zip (List.range 32)).map fun e => e.1 ^^^ Config.defect a.val ty.toNat e.2 s.now

/-- The self-test of an array is due: its contexts are all free, and it has had no passing check for 1 s (R341). -/
def State.testDue (s : State) (a : ArrId) : Bool :=
  s.usable a && ((s.arr a).ctxs.toList.all fun y => y.run == CtxRun.free) && decide ((s.arr a).passAc + 1000 * acPerMs ≤ s.now)

/-- A known-answer test of each ty against the computed constant (R341). -/
def State.testPasses (s : State) (a : ArrId) : Bool :=
  (List.range 4).all fun t => katCrc (s.testLanes a (BitVec.ofNat 2 t)) == katCrc (katLanes (BitVec.ofNat 2 t))

/-- SELF_TEST (R341): a pass sets the last passing stamp to the highest stamp assigned; a failure retires the array. -/
def execSelfTest (a : ArrId) (pass : Bool) (s : State) : Out :=
  if !s.testDue a then .next s
  else if pass then .next (s.modArr a (·.passed s.topStamp s.now))
  else .next (s.retireArray a)

/-! Detected data errors (R339, R340, R345). -/

/-- A segment runs again after a rollback; where a forced publication bars it, the fatal fault 0x1D is taken (R80). -/
def State.rerunFrom (s : State) (a : ArrId) (c : CtxId) (r : Rerun) : State :=
  match s.rollback a c with
  | some s1 => s1.modCtx a c fun y => { y with rerun := some { r with first := if r.run = 1 then r.first else y.seg } }
  | none => s.takeFatal a c 0 fCrossed (s.ctxOf a c).pc 0

/-- DATA_ERROR_TAKE (R339, R340, R345): a rollback and the first rerun; in run A or B the array is retired. Poison that the single
rerun consumes again is fault 0x13; another error in it begins the two runs of R340 (assumption 82). An error of an earlier
segment relaunches the team. -/
def execDataErrorTake (a : ArrId) (c : CtxId) (s : State) : Out :=
  let x := s.ctxOf a c
  if x.run != .active then .next s else
  match x.dataErr with
  | none => .next s
  | some (reason, seg) =>
    let s1 := s.modCtx a c fun y => { y with dataErr := none }
    if seg < x.segBase then .next (s1.stopRelaunch a c)
    else match x.rerun with
    | some r =>
      if r.run = 2 then
        .next (if reason = 0x0013 then s1.takeFatal a c 3 fPoison x.pc 0 else s1.rerunFrom a c ⟨0, none, 0⟩)
      else
        let s2 := s1.report (ctxRec a c x 0x0004 3)
        .next ((s2.retireArray a).stopRelaunch a c)
    | none => .next (s1.rerunFrom a c ⟨if reason = 0x0013 then 2 else 0, none, 0⟩)

/-- The signature of a run (R340): bundles emptied, and the CRC-64 over its M ops and g1 to g31. -/
def Ctx.signature (x : Ctx) : Nat × BitVec 64 :=
  (x.sigCount, crc64 (x.sigBytes ++
    ((List.range 31).map fun i => natToBytes 8 (x.gv (BitVec.ofNat 5 (i + 1))).toNat).flatten))

/-- SEGMENT_END_SIGNATURE (R340): after run A comes run B; after run B the signatures are compared. -/
def execSegmentEndSignature (a : ArrId) (c : CtxId) (s : State) : Out :=
  let x := s.ctxOf a c
  if x.run != .active then .next s else
  match x.rerun with
  | none => .next s
  | some r =>
    let done := s.modCtx a c fun y => { y with rerun := none }
    if r.run = 2 then .next done
    else match r.sigA with
    | none => .next (s.rerunFrom a c ⟨1, some x.signature, r.first⟩)
    | some sig =>
      if sig = x.signature then .next (done.report (ctxRec a c x 0x0003 1))
      else
        let s1 := done.report (ctxRec a c x 0x0004 3)
        .next ((s1.retireArray a).stopRelaunch a c)

/-! The end of a stopped team. -/

/-- Nothing of a context is left to complete (R330, R334): its queues, C ops, captures, edge ops and release. -/
def State.drained (s : State) (a : ArrId) (c : CtxId) : Bool :=
  let x := s.ctxOf a c
  x.loadQ.isEmpty && x.storeQ.isEmpty && x.edgeQ.isEmpty && (s.arr a).wave.all (fun o => o.ctx != c) &&
    ((s.arr a).coll[c]).isEmpty && !s.releasing x.ring

/-- A copy with an array-store side (R305). -/
def CopyJob.asSided (j : CopyJob) : Bool := j.srcAs || j.dspace != 0

/-- A kernel's planned ranges of one array are cleared, and its context's bank takes its placement values (R331, R333,
R36). -/
def Arr.clearKernel (x : Arr) (p : Plan) (c : CtxId) : Arr :=
  let inR := fun (n first count : Nat) => decide (first ≤ n ∧ n < first + count)
  let inBuf := fun (w : Nat) => p.bufs.any fun b => decide (b.off < 32 * w + 32 ∧ 32 * w < b.off + b.size)
  { x with
    mrf := x.mrf.filter fun e => !inR (e.1 % 48) p.mFirst p.mCount
    opf := x.opf.filter fun e => !inR (e.1 % 8) p.oFirst p.oCount
    latch := x.latch.filter fun e => !p.latches.getLsbD (e.1 / 9 % 4)
    ea := x.ea.filter fun e => !inR (e.1 / 256) p.eaFirst p.eaCount
    asw := x.asw.filter fun e => !inBuf e.1
    tags := x.tags.filter fun e => !inBuf e.1
    comm := x.comm.filter fun e => !(e.1 / 3 % 4 == c.val)
    cp := x.cp.filter fun e => !(e.1 % 4 == c.val)
    cf := x.cf.filter fun e => !(e.1 % 4 == c.val)
    errs := x.errs.filter fun e => !(match e.place with
      | .m _ r => inR r p.mFirst p.mCount
      | .o _ r => inR r p.oFirst p.oCount
      | .latch _ l _ => p.latches.getLsbD l
      | .ea row => inR row p.eaFirst p.eaCount
      | .as w | .tag w => inBuf w
      | .comm _ d _ => d == c
      | .last .. | .vc .. => false) }

/-- The kernel of a context is cleared from every position of its chain. -/
def State.clearKernel (s : State) (a : ArrId) (c : CtxId) : State :=
  let x := s.ctxOf a c
  let p := s.planOf x
  (List.range (chainLen x.chain)).foldl (fun t k => t.modArr (t.chainArr a c k) (·.clearKernel p c)) s

/-- A context is killed (R333): it stops at once, its copies stop at their next beat, and the values of its loads are
discarded. -/
def State.killCtx (s : State) (a : ArrId) (c : CtxId) : State :=
  let s1 := (s.stopAt a c fTerminated).discardUnpublished a c
  let s2 := s1.modCtx a c fun y => { y with loadQ := y.loadQ.map fun e : QEntry => { e with gd := 0 } }
  s2.stopCopies a c

/-- A team's contexts are killed, and a record names the queue, the team and the last node (R333). -/
def State.killTeam (s : State) (team reason : Nat) : State :=
  match s.team? team with
  | none => s
  | some t =>
    let node := match t.tasks.find? (·.placed) with | some k => (s.ctxOf k.arr k.ctx).node.toNat | none => 0
    let s1 := t.tasks.foldl (fun u k => if k.placed then u.killCtx k.arr k.ctx else u) s
    let s2 := s1.modTeam team fun u => { u with dead := true, relaunch := false, request := none }
    let s3 := s2.modJob t.job fun j => { j with failed := true }
    s3.report { errRec reason 5 2 0 with queue := t.queue.val, team := team, asid := t.asid.toNat, node := node }

/-- A queue is killed (R333). -/
def State.killQueue (s : State) (q : Nat) : State := s.modQueue q fun x => { x with st := 3, err := 0x0C }

/-- Every placed task of a team has stopped, and what it issued is complete. -/
def State.teamStopped (s : State) (t : Team) : Bool :=
  t.tasks.all fun k => !k.placed || ((s.ctxOf k.arr k.ctx).run != .active && s.drained k.arr k.ctx)

/-- Copies of a task whose context goes go on without it (R330): a token for g8 to g31 is not written. -/
def State.detachCopies (s : State) (a : ArrId) (c : CtxId) : State :=
  s.modCopies a c fun j => { j with away := true, gd := if j.gd.toNat < 8 then j.gd else 0 }

/-- A relaunched team leaves its arrays and is ready again, from its node records (R343). -/
def State.reapRelaunch (s : State) (t : Team) : State :=
  let s1 := t.tasks.foldl (fun u k => if k.placed then (u.detachCopies k.arr k.ctx).vacate k.arr k.ctx else u) s
  let s2 := s1.modTeam t.id fun u =>
    { u with
      placed := false, relaunch := false, tasks := u.tasks.map fun k : Task => { k with placed := false }
      map := u.map.map fun e : MapEntry => { e with valid := false } }
  let s3 := s2.makeReady t.job
  { s3 with barriers := s3.barriers.filter (·.team != t.id) }.freeFollowers

/-- A terminated team leaves its arrays, which are cleared of its kernel, and its job completes as failed (R333,
R338). -/
def State.reapDead (s : State) (t : Team) : State :=
  let s1 := t.tasks.foldl (fun u k =>
    if k.placed then (((u.stopCopies k.arr k.ctx).detachCopies k.arr k.ctx).clearKernel k.arr k.ctx).freeCtx k.arr k.ctx
    else if k.ended then u else u.retireRing k.ring) s
  (s1.modTeam t.id fun u =>
    { u with tasks := u.tasks.map fun k : Task => { k with placed := false, ended := true } }).teamCheck t.id

/-- A request that waits for an empty tag to write a stopped context's words: a message to it, or its own capture. -/
def Arr.loosen (x : Arr) (a : ArrId) (c : CtxId) : Arr :=
  let toMe := match x.net with
    | m :: _ => m.posted && (match m.ring with | some (d, _) => d == c | none => false)
    | [] => false
  { x with asReqs := x.asReqs.map fun r : AsReq =>
      if r.mode == .emptyPut && ((r.who == .net && toMe) || (r.who == .capture c && r.owner == a)) then
        { r with mode := .setFull, waiting := false }
      else r }

/-- No task of a terminated or relaunched team empties a tag any more: what waits for one is written without it, so that
the accesses of R334 are carried to completion before the words are cleared. -/
def State.loosenTeam (s : State) (t : Team) : State :=
  t.tasks.foldl (fun u k =>
    match (u.ctxOf k.arr k.ctx).run with
    | .stopped _ =>
      if k.placed then
        (List.range (chainLen (u.ctxOf k.arr k.ctx).chain)).foldl (fun v p =>
          v.modArr (v.chainArr k.arr k.ctx p) (·.loosen k.arr k.ctx)) u
      else u
    | _ => u) s

/-- Teams that have stopped leave their arrays. -/
def State.reapTeams (s : State) : State :=
  let s1 := s.teams.foldl (fun u t => if (t.dead || t.relaunch) && t.tasks.any (·.placed) then u.loosenTeam t else u) s
  s1.teams.foldl (fun u t =>
    if t.dead && t.tasks.any (fun k => !k.ended) && u.teamStopped t then u.reapDead t
    else if t.relaunch && t.placed && u.teamStopped t then u.reapRelaunch t else u) s1

end Sys2Proof.Machine
end

