-- ==== Sys2Proof/Machine/Seal.lean ====
section
/-! DEFINITION. The image container (R202 to R205), the seal engine (R194 to R197), IMAGE_LOAD and IMAGE_UNLOAD (R363),
ATTEST (R368). -/

namespace Sys2Proof.Machine

/-! The container. -/

/-- A container in physical memory. -/
structure Box where
  pa  : Nat
  len : Nat
  deriving DecidableEq, Repr

/-- `n` little-endian bytes of a container, from an offset. -/
def State.boxNat (s : State) (b : Box) (off n : Nat) : Nat := bytesToNat (Memory.bytes s.mem (b.pa + off) n)

def State.boxBytes (s : State) (b : Box) (off n : Nat) : List Byte := Memory.bytes s.mem (b.pa + off) n

/-- A section-table entry. -/
structure Section where
  typ : Nat
  off : Nat
  len : Nat
  deriving DecidableEq, Repr

def State.sections (s : State) (b : Box) : List Section :=
  (List.range (s.boxNat b 8 4)).map fun i =>
    let at_ := 64 + 16 * i
    ⟨s.boxNat b at_ 4, s.boxNat b (at_ + 4) 4, s.boxNat b (at_ + 8) 4⟩

/-- The section of a type, an empty one where there is none. -/
def sectionOf (l : List Section) (typ : Nat) : Section := (l.find? (·.typ == typ)).getD ⟨typ, 0, 0⟩

/-- Two sections share no byte. -/
def Section.apart (x y : Section) : Bool := x.len = 0 || y.len = 0 || decide (x.off + x.len ≤ y.off ∨ y.off + y.len ≤ x.off)

/-- Every pair of a list is related. -/
def pairwise {α : Type} (r : α → α → Bool) : List α → Bool
  | [] => true
  | x :: t => t.all (r x) && pairwise r t

/-- The preload records of a section (R202): offset, length and data padded to 16 bytes; none if the section does not end
with a whole record. -/
def State.preloads (s : State) (b : Box) (off : Nat) : Nat → Nat → Option (List (Nat × List Byte))
  | _, 0 => some []
  | 0, _ => none
  | fuel + 1, left =>
    let n := s.boxNat b (off + 4) 4
    let size := 8 + (n + 15) / 16 * 16
    if left < size then none
    else (State.preloads s b (off + size) fuel (left - size)).map fun t => (s.boxNat b off 4, s.boxBytes b (off + 8) n) :: t

/-- Bytes of a signature section: key id and signature (R202). -/
def signatureLen : Nat := 8 + 29792

/-- The rules of R202 on the container itself; no section lies over the section table (assumption 162), and one of type 8 may be
there already (assumption 163). -/
def State.boxOk (s : State) (b : Box) : Bool :=
  let n := s.boxNat b 8 4
  let total := s.boxNat b 24 8
  let l := s.sections b
  let sig := sectionOf l 7
  let count := fun t => (l.filter (·.typ == t)).length
  let bundles := sectionOf l 1
  s.boxNat b 0 4 == 0x4D495A43 && s.boxNat b 4 1 == 1 && s.boxNat b 5 1 ≤ 1 && s.boxNat b 6 1 ≤ 1 && s.boxNat b 7 1 == 0 &&
  decide (4 ≤ n ∧ n ≤ 16) && total == b.len && decide (64 + 16 * n ≤ total) && (s.boxBytes b 32 32).all (· == 0) &&
  (List.range n).all (fun i => s.boxNat b (64 + 16 * i + 12) 4 == 0) &&
  l.all (fun x => x.off % 16 == 0 && decide (64 + 16 * n ≤ x.off ∧ x.off + x.len ≤ total)) && pairwise Section.apart l &&
  [1, 4, 7].all (fun t => count t == 1) && [2, 3, 5, 6, 8].all (fun t => decide (count t ≤ 1)) &&
  l.all (fun x => decide (1 ≤ x.typ ∧ x.typ ≤ 8) || x.typ.testBit 15) &&
  l.all (fun x => x.typ == 7 || (if x.typ = 8 then decide (sig.off + sig.len ≤ x.off) else decide (x.off + x.len ≤ sig.off))) &&
  bundles.len % 16 == 0 && decide (s.boxNat b 12 4 < bundles.len / 16) && (sectionOf l 2).len % 8 == 0 &&
  (sectionOf l 5).len % 32 == 0 && (sectionOf l 6).len % 8 == 0 && sig.len == signatureLen &&
  (s.preloads b (sectionOf l 3).off ((sectionOf l 3).len + 1) (sectionOf l 3).len).isSome

/-- The signature holds, and its key is registered for the image's world (R195, R202). -/
def State.boxSigned (s : State) (b : Box) : Bool :=
  let sig := sectionOf (s.sections b) 7
  let key := s.boxNat b sig.off 8
  Config.keyRegistered (s.boxNat b 6 1 == 1) key &&
    Config.signatureOk key (s.boxBytes b 0 sig.off) (s.boxBytes b (sig.off + 8) 29792)

/-! The plan (R203). -/

def State.planBufs (s : State) (b : Box) (off : Nat) : List PlanBuf :=
  (List.range (s.boxNat b (off + 11) 1)).map fun i =>
    let o := off + 16 + 32 * i
    ⟨s.boxNat b o 4, s.boxNat b (o + 4) 4, BitVec.ofNat 64 (s.boxNat b (o + 8) 8), s.boxNat b (o + 16) 4, s.boxNat b (o + 20) 4⟩

def State.boxPlan (s : State) (b : Box) : Plan :=
  let o := (sectionOf (s.sections b) 4).off
  { mFirst := s.boxNat b o 1, mCount := s.boxNat b (o + 1) 1, oFirst := s.boxNat b (o + 2) 1, oCount := s.boxNat b (o + 3) 1,
    latches := BitVec.ofNat 4 (s.boxNat b (o + 4) 1), eaFirst := s.boxNat b (o + 5) 1, eaCount := s.boxNat b (o + 6) 1,
    stoch := s.boxNat b 5 1 != 0 && s.boxNat b (o + 7) 1 % 2 == 1, teamMin := s.boxNat b (o + 8) 1,
    teamMax := s.boxNat b (o + 9) 1, chain := s.boxNat b (o + 10) 1, bufs := s.planBufs b o }

/-- The bank of an array-store offset (R39). -/
def bankOf (off : Nat) : Nat := (off / 32 % 64) ^^^ (off / 2048 % 64)

/-- A buffer lies in the array store and in the banks of its mask. -/
def PlanBuf.ok (x : PlanBuf) : Bool :=
  decide (0 < x.size ∧ x.off + x.size ≤ Config.asBytes) &&
  (List.range ((x.off + x.size + 31) / 32 - x.off / 32)).all fun i => x.banks.getLsbD (bankOf (x.off / 32 * 32 + 32 * i))

/-- Two buffers do not share a byte while both are live. -/
def PlanBuf.apart (x y : PlanBuf) : Bool :=
  decide (x.last < y.first ∨ y.last < x.first ∨ x.off + x.size ≤ y.off ∨ y.off + y.size ≤ x.off)

/-- The rules of R203, and of R201 on preload records. -/
def State.planOk (s : State) (b : Box) : Bool :=
  let sec := sectionOf (s.sections b) 4
  let o := sec.off
  let p := s.boxPlan b
  let pre := sectionOf (s.sections b) 3
  decide (16 ≤ sec.len ∧ 16 + 32 * s.boxNat b (o + 11) 1 ≤ sec.len) && decide (p.mFirst + p.mCount ≤ 48) &&
  decide (p.oFirst + p.oCount ≤ 8) && decide (s.boxNat b (o + 4) 1 < 16) && decide (p.eaFirst + p.eaCount ≤ 128) &&
  decide (s.boxNat b (o + 7) 1 < 2) && decide (p.teamMin ≤ p.teamMax ∧ 1 ≤ p.teamMax ∧ p.teamMax ≤ 32) &&
  (p.chain == 1 || p.chain == 2 || p.chain == 4) && decide (s.boxNat b (o + 11) 1 ≤ 64) && s.boxNat b (o + 12) 4 == 0 &&
  p.bufs.all PlanBuf.ok && pairwise PlanBuf.apart p.bufs &&
  (List.range (s.boxNat b (o + 11) 1)).all (fun i => s.boxNat b (o + 16 + 32 * i + 28) 4 == 0) &&
  ((s.preloads b pre.off (pre.len + 1) pre.len).getD []).all fun e => p.holds e.1 e.2.length

/-! The scan of bundles (R196). -/

/-- What the scan knows of the image. -/
structure Scan where
  count  : Nat
  consts : Nat
  plan   : Plan
  funcs  : List (Nat × Nat)
  word   : Nat → BitVec 128

/-- The function that a bundle belongs to, by its first bundle; none for every bundle that no entry covers (assumption 161). -/
def Scan.func (x : Scan) (i : Nat) : Option Nat :=
  (x.funcs.find? fun f => decide (f.1 ≤ i ∧ i < f.1 + f.2)).map (·.1)

/-- What a slot's word stands for, whether its fields hold or not; NOP for a refused opcode. -/
def rawOf (r : Except SealReason Raw) : Instr := match r with | .ok (_, i) => i | .error _ => .nop

/-- The reasons that a slot's own fields give. -/
def rawReasons (r : Except SealReason Raw) : List SealReason :=
  match r with
  | .ok (l, i) => l ++ i.refusals
  | .error e => [e]

/-- The four ops of a bundle; NOP in slot 0 for a header. -/
def rawOps (w : BitVec 128) : List Instr :=
  [if isHeader (slotWord w 0) then .nop else rawOf (readS (slotWord w 0)), rawOf (readC (slotWord w 1)),
   rawOf (readE (slotWord w 2)), rawOf (readM (slotWord w 3))]

/-- The target slot and bits of an extension header (R177). -/
def extOf (w : BitVec 128) : Option (BitVec 2 × BitVec 24) :=
  let h := slotWord w 0
  if isHeader h && h.getLsbD 27 then some (h.extractLsb' 24 2, h.extractLsb' 0 24) else none

/-- The operands that a C op reads, and the one it writes (R188). -/
def readOpnds : Instr → List Opnd
  | .vabs _ a _ _ _ | .vneg _ a _ _ _ | .vrcp _ a _ _ _ | .vrsq _ a _ _ _ | .vexp2 _ a _ _ _ | .vlog2 _ a _ _ _
  | .vtanh _ a _ _ _ | .vmov _ a _ _ _ | .vrsum _ a _ _ _ | .vrmax _ a _ _ _ => [a]
  | .vcvt _ a _ _ _ => [a]
  | .wld _ a _ _ => [a]
  | .mma .. | .wrd .. | .katc _ => []
  | i => match cellFields i with | some (_, _, a, b) => [a, b] | none => []

def writtenOpnd : Instr → Option Opnd
  | .mma .. | .wld .. | .katc _ => none
  | i => (cellFields i).map fun f => f.2.1

/-- An m or o code inside the plan (R34). -/
def Plan.opnd (p : Plan) (o : Opnd) : Bool :=
  let n := o.toNat
  if n < 0x30 then decide (p.mFirst ≤ n ∧ n < p.mFirst + p.mCount)
  else if n < 0x38 then decide (p.oFirst ≤ n - 0x30 ∧ n - 0x30 < p.oFirst + p.oCount)
  else true

/-- The latches that a C op names (R189, R253, R254). -/
def latchesOf : Instr → List (BitVec 2)
  | .mma _ _ commit _ latch cl _ _ _ => latch :: (if commit then [cl] else [])
  | .wld _ _ latch _ => [latch]
  | .wrd _ _ latch _ => [latch]
  | _ => []

/-- The type field of a vector op. -/
def tyOf (w : BitVec 32) : BitVec 2 := w.extractLsb' 0 2

/-- Slot 1: the plan and the bundle constant (R34, R177). -/
def Scan.cellReasons (x : Scan) (w : BitVec 128) : List SealReason :=
  let i := rawOf (readC (slotWord w 1))
  let named := readOpnds i ++ (writtenOpnd i).toList
  let kc := (readOpnds i).any (· == 0x45)
  need (named.all x.plan.opnd && (latchesOf i).all fun l => x.plan.latches.getLsbD l.toNat) .plan ++
  (match extOf w with
   | some (t, e) =>
     if t = 1 then
       need kc .ext ++ need (!((tyOf (slotWord w 1) == 1 || tyOf (slotWord w 1) == 2) && e.extractLsb' 16 8 != 0)) .ext
     else need (!kc) .ext
   | none => need (!kc) .ext)

/-- A constant array-store range inside the plan (R194). -/
def Plan.constAs (p : Plan) (off : Word) (n : Nat) : Bool := decide (off.toNat + n ≤ Config.asBytes) && p.holds off.toNat n

/-- Slot 2: constant offsets and rows (R191, R194), and what an extension may widen (R277). -/
def Scan.edgeReasons (x : Scan) (w : BitVec 128) : List SealReason :=
  let i := rawOf (readE (slotWord w 2))
  let ext := match extOf w with | some (t, e) => if t = 2 then some e else none | none => none
  let rows := fun (imm : BitVec 12) => decide (x.plan.eaFirst ≤ (imm.extractLsb' 0 7).toNat ∧
    (imm.extractLsb' 0 7).toNat + (imm.extractLsb' 7 5).toNat + 1 ≤ x.plan.eaFirst + x.plan.eaCount)
  (match i with
   | .fdset _ ga imm | .cdset _ ga imm => need (ga != 0 || x.plan.constAs (32 * immE imm ext) 32) .plan
   | .ivld _ ga imm => need (ga != 0 || x.plan.constAs (64 * immE imm ext) 64) .plan
   | .eaclr ga count first => need (ga != 0 || rows (count ++ first)) .plan ++ need ext.isNone .ext
   | .eadrain _ _ ga count first => need (ga != 0 || rows (count ++ first)) .plan ++ need ext.isNone .ext
   | .etag _ ga _ | .etest _ ga => need (ga != 0 || x.plan.constAs 0 32) .plan ++ need ext.isNone .ext
   | _ => need ext.isNone .ext)

/-- Slot 3: constant offsets (R194), and what an extension may widen (R177). -/
def Scan.memReasons (x : Scan) (w : BitVec 128) : List SealReason :=
  let i := rawOf (readM (slotWord w 3))
  let ext := match extOf w with | some (t, e) => if t = 3 then some e else none | none => none
  (match i with
   | .asld _ ga size _ disp | .asst _ ga size _ disp =>
     need (ga != 0 || x.plan.constAs (addrM 0 disp ext (sizeM size)) (sizeM size)) .plan
   | .ld .. | .st .. | .logst .. | .prf .. => []
   | .tdesc ga _ => need (ga != 0 || x.plan.constAs 0 64) .plan ++ need ext.isNone .ext
   | _ => need ext.isNone .ext)

/-- Slot 0 of a header (R176, R177). -/
def headerReasons (w : BitVec 128) : List SealReason :=
  match readHeader (slotWord w 0) with
  | .error r => [r]
  | .ok h => need ((h.wait1.isNone || slotWord w 1 != 0) && (h.wait2.isNone || slotWord w 2 != 0) &&
      (h.wait3.isNone || slotWord w 3 != 0)) .hdr

/-- Pairing (R178), by slot. -/
def pairReasons (w : BitVec 128) (slot : Nat) : List SealReason :=
  let p := isHeader (slotWord w 0) && (slotWord w 0).getLsbD 26
  let c := rawOf (readC (slotWord w 1))
  let e := rawOf (readE (slotWord w 2))
  if slot = 1 then need (!p || (isCell c && (match c with | .katc _ => false | _ => true))) .pair
  else if slot = 2 then need (p == isFeed e) .pair
  else []

/-- Writes of one bundle that collide (R186): the later slot is refused, and an S op that writes the selector pair which
the C op names. -/
def dupReasons (w : BitVec 128) (slot : Nat) : List SealReason :=
  let ops := rawOps w
  let mine := ops.getD slot .nop
  let before := ops.take slot
  let g := target mine
  need (g == 0 || before.all fun o => target o != g) .dupw ++
  need (match flagTarget mine with | some f => before.all fun o => flagTarget o != some f | none => true) .dupw ++
  (if slot = 0 then
    need (match selTarget mine with
      | some p => ((cellFields (ops.getD 1 .nop)).map (·.1)) != some p
      | none => true) .dupw
   else [])

/-! Control flow (R197). -/

/-- The body of the MLOOP at a bundle: first bundle and length. -/
def Scan.mloopAt (x : Scan) (i : Nat) : Option (Nat × Nat) :=
  match (rawOps (x.word i)).getD 0 .nop with
  | .mloop _ _ _ body => some (i + 1, body.toNat + 1)
  | _ => none

/-- The MLOOP bodies of the image. -/
def Scan.bodies (x : Scan) : List (Nat × Nat) := (List.range x.count).filterMap x.mloopAt

/-- The static target of an S op in bundle `i`, as an integer. -/
def staticTarget (i : Nat) : Instr → Option Int
  | .beq _ _ o | .bne _ _ o | .blt _ _ o | .bge _ _ o | .bltu _ _ o | .bgeu _ _ o => some (i + o.toInt)
  | .bfs _ o | .bfc _ o => some (i + o.toInt)
  | .baf _ _ _ o => some (i + o.toInt)
  | .jmp o | .call o => some (i + o.toInt)
  | .loop _ o => some (i + o.toInt)
  | _ => none

/-- A transfer of control, or a release that a body may not hold. -/
def barredInBody : Instr → Bool
  | .beq .. | .bne .. | .blt .. | .bge .. | .bltu .. | .bgeu .. | .bfs .. | .bfc .. | .baf .. | .jmp .. | .call ..
  | .ret | .jr .. | .loop .. | .mloop .. | .node .. | .ckpt | .endt => true
  | _ => false

/-- Ops after which the last bundle does not fall through. -/
def endsFlow : Instr → Bool
  | .endt | .jmp _ | .jr _ | .ret | .trap _ => true
  | _ => false

/-- Slot 0: branch targets, MLOOP bodies and the last bundle. -/
def Scan.flowReasons (x : Scan) (i : Nat) : List SealReason :=
  let op := (rawOps (x.word i)).getD 0 .nop
  let t := (staticTarget i op).map fun (v : Int) => (v, v.toNat)
  let reach := fun (v : Int × Nat) => decide (0 ≤ v.1) && decide (v.2 < x.count) && x.func v.2 == x.func i
  (match op, t with
   | .call _, some v => need (decide (0 ≤ v.1) && decide (v.2 < x.count) && x.funcs.any fun f => f.1 == v.2) .branch
   | .loop _ o, some v => need (decide (0 < o.toInt) && reach v) .branch
   | _, some v => need (reach v) .branch
   | _, none => []) ++
  (match op with
   | .lik _ k => need (decide (k.toNat < x.consts)) .opnd
   | _ => []) ++
  (match x.mloopAt i with
   | some (first, n) =>
     need (decide (first + n ≤ x.count) && (List.range n).all fun k => x.func (first + k) == x.func first) .mloop
   | none => []) ++
  need (!(x.bodies.any fun b => decide (b.1 ≤ i ∧ i < b.1 + b.2)) || !barredInBody op) .mloop ++
  need (match t with
    | some v => x.bodies.all fun b => !(decide (b.1 ≤ v.2 ∧ v.2 < b.1 + b.2) && decide (i < b.1 ∨ b.1 + b.2 ≤ i))
    | none => true) .mloop ++
  need (decide (i + 1 ≠ x.count) || endsFlow op) .last

/-- Every reason for which a slot of a bundle is refused. -/
def Scan.slotReasons (x : Scan) (i slot : Nat) : List SealReason :=
  let w := x.word i
  (match slot with
   | 0 => if isHeader (slotWord w 0) then headerReasons w else rawReasons (readS (slotWord w 0))
   | 1 => rawReasons (readC (slotWord w 1)) ++ x.cellReasons w
   | 2 => rawReasons (readE (slotWord w 2)) ++ x.edgeReasons w
   | _ => rawReasons (readM (slotWord w 3)) ++ x.memReasons w) ++
  pairReasons w slot ++ dupReasons w slot ++ (if slot = 0 then x.flowReasons i else [])

/-- The lowest refused slot of a bundle and the lowest reason there. -/
def Scan.bundleRefusal (x : Scan) (i : Nat) : Option (Nat × SealReason) :=
  (List.range 4).findSome? fun k => (Sys2Proof.lowest (x.slotReasons i k)).map fun r => (k, r)

/-- A container as it is scanned; a symbol's length counts bundles (assumption 164). -/
def State.scanOf (s : State) (b : Box) : Scan :=
  let l := s.sections b
  let code := sectionOf l 1
  let sym := sectionOf l 5
  { count := code.len / 16, consts := (sectionOf l 2).len / 8, plan := s.boxPlan b,
    funcs := (List.range (sym.len / 32)).map fun i => (s.boxNat b (sym.off + 32 * i) 4, s.boxNat b (sym.off + 32 * i + 4) 4)
    word := fun i => BitVec.ofNat 128 (s.boxNat b (code.off + 16 * i) 16) }

/-! Sealing (R195, R196). -/

/-- A seal record: bundle, slot, reason code, number of refused bundles. -/
structure Refused where
  bundle : Nat
  slot   : Nat
  reason : Nat
  count  : Nat
  deriving DecidableEq, Repr

/-- The verdict of the seal engine on a container, for a load request's world, which is looked at before the signature
(assumption 159). -/
def State.sealCheck (s : State) (b : Box) (world : Bool) : Option Refused :=
  if !s.boxOk b then some ⟨0, 0, SealReason.container.code, 0⟩
  else if (s.boxNat b 6 1 == 1) != world then some ⟨0, 0, SealReason.world.code, 0⟩
  else if !s.boxSigned b then some ⟨0, 0, SealReason.signature.code, 0⟩
  else if !s.planOk b then some ⟨0, 0, SealReason.plan.code, 0⟩
  else
    let x := s.scanOf b
    let bad := (List.range x.count).filterMap fun i => (x.bundleRefusal i).map fun r => (i, r.1, r.2)
    match bad with
    | [] => none
    | (i, k, r) :: _ => some ⟨i, k, r.code, min bad.length 0xFFFF⟩

/-- The bytes under the seal tag (R205): header, bundles, constants, preloads, plan. -/
def State.sealBytes (s : State) (b : Box) : List Byte :=
  let l := s.sections b
  s.boxBytes b 0 64 ++ ([1, 2, 3, 4].map fun t => s.boxBytes b (sectionOf l t).off (sectionOf l t).len).flatten

def State.sealTagOf (s : State) (b : Box) (world : Bool) : BitVec 512 := Config.sealTag world s.boots (s.sealBytes b)

/-- The loaded image of a container. -/
def State.imageOf (s : State) (b : Box) (world : Bool) : Image :=
  let l := s.sections b
  let code := sectionOf l 1
  let cst := sectionOf l 2
  let pre := sectionOf l 3
  let nod := sectionOf l 6
  { id := s.boxNat b 16 8, pa := b.pa, len := b.len, sec := world, entry := s.boxNat b 12 4, codePa := b.pa + code.off,
    count := code.len / 16, consts := (List.range (cst.len / 8)).map fun i => BitVec.ofNat 64 (s.boxNat b (cst.off + 8 * i) 8),
    plan := s.boxPlan b, preload := (s.preloads b pre.off (pre.len + 1) pre.len).getD [],
    nodes := (List.range (nod.len / 8)).map fun i => (s.boxNat b (nod.off + 8 * i) 4, s.boxNat b (nod.off + 8 * i + 4) 4)
    tag := s.sealTagOf b world, measure := Config.shake256 (s.boxBytes b 0 b.len)
    codeAt := Config.codeAt (s.boxNat b 16 8) }

/-- The container of a loaded image. -/
def Image.box (m : Image) : Box := ⟨m.pa, m.len⟩

/-- The seal tag of a loaded image, computed again (R205). -/
def State.tagHolds (s : State) (m : Image) : Bool := s.sealTagOf m.box m.sec == m.tag

/-- After a resume, a container whose id was loaded before the suspend must measure as it did (R363, R373). -/
def State.measureOk (s : State) (m : Image) : Bool :=
  match s.retain with
  | some r => r.images.all fun e => e.1 != m.id || e.2 == m.measure
  | none => true

/-- The physical pages of an image. -/
def Image.pages (m : Image) : List Nat := (List.range ((m.pa + m.len + 65535) / 65536 - m.pa / 65536)).map (m.pa / 65536 + ·)

/-- A physical range of backed HBM. -/
def State.backed (s : State) (pa len : Nat) : Bool := decide (pa + len ≤ s.visible)

/-- IMAGE_LOAD (R363, R195): the seal engine seals the container for the world, or answers with the seal record. A length or an
address that no container can have fails as an operand (assumption 160). -/
def execImageLoad (fn : FnId) (pa len : Nat) (world : Bool) (s : State) : Out :=
  let b : Box := ⟨pa, len⟩
  let sec := s.fnSecure fn
  if !sec && (world || s.secureIn pa len) then .next (s.respond fn 4 [])
  else if decide (len < 64) || !s.backed pa len || pa % 16 != 0 then .next (s.respond fn 3 [])
  else
    let id := s.boxNat b 16 8
    match s.sealCheck b world with
    | some r =>
      let s1 := s.report { errRec 0x0050 6 2 0 with
        addr := id, detail := r.reason, lo := r.bundle, hi := r.count, flags := BitVec.ofNat 8 (4 * r.slot) }
      .next (s1.respond fn 3 (natToBytes 8 id ++ natToBytes 4 r.bundle ++ natToBytes 1 r.slot ++ natToBytes 1 r.reason ++
        natToBytes 2 r.count))
    | none =>
      let m := s.imageOf b world
      if (s.image? id).isSome || !s.measureOk m then .next (s.respond fn 3 [])
      else
        let s1 := { s with images := s.images ++ [m], sealed := s.sealed ++ m.pages.map fun p => (p, world, id) }
        .next (s1.respond fn 0 (natToBytes 8 id))

/-- An admitted LAUNCH that is not complete names an image. -/
def State.imageNamed (s : State) (id : Nat) : Bool :=
  s.jobs.any fun j => j.cmd == 1 && !j.complete && bytesToNat ((j.body.drop 16).take 8) == id

/-- IMAGE_UNLOAD (R363). -/
def execImageUnload (fn : FnId) (id : Nat) (s : State) : Out :=
  match s.image? id with
  | none => .next (s.respond fn 3 [])
  | some m =>
    if m.sec && !s.fnSecure fn then .next (s.respond fn 4 [])
    else if s.imageNamed id then .next (s.respond fn 5 [])
    else
      let s1 := { s with images := s.images.filter (·.id != id), sealed := s.sealed.filter fun e => e.2.2 != id }
      .next (s1.respond fn 0 [])

/-! Attestation (R368). -/

/-- The measured part of a report: nonce, serial number, measurements, retired arrays, error SEQ. -/
def State.attestBody (s : State) (nonce : List Byte) : List Byte :=
  let h := fun (d : BitVec 512) => natToBytes 64 d.toNat
  nonce ++ natToBytes 8 Config.serial.toNat ++ h Config.romMeasure ++ h Config.firmwareMeasure ++ h (Config.recordMeasure s.boots) ++
    (s.images.map fun m => h m.measure).flatten ++ natToBytes 4 s.retArrays.toNat ++ natToBytes 8 s.errSeq
/-- ATTEST: the report and its signature go to the host buffer, and its length is returned. -/
def execAttest (fn : FnId) (nonce : List Byte) (buf : Nat) (s : State) : Out :=
  let body := s.attestBody (nonce.take 32)
  let rep := body ++ Config.attestSignature body
  if !s.fnSecure fn && s.secureIn (Config.hostBase + buf % 2 ^ 50) rep.length then .next (s.respond fn 4 []) else
  let s1 := { s with mem := Memory.store s.mem (Config.hostBase + buf % 2 ^ 50) rep }
  .next ((s1.send (.report buf rep)).respond fn 0 (natToBytes 8 rep.length))

end Sys2Proof.Machine
end

