-- ==== Sys2Proof/Machine/Cards.lean ====
section
/-! DEFINITION. Doorbells and cards (R314 to R321), readiness and age of jobs (R320, R322), WAITSTAMP, SIGNAL and FENCE
(R316), and the queue commands (R313). -/

namespace Sys2Proof.Machine

/-! Queues (R312, R314). -/

/-- A queue stops on an error (R321): ERR and a record with the card's index and SEQ. -/
def State.refuse (s : State) (q code idx seq : Nat) : State :=
  (s.modQueue q fun x => { x with st := 2, err := code }).report { errRec 0x0040 5 2 0 with
    queue := q, detail := idx, addr := seq, asid := (s.queue q).asid.toNat }

/-- The host log of a function (R78). -/
def hostRing (fn : FnId) : Nat := 136 + fn.val

/-- The host's release of its log (R78): a doorbell closes the segment, at .sys, where alone host functions order (R13, R102). -/
def State.hostRelease (s : State) (fn : FnId) : State :=
  if s.releasing (hostRing fn) then s else s.startRelease (hostRing fn) 7 false false false 0

/-- QUEUE_DOORBELL (R314, R78): the host log is released, and the scheduler will acquire it up to that release; TAIL is kept.
An overrun stops the queue with error 0x0B. A disabled queue keeps no TAIL. While the log's last release is under way the doorbell
waits for its turn. -/
def execQueueDoorbell (q : QueueId) (tail : BitVec 16) (s : State) : Out :=
  let x := s.queue q.val
  if s.releasing (hostRing x.func) then .next (s.atAc (s.now + 1) (.queueDoorbell q tail)) else
  if x.st = 0 then .next (s.hostRelease x.func) else
  let upTo := match s.ring? (hostRing x.func) with | some r => r.tail + 1 | none => 0
  let s1 := (s.hostRelease x.func).modQueue q.val fun y => { y with tail := tail, need := upTo }
  if x.st = 1 && decide (2 ^ x.log2e.toNat < (tail - x.head).toNat) then .next (s1.refuse q.val 0x0B x.head.toNat 0)
  else .next s1

/-- The host log is folded as far as the last doorbell's release (R78, R314). -/
def State.hostAcquired (s : State) (x : Queue) : Bool :=
  match s.ring? (hostRing x.func) with
  | some r => decide (x.need ≤ r.fold)
  | none => true

/-! Cards (R315). -/

/-- A little-endian field of a card. -/
def cardNat (card : List Byte) (off n : Nat) : Nat := bytesToNat ((card.drop off).take n)

/-- Bytes of a card that must be zero. -/
def cardZero (card : List Byte) (off n : Nat) : Bool := ((card.drop off).take n).all (· == 0)

/-- The card at a queue's head: 256 bytes at home. -/
def State.cardAt (s : State) (x : Queue) : List Byte :=
  Memory.bytes s.mem (x.base.toNat * 256 + x.head.toNat % 2 ^ x.log2e.toNat * 256) 256

/-- The sequence number next due for an ASID (R318). -/
def State.dueSeq (s : State) (asid : BitVec 16) : Nat := Sparse.get 1 s.nextSeq asid.toNat

/-- Admitted cards that are not complete: of a queue and of the package (R318). -/
def State.openCards (s : State) (q : Nat) : Nat := (s.jobs.filter fun j => j.queue.val == q && !j.complete).length

/-- Admission has not stopped (R371, step 1). -/
def State.admitting (s : State) : Bool :=
  s.ready && (match s.susp with | some x => x.resuming && decide (5 ≤ x.step) | none => true)

/-- A queue reads its next card (R314, R318). SUSPEND and RESUME act as they are admitted, so they wait in the queue for what holds
them (R316, assumption 151). -/
def State.admitReady (s : State) (q : QueueId) : Bool :=
  let x := s.queue q.val
  x.st == 1 && x.head != x.tail && x.resetting.isNone && x.ending.isNone && s.admitting &&
  s.hostAcquired x && decide (s.openCards q.val < 64 ∧ (s.jobs.filter fun j => !j.complete).length < 512) &&
  ((!x.sec && s.secureAt (x.base.toNat * 256 + x.head.toNat % 2 ^ x.log2e.toNat * 256)) ||
    (decide (cardNat (s.cardAt x) 0 8 ≤ s.dueSeq x.asid) &&
      !(decide (6 ≤ cardNat (s.cardAt x) 8 1) && s.cardHeld q (cardNat (s.cardAt x) 0 8))))

/-- Body and header bits that are not defined (R315, R316, R319). -/
def cardBits (card : List Byte) (minor : Nat) : Bool :=
  let flags := cardNat card 9 1
  let rings := (List.range 4).all fun i =>
    let r := cardNat card (40 + 4 * i) 4
    decide (r / 2 ^ 19 % 32 = 0 ∧ r / 2 ^ 29 = 0)
  decide (flags < 4) && (decide (flags / 2 = 0) || minor == 1) && cardZero card 12 4 &&
  (match cardNat card 8 1 with
   | 1 => rings && (minor == 1 || cardZero card 60 4)
   | 2 => decide (cardNat card 40 1 ≤ 3) && cardZero card 41 23
   | 3 => cardZero card 32 32
   | 4 => decide (cardNat card 32 1 ≤ 1) && cardZero card 33 31
   | 5 => cardZero card 16 48
   | 6 | 7 => decide (cardNat card 24 1 ≤ 1) && cardZero card 25 39
   | _ => false)

/-- The job event of a card. -/
def cardEvent (q : QueueId) (card : List Byte) : Instr :=
  match cardNat card 8 1 with
  | 1 => .launch q card
  | 2 => .copy q card
  | 3 => .waitstamp q card
  | 4 => .signal q card
  | 5 => .fenceCard q card
  | 6 => .suspend q card
  | _ => .resume q card

/-- CARD_ADMIT (R314, R318, R321): the next card is read, HEAD moves on, and the checks on its header are made. A card at a secure
address cannot be read for a non-secure queue (R30), which stops (assumption 139). -/
def execCardAdmit (q : QueueId) (s : State) : Out :=
  if !s.admitReady q then .next s else
  let x := s.queue q.val
  let card := s.cardAt x
  let seq := cardNat card 0 8
  let s1 := s.modQueue q.val fun y => { y with head := y.head + 1 }
  let bad := fun (code : Nat) => (.next (s1.refuse q.val code x.head.toNat seq) : Out)
  let at_ := x.base.toNat * 256 + x.head.toNat % 2 ^ x.log2e.toNat * 256
  if !x.sec && s.secureAt at_ then
    .next ((s1.report { errRec 0x0022 5 2 0 with addr := at_, queue := q.val, asid := x.asid.toNat }).refuse q.val 0x05 x.head.toNat 0)
  else if !cardBits card x.vmin then bad 0x01
  else if cardNat card 11 1 ≠ x.vmaj ∨ cardNat card 10 1 ≠ x.vmin then bad 0x02
  else if seq < s.dueSeq x.asid then bad 0x03
  else .next (s1.soon (cardEvent q card))

/-! Footprints (R317). -/

/-- The well-formed regions of a card, 0 to 7 read, 8 to 15 write; none if one is malformed. -/
def cardRegions (card : List Byte) : Option (List Region) :=
  (List.range 16).foldl (fun acc i =>
    match acc with
    | none => none
    | some l =>
      let w := cardNat card (64 + 12 * i) 8
      let count := cardNat card (72 + 12 * i) 4
      if count = 0 then some l
      else if w / 2 ^ 60 ≠ 0 then none
      else
        let base := w % 2 ^ 55
        let size := count * 2 ^ (w / 2 ^ 55 % 32)
        if 2 ^ 55 < base + size then none else some (l ++ [⟨base, base + size - 1, decide (8 ≤ i)⟩])) (some [])

/-- A DVA range of a COPY job, in the form of a region. -/
def rangeRegion (base len : Nat) (write : Bool) : Option Region :=
  if 2 ^ 55 < base + len ∨ len = 0 then none else some ⟨base, base + len - 1, write⟩

/-- An admitted card becomes a job: the next sequence number is due, and edges are taken against the jobs before it; a
predecessor that has failed makes it fail (R318, R320). -/
def State.enterCard (s : State) (q : QueueId) (card : List Byte) (regions : List Region) : State :=
  let x := s.queue q.val
  let seq := cardNat card 0 8
  let flags := cardNat card 9 1
  let j : Job :=
    { id := s.jobNo + 1, seq := seq, idx := (x.head - 1).toNat, queue := q, asid := x.asid, cmd := cardNat card 8 1, irq := flags % 2 == 1,
      global := decide (2 ≤ flags), body := card.take 64, regions := regions, st := .waiting, failed := false,
      readyAc := 0, steps := 0, promoted := false, team := 0, rings := [] }
  let failed := s.jobs.any fun i => i.failed && edgeOf i j != .none && s.edgeOpen i j
  { s with
    jobNo := s.jobNo + 1, nextSeq := Sparse.set 1 s.nextSeq x.asid.toNat (seq + 1), jobs := s.jobs ++ [{ j with failed := failed }] }

/-- A card is refused after its header was accepted. -/
def State.refuseCard (s : State) (q : QueueId) (card : List Byte) (code : Nat) : State :=
  s.refuse q.val code ((s.queue q.val).head - 1).toNat (cardNat card 0 8)

/-- An 8-byte word that WAITSTAMP or SIGNAL names (R316): 8-aligned, on a page of sync or host-coherent kind that the queue's
world reaches and, for SIGNAL, that permits writes: its address, and whether a migration holds writes off (R130). -/
def State.cardPage (s : State) (q : QueueId) (dva : Nat) (write : Bool) : Option (Nat × Bool) :=
  let x := s.queue q.val
  if dva ≥ 2 ^ 55 ∨ dva % 8 ≠ 0 then none else
  match s.walk x.asid x.sec dva with
  | .error _ => none
  | .ok (e, big) =>
    let pa := s.movedPa (leafPa e + dva % (if big then 2 ^ 29 else 65536))
    if (leafKind e = 2 ∨ leafKind e = 4) ∧ (write = false ∨ leafW e = true) then
      match s.physFault pa x.sec (if leafKind e = 2 then .sync else .host) with
      | some _ => none
      | none => if write && s.sealedAt pa then none else some (pa, leafWp e)
    else none

/-- The abort that the translation of a card's word meets is recorded (R30). -/
def State.cardNote (s : State) (q : QueueId) (dva : Nat) : State :=
  let x := s.queue q.val
  if 2 ^ 55 ≤ dva then s else s.noteAbort x.asid x.sec dva 5

/-- A WAITSTAMP or SIGNAL whose page no longer translates stops its queue with error 0x05, and fails (R316, R321). -/
def State.cardLost (s : State) (j : Job) : State :=
  ((s.cardNote j.queue (cardNat j.body 16 8)).failJob j.id).refuse j.queue.val 0x05 j.idx j.seq

def State.cardWord (s : State) (q : QueueId) (dva : Nat) (write : Bool) : Option Nat := (s.cardPage q dva write).map (·.1)

/-! Commands (R316, R319, R321). -/

/-- Arrays that the configuration record enables (R321). -/
def State.enabledCount (s : State) : Nat := ((List.finRange 32).filter fun a : ArrId => !s.cfg.disabled.getLsbD a.val).length

/-- The shape of a team (R319, R321, code 0x07). -/
def State.shapeOk (s : State) (card : List Byte) (p : Plan) : Bool :=
  let tasks := cardNat card 56 1
  let chain := cardNat card 57 1
  let q := cardNat card 59 1
  let tsize := cardNat card 60 2
  let a := tasks * chain
  decide (1 ≤ tasks ∧ tasks ≤ 32) && (chain == 1 || chain == 2 || chain == 4) && chain == p.chain && decide (cardNat card 58 1 ≤ 8) &&
  (q == 0 || decide (6 ≤ q ∧ q ≤ 12)) && decide (a ≤ 32 ∧ p.teamMin ≤ a ∧ a ≤ p.teamMax) && decide (a ≤ s.enabledCount) &&
  decide (tsize ≤ 16384) && (tsize == 0 || decide (cardNat card 62 2 + tasks ≤ tsize))

/-- The team sync area: 4 MiB of sync-kind pages (R326, R321, code 0x08). -/
def State.syncOk (s : State) (x : Queue) (dva : Nat) : Bool :=
  dva % 65536 == 0 && (List.range 64).all fun i =>
    match s.walk x.asid x.sec (dva + 65536 * i) with
    | .ok (e, _) => leafKind e == 2
    | .error _ => false

/-- The first abort that the walks of the area meet is recorded (R30). -/
def State.syncNote (s : State) (x : Queue) (dva : Nat) : State :=
  match (List.range 64).find? fun i => (s.abortAt x.asid x.sec (dva + 65536 * i)).isSome with
  | some i => s.noteAbort x.asid x.sec (dva + 65536 * i) 5
  | none => s

/-- LAUNCH (R319, R321). A seal tag that does not match is reported with ADDR 0 (R205; assumption 158). -/
def execLaunch (q : QueueId) (card : List Byte) (s : State) : Out :=
  let x := s.queue q.val
  let sync := cardNat card 32 8
  match cardRegions card with
  | none => .next (s.refuseCard q card 0x05)
  | some regions =>
    if sync + 2 ^ 22 > 2 ^ 55 then .next (s.refuseCard q card 0x05) else
    match s.image? (cardNat card 16 8) with
    | none => .next (s.refuseCard q card 0x06)
    | some m =>
      if m.sec != x.sec then .next (s.refuseCard q card 0x06)
      else if !s.tagHolds m then
        .next ((s.report { errRec 0x0051 6 2 0 with queue := q.val, asid := x.asid.toNat }).refuseCard q card 0x06)
      else if !s.shapeOk card m.plan then .next (s.refuseCard q card 0x07)
      else if !s.syncOk x sync then .next ((s.syncNote x sync).refuseCard q card 0x08)
      else .next (s.enterCard q card regions)

/-- COPY (R316, R317): its source and destination are regions of its footprint. -/
def execCopy (q : QueueId) (card : List Byte) (s : State) : Out :=
  let len := cardNat card 32 8
  let src := if cardNat card 40 1 = 1 then 8 else len
  match cardRegions card, rangeRegion (cardNat card 16 8) src false, rangeRegion (cardNat card 24 8) len true with
  | some regions, some r, some w =>
    if 2 ^ 40 < len then .next (s.refuseCard q card 0x05) else .next (s.enterCard q card (regions ++ [r, w]))
  | _, _, _ => .next (s.refuseCard q card 0x05)

/-- WAITSTAMP (R316): every later card of the queue waits for it (`State.cardHeld`). -/
def execWaitstamp (q : QueueId) (card : List Byte) (s : State) : Out :=
  match cardRegions card, s.cardWord q (cardNat card 16 8) false with
  | some regions, some _ => .next (s.enterCard q card regions)
  | some _, none => .next ((s.cardNote q (cardNat card 16 8)).refuseCard q card 0x05)
  | none, _ => .next (s.refuseCard q card 0x05)

/-- SIGNAL (R316). -/
def execSignal (q : QueueId) (card : List Byte) (s : State) : Out :=
  match cardRegions card, s.cardWord q (cardNat card 16 8) true with
  | some regions, some _ => .next (s.enterCard q card regions)
  | some _, none => .next ((s.cardNote q (cardNat card 16 8)).refuseCard q card 0x05)
  | none, _ => .next (s.refuseCard q card 0x05)

/-- FENCE (R316): every later card of the queue waits for it (`State.cardHeld`). -/
def execFenceCard (q : QueueId) (card : List Byte) (s : State) : Out :=
  match cardRegions card with
  | some regions => .next (s.enterCard q card regions)
  | none => .next (s.refuseCard q card 0x05)

/-! Readiness (R320, R316). -/

/-- Every earlier card of a job's queue has completed and its records are folded. -/
def State.earlierDone (s : State) (j : Job) : Bool :=
  s.jobs.all fun i => i.queue != j.queue || decide (j.seq ≤ i.seq) || (i.complete && s.jobFolded i)

/-- The write of a SIGNAL can begin: its owner has not been asked yet, and no migration holds it off (R130). -/
def State.signalFree (s : State) (j : Job) : Bool :=
  !(s.asks.any fun k => k.who == .job j.id) &&
  (match s.cardPage j.queue (cardNat j.body 16 8) true with | some (pa, wp) => !wp && !s.hostBusy (pa / 64) | none => true)

/-- A job whose turn has come (R320, R316): a LAUNCH or COPY that nothing holds and whose edges are met, a SIGNAL or FENCE whose
earlier cards are done, or any waiting job with a failed predecessor. -/
def State.jobDue (s : State) (j : Job) : Bool :=
  (j.st == .waiting && (j.failed || (s.edgesMet j && (match j.cmd with
    | 1 | 2 => !s.cardHeld j.queue j.seq
    | 4 => s.earlierDone j && s.signalFree j
    | 5 => s.earlierDone j
    | _ => false)))) ||
  (j.st == .ready && j.failed)

/-- SIGNAL's write (R316): at home, the job being complete with it, or by the owner of the word, whose acceptance completes the
job. -/
def State.signalWrite (s : State) (j : Job) : State :=
  match s.cardWord j.queue (cardNat j.body 16 8) true with
  | none => s.cardLost j
  | some pa =>
    let v := cardNat j.body 24 8
    let add := cardNat j.body 32 1 = 1
    let sec := (s.queue j.queue.val).sec
    let (d, m) := atByte v (pa % 64) 8
    if s.ours (pa / 64) then
      let (old, _, s1) := (s.traffic 0 portScheduler (homeSlice (pa / 64)) (s.queue j.queue.val).prio.toNat 8 0).homeRead (pa / 64) j.asid
      (s1.homeStore pa (if add then ((lineField old (pa % 64) 8).toNat + v) % 2 ^ 64 else v) 8 j.asid).completeJob j.id false
    else if !add then s.request (.job j.id) pa (.write m d) sec j.asid
    else if rangeOf pa = .host then s.request (.job j.id) pa .own sec j.asid
    else s.request (.job j.id) pa (.atomic 0x10 8 (BitVec.ofNat 64 v) 0) sec j.asid

/-- The host line of a SIGNAL that adds is held exclusive: the sum is written back (R97). -/
def State.signalAdd (s : State) (j : Job) (pa : Nat) : State :=
  let old := lineField (s.lineData (pa / 64)) (pa % 64) 8
  let (d, m) := atByte ((old.toNat + cardNat j.body 24 8) % 2 ^ 64) (pa % 64) 8
  (s.known (pa / 64) m d).request (.job j.id) pa (.write m d) (s.queue j.queue.val).sec j.asid

/-- A job whose predecessor failed completes without running, with a record of reason 0x0041 (R320). -/
def State.predFailed (s : State) (j : Job) : State :=
  (s.report { errRec 0x0041 5 0 0 with
    queue := j.queue.val, asid := j.asid.toNat, detail := j.seq % 2 ^ 32 }).failJob j.id

/-- JOB_READY (R320, R316). -/
def execJobReady (job : Nat) (s : State) : Out :=
  match s.job? job with
  | none => .next s
  | some j =>
    if !s.jobDue j then .next s
    else if j.failed then .next (s.predFailed j)
    else match j.cmd with
    | 4 => .next (s.signalWrite j)
    | 5 => .next (s.completeJob job false)
    | _ => .next (s.makeReady job)

/-- A WAITSTAMP of a queue that nothing holds, whose word at home is at or above VALUE, or whose page no longer translates (R316). -/
def State.stampMet (s : State) (q : QueueId) : Option Job :=
  s.jobs.find? fun j => j.queue == q && j.cmd == 3 && j.st == .waiting && !s.cardHeld q j.seq && s.edgesMet j &&
    match s.cardWord q (cardNat j.body 16 8) false with
    | some pa => decide (cardNat j.body 24 8 ≤ bytesToNat (Memory.bytes s.mem pa 8))
    | none => true

/-- WAITSTAMP_SATISFIED (R316): the card completes; one whose page no longer translates stops its queue. -/
def execWaitstampSatisfied (q : QueueId) (s : State) : Out :=
  match s.stampMet q with
  | none => .next s
  | some j => .next (if (s.cardWord q (cardNat j.body 16 8) false).isSome then s.completeJob j.id false else s.cardLost j)

/-! Age (R322). -/

/-- JOB_AGE_STEP (R322): one step for each full 1 ms that the job is ready and not placed. -/
def execJobAgeStep (job : Nat) (s : State) : Out :=
  match s.job? job with
  | none => .next s
  | some j =>
    if j.st != .ready then .next s else
    let s1 := (s.modJob job fun x => { x with steps := x.steps + 1 }).atAc (s.now + acPerMs) (.jobAgeStep job)
    .next (if j.steps + 1 ≥ 255 && !j.promoted then s1.soon (.jobPromote job) else s1)

/-- JOB_PROMOTE (R322): at 255 steps a job ranks above 15. -/
def execJobPromote (job : Nat) (s : State) : Out :=
  match s.job? job with
  | none => .next s
  | some j => .next (if 255 ≤ j.steps && !j.complete then s.modJob job fun x => { x with promoted := true } else s)

/-! Queue commands (R313). -/

/-- The ASID root is valid for a world (R121). -/
def State.rootOk (s : State) (asid : Nat) (world : Bool) : Bool :=
  let at_ := s.atbrBase.toNat * 65536 + 8 * asid
  s.atbrEna && decide (at_ + 8 ≤ s.visible) &&
  (match s.walkRead world at_ with
   | none => false
   | some r => r.extractLsb' 0 2 == 1 && r.getLsbD 2 == world && r.extractLsb' 3 13 == 0 && r.extractLsb' 52 12 == 0 &&
     s.tableOk (leafPa r))

/-- QUEUE_CREATE (R313): the refusals of the rule, then a running queue with the negotiated version. -/
def execQueueCreate (fn : FnId) (q base log2e prio asid owner : Nat) (world mgmt : Bool) (vmaj vmin : Nat) (s : State) : Out :=
  s.onlyFn0 fn
    (if world && !s.fnSecure fn then .next (s.respond fn 4 [])
     else if h : q < 64 ∧ owner < 8 then
       let own : FnId := ⟨owner, h.2⟩
       let bad := decide (15 < prio ∨ log2e < 4 ∨ 12 < log2e ∨ 65536 ≤ asid) || base % 256 != 0 ||
         !s.backed base (256 * 2 ^ log2e) || (s.queue q).st != 0 || !s.cfg.fnOn.getLsbD owner ||
         (world && !s.fnSecure own) || !s.rootOk asid world || (mgmt && owner != 0) || vmaj != 1
       if bad then .next (s.respond fn 3 [])
       else
         let minor := min vmin 1
         let s1 := s.modQueue q fun x =>
           { x with
             base := BitVec.ofNat 44 (base / 256), prio := BitVec.ofNat 4 prio, log2e := BitVec.ofNat 4 log2e, sec := world,
             mgmt := mgmt, func := own, asid := BitVec.ofNat 16 asid, vmin := minor, vmaj := 1, tail := 0, head := 0, done := 0,
             prog := 0, st := 1, err := 0, progAc := s.now, resetting := none, ending := none, need := 0 }
         .next (s1.respond fn 0 (natToBytes 1 1 ++ natToBytes 1 minor))
     else .next (s.respond fn 3 []))

/-- Every LAUNCH and COPY of a queue has ended (R313). -/
def State.queueQuiet (s : State) (q : Nat) : Bool :=
  s.jobs.all fun j => j.queue.val != q || j.complete || !(j.cmd == 1 || j.cmd == 2)

/-- A stopped queue restarts (R313): HEAD takes the last TAIL. -/
def State.restartQueue (s : State) (q : Nat) (fn : FnId) : State :=
  (s.modQueue q fun x => { x with head := x.tail, err := 0, st := 1, resetting := none }).respond fn 0 []

/-- QUEUE_RESET (R313): for a queue stopped on an error or killed; it completes once its teams and COPY jobs have ended. -/
def execQueueReset (fn : FnId) (q : Nat) (s : State) : Out :=
  s.onlyFn0 fn
    (let x := s.queue q
     if decide (64 ≤ q) || !(x.st == 2 || x.st == 3) || x.ending.isSome then .next (s.respond fn 3 [])
     else if s.queueQuiet q then .next (s.restartQueue q fn)
     else .next (s.modQueue q fun y => { y with resetting := some fn }))

/-- QUEUE_DESTROY (R313): the queue's contexts are killed and jobs that have not begun fail; the queue is disabled once all
have ended. -/
def execQueueDestroy (fn : FnId) (q : Nat) (s : State) : Out :=
  s.onlyFn0 fn
    (if decide (64 ≤ q) || (s.queue q).st == 0 then .next (s.respond fn 3 [])
     else
       let ts := s.teams.filter fun t => t.queue.val == q && !t.dead && t.tasks.any fun k => !k.ended
       let s0 := if ts.isEmpty then s.modQueue q fun x => { x with st := 3 } else s.killQueue q
       let s1 := ts.foldl (fun u t => u.killTeam t.id 0x0042) s0
       let s2 := (s1.jobs.filter fun j => j.queue.val == q && (j.st == .waiting || j.st == .ready) && j.team == 0).foldl
         (fun u j => u.failJob j.id) s1
       .next (s2.modQueue q fun x => { x with ending := some fn }))

/-- Queues whose reset or end can now complete. -/
def State.tidyQueues (s : State) : State :=
  (List.range 64).foldl (fun u q =>
    let x := u.queue q
    if !u.queueQuiet q then u
    else match x.ending, x.resetting with
    | some fn, _ => (u.modQueue q fun y => { y with st := 0, ending := none, resetting := none }).respond fn 0 []
    | none, some fn => u.restartQueue q fn
    | none, none => u) s

end Sys2Proof.Machine
end

