-- ==== Sys2Proof/Machine/Gang.lean ====
section
/-! DEFINITION. Placement of a gang (R323 to R326), its resumption (R331), the scrub of an array (R32). -/

namespace Sys2Proof.Machine

/-! What an array can hold (R324, R325). -/

/-- The kernels resident on an array. -/
def State.residents (s : State) (a : ArrId) : List Plan :=
  ((s.arr a).ctxs.toList.filter fun x => x.run != CtxRun.free).map s.planOf

/-- An idle array: no context has a task and no C op or capture is left. -/
def State.idleArr (s : State) (a : ArrId) : Bool :=
  (s.arr a).ctxs.toList.all (fun x => x.run == CtxRun.free) && (s.arr a).wave.isEmpty && (s.arr a).coll.toList.all (·.isEmpty)

/-- Two ranges share nothing. -/
def rangesApart (f n g m : Nat) : Bool := n == 0 || m == 0 || decide (f + n ≤ g ∨ g + m ≤ f)

/-- The banks of a plan's buffers (R203). -/
def Plan.banks (p : Plan) : BitVec 64 := p.bufs.foldl (fun (b : BitVec 64) x => b ||| x.banks) 0

/-- Two plans can share an array (R324). -/
def Plan.apart (p q : Plan) : Bool :=
  rangesApart p.mFirst p.mCount q.mFirst q.mCount && rangesApart p.oFirst p.oCount q.oFirst q.oCount &&
  (p.latches &&& q.latches) == 0 && rangesApart p.eaFirst p.eaCount q.eaFirst q.eaCount && (p.banks &&& q.banks) == 0 &&
  !(p.stoch && q.stoch)

/-- What a gang asks for: world, plan, chain length, ring size in units of 1.5 MiB, tasks to place, their rings. -/
structure Gang where
  sec    : Bool
  plan   : Plan
  chain  : Nat
  ringsz : Nat
  tasks  : Nat
  rings  : List Nat
  deriving DecidableEq, Repr

/-- A context's ring slot is free: no log of another task stands in it unfolded (R81, R325). -/
def State.slotFree (s : State) (g : Gang) (a : ArrId) (c : CtxId) : Bool :=
  s.rings.all fun r => r.slot != agentSlot a c || r.fold == r.tail || g.rings == [r.id]

/-- The context that a task of a gang takes on an array. -/
def State.freeSlot (s : State) (g : Gang) (a : ArrId) : Option CtxId :=
  (List.finRange 4).find? fun c => (s.ctxOf a c).run == .free && s.slotFree g a c

/-- A die holds no kernel and no unfolded context log (R325). -/
def State.idleDie (s : State) (d : Nat) : Bool :=
  ((List.finRange 32).all fun a : ArrId => ArrId.die a != d || s.idleArr a) &&
  s.rings.all fun r => decide (128 ≤ r.slot) || r.die != d || r.fold == r.tail

/-- The ring size that a die's slots hold; `wide`: an idle die may be repartitioned (R325). -/
def State.dieHolds (s : State) (wide : Bool) (d : Nat) : Nat := if wide && s.idleDie d then 8 else s.ringSlot.toList.getD d 0

/-- An array may take position 0 of a chain, or an unchained task (R324, R325). -/
def State.leaderOk (s : State) (g : Gang) (wide : Bool) (a : ArrId) : Bool :=
  let x := s.arr a
  s.usable a && x.leader.isNone && ((x.sec == g.sec && (s.residents a).all g.plan.apart) || s.idleArr a) &&
  (s.freeSlot g a).isSome && decide (g.ringsz ≤ s.dieHolds wide (ArrId.die a))

/-- An array may follow in a chain (R324). -/
def State.followerOk (s : State) (a : ArrId) : Bool := s.usable a && (s.arr a).leader.isNone && s.idleArr a

/-! Where a gang fits (R323, R145). -/

/-- The chains that can be formed within some arrays, in ascending order. -/
def State.chainsIn (s : State) (g : Gang) (wide : Bool) (region : List ArrId) : List (List ArrId) :=
  chainsFrom g.chain (region.filter (s.leaderOk g wide)) (region.filter s.followerOk)

/-- Where a gang fits, on the dies as they are partitioned or else with idle dies repartitioned. -/
def State.gangFit (s : State) (g : Gang) : Option (List (List ArrId)) :=
  let try_ := fun wide => (regionsFor g.chain (g.tasks * g.chain)).findSome? fun r => seatTasks (s.chainsIn g wide r) g.tasks []
  match try_ false with
  | some l => some l
  | none => try_ true

/-! Preparation. -/

/-- ARRAY_SCRUB (R32): an array whose contexts are all idle is cleared. -/
def execArrayScrub (a : ArrId) (s : State) : Out :=
  if !s.idleArr a then .next s else
  .next (s.modArr a fun x =>
    { x with
      mrf := [], opf := [], lrf := [], comm := [], latch := [], ea := [], asw := [], tags := [], vc := [], tc := [], errs := [],
      ctxs := x.ctxs.map fun y : Ctx => { y with own := [] }, scrubbed := true })

/-- A die's ring slots take a new size: lines in the ways that join its log partition are written back (R50, R325). -/
def State.repartition (s : State) (d : Fin 4) (n : Nat) : State :=
  let s1 := { s with ringSlot := s.ringSlot.set d.val n d.isLt }
  let ways := s1.logWays d.val
  (s.lines.filter fun e => e.2.l2 != .invalid && homeSlice e.1 / 32 == d.val && decide (e.2.l2way < ways)).foldl
    (fun u e => u.evictL2 e.1) s1

/-- A seat of a task: its chain and the context of its leader. -/
structure Seat where
  task  : Task
  chain : List ArrId
  ctx   : CtxId
  deriving DecidableEq, Repr

def Seat.leader (x : Seat) : ArrId := x.chain.headD 0

/-- The seats of a gang's chains. -/
def State.seats (s : State) (g : Gang) (tasks : List Task) (chains : List (List ArrId)) : List Seat :=
  (tasks.zip chains).map fun e => ⟨e.1, e.2, (s.freeSlot g (e.2.headD 0)).getD 0⟩

/-- Arrays of a gang that must be scrubbed before they change world (R32). -/
def State.toScrub (s : State) (g : Gang) (chains : List (List ArrId)) : List ArrId :=
  chains.flatten.filter fun a => (s.arr a).sec != g.sec && !(s.arr a).scrubbed

/-! Placement. -/

/-- The message rings of a LAUNCH card (R319, R306). -/
def launchRings (l : List Nat) : Vector MsgRing 4 :=
  Vector.ofFn fun i : Fin 4 =>
    let w := l.getD i.val 0
    let base := BitVec.ofNat 24 (w % 2 ^ 19 * 32)
    { head := base, base := base, log2n := BitVec.ofNat 8 (w / 2 ^ 24 % 32), tail := base, count := 0 }

/-- Chain length code of sr.status (R234). -/
def chainCode (n : Nat) : BitVec 2 := if n = 4 then 2 else if n = 2 then 1 else 0

/-- A context at launch (R319, R233): PARAM in g1, every other register at its reset value. -/
def Team.freshCtx (t : Team) (k : Task) (entry : Nat) : Ctx :=
  { run := .active, team := BitVec.ofNat 16 t.id, rank := BitVec.ofNat 14 k.rank, larr := BitVec.ofNat 5 k.larr,
    tsize := BitVec.ofNat 15 t.tsize, asid := t.asid, queue := t.queue.val, sec := t.sec, chain := chainCode t.chain,
    image := t.image, ring := k.ring, pc := entry, g := (Vector.replicate 32 0).set 1 t.param, rings := launchRings t.ringsW,
    seg := 1, segBase := 1, nodeSeg := 1 }

/-- A context resumed from its node record (R327, R331): g1 to g7, flags, sr.node, sr.bundles and the stamp count come from
the record; a token that was pending is pending still, or is the one that has come meanwhile. -/
def Team.resumedCtx (t : Team) (k : Task) (r : List Byte) : Ctx :=
  let mask := cardNat r 7 1
  let come := fun (i : Nat) => t.tokens.find? fun e => e.1 == k.rank && e.2.1.toNat == i
  { t.freshCtx k (cardNat r 0 4) with
    g := Vector.ofFn fun i : Fin 32 =>
      if 1 ≤ i.val ∧ i.val ≤ 7 then
        (if mask.testBit (i.val - 1) then (match come i.val with | some e => e.2.2 | none => BitVec.ofNat 64 (cardNat r (8 * i.val) 8))
         else BitVec.ofNat 64 (cardNat r (8 * i.val) 8))
      else 0
    sb := (List.range 7).foldl (fun (b : BitVec 32) i => if mask.testBit i && (come (i + 1)).isNone then setBit b (i + 1) else b) 0
    node := BitVec.ofNat 16 (cardNat r 4 2), flags := BitVec.ofNat 16 (cardNat r 64 2),
    bundles := BitVec.ofNat 64 (cardNat r 72 8), stamps := cardNat r 80 8 }

/-- The view positions of a context placed now (R76): the published tails of the team's logs and of the package's sixteen
fixed logs. -/
def State.startPos (s : State) (t : Team) : Sparse Nat :=
  let put := fun (m : Sparse Nat) (key ring gone : Nat) =>
    Sparse.set 0 m key (match s.ring? ring with | some r => r.pub | none => gone)
  (List.range 16).foldl (fun m i => put m (128 + i) (128 + i) 0)
    (t.tasks.foldl (fun m k => put m k.larr k.ring (match k.past with | some e => e.1 | none => 0)) [])

/-- The own-store index of a log's unfolded records (R47). -/
def Ring.ownIndex (r : Ring) (nm : Nat → Nat) : Sparse Nat :=
  (r.lines nm r.fold r.tail).foldl (fun m l =>
    match r.newest nm l r.fold (r.tail - r.fold) with
    | some n => Sparse.set 0 m l (n + 2)
    | none => m) []

/-- An array joins a placement: world, chain, empty tags in the planned buffers (R42), placement values of the context's
registers in the cells (R36), view lines of the ASID gone (R76). -/
def Arr.takeSeat (x : Arr) (t : Team) (p : Plan) (c : CtxId) (pos : Nat) (leader : ArrId) : Arr :=
  let inBuf := fun (w : Nat) => p.bufs.any fun b => decide (b.off < 32 * w + 32 ∧ 32 * w < b.off + b.size)
  { x with
    sec := t.sec, scrubbed := false, chainPos := pos, leader := (if pos = 0 then none else some (leader, c)),
    tags := x.tags.filter (fun e => !inBuf e.1)
    comm := x.comm.filter (fun e => !(e.1 / 3 % 4 == c.val)), cp := x.cp.filter (fun e => !(e.1 % 4 == c.val))
    cf := x.cf.filter (fun e => !(e.1 % 4 == c.val)), shadow := x.shadow.filter (fun e => !(e.1 % 4 == c.val))
    errs := x.errs.filter fun e => !(match e.place with | .tag w => inBuf w | .comm _ d _ => d == c | _ => false)
    vc := x.vc.filter fun v => !(v.asid == t.asid && v.st == .view) }

/-- Preload records go into the array store with their tags full (R201). -/
def Arr.preload (x : Arr) (recs : List (Nat × List Byte)) : Arr :=
  recs.foldl (fun y e =>
    let z := (e.2.zip (List.range e.2.length)).foldl (fun (u : Arr) b =>
      let off := e.1 + b.2
      u.putWord (off / 32) (BitVec.ofNat 256 (b.1.toNat * 2 ^ (8 * (off % 32)))) (BitVec.ofNat 32 (2 ^ (off % 32)))) y
    (List.range ((e.1 + e.2.length + 31) / 32 - e.1 / 32)).foldl (fun (u : Arr) i =>
      { (u.clearErr (.tag (e.1 / 32 + i)) fun _ => true) with tags := Sparse.set false u.tags (e.1 / 32 + i) true }) z) x

/-- A task's ring at a seat (R62): a new one, empty. -/
def newRing (t : Team) (k : Task) (slot die : Nat) : Ring :=
  { id := k.ring, slot := slot, die := die, n := 16384 * t.ringsz, recs := [], stamps := [], tail := 0, pub := 0, fold := 0,
    first := 0, segFirst := 0, asid := t.asid, sec := t.sec, team := t.id, rank := k.rank, release := none, frees := false,
    seen := [], foldAc := 0, foldWas := 0, next := none, owners := [], guards := [] }

/-- The task's ring is not that of a seat, and it takes another there (R63, R81). -/
def State.ringMoves (s : State) (k : Task) (a : ArrId) (c : CtxId) : Bool :=
  match s.ring? k.ring with
  | some r => r.slot != agentSlot a c
  | none => false

/-- The log of a task at its seat (R62, R63, R81): a new ring, or its own in its own slot. A task that has moved goes on with the
next number in its new ring; the old one, `was`, is freed once it is folded, and until then its unfolded records are the log's. -/
def State.seatRing (s : State) (t : Team) (k : Task) (was : Nat) (a : ArrId) (c : CtxId) : State :=
  if (s.ring? k.ring).isSome then s else
  let q := newRing t k (agentSlot a c) (ArrId.die a)
  match s.ring? was with
  | none => { s with rings := s.rings ++ [q] }
  | some r =>
    let q1 := { q with
      recs := r.recs, stamps := r.stamps, tail := r.tail, pub := r.pub, fold := r.fold, first := r.pub, segFirst := r.segFirst, seen := r.seen, guards := r.guards }
    let s1 := s.modRing was fun x => { x with frees := true, next := some k.ring, tail := x.pub }
    { s1 with rings := (if r.fold = r.pub then s1.rings.filter (·.id != was) else s1.rings) ++ [q1] }

/-- Copies that a pre-empted task left running are its own again (R330, R331). -/
def State.reattach (s : State) (t : Team) (k : Task) : State :=
  let f := modWhere (fun j : CopyJob => j.away && j.team == t.id && j.rank.toNat == k.rank) fun j =>
    
    { j with
      away := false, arr := k.arr, ctx := k.ctx, seg := 0, pageWait := if j.ready then none else j.pageWait, ready := false }
  { s with arrays := s.arrays.map fun x : Arr => { x with near := f x.near, poolq := f x.poolq } }

/-- The arrays of a seat are taken; a resumed kernel finds its planned ranges zero (R331). -/
def State.seatArrays (s : State) (t : Team) (p : Plan) (x : Seat) (resumed : Bool) : State :=
  (x.chain.zip (List.range x.chain.length)).foldl (fun u e =>
    u.modArr e.1 fun z => ((if resumed then z.clearKernel p x.ctx else z).takeSeat t p x.ctx e.2 x.leader)) s

/-- The node record of a task, where it holds one that is valid (R327). -/
def State.nodeRecord (s : State) (t : Team) (k : Task) : Option (List Byte) :=
  match s.hardSee t.asid t.sec (t.sync + 0x100000 + 128 * k.rank) with
  | none => none
  | some pa =>
    let r := Memory.bytes s.mem pa 128
    if k.node && (cardNat r 6 1).testBit 0 then some r else none

/-- A task starts at its seat: from its node record, or at the image's entry (R331, R319). Its snapshot is that of its first
segment (R150). -/
def State.seatCtx (s : State) (t : Team) (m : Image) (k : Task) : State :=
  let y0 := match s.nodeRecord t k with
    | some r => t.resumedCtx k r
    | none => t.freshCtx k m.entry
  let s := if k.node then s.noteAbort t.asid t.sec (t.sync + 0x100000 + 128 * k.rank) 5 else s
  let r := s.ring? k.ring
  let y := { y0 with
    pos := s.startPos t, own := (match r with | some q => q.ownIndex s.named | none => []), nextAc := s.now + 1, order := 0 }
  let pub := match r with | some q => q.pub | none => 0
  let snap := { y.snapshot (pub - 1) with pc := y.pc }
  s.modCtx k.arr k.ctx fun _ => { y with snap := some snap }

/-- This package's entries of the rank table and of the publication area (R323, R326, R70). -/
def State.seatWrites (s : State) (t : Team) (k : Task) : State :=
  let s1 := match s.hardDva t.asid t.sec (t.sync + 0x300000 + 4 * k.rank) with
    | some pa => s.hardBytes pa (s.pkgNo + k.larr * 512) 4 t.asid t.sec .nobody
    | none => s.noteAbort t.asid t.sec (t.sync + 0x300000 + 4 * k.rank) 5
  match s1.hardDva t.asid t.sec (t.sync + 64 * k.rank), s1.ring? k.ring with
  | some pa, some r => s1.hardWrite pa r.entryWords t.asid t.sec .nobody
  | _, _ => s1

/-- The package map of a placement (R19, R323): entries of tasks placed now, not yet valid; a task that has ended is not in the
team. -/
def Team.mapFor (t : Team) (seats : List Seat) : List MapEntry :=
  (List.range 32).map fun i =>
    match seats.findSome? fun x => ((t.entriesOf x.task.larr).zip x.chain).find? fun e => e.1 == i with
    | some e => ⟨e.2, false, 0, true⟩
    | none => ⟨0, false, 0, false⟩

/-- A request made for a job that has been placed is withdrawn, unless a task of the victim has stopped already; the watchdog's own
request for the victim stands (R329, R332). -/
def State.withdrawFor (s : State) (job : Nat) : State :=
  { s with teams := s.teams.map fun t =>
      if t.request = some (some job) ∧ !(t.tasks.any fun k => k.placed && (s.ctxOf k.arr k.ctx).run == CtxRun.parked) then
        { t with request := if t.wdAc.isSome then some none else none } else t }

/-- The watchdog of a queue begins to run when its first team or COPY job does (R332). -/
def State.watchStart (s : State) (q : Nat) : State :=
  let runs := s.teams.any (fun t => t.placed && t.queue.val == q) ||
    s.jobs.any fun j => j.queue.val == q && j.cmd == 2 && j.st == .placed
  if runs then s else s.modQueue q fun x => { x with progAc := s.now }

/-- The team takes its seats; its LFSRs are seeded as by a write of 0 to sr.seed (R166). `resumed`: its kernel's ranges are cleared
and preloads are not written again. -/
def State.seatTeam (s : State) (t : Team) (m : Image) (seats : List Seat) (resumed : Bool) : State :=
  let tasks := t.tasks.map fun k =>
    match seats.find? fun x => x.task.rank == k.rank with
    | some x => { k with
        arr := x.leader, ctx := x.ctx, placed := true, ring := if s.ringMoves k x.leader x.ctx then s.ringNo + k.larr else k.ring }
    | none => k
  let t1 := { t with
    tasks := tasks, map := t.mapFor seats, placed := true, placedAc := s.now, everPlaced := true, request := none, wdAc := none,
    tokens := t.tokens }
  let live := t1.tasks.filter (·.placed)
  let wide := (List.finRange 4).foldl (fun (u : State) d =>
    if seats.any (fun x => ArrId.die x.leader == d.val) && decide (u.ringSlot[d] < t.ringsz) then u.repartition d t.ringsz else u)
    (s.watchStart t.queue.val)
  let s1 := seats.foldl (fun u x => u.seatArrays t m.plan x resumed) wide
  let s2 := live.foldl (fun u k => u.seatRing t1 k (match t.tasks.find? (·.rank == k.rank) with | some o => o.ring | none => k.ring) k.arr k.ctx)
    { s1 with ringNo := s1.ringNo + t.ntasks }
  let s3 := { s2 with teams := if s2.teams.any (·.id == t.id) then modWhere (·.id == t.id) (fun _ => t1) s2.teams else s2.teams ++ [t1] }
  let s4 := live.foldl (fun u k =>
    (((u.seatCtx t1 m k).reattach t1 k).seatWrites t1 k).sendDown k.arr k.ctx (.wrsr 0 0x01B) 0) s3
  let s5 := if t.everPlaced then s4 else live.foldl (fun u k => u.modArr k.arr (·.preload m.preload)) s4
  let s6 := (s5.modJob t.job fun j => { j with st := .placed, team := t.id, rings := t1.tasks.map (·.ring) }).withdrawFor t.job
  let s7 := { s6 with agenda := s6.agenda.filter fun e => e.ev != .jobAgeStep t.job }
  (List.range 32).foldl (fun u i =>
    match t1.map[i]? with
    | some e => if e.inTeam then u.soon (.peerEntryValid t.id i) else u
    | none => u) s7

/-- The team of a LAUNCH job, as its card describes it (R319); its tasks are not yet placed. -/
def State.teamFor (s : State) (j : Job) : Team :=
  let x := s.queue j.queue.val
  let n := cardNat j.body 56 1
  let tsize := cardNat j.body 60 2
  let first := if tsize = 0 then 0 else cardNat j.body 62 2
  let qlog := cardNat j.body 59 1
  { id := s.teamNo, job := j.id, queue := j.queue, asid := j.asid, sec := x.sec, image := cardNat j.body 16 8,
    param := BitVec.ofNat 64 (cardNat j.body 24 8), sync := cardNat j.body 32 8,
    ringsW := (List.range 4).map fun i => cardNat j.body (40 + 4 * i) 4, ntasks := n, chain := cardNat j.body 57 1,
    ringsz := if cardNat j.body 58 1 = 0 then 2 else cardNat j.body 58 1, quantum := 2 ^ (if qlog = 0 then 8 else qlog),
    tsize := if tsize = 0 then n else tsize, first := first,
    tasks := (List.range n).map fun k => ⟨first + k, k, 0, 0, false, false, s.ringNo + k, false, none⟩
    map := [], placed := false, placedAc := 0, request := none, wdAc := none, everPlaced := false, dead := false, relaunch := false,
    tokens := [] }

/-- The tasks of a team that are still to run. -/
def Team.live (t : Team) : List Task := t.tasks.filter fun k => !k.ended

/-- What a team asks for (R323 to R325, R331). -/
def Team.gang (t : Team) (p : Plan) : Gang := ⟨t.sec, p, t.chain, t.ringsz, t.live.length, t.tasks.map (·.ring)⟩

/-- The team of a ready LAUNCH job: the one it has, or the one that its first placement makes. -/
def State.jobTeam (s : State) (j : Job) : Team := (s.teams.find? fun t => t.job == j.id).getD (s.teamFor j)

/-- Where a ready LAUNCH job fits now. -/
def State.jobFit (s : State) (j : Job) : Option (Team × Image × Gang × List (List ArrId)) :=
  let t := s.jobTeam j
  match s.image? t.image with
  | none => none
  | some m => if t.dead || t.live.any (fun k => s.releasing k.ring) then none else (s.gangFit (t.gang m.plan)).map fun l => (t, m, t.gang m.plan, l)

/-- A gang is placed where it fits (R323, R331); before that Quiet ends (R370), and arrays that change world are scrubbed
(R32). -/
def State.place_ (s : State) (j : Job) (resumed : Bool) : State :=
  match s.jobFit j with
  | none => s
  | some (t, m, g, chains) =>
    if s.pstate = 1 then s.soon .quietExit
    else match s.toScrub g chains with
    | [] =>
      let s0 := if s.teams.any (·.id == t.id) then s else { s with teamNo := s.teamNo + 1, ringNo := s.ringNo + t.ntasks }
      s0.seatTeam t m (s.seats g t.live chains) resumed
    | l => l.foldl (fun u a => u.soon (.arrayScrub a)) s

/-- GANG_PLACE (R323): the first placement of a LAUNCH. -/
def execGangPlace (job : Nat) (s : State) : Out :=
  match s.job? job with
  | none => .next s
  | some j => .next (if j.st == .ready && j.cmd == 1 && !j.failed && !(s.jobTeam j).everPlaced then s.place_ j false else s)

/-- TEAM_RESUME (R331, R343): a pre-empted or relaunched team takes arrays again. -/
def execTeamResume (team : Nat) (s : State) : Out :=
  match s.team? team with
  | none => .next s
  | some t =>
    match s.job? t.job with
    | none => .next s
    | some j => .next (if j.st == .ready && t.everPlaced && !t.placed then s.place_ j true else s)

end Sys2Proof.Machine
end

