-- ==== Sys2Proof/Machine/Sched.lean ====
section
/-! DEFINITION. Choosing what runs (R322), bulk copy engines (R322), pre-emption (R329, R330), the watchdog (R332,
R333). -/

namespace Sys2Proof.Machine

/-! Rank and order (R322). -/

/-- The rank of a job: its queue's PRIO, or above 15 once promoted. -/
def State.rank (s : State) (j : Job) : Nat := if j.promoted then 16 else (s.queue j.queue.val).prio.toNat

/-- The order in which ready jobs are considered. -/
def State.before (s : State) (x y : Job) : Bool :=
  let rx := s.rank x
  let ry := s.rank y
  if rx != ry then decide (ry < rx)
  else
    let kx := if x.promoted then x.seq else x.readyAc
    let ky := if y.promoted then y.seq else y.readyAc
    if kx != ky then decide (kx < ky) else decide (x.queue.val < y.queue.val)

def State.insertJob (s : State) (j : Job) : List Job → List Job
  | [] => [j]
  | x :: t => if s.before j x then j :: x :: t else x :: State.insertJob s j t

/-- Ready LAUNCH and COPY jobs in order. -/
def State.readyJobs (s : State) : List Job :=
  (s.jobs.filter fun j => j.st == .ready && !j.failed).foldl (fun l j => s.insertJob j l) []

/-! Bulk copy engines (R322, R131). -/

/-- The engine whose queue of a class holds the fewest jobs, the lower agent slot on a tie; none if all are full. -/
def State.chooseEngine (s : State) (pool : Bool) : Option Nat :=
  (List.range 8).foldl (fun b i =>
    let n := (s.copyQ (32 + i) pool).length
    if n ≥ 16 then b
    else match b with
    | none => some i
    | some k => if n < (s.copyQ (32 + k) pool).length then some i else b) none

/-- The copy of a COPY job (R316): a byte range in one row; a fill repeats the 8 source bytes. -/
def Job.bulkCopy (j : Job) (id : Nat) (sec : Bool) : CopyJob :=
  let op := cardNat j.body 40 1
  { id := id, op := if op = 0 then 0x21 else if op = 1 then 0x22 else 0x24, arr := 0, ctx := 0, job := j.id, gd := 0,
    ga := BitVec.ofNat 64 (cardNat j.body 16 8), gb := BitVec.ofNat 64 (cardNat j.body 24 8),
    th := BitVec.ofNat 512 (cardNat j.body 32 8), opt := op == 3, stampNo := 0, asid := j.asid, sec := sec, rank := 0, seg := 0,
    row := 0, col := 0, bytes := 0, clip := false, status := 0, srcBuf := [], asBuf := none, asWait := 0, pageWait := none,
    stamped := false, stopped := false, done := false, token := false, stage := 0, bulk := true, sent := [], part := none, asBad := false, got := none, stale := false,
    upto := 0, ready := false, team := 0, away := false }

/-- A source or destination line of a COPY job lies in the pool (R131). -/
def State.jobPool (s : State) (j : Job) : Bool := s.poolSide (j.bulkCopy 0 (s.queue j.queue.val).sec)

/-- BULK_COPY_ASSIGN (R322). -/
def execBulkCopyAssign (job : Nat) (s : State) : Out :=
  match s.job? job with
  | none => .next s
  | some j =>
    if j.st != .ready || j.cmd != 2 then .next s else
    let pool := s.jobPool j
    match s.chooseEngine pool with
    | none => .next s
    | some e =>
      let c := j.bulkCopy s.copyNo (s.queue j.queue.val).sec
      let s1 := { (s.watchStart j.queue.val) with copyNo := s.copyNo + 1 }
      let s2 := (s1.setCopyQ (32 + e) pool (s1.copyQ (32 + e) pool ++ [c])).modJob job fun x => { x with st := .placed }
      .next { s2 with agenda := s2.agenda.filter fun t => t.ev != .jobAgeStep job }

/-- A ready job fits now. -/
def State.fitsNow (s : State) (j : Job) : Bool :=
  if j.cmd = 2 then (s.chooseEngine (s.jobPool j)).isSome else (s.jobFit j).isSome

/-- Teams are placed: not from the time a suspend begins until the RESUME card (R371, R373). -/
def State.placing (s : State) : Bool := match s.susp with | some x => x.resuming && decide (6 ≤ x.step) | none => s.ready

/-- The step that places the first ready job that fits (R322). -/
def State.nextPlaced (s : State) : Option Instr :=
  if !s.placing then none else
  (s.readyJobs.find? s.fitsNow).map fun j =>
    if j.cmd = 2 then .bulkCopyAssign j.id
    else match s.teams.find? fun t => t.job == j.id with
    | some t => if t.everPlaced then .teamResume t.id else .gangPlace j.id
    | none => .gangPlace j.id

/-! Pre-emption (R329, R330). -/

/-- Placed teams by rank, lowest first, and then the most recently placed first. -/
def State.victimBefore (s : State) (x y : Team) : Bool :=
  let r := fun (t : Team) => match s.job? t.job with | some j => s.rank j | none => 0
  if r x != r y then decide (r x < r y) else decide (y.placedAc < x.placedAc)

def State.insertVictim (s : State) (t : Team) : List Team → List Team
  | [] => [t]
  | x :: l => if s.victimBefore t x then t :: x :: l else x :: State.insertVictim s t l

/-- Placed teams of strictly lower rank than a job that are under no request. -/
def State.victims (s : State) (j : Job) : List Team :=
  (s.teams.filter fun t => t.placed && !t.dead && !t.relaunch && t.request.isNone &&
    match s.job? t.job with | some k => decide (s.rank k < s.rank j) | none => false).foldl (fun l t => s.insertVictim t l) []

/-- Selections of `n` members of a list, those that take earlier members first. -/
def choose {α : Type} : Nat → List α → List (List α)
  | 0, _ => [[]]
  | _ + 1, [] => []
  | n + 1, x :: t => (choose n t).map (x :: ·) ++ choose (n + 1) t

/-- The machine as it would be with some teams gone from their arrays. -/
def State.without (s : State) (ts : List Team) : State :=
  let ids := ts.map (·.id)
  let gone := fun (y : Ctx) => y.run != CtxRun.free && ids.contains y.team.toNat
  let s1 := { s with
    rings := s.rings.filter fun r => !ids.contains r.team
    arrays := s.arrays.map fun x : Arr => { x with
      ctxs := x.ctxs.map fun y : Ctx => if gone y then {} else y, wave := [], coll := Vector.replicate 4 [] } }
  s1.freeFollowers

/-- The fewest victims whose removal makes room for a job (R329). -/
def State.victimsFor (s : State) (j : Job) : Option (List Team) :=
  let l := s.victims j
  (List.range l.length).findSome? fun n => (choose (n + 1) l).find? fun ts => (s.without ts).fitsNow j

/-- The head of the order fits nowhere, waits for no victim yet, and would fit without some (R329). -/
def State.preemptDue (s : State) : Option (Job × List Team) :=
  if !s.placing then none else
  match s.readyJobs with
  | [] => none
  | j :: _ =>
    if j.cmd != 1 || s.fitsNow j || s.teams.any fun t => t.request == some (some j.id) then none
    else (s.victimsFor j).map fun l => (j, l)

/-- PREEMPT_REQUEST (R329): the chosen teams are asked to stop at their next NODE. -/
def execPreemptRequest (job : Nat) (s : State) : Out :=
  match s.preemptDue with
  | some (j, l) =>
    if j.id = job then .next (l.foldl (fun u t => u.modTeam t.id fun x => { x with request := some (some job) }) s) else .next s
  | none => .next s

/-- Step 2 of R330: every task of the team that is placed has stopped at its NODE, nothing it issued is left, its copies
with an array-store side are complete and its releases too. -/
def State.preemptReady (s : State) (t : Team) : Bool :=
  t.placed && t.request.isSome && !t.dead && !t.relaunch && t.tasks.any (·.placed) && t.tasks.all fun k =>
    !k.placed || ((s.ctxOf k.arr k.ctx).run == .parked && s.drained k.arr k.ctx && (s.copiesOf k.arr k.ctx).all (fun j => !j.asSided))

/-- TEAM_PREEMPT (R330): the map entries become invalid, the contexts are freed, the logs and the copies on DVAs go on, and
the team is ready again with its age steps. -/
def execTeamPreempt (team : Nat) (s : State) : Out :=
  match s.team? team with
  | none => .next s
  | some t =>
    if !s.preemptReady t then .next s else
    let s1 := t.tasks.foldl (fun u k => if k.placed then (u.detachCopies k.arr k.ctx).vacate k.arr k.ctx else u) s
    let s2 := s1.modTeam team fun x =>
      { x with
        placed := false, request := none, wdAc := none, tasks := x.tasks.map (fun k : Task => { k with placed := false })
        map := x.map.map fun e : MapEntry => { e with valid := false } }
    let s3 := s2.freeFollowers.makeReady t.job
    .next { s3 with susp := s3.susp.map fun x : Suspend => { x with stopped := x.stopped + 1 } }

/-! The watchdog (R332, R333). -/

/-- It runs while the queue has a placed team or a running COPY job. -/
def State.watched (s : State) (q : Nat) : Bool :=
  s.teams.any (fun t => t.placed && t.queue.val == q) || s.jobs.any fun j => j.queue.val == q && j.cmd == 2 && j.st == .placed

/-- The thresholds in ms: those of QnWD, or during a suspend 500 and 1,000 (R371). -/
def State.thresholds (s : State) (q : Nat) : Nat × Nat :=
  match s.susp with
  | some x => if x.resuming then ((s.queue q).t1, (s.queue q).t2) else (500, 1000)
  | none => ((s.queue q).t1, (s.queue q).t2)

/-- PROG has not moved for T1, and some placed team of the queue has not been requested for it. -/
def State.t1Due (s : State) (q : QueueId) : Bool :=
  let t1 := (s.thresholds q.val).1
  t1 != 0 && s.watched q.val && decide ((s.queue q.val).progAc + t1 * acPerMs ≤ s.now) &&
  s.teams.any fun t => t.placed && t.queue == q && t.wdAc.isNone && !t.dead

/-- WATCHDOG_T1_EXPIRE (R332): every placed team of the queue is asked to stop at its next NODE. -/
def execWatchdogT1Expire (q : QueueId) (s : State) : Out :=
  if !s.t1Due q then .next s
  else .next { s with teams := s.teams.map fun t =>
    if t.placed && t.queue == q && t.wdAc.isNone && !t.dead then
      { t with request := (match t.request with | some r => some r | none => some none), wdAc := some s.now } else t }

/-- A team that the watchdog requested has not stopped within a further T2. -/
def State.t2Due (s : State) (t : Team) : Bool :=
  t.placed && !t.dead &&
  match t.wdAc with
  | some w => decide (w + (s.thresholds t.queue.val).2 * acPerMs ≤ s.now)
  | none => false

/-- WATCHDOG_T2_EXPIRE (R332, R333): the team's contexts are killed and its queue stops as killed. -/
def execWatchdogT2Expire (team : Nat) (s : State) : Out :=
  match s.team? team with
  | none => .next s
  | some t =>
    if !s.t2Due t then .next s else
    let by_ := match s.susp with | some x => !x.resuming | none => false
    let s1 := (s.killTeam team (if by_ then 0x0081 else 0x0042)).killQueue t.queue.val
    .next { s1 with susp := s1.susp.map fun x : Suspend => if x.resuming then x else { x with killed := x.killed + 1 } }

end Sys2Proof.Machine
end

