-- ==== Sys2Proof/Machine/Answers.lean ====
section
/-! DEFINITION. The answers of other owners (R15, R30, R83, R97, R293; assumption 136): what was asked of another package, of the
host or of a pool device goes on with the data that it gives, with its acceptance, or with the code of its refusal. -/

namespace Sys2Proof.Machine

/-- The ASID for which an owner was asked. -/
def State.askAsid (s : State) : Asker → BitVec 16
  | .entry a c _ | .posted a c => (s.ctxOf a c).asid
  | .copy e pool id => match (s.copyQ e pool).find? (·.id == id) with | some j => j.asid | none => 0
  | .log ring => match s.ring? ring with | some r => r.asid | none => 0
  | .host fn => (s.funcs[fn]).hasid
  | .job id => match s.job? id with | some j => j.asid | none => 0
  | .acquire a c _ => (s.ctxOf a c).asid
  | .fill asid => asid
  | .move asid _ => asid
  | .mend _ _ | .nobody => 0

/-- SRC and UNIT of an asker's records (R348). -/
def Asker.source : Asker → Nat × Nat
  | .entry a _ _ | .posted a _ => (0, a.val)
  | .copy e _ _ => if e < 32 then (0, e) else (10, e - 32)
  | .log _ => (7, 0)
  | .host fn => (8, fn.val)
  | .job _ => (5, 0)
  | .acquire a _ _ => (0, a.val)
  | .fill _ | .mend _ _ | .move _ _ | .nobody => (7, 0)

/-- The record of a refusal (R15, R30). -/
def State.refusalRecord (s : State) (k : Ask) (code : Nat) : State :=
  let reason := if code = fWorld then 0x0022 else if code = fPhys then 0x0021 else 0
  if reason = 0 then s
  else s.report { errRec reason k.who.source.1 2 k.who.source.2 with addr := k.pa, asid := (s.askAsid k.who).toNat }

/-- The first of a function's inputs is dropped: a read of the host that its line's owner refuses (R361). -/
def dropHostRead (fn : FnId) : List Input → List Input
  | [] => []
  | .event (.hostRead g o n) :: t => if g = fn then t else .event (.hostRead g o n) :: dropHostRead fn t
  | i :: t => i :: dropHostRead fn t

/-- The host has given the line that a migration copies, or has taken one (R130). -/
def State.moveGiven (s : State) (asid : BitVec 16) (dva : Nat) : State :=
  { s with holds := modWhere (fun h : Hold => h.asid == asid && h.dva == dva) (fun h => { h with got := 2 }) s.holds }

/-- An owner refuses: the access faults, a prefetch is dropped, a copy ends with the status; what hardware does for itself or for a
card is over. -/
def State.refused (s : State) (k : Ask) (code : Nat) : State :=
  let s1 := s.refusalRecord k code
  match k.who with
  | .entry a c id =>
    (match ((s.ctxOf a c).loadQ ++ (s.ctxOf a c).storeQ).find? (·.id == id) with
    | none => s1
    | some e => if e.op == .prf then s1.popEntry a c id else (s1.popEntry a c id).askCtx a c code)
  | .copy e pool id =>
    (match (s1.copyQ e pool).find? (·.id == id) with
    | none => s1
    | some j => s1.copyEnd e pool { j with asWait := 0 } (Use.copyRead.abortCode code))
  | .log ring => s1.modRing ring fun r => { r with release := none }
  | .host fn =>
    if k.op = .read then { s1 with inputs := dropHostRead fn s1.inputs }.send (.readReply fn false []) else s1
  | .job id => s1.completeJob id false
  | .acquire a c _ => s1.askCtx a c code
  | .fill _ => s
  | .mend id m => s.mendAnswer id m true 0
  | .move asid dva => s1.moveGiven asid dva
  | .posted _ _ | .nobody => s1

/-- What is known here of a line once its owner has answered: the copy that it gave (R48), the bytes that it took, the word that its
atomic left, by which a copy held here is superseded. What hardware has written for itself is known already. -/
def State.learn (s : State) (k : Ask) (code : Nat) (data : LineData) : State :=
  let l := k.pa / 64
  match k.op, k.who with
  | _, .posted _ _ | _, .log _ | _, .acquire _ _ _ | _, .mend _ _ | _, .nobody => s
  | .write m d, _ => s.known l m d
  | .atomic op n v c, _ =>
    let (d, m) := atByte (atomicNew op.toNat (8 * n) (lineField data (k.pa % 64) n).toNat v.toNat c.toNat) (k.pa % 64) n
    (s.evictL2 l).known l m d
  | _, _ => s.fetched l data (code == 0x13) (s.askAsid k.who)

/-- An access of a queue has its answer: it performs at its next step; the old value of an atomic is kept for it. -/
def QEntry.answered (q : QEntry) (k : Ask) (code : Nat) (data : LineData) : QEntry :=
  if !q.asked then q else
  match k.op with
  | .atomic _ n _ _ =>
    { q with phase := q.phase + 1, word := (lineField data (k.pa % 64) n).zeroExtend 256, mark := if code = 0x13 then 1 else 0 }
  | _ => { q with phase := q.phase + 1 }

/-- An owner has answered: 0, 0x13 with poisoned data (R345), or the code of a refusal. -/
def State.takeAnswer (s : State) (tag code : Nat) (data : LineData) : State :=
  match s.asks.find? (·.tag == tag) with
  | none => s
  | some k =>
    let s0 := { s with asks := s.asks.filter (·.tag != tag) }
    if code ≠ 0 ∧ code ≠ 0x13 then s0.refused k code
    else
      let s1 := s0.learn k code data
      match k.who with
      | .entry a c id => s1.setEntry a c id fun q => q.answered k code data
      | .copy e pool id => s1.modCopy e pool id fun j => { j with asWait := 0, got := some (k.pa / 64) }
      | .log ring => s1.modRing ring fun r => { r with release := none }
      | .job id =>
        (match k.op, s1.job? id with
        | .own, some j => s1.signalAdd j k.pa
        | _, _ => s1.completeJob id false)
      | .acquire a c key => s1.entryRead a c key k.pa (code == 0x13) data
      | .mend id m => s1.mendAnswer id m (code == 0x13) data
      | .move asid dva => s1.moveGiven asid dva
      | .posted _ _ | .host _ | .fill _ | .nobody => s1

/-- A package is lost (R114, R115): what was asked of it is refused, but for reads of protected lines of lost members, which are asked
again, of the reconstructor; chunks on their way to it end their copies. -/
def State.askLost (s : State) (pkg : Nat) : State :=
  let s1 := s.asks.foldl (fun (u : State) (k : Ask) =>
    if !(rangeOf k.pa == .peer && peerOf k.pa == pkg) && (u.lostAt k.pa).isNone then u
    else
      let u0 := { u with asks := u.asks.filter (·.tag != k.tag) }
      if k.op != .read || (u.lostAt k.pa).isNone then u0.refused k fPkgLost
      else match k.who with
      | .entry a c id => u0.setEntry a c id fun q => { q with phase := 3 }
      | .copy e pool id => u0.modCopy e pool id fun j => { j with asWait := 0 }
      | .fill asid => u0.request (.fill asid) k.pa .read true asid
      | .mend _ _ => u
      | _ => u0) s
  let cut := fun (l : List CopyJob) => l.map fun j =>
    if j.sent.any (·.1 == pkg) || j.part.any (·.1 == pkg) then
      { j with sent := j.sent.filter (·.1 != pkg), part := j.part.filter (·.1 != pkg), status := fPkgLost }
    else j
  { s1 with
    chunks := s1.chunks.map fun c : Chunks => if c.peer = pkg then { c with unacked := [] } else c
    arrays := s1.arrays.map fun x : Arr => { x with near := cut x.near, poolq := cut x.poolq }
    bces := s1.bces.map fun b : Bce => { b with near := cut b.near, pool := cut b.pool } }

end Sys2Proof.Machine
end

