-- ==== Sys2Proof/Machine/Survive.lean ====
section
/-! DEFINITION. Survivable memory (R105, R111 to R116): heartbeats, loss of a member, isolation and rebuild; scrub counts and channel
retirement (R119, R120, R54). -/

namespace Sys2Proof.Machine

/-- 2 ms and 250 µs in ac (R5, R111). -/
def heartLimit : Nat := 2 * acPerMs
def heartPeriod : Nat := acPerMs / 4

/-! Groups. -/

/-- The other members (R111), and those of them that are not lost. -/
def Group.peers (g : Group) : List Nat := (List.range g.n).filter (· != g.index)

def Group.others (g : Group) : List Nat := (List.range g.n).filter fun m => m != g.index && !g.lost.contains m

/-- The last ac at which a member was heard. -/
def Group.heardAt (g : Group) (m : Nat) : Nat := match g.heard.find? (·.1 == m) with | some e => e.2 | none => 0

def Group.hear (g : Group) (m now : Nat) : Group := { g with heard := (g.heard.filter (·.1 != m)) ++ [(m, now)] }

/-- Change the window of a group (R27). -/
def State.modWindow (s : State) (pgid : Nat) (f : ProtWindow → ProtWindow) : State :=
  { s with pw := s.pw.map fun w : ProtWindow => if w.ena && w.pgid.toNat == pgid then f w else w }

/-- A line whose parity a group keeps, as this package can name it: in its window, in a region rebuilt here, or of a lost member. -/
def State.inGroup (s : State) (pgid l : Nat) : Bool :=
  match s.unitOf l with
  | some (_, g, _, _) => g.pgid == pgid
  | none => match s.lostAt (64 * l) with
    | some (g, _, _) => g.pgid == pgid
    | none => false

/-- The reconstructions for a group are given up, their locks released. -/
def State.dropMends (s : State) (pgid : Nat) : State :=
  let s1 := match s.group? pgid, s.groupWindow pgid with
    | some g, some w => (s.mends.filter fun m : Mend => m.pgid == pgid).foldl (fun (u : State) (m : Mend) =>
        m.locked.foldl (fun (v : State) h => v.lockUnit w g m false h) u) s
    | _, _ => s
  let ids := (s.mends.filter (·.pgid == pgid)).map (·.id)
  { s1 with
    mends := s1.mends.filter (·.pgid != pgid)
    asks := s1.asks.filter fun k => match k.who with | .mend id _ => !ids.contains id | _ => true }

/-- The group is forgotten with its series and locks; ENA of its window clears (R105, R111). -/
def State.forgetGroup (s : State) (pgid : Nat) : State :=
  let s0 := s.dropMends pgid
  let s1 := s0.modWindow pgid fun w => { w with ena := false, degr := false }
  { s1 with
    groups := s1.groups.filter (·.pgid != pgid), series := s1.series.filter (·.pgid != pgid)
    locked := s1.locked.filter fun e => !s0.inGroup pgid e.1
    redirects := s1.redirects.filter (·.pgid != pgid) }

/-- A context has a protected record for the window that is not yet folded (R111). -/
def State.pendingIn (s : State) (pgid : Nat) (c : Ctx) : Bool :=
  c.buf.any (fun e => s.inGroup pgid e.line) || c.storeQ.any (fun e => e.unentered && s.inGroup pgid (e.pa / 64)) ||
  match s.ring? c.ring with
  | none => false
  | some r => (r.lines s.named r.fold r.tail).any fun l => s.inGroup pgid l

/-- The 64 KiB pages of a group's lines as this package names them: its window, the regions rebuilt here, the windows of the other
members. -/
def State.groupPages (s : State) (g : Group) : List (Nat × Nat) :=
  (match s.groupWindow g.pgid with | some w => [(w.base.toNat, w.limit.toNat)] | none => []) ++
  ((s.redirects.filter fun e => e.pgid == g.pgid && e.target == s.pkgNo).map fun e => (e.base, e.base + g.k - 1)) ++
  g.peers.map fun m =>
    let first := (Config.peerBase + g.member m * 2 ^ 41) / 65536 + Config.windowBase g.pgid m
    (first, first + g.k - 1)

/-- Isolation (R111): folds of the group stop and are discarded, and so is every protected record for it that waits here or comes
later; the contexts with records pending for it take fault 0x20, ENA clears and the group is forgotten. -/
def State.isolate (s : State) (pgid : Nat) : State :=
  match s.group? pgid with
  | none => s
  | some g =>
    let s1 := { s with
      folds := s.folds.filter fun f => f.peer || f.pgid != pgid
      peerRecs := s.peerRecs.filter fun p => match s.recordUnit p.rcd.line.toNat with
        | some (q, _, _) => q.pgid != pgid
        | none => true
      isolated := s.isolated ++ s.groupPages g }
    let s2 := (List.finRange 32).foldl (fun u a => (List.finRange 4).foldl (fun v c =>
      if (v.ctxOf a c).run == .active && s.pendingIn pgid (v.ctxOf a c) then v.askCtx a c 0x20 else v) u) s1
    s2.forgetGroup pgid

/-! Loss of a member. -/

/-- Insert a delta by its number. -/
def insertDelta (d : Nat × Nat × LineData) : List (Nat × Nat × LineData) → List (Nat × Nat × LineData)
  | [] => [d]
  | e :: t => if d.1 < e.1 then d :: e :: t else e :: insertDelta d t

/-- Every delta held for a lost member's series is applied, those ahead of a gap included (R112); with double parity the
other holder, if live, is sent what this one has. -/
def State.settleSeries (s : State) (w : ProtWindow) (g : Group) (x : Nat) (e : Series) : State :=
  let held := e.held.foldl (fun l d => insertDelta d l) []
  let s1 := held.foldl (fun u d => u.applyDelta w g x d.2.1 d.2.2) s
  let all := e.recent ++ held
  let s2 := s1.putSeries { e with held := [], recent := all }
  let other := (g.parity e.rot).filter fun m => m != g.index && m != x && !g.lost.contains m
  if g.q = 0 then s2
  else other.foldl (fun u m => all.foldl (fun v d =>
    v.send (.delta (s.redirect (g.member m)) g.pgid e.src e.slice e.rot d.1 d.2.1 d.2.2 true)) u) s2

/-- The unprotected records of a segment for a package's lines that are not yet folded. -/
def State.segNames (_ : State) (g : Seg) (r : Ring) (pkg : Nat) : Bool :=
  (List.range (g.rel - g.first)).any fun i =>
    match r.recs.get none ((g.first + i) % r.n) with
    | some rc =>
      let l := rc.line.toNat
      rc.kind != 1 && rangeOf (64 * l) == .peer && peerOf (64 * l) == pkg && g.owes (homeSlice l) (g.first + i)
    | none => false

/-- The unacknowledged peer folds of a package's unprotected lines. -/
def PFold.unprotected (f : PFold) (pkg : Nat) : Bool :=
  f.peer && f.rcd.kind != 1 && rangeOf (64 * f.line) == .peer && peerOf (64 * f.line) == pkg

/-- The unprotected-loss record of one log (R115, R356; assumption 142): the lowest and the highest stamp of its segments with such
records; the flag that stamps are valid is clear where it has none. A log is that of the ring which its task has now. -/
def State.lossRecord (s : State) (pkg : Nat) (r : Ring) : State :=
  let mine := fun (id : Nat) => id == r.id || s.rings.any fun q => q.id == id && q.next == some r.id
  let stamps := ((s.segs.filter fun g => mine g.ring && match s.ring? g.ring with
      | some q => s.segNames g q pkg
      | none => false).map (·.stamp)) ++
    ((s.folds.filter fun f => mine f.ring && f.unprotected pkg).map (·.stamp))
  if r.next.isSome then s
  else s.report { errRec 0x0031 7 2 r.slot with
    lo := stamps.foldl min (stamps.headD 0), hi := stamps.foldl max 0, asid := r.asid.toNat, team := r.team, rank := r.rank,
    detail := pkg, flags := if stamps.isEmpty then 0 else 0x20 }

/-- A record sent to a lost package and not answered goes to the reconstructor of its line, which may be this package; with its
stripe lost it is dropped (R114). -/
def State.resendFold (s : State) (f : PFold) : State :=
  let sendTo := fun (dest : Nat) =>
    let u : State := { s with folds := modWhere (fun h : PFold => h.peer && h.tag == f.tag) (fun h => { h with dest := dest }) s.folds }
    if dest = s.pkgNo then u else u.send (.record dest f.tag (s.outRecord f.rcd) f.sec f.asid)
  match s.lostAt (64 * f.line) with
  | none => sendTo (s.redirect (if rangeOf (64 * f.line) = .peer then peerOf (64 * f.line) else s.pkgNo))
  | some (g, _, st) =>
    if g.stripeLost st 0 then
      ({ s with folds := s.folds.filter fun h => !(h.peer && h.tag == f.tag) }).report
        { s.abortRec 0x0034 4 f.slice (64 * f.line) with asid := f.asid.toNat }
    else sendTo (s.redirect (g.member ((g.holders st).headD 0)))

/-- A team has a rank on a package (R115). -/
def State.teamOn (s : State) (pkg : Nat) (t : Team) : Bool :=
  decide (t.ntasks < t.tsize) && (List.range t.tsize).any fun r =>
    !(t.tasks.any (·.rank == r)) && s.rankPkg t r == some pkg

/-- With double parity, the live members that hold some rotation together with this package: the ones before and after it
(R106, R112). -/
def Group.partners (g : Group) (x : Nat) : List Nat :=
  if g.q = 0 then [] else
  [(g.index + g.n - 1) % g.n, (g.index + 1) % g.n].filter fun m => m != x && !g.lost.contains m

/-- The members of a group that stand on a package, by their numbers or rebuilt there (R116), and are not lost. -/
def State.standing (s : State) (g : Group) (pkg : Nat) : List Nat :=
  (List.range g.n).filter fun m => s.redirect (g.member m) == pkg && !g.lost.contains m

/-- The group once members are lost, this package knowing it: the exchanges of R112 to wait for, and a rebuild into the lost package
given up (R116). -/
def Group.lose (g : Group) (xs : List Nat) (pkg : Nat) : Group :=
  let g1 := { g with lost := g.lost ++ xs, epoch := g.epoch + 1 }
  { g1 with
    awaits := (g.awaits.filter fun e => !xs.contains e.2) ++ xs.flatMap fun x => (g1.partners x).map fun m => (x, m)
    rebuild := match g.rebuild with | some (m, t, b, p) => if t = pkg then none else some (m, t, b, p) | none => none
    lines := match g.rebuild with | some (_, t, _, _) => if t = pkg then 0 else g.lines | none => g.lines }

/-- Member `x` of a group is declared lost, with every other member that stands on its package (R111, R112, R114, R115): every
member is told, `x` too; the series from there are settled and exchanged, and the partners' answers awaited; reconstructions begin
afresh. The loss of a package into which a lost member is being rebuilt ends the rebuild (R116). -/
def State.declareLost (s : State) (pgid x : Nat) (notices : Bool) : State :=
  match s.group? pgid with
  | none => s
  | some g0 =>
    let pkg := s.redirect (g0.member x)
    let again := match g0.rebuild with | some (m, t, _, _) => m == x && t != g0.member x && t != s.pkgNo | none => false
    if (g0.lost.contains x && !again) || x == g0.index || pkg == s.pkgNo then s else
    let xs := s.standing g0 pkg
    let g := g0.lose xs pkg
    let s0 := { s.modGroup pgid (fun _ => g) with redirects := s.redirects.filter fun e => !(e.pgid == pgid && e.target == pkg) }
    let s1 := xs.foldl (fun (u : State) m => u.report { errRec 0x0032 7 2 0 with detail := m, addr := pgid })
      (s0.modWindow pgid fun w => { w with degr := true })
    let s2 := if notices then g0.peers.foldl (fun u m => u.send (.lossNotice (s.redirect (g.member m)) pgid x)) s1 else s1
    let pkgs := pkg :: (xs.map g.member).filter (· != pkg)
    let s3 := pkgs.foldl (fun (u : State) k => u.rings.foldl (fun v r => v.lossRecord k r) u) s2
    let s4a := match s3.groupWindow pgid with
      | some w => (s3.series.filter fun e : Series => e.pgid == pgid && e.src == pkg).foldl (fun (u : State) (e : Series) =>
          u.settleSeries w g x e) s3
      | none => s3
    let s4 := xs.foldl (fun (u : State) m => (g.partners m).foldl (fun (v : State) k =>
      v.send (.settled (s.redirect (g.member k)) pgid m)) u) s4a
    let s5 := ({ s4 with
      locked := s4.locked.filter (·.2 != pkg)
      folds := (s4.folds.filter fun f : PFold => !pkgs.any f.unprotected).map fun f : PFold =>
        if !f.peer && f.pgid == pgid then { f with holders := f.holders.filter fun m => !xs.contains m } else f }).finishFolds
    let s6 := (s5.folds.filter fun f : PFold => f.peer && f.rcd.kind == 1 && (f.dest == pkg || pkgs.contains (peerOf (64 * f.line)))).foldl
      (fun (u : State) (f : PFold) => u.resendFold f) s5
    let s7 := pkgs.foldl (fun (u : State) k => u.askLost k) s6
    let s8 := match s7.groupWindow pgid with
      | some w => (s7.mends.filter (·.pgid == pgid)).foldl (fun (u : State) (m : Mend) => u.againMend w g0 m) s7
      | none => s7
    pkgs.foldl (fun (u : State) k => (u.teams.filter (u.teamOn k)).foldl (fun (v : State) (t : Team) => v.endTeam t.id none) u) s8

/-- The other holder of a lost member's series has sent all that it had (R112): its notice of the loss too, if none has come. -/
def State.takeSettled (s : State) (pgid holder member : Nat) : State :=
  if (match s.group? pgid with | some g => g.lost.contains holder | none => true) then s else
  (s.declareLost pgid member false).modGroup pgid fun g => { g with awaits := g.awaits.filter fun e => !(e.1 == member && e.2 == holder) }

/-- HEARTBEAT_SEND (R111): every 250 µs while the package has a group, to every other member: one that rejoins is lost until its
rebuild completes, and has to hear the others. -/
def execHeartbeatSend (s : State) : Out :=
  let s1 := s.groups.foldl (fun u g => g.peers.foldl (fun v m => v.send (.heartbeat (s.redirect (g.member m)) g.pgid)) u) s
  .next (if s.groups.isEmpty then s1 else s1.atAc (s.now + heartPeriod) .heartbeatSend)

/-- A lost member that is not being rebuilt: its traffic is discarded (R111). -/
def Group.silent (g : Group) (m : Nat) : Bool :=
  g.lost.contains m && !(match g.rebuild with | some (x, _, _, _) => x == m | none => false)

/-- HEARTBEAT_RECEIVE (R111): a lost member's traffic is discarded. -/
def execHeartbeatReceive (pgid member : Nat) (s : State) : Out :=
  match s.group? pgid with
  | none => .next s
  | some g =>
    if g.silent member then .next s
    else .next ((s.modGroup pgid (·.hear member s.now)).atAc (s.now + heartLimit) (.heartbeatTimeout pgid member))

/-- No heartbeat of any other member has arrived for 2 ms. -/
def Group.deaf (g : Group) (now : Nat) : Bool :=
  (List.range g.n).all fun m => m == g.index || decide (g.heardAt m + heartLimit ≤ now)

/-- HEARTBEAT_TIMEOUT (R111): 2 ms without a heartbeat of a member. A package that has heard nobody isolates; a member
with every route down is lost; with a route up there is only a warning. -/
def execHeartbeatTimeout (pgid member : Nat) (s : State) : Out :=
  match s.group? pgid with
  | none => .next s
  | some g =>
    if g.silent member || decide (s.now < g.heardAt member + heartLimit) then .next s
    else if g.deaf s.now then .next (s.isolate pgid)
    else if s.unreachable (s.redirect (g.member member)) then .next (s.declareLost pgid member true)
    else .next (s.report { errRec 0x0033 7 0 0 with detail := member, addr := pgid })

/-- LOSS_NOTICE_RECEIVE (R111): a notice about this package, as a member or as the package of one rebuilt here, isolates it. One
from a lost member is discarded. -/
def execLossNoticeReceive (pgid : Nat) (notice : Notice) (s : State) : Out :=
  match s.group? pgid with
  | none => .next s
  | some g =>
    if g.silent notice.sender then .next s
    else .next (if notice.member == g.index || (s.standing g s.pkgNo).contains notice.member then s.isolate pgid else s.declareLost pgid notice.member false)

/-! Rebuild. -/

/-- The next line of the stripe under rebuild can be rebuilt here: no reconstruction for it is under way, and no fold that began
before is outstanding (R113, R116). -/
def State.rebuildReady (s : State) (g : Group) : Bool :=
  match g.rebuild, s.groupWindow g.pgid with
  | some (_, target, _, p), some _ =>
    target == s.pkgNo && !(s.folds.any fun f => !f.peer && f.pgid == g.pgid && f.rot == p % g.n) && !(s.mends.any fun m =>
      m.pgid == g.pgid && m.use == .unit)
  | _, _ => false

/-- A stripe is done: the next one, or the member is whole, and DEGR clears once no member is lost (R116). -/
def State.passStripe (s : State) (g : Group) (m target base p : Nat) : State :=
  if p + 1 < g.k then s.modGroup g.pgid fun h => { h with rebuild := some (m, target, base, p + 1), lines := 0 }
  else
    let lost := g.lost.filter (· != m)
    let s1 := s.modGroup g.pgid fun h => { h with rebuild := none, lost := lost, lines := 0 }
    if lost.isEmpty then s1.modWindow g.pgid fun x => { x with degr := false } else s1

/-- REBUILD_STRIPE (R116): the target reconstructs the lines of one stripe of the lost member, in ascending order; then, and at the
other members, the rebuild point passes the stripe. -/
def execRebuildStripe (pgid : Nat) (s : State) : Out :=
  match s.group? pgid, s.groupWindow pgid with
  | some g, some _ =>
    match g.rebuild with
    | none => .next s
    | some (m, target, base, p) =>
      if target = s.pkgNo ∧ g.lines < 1024 then
        let off := p * 65536 + 64 * g.lines
        .next (s.startMend ((base * 65536 + off) / 64) .unit pgid m off)
      else .next (s.passStripe g m target base p)
  | _, _ => .next s

/-! Commands of the fabric manager (R105). -/

/-- GROUP_REGISTER (R105): the counts of the group's series start afresh (assumption 145); repeated with the same operands it has no effect; with others it is refused while a window of the
group is enabled. -/
def execGroupRegister (fn : FnId) (pgid n q k : Nat) (members : List Nat) (s : State) : Out :=
  s.onlyFn0 fn (
    if !(decide (4 ≤ n ∧ n ≤ 16 ∧ q ≤ 1 ∧ 0 < k ∧ pgid < 65536 ∧ members.length = n) && members.all (· < 512)) then
      .next (s.respond fn 3 [])
    else
      let fresh : Group :=
        { pgid := pgid, n := n, q := q, k := k, members := members, index := members.idxOf s.pkgNo, epoch := 0, lost := []
          heard := (List.range n).map fun m => (m, s.now), leaving := none, rebuild := none, awaits := [] }
      let afresh := { s with foldSeq := s.foldSeq.filter fun e => e.1 / 4096 != pgid, series := s.series.filter (·.pgid != pgid) }
      match s.group? pgid with
      | some g =>
        if g.n = n ∧ g.q = q ∧ g.k = k ∧ g.members = members then .next (s.respond fn 0 [])
        else if (s.groupWindow pgid).isSome then .next (s.respond fn 3 [])
        else .next ((afresh.modGroup pgid fun _ => fresh).respond fn 0 [])
      | none =>
        let s1 := { afresh with groups := s.groups ++ [fresh] }
        let s2 := if s.groups.isEmpty then s1.atAc s.now .heartbeatSend else s1
        let s3 := fresh.others.foldl (fun u m => u.atAc (s.now + heartLimit) (.heartbeatTimeout pgid m)) s2
        .next (s3.respond fn 0 []))

/-- GROUP_LEAVE (R105): what has been stamped so far is folded and acknowledged; newer records wait. -/
def execGroupLeave (fn : FnId) (pgid : Nat) (s : State) : Out :=
  s.onlyFn0 fn (
    match s.group? pgid with
    | none => .next (s.respond fn 3 [])
    | some g =>
      if g.leaving.isSome then .next (s.respond fn 3 [])
      else .next (s.modGroup pgid fun h => { h with leaving := some (fn, s.topStamp) }))

/-- A group that is being left has folded and acknowledged every record for it that was here when it was left (R105): those of the
logs by their stamps, and those of other packages. -/
def State.leaveDone (s : State) (g : Group) (bound : Nat) : Bool :=
  !(s.folds.any fun f => !f.peer && f.pgid == g.pgid) &&
  !(s.peerRecs.any fun p => !p.late && match s.recordUnit p.rcd.line.toNat with | some (q, _, _) => q.pgid == g.pgid | none => false) &&
  s.segs.all fun e => decide (bound < e.stamp) || e.touch == e.reported

/-- Groups whose leaving is complete are forgotten, and the command is answered. -/
def State.leaveGroups (s : State) : State :=
  s.groups.foldl (fun u g =>
    match g.leaving with
    | some (fn, bound) => if u.leaveDone g bound then (u.forgetGroup g.pgid).respond fn 0 [] else u
    | none => u) s

/-- GROUP_DECLARE_LOST (R105, R111). -/
def execGroupDeclareLost (fn : FnId) (pgid member : Nat) (s : State) : Out :=
  s.onlyFn0 fn (
    match s.group? pgid with
    | none => .next (s.respond fn 3 [])
    | some g =>
      if g.n ≤ member then .next (s.respond fn 3 [])
      else if member = g.index then .next ((s.isolate pgid).respond fn 0 [])
      else .next ((s.declareLost pgid member true).respond fn 0 []))

/-- GROUP_REBUILD (R105, R116): every member redirects the lost package's addresses to the target. A package that rejoins
takes its old index as lost until then (R111). -/
def execGroupRebuild (fn : FnId) (pgid member target base : Nat) (s : State) : Out :=
  s.onlyFn0 fn (
    match s.group? pgid with
    | none => .next (s.respond fn 3 [])
    | some g =>
      let self := member = g.index ∧ target = s.pkgNo
      if ¬(member < g.n) ∨ ¬(g.lost.contains member ∨ self) ∨ g.rebuild.isSome ∨ 512 ≤ target ∨
          (target = s.pkgNo ∧ s.visible < (base + g.k) * 65536) then .next (s.respond fn 3 [])
      else if target = s.pkgNo && !s.fnSecure fn && s.secureIn (base * 65536) (g.k * 65536) then .next (s.respond fn 4 [])
      else
        let lost := if g.lost.contains member then g.lost else g.lost ++ [member]
        let s1 := s.modGroup pgid fun h => { h with lost := lost, rebuild := some (member, target, base, 0), lines := 0 }
        let fresh : Bool := !(g.members.contains target) || target == g.member member
        let s2 := { s1.modWindow pgid (fun w => { w with degr := true }) with
          series := s1.series.filter fun e => !(fresh && e.pgid == pgid && e.src == target) }
        .next (({ s2 with
          redirects := (s2.redirects.filter fun e : Redirect => !(e.pgid == pgid && e.member == member)) ++
            [({ pkg := g.member member, target := target, pgid := pgid, member := member, base := base } : Redirect)] }).respond fn 0 []))

/-! Scrub counts and channel retirement. -/

/-- Uncorrectable errors of a channel within the last hour (R119). -/
def State.ueCount (s : State) (channel : Nat) : Nat :=
  (s.ueLog.filter fun e => e.1 == channel && decide (s.now < e.2 + 3600000 * acPerMs)).length

/-- SCRUB_COUNT_SAMPLE (R119, R54): the counts of a channel over 10 ms. Either limit retires the channel; a package retires
at most one, and a second is reported as service required. -/
def execScrubCountSample (channel : Nat) (ce ue : Nat) (s : State) : Out :=
  let bad := decide (s.cfg.ceLimit ≤ ce)
  let run := if bad then Sparse.get 0 s.ceRun channel + 1 else 0
  let s1 := { s with
    ceRun := Sparse.set 0 s.ceRun channel run
    ueLog := (s.ueLog.filter fun e => decide (s.now < e.2 + 3600000 * acPerMs)) ++ List.replicate ue (channel, s.now) }
  let hit := decide (s.cfg.ceRuns ≤ run ∧ 0 < run) || decide (s.cfg.ueLimit ≤ s1.ueCount channel ∧ 0 < ue)
  if !hit || decide (Config.channels ≤ channel) || s.retired == some channel then .next s1
  else if s.retired.isSome || s.retChan.isSome then
    if (match s.retChan with | some r => r.channel == channel | none => false) then .next s1
    else .next (s1.report { errRec 0x0015 3 3 channel with detail := ue })
  else if !s.cfg.retireEna then .next (s1.report { errRec 0x0015 3 3 channel with detail := ue })
  else .next { s1 with retChan := some ⟨channel, 0, []⟩ }

/-- The line whose home place before retirement is slot `q` of a channel (R52). -/
def lineAt (channel q : Nat) : Nat :=
  let h := ((q % 1024) ^^^ (q / 2 ^ 10 % 1024) ^^^ (q / 2 ^ 20 % 1024) ^^^ (q / 2 ^ 30 % 1024)) % 768
  q * 768 + (channel + 768 - h) % 768

/-- The channel under retirement can move its next line: no fold holds it and no reconstruction of it is under way. -/
def State.retireReady (s : State) : Bool :=
  match s.retChan with
  | none => false
  | some r => !s.lineHeld (lineAt r.channel r.slot) && !s.mends.any (·.use == .moved)

/-- One line of a channel under retirement moves (R120): a dirty copy is written to its new slot; a protected line is reconstructed,
and a parity line recomputed, while their stripe allows it; any other is poisoned. -/
def State.moveLine (s : State) (l : Nat) : State :=
  let m := s.lineMeta l
  if m.l2 == .dirty || m.tarn == .dirty then
    let s1 := (s.flushLine l).modLine l fun x => { x with errHbm := 0 }
    { s1 with retChan := s1.retChan.map fun r => { r with slot := r.slot + 1 } }
  else match s.unitOf l with
  | none => s.moved l none
  | some (_, g, k, off) =>
    if (g.lostIn (off / 65536)).contains k then s.moved l none
    else s.startMend l .moved g.pgid k off

/-- The runs of consecutive numbers of a rising list, each by its first and last. -/
def runsOf : List Nat → List (Nat × Nat)
  | [] => []
  | n :: t => match runsOf t with
    | (a, b) :: r => if a = n + 1 then (n, b) :: r else (n, n) :: (a, b) :: r
    | [] => [(n, n)]

/-- CHANNEL_RETIRE (R120): the next slot of the channel moves; after the last one the channel is off, and one record lists the
poisoned slot ranges (assumption 111). -/
def execChannelRetire (s : State) : Out :=
  match s.retChan with
  | none => .next s
  | some r =>
    if r.slot < Config.homeSlots then .next (s.moveLine (lineAt r.channel r.slot))
    else
      .next (({ s with retired := some r.channel, retChan := none }).report
        { errRec 0x0035 3 3 r.channel with
          lo := r.poisoned.headD 0, hi := r.poisoned.getLastD 0, detail := r.poisoned.length
          list := (runsOf r.poisoned).flatMap fun (e : Nat × Nat) => [e.1, e.2] })

end Sys2Proof.Machine
end

