-- ==== Sys2Proof/Machine/Migrate.lean ====
section
/-! DEFINITION. Shoot-down (R127), migration (R128 to R130), pages made ready (R132, R337) and pool extents (R133,
R134). -/

namespace Sys2Proof.Machine

/-! Shoot-down (R127). -/

def Shoot.hits (x : Shoot) (asid : BitVec 16) : Bool := x.all || asid.toNat == x.asid

/-- The range meets `n` bytes at a DVA. -/
def Shoot.covers (x : Shoot) (dva n : Nat) : Bool := decide (x.dva < dva + n ∧ dva < x.dva + 65536 * x.pages)

def Shoot.hitsEntry (x : Shoot) (t : TcEntry) : Bool :=
  x.hits t.asid && (if t.big then x.covers (t.page * 2 ^ 29) (2 ^ 29) else x.covers (t.page * 65536) 65536)

/-- The accesses of a context that translated in the range and have not performed. -/
def Shoot.waitsOf (x : Shoot) (a : ArrId) (c : CtxId) (y : Ctx) : List (ArrId × CtxId × Nat) :=
  if !x.hits y.asid then [] else
  ((y.loadQ ++ y.storeQ).filter fun e => e.op != .release && x.covers e.dva e.size).map fun e => (a, c, e.id)

/-- A walk in flight goes on and installs nothing; one that has ended in a fault is made again (R127, step 2). -/
def Shoot.pass (x : Shoot) (ws : List TableWalk) : List TableWalk :=
  (ws.filter fun w => !(x.hits w.asid && w.fault.isSome)).map fun w => if x.hits w.asid then { w with stale := true } else w

/-- The copy at the head of a queue has a beat in flight, whose source has been asked for or is here (R127, step 3). -/
def Shoot.mark (x : Shoot) (l : List CopyJob) : List CopyJob :=
  match l with
  | [] => []
  | j :: t =>
    (if x.hits j.asid && !j.done && j.pageWait.isNone && (j.asWait == 1 || !j.srcBuf.isEmpty || j.got.isSome) then { j with stale := true }
      else j) :: t

/-- Askers whose accesses stand in no queue: a host function and a SIGNAL card. A shoot-down waits for every one of its ASID. -/
def Asker.unqueued : Asker → Bool
  | .host _ | .job _ => true
  | _ => false

def allCtxs : List (ArrId × CtxId) := (List.finRange 32).flatMap fun a => (List.finRange 4).map fun c => (a, c)

/-- Steps 1 to 4 (R127): entries leave every cache, walks in flight will install nothing, waiting MWAITs return 2, and what to wait
for is noted: accesses, those of contexts that are gone, chunks on their way, and beats in flight. -/
def State.beginShoot (s0 : State) (x : Shoot) : State :=
  let s := s0.flushParts fun j => x.hits j.asid
  let s1 := { s with
    arrays := s.arrays.map fun y : Arr =>
      { y with tc := y.tc.filter fun t => !x.hitsEntry t, near := x.mark y.near, poolq := x.mark y.poolq }
    dieTc := s.dieTc.map fun l : List TcEntry => l.filter fun t => !x.hitsEntry t
    bces := s.bces.map fun b : Bce => { b with near := x.mark b.near, pool := x.mark b.pool }
    walks := x.pass s.walks }
  let s2 := allCtxs.foldl (fun u p =>
    let y := u.ctxOf p.1 p.2
    if x.hits y.asid && y.watch.toList.any (fun w => w.armed && x.covers w.dva w.size) then u.modCtx p.1 p.2 (·.note 3) else u) s1
  let ws := allCtxs.flatMap fun p => x.waitsOf p.1 p.2 (s.ctxOf p.1 p.2)
  let tags := (s.asks.filter fun k => k.who.unqueued && x.hits (s.askAsid k.who)).map (·.tag)
  let cs := s.chunks.flatMap fun c => (c.unacked.filter fun k => x.hits k.asid).map fun k => (c.peer, k.seq)
  { s2 with shoots := modWhere (· == x) (fun y : Shoot => { y with begun := true, waits := ws, tags := tags, chunks := cs }) s2.shoots }

/-- A copy's beat is still in flight; one that only waits for room in its log is not, and translates again (R73, R127). -/
def State.beatPending (s : State) (x : Shoot) (e : Nat) (l : List CopyJob) : Bool :=
  l.any fun j => j.stale && x.hits j.asid &&
    match s.ring? (s.copyRing e j) with | some r => s.roomy r | none => true

/-- Every walk, access and beat that the shoot-down waits for has come to its end; what was on its way to a lost package has. -/
def State.shootDrained (s : State) (x : Shoot) : Bool :=
  (x.waits.all fun w =>
    let y := s.ctxOf w.1 w.2.1
    !(y.loadQ ++ y.storeQ).any fun e => e.id == w.2.2) &&
  !(s.walks.any fun w => w.stale && x.hits w.asid) &&
  (x.tags.all fun t => !s.asks.any (·.tag == t)) &&
  (x.chunks.all fun c => (s.lostGroup c.1).isSome || !((s.chunksTo c.1).unacked.any fun k => k.seq == c.2)) &&
  !((List.range 40).any fun e => s.beatPending x e (s.copyQ e false) || s.beatPending x e (s.copyQ e true))

/-- The M slots and copies that wait for a page are presented again (R337, R132). -/
def State.wakePages (s : State) (p : BitVec 16 → Nat → Bool) : State :=
  (allCtxs.foldl (fun u q => u.modCtx q.1 q.2 fun y =>
    match y.pageWait with
    | some v => if p y.asid v then { y with pageWait := none } else y
    | none => y) s).wakeCopies p

/-! Migration. -/

/-- The 512 MiB or 64 KiB leaf of a DVA at its place in the tables, in either world: leaf, its address, its size. -/
def State.leafAt (s : State) (sec : Bool) (dva : Nat) : Nat → Nat → Nat → Option (BitVec 64 × Nat × Nat)
  | 0, _, _ => none
  | fuel + 1, level, base =>
    let at_ := base + 8 * dvaIndex dva level
    match s.walkRead sec at_ with
    | none => none
    | some e =>
      match s.readEntry level e with
      | .bad _ => none
      | .leaf l => some (l, at_, if level = 2 then 2 ^ 29 else 65536)
      | .table b => State.leafAt s sec dva fuel (level + 1) b

def State.leafOf (s : State) (asid dva : Nat) : Option (BitVec 64 × Nat × Nat) :=
  match s.walkRead true (s.atbrBase.toNat * 65536 + 8 * asid) with
  | none => none
  | some r =>
    match s.walk (BitVec.ofNat 16 asid) (r.getLsbD 2) dva with
    | .error _ => none
    | .ok _ => s.leafAt (r.getLsbD 2) dva 3 1 (leafPa r)

/-- The kind a page takes at its new place, and whether the move is one of fold hold; none: not permitted (R128). -/
def newKindFor (old : Nat) (r : PhysRange) : Option (Nat × Bool) :=
  match old, r with
  | 0, .hbm => some (0, true)
  | 0, .pool => some (5, true)
  | 5, .hbm => some (0, true)
  | 5, .pool => some (5, true)
  | 1, .hbm => some (1, true)
  | 2, .hbm => some (2, false)
  | 2, .host => some (4, false)
  | 4, .hbm => some (2, false)
  | 4, .host => some (4, false)
  | 3, .hbm => some (3, false)
  | _, _ => none

/-- A leaf at a new address with a kind and WP. -/
def newLeaf (e : BitVec 64) (pa kind : Nat) (wp : Bool) : BitVec 64 :=
  let keep : BitVec 64 := e &&& 0xFFF000000000FF63#64
  keep ||| BitVec.ofNat 64 (pa / 65536 * 65536 + kind * 4 + if wp then 128 else 0)

/-- The leaf of a moving page is rewritten by the base controller. -/
def State.writeLeaf (s : State) (h : Hold) (wp : Bool) : State :=
  let e : BitVec 64 := BitVec.ofNat 64 (bytesToNat (Memory.bytes s.mem h.leafPa 8))
  let v := if wp then e ||| 128#64 else newLeaf e h.newPa h.newKind false
  s.homeStore h.leafPa v.toNat 8 0

/-- A shoot-down of the page, which belongs to its migration. -/
def State.shootPage (s : State) (h : Hold) : State :=
  { s with shoots := s.shoots ++ [
      { fn := h.fn, asid := h.asid.toNat, dva := h.dva, pages := h.size / 65536, all := false, sent := false, begun := false,
        hold := true, mailbox := false, waits := [], tags := [], chunks := [] }] }

def State.modHold (s : State) (h : Hold) (f : Hold → Hold) : State := { s with holds := modWhere (· == h) f s.holds }

/-- MIGRATE (R128): the checks, then the hold or the write protection. A DVA or a new address that is not a multiple of the page's
size is refused (assumption 112). The page's leaf, which the base controller rewrites, is checked against the caller's world too
(R363). -/
def execMigrate (fn : FnId) (asid dva pa : Nat) (s : State) : Out :=
  s.onlyFn0 fn (
    match s.leafOf asid dva with
    | none => .next (s.respond fn 3 [])
    | some (e, at_, size) =>
      match newKindFor (leafKind e) (rangeOf pa) with
      | none => .next (s.respond fn 3 [])
      | some (kind, fold) =>
        let busy := s.holds.any fun h => (h.asid.toNat == asid && h.dva == dva) ||
          decide (h.oldPa < leafPa e + size ∧ leafPa e < h.oldPa + h.size) || decide (h.newPa < pa + size ∧ pa < h.newPa + h.size)
        let busy : Bool := busy || s.forwards.any fun f => decide (f.newPa < leafPa e + size ∧ leafPa e < f.newPa + f.size)
        if dva % size ≠ 0 ∨ pa % size ≠ 0 ∨ busy = true ∨ rangeOf (leafPa e) = .peer ∨ s.kindFits (newLeaf e pa kind false) (size == 2 ^ 29) = false then
          .next (s.respond fn 3 [])
        else if !s.fnSecure fn && (s.secureIn pa size || s.secureIn (leafPa e) size || s.secureIn at_ 8) then .next (s.respond fn 4 [])
        else
          let h : Hold :=
            { oldPa := leafPa e, newPa := pa, size := size, asid := BitVec.ofNat 16 asid, dva := dva, fold := fold, newKind := kind,
              step := if fold then 0 else 1, line := 0, fn := fn, held := [], leafPa := at_, engine := false, got := 0, late := [] }
          let s1 := { s with holds := s.holds ++ [h] }
          .next (if fold then s1 else (s1.writeLeaf h true).shootPage h))

/-- Write a line of a moving page at its new place: at its home slice, or in the host's memory. A sealed page takes no write, with
the record of R30 (R195). -/
def State.moveWrite (s : State) (h : Hold) (l : Nat) (d : LineData) (poison : Bool) : State :=
  let all := BitVec.allOnes 64
  if s.sealedAt (64 * l) then s.report { errRec 0x0022 10 2 0 with addr := 64 * l, asid := h.asid.toNat }
  else if rangeOf (64 * l) = .host then
    (s.known l all d).request (.move h.asid h.dva) (64 * l) (.write all d) true h.asid
  else
    let s1 := s.homeWrite l all d h.asid true
    if poison then s1.modLine l fun m => { m with poison := true } else s1

/-- The port of the engine that makes a page's move, by the page, and its packets: R57 gives them no priority of their own
(assumption 5). -/
def State.moveTraffic (s : State) (h : Hold) (write : Bool) (l out back : Nat) : State :=
  let k := h.oldPa / 65536 % 8
  s.traffic (k / 2) (portBce k write) (homeSlice l) 15 out back

/-- Copy the next line of a moving page, the old line as folded; one of host memory is asked of the host, a line that is unreadable
is rebuilt first, and a protected line is written under R108. None: it waits. -/
def State.moveNext (s : State) (h : Hold) : Option State :=
  let l0 := h.oldPa / 64 + h.line
  let l1 := h.newPa / 64 + h.line
  let host := rangeOf (64 * l0) == .host
  let step := fun (u : State) => u.modHold h fun k => { k with line := k.line + 1, got := 0 }
  if s.lineHeld l0 || s.lineHeld l1 || h.got == 1 then none
  else if host && h.got == 0 then
    some ((s.request (.move h.asid h.dva) (64 * l0) .read true h.asid).modHold h fun k => { k with got := 1 })
  else if s.needsMend l0 then s.awaitMend l0
  else
    let s := (s.moveTraffic h false l0 0 64).moveTraffic h true l1 64 0
    let (d, p, s1) := if host then (s.lineData l0, (s.lineMeta l0).poison, s) else s.homeRead l0 h.asid
    match if h.newKind = 1 then s.dataUnit l1 else none with
    | none => some ((step s1).moveWrite h l1 d p)
    | some (w, g, m, off) =>
      if s.sealedAt (64 * l1) then some ((step s1).moveWrite h l1 d p)
      else if s.protBusy (homeSlice l1) || g.foldsHeld (off / 65536) 0 || s.parityLocked w g off then none
      else some ((step s1).protFold (homeSlice l1) 0 0 0 l1 h.asid (dataRecord l1 .prot 0 (BitVec.allOnes 64) d false false) w g m off none)

/-- An access of a queue goes to the page's new place. -/
def Hold.rename (h : Hold) (e : QEntry) : QEntry :=
  if e.kind.isLogged && h.inOld (e.pa / 64) && e.op != .asst && e.op != .asld then { e with pa := h.newPa + (e.pa - h.oldPa) } else e

/-- With its new leaf a page takes its new names (R129, step 3; assumption 147): old lines leave every view cache; indexes, log
buffers and queues take the new names; own copies are loaded again from the new home. -/
def State.renamePage (s : State) (h : Hold) : State :=
  let nm := fun (l : Nat) => if h.inOld l then h.newLine l else l
  let owners := allCtxs.flatMap fun p =>
    ((s.arr p.1).vc.filter fun v => v.st == .own && v.owner == p.2 && h.inOld v.line).map fun v => (p.1, p.2, h.newLine v.line)
  let s1 := { s with
    arrays := s.arrays.map fun x : Arr =>
      { x with
        vc := x.vc.filter fun v => !h.inOld v.line
        ctxs := x.ctxs.map fun y : Ctx =>
          if y.asid != h.asid then y else
          { y with
            own := y.own.foldl (fun m e => Sparse.set 0 m (nm e.1) e.2) []
            buf := y.buf.map fun b : BufEntry => { b with line := nm b.line }
            loadQ := y.loadQ.map h.rename, storeQ := y.storeQ.map h.rename } } }
  owners.foldl (fun u o => (u.ownLine o.1 o.2.1 o.2.2).2) s1

/-- A write of hardware that a migration kept back is made at the page's new place; a release that waited for it is complete once it
stands there (R130). -/
def State.lateWrite (s : State) (pa v n : Nat) (asid : BitVec 16) (sec : Bool) (who : Asker) : State :=
  let s1 := s.hardBytes pa v n asid sec who
  match who with
  | .log ring => if s1.asks.any (·.who == who) then s1 else s1.modRing ring fun r => { r with release := none }
  | _ => s1

/-- A shoot-down of a migration is complete, and the move goes on: the old slices forward until the logs are past the window
(R129, step 5), or the lines that are held elsewhere are written back and copying may begin (R130, step 2). -/
def State.holdNext (s : State) (h : Hold) : State :=
  if h.fold then
    { s with forwards := s.forwards ++ [(⟨h.oldPa, h.newPa, h.size, h.asid, s.winNo * 128 + 127, h.fn⟩ : Forward)] }.modHold h fun k => { k with step := 3 }
  else if h.step = 1 then
    let s1 := (List.finRange 32).foldl (fun (u : State) a => u.writeBackOwned a (fun v => h.inOld v.line) true) s
    let held := (s1.lines.filter fun e => e.2.l2 != .invalid && h.inOld e.1 && rangeOf (64 * e.1) == .host).map (·.1)
    (held.foldl (fun (u : State) l => u.evictL2 l) s1).modHold h fun k => { k with step := 2 }
  else
    let s1 := h.late.foldl (fun (u : State) (e : Nat × Nat × Nat × BitVec 16 × Bool × Asker) =>
      u.lateWrite (h.newPa + (e.1 - h.oldPa)) e.2.1 e.2.2.1 e.2.2.2.1 e.2.2.2.2.1 e.2.2.2.2.2) { s with holds := s.holds.filter (· != h) }
    s1.respond h.fn 0 []

/-- SHOOTDOWN_ACK (R127): the oldest broadcast shoot-down invalidates; once every access has performed it is complete, and the
pages that it covers are tried again. -/
def execShootdownAck (s : State) : Out :=
  match s.shoots.find? fun x => x.sent && (!x.begun || s.shootDrained x) with
  | none => .next s
  | some x =>
    if !x.begun then .next (s.beginShoot x)
    else
      let s1 := { s with shoots := s.shoots.erase x }
      let s2 := s1.wakePages fun asid v => x.hits asid && x.covers v 1
      if x.hold then
        match s2.holds.find? fun h => h.asid.toNat == x.asid && h.dva == x.dva with
        | some h => .next (s2.holdNext h)
        | none => .next s2
      else .next (if x.mailbox then s2.respond x.fn 0 [] else s2)

/-- SHOOTDOWN (R127): broadcast in the next package window. -/
def execShootdown (fn : FnId) (asid dva count : Nat) (all : Bool) (s : State) : Out :=
  s.onlyFn0 fn (
    if dva % 65536 ≠ 0 ∨ count = 0 ∨ 2 ^ 39 < count ∨ 65536 ≤ asid then .next (s.respond fn 3 [])
    else .next { s with shoots := s.shoots ++ [
      { fn := fn, asid := asid, dva := dva, pages := count, all := all, sent := false, begun := false, hold := false, mailbox := true,
        waits := [], tags := [], chunks := [] }] })

/-- PAGE_READY (R132, R337): what waits for the page that holds the DVA, a 512 MiB page where the tables map one, goes on. -/
def execPageReady (fn : FnId) (asid dva : Nat) (s : State) : Out :=
  s.onlyFn0 fn (
    if 65536 ≤ asid ∨ 2 ^ 55 ≤ dva then .next (s.respond fn 3 [])
    else
      let size := match s.leafOf asid dva with | some (_, _, n) => n | none => 65536
      .next ((s.wakePages fun a v => a.toNat == asid && v / size == dva / size).respond fn 0 []))

/-- The lowest-stamped record held of a page. -/
def Hold.first (h : Hold) : Option (Nat × Nat × Record) :=
  h.held.foldl (fun b e =>
    match b with
    | none => some e
    | some x => if e.1 < x.1 ∨ (e.1 = x.1 ∧ e.2.1 < x.2.1) then some e else some x) none

/-- Apply the first held record at the new home, in its segment's place in stamp order (R129, step 4). None: it waits. -/
def State.sendHeld (s : State) (h : Hold) (e : Nat × Nat × Record) : Option State :=
  let s1 := s.modHold h fun k => { k with held := k.held.erase e }
  match (s.segs.find? fun g => g.stamp == e.1).bind fun g => (s.ring? g.ring).map fun r => (g, r) with
  | none => some s1
  | some (g, r) => match s1.applyLine (homeSlice e.2.2.line.toNat) g r e.2.1 (s1.homeLine (s1.named e.2.2.line.toNat)) e.2.2 with
    | .ok u => some u
    | .error _ => none

/-- A bulk copy engine is free to make a move: each of the eight makes one at a time (R128; assumption 147). -/
def State.moverFree (s : State) : Bool := decide ((s.holds.filter (·.engine)).length < 8)

/-- What a page's move does next while its lines are copied: an engine takes it, copies a line or, at the end, gives way to the base
controller, which writes the new leaf and starts its shoot-down. -/
def State.moveCopy (s : State) (h : Hold) : State :=
  if !h.engine then (if s.moverFree then s.modHold h fun k => { k with engine := true } else s)
  else if h.line < h.size / 64 then (s.moveNext h).getD s
  else if s.asks.any (fun k => k.who == .move h.asid h.dva) || s.folds.any fun f => !f.peer && h.inNew f.line then s
  else
    let s1 := (s.writeLeaf h false).shootPage h
    (if h.fold then s1.renamePage h else s1).modHold h fun k => { k with step := k.step + 1, engine := false }

/-- A page's move under fold hold is complete once no log of the ASID can name the old page any more (R129, step 5): the command is
answered, and the old page is free (R128). -/
def State.endForwards (s : State) : State :=
  s.forwards.foldl (fun (u : State) f =>
    if u.forwarding f || u.holds.any (fun h => h.fold && h.oldPa == f.oldPa) then u
    else { u with forwards := u.forwards.erase f }.respond f.fn 0 []) s

/-- The migrations make what progress they can: one line, one held record or one change of step for each. -/
def State.moveHolds (s : State) : State :=
  (s.holds.foldl (fun u h =>
    if (h.fold && h.step == 0) || (!h.fold && h.step == 2) then u.moveCopy h
    else if h.fold && h.step == 3 then
      match h.first with
      | some e => (u.sendHeld h e).getD u
      | none => { u with holds := u.holds.filter (· != h) }
    else u) s).endForwards

/-! Pool extents. -/

def State.modExtent (s : State) (n : Nat) (f : PoolExtent → PoolExtent) : State :=
  if h : n < 64 then { s with pxt := s.pxt.set n (f s.pxt[n]) h } else s

/-- POOL_EXTENT_ADD (R133): the base controller writes an entry as active; over one that is active or releasing it does nothing
(assumption 146). -/
def execPoolExtentAdd (n base limit : Nat) (s : State) : Out :=
  .next (s.modExtent n fun e =>
    if e.st == 1 || e.st == 2 then e
    else { base := BitVec.ofNat 36 base, limit := BitVec.ofNat 36 limit, st := 1, fn := none })

def PoolExtent.has (e : PoolExtent) (l : Nat) : Bool := decide (e.base.toNat ≤ l / 1024 ∧ l / 1024 ≤ e.limit.toNat)

/-- Published records for an extent that are not folded (R134, step 2). -/
def State.extentPending (s : State) (e : PoolExtent) : Bool :=
  s.rings.any (fun r => (r.lines s.named r.fold r.pub).any e.has) || s.holds.any fun h => h.held.any fun x => e.has (s.named x.2.2.line.toNat)

/-- The dirty lines of an extent in L2 and Tarn. -/
def State.extentDirty (s : State) (e : PoolExtent) : List Nat :=
  (s.lines.filter fun y => (y.2.l2 == .dirty || y.2.tarn == .dirty) && e.has y.1).map (·.1)

/-- EXTENT_RELEASE (R134). A forced release, of an extent that may be releasing, poisons and discards its dirty lines and lists
them in a record (assumption 142). An extent that is not there to release is refused with status 3 (assumption 146). -/
def execExtentRelease (fn : FnId) (extent : Nat) (forced : Bool) (s : State) : Out :=
  s.onlyFn0 fn (
    if h : extent < 64 then
      let e := s.pxt[extent]
      if !(e.st == 1 || (forced && e.st == 2)) then .next (s.respond fn 3 [])
      else if !forced then .next (s.modExtent extent fun x => { x with st := 2, fn := some fn })
      else
        let dirty := s.extentDirty e
        let s1 := dirty.foldl (fun (u : State) l =>
          u.modLine l fun m => { m with l2 := .invalid, l2way := 0, tarn := .invalid, tway := 0, poison := true }) s
        let s2 := s1.report { errRec 0x0026 7 2 extent with addr := 64 * dirty.headD 0, detail := dirty.length, list := dirty }
        let s3 := s2.modExtent extent fun x => { x with st := 3, fn := none }
        .next ((match e.fn with | some f => s3.respond f 0 [] | none => s3).respond fn 0 [])
    else .next (s.respond fn 3 []))

/-- Extents being released whose records are folded: their dirty lines are written to the device, and they are gone. -/
def State.releaseExtents (s : State) : State :=
  (List.finRange 64).foldl (fun u n =>
    let e := u.pxt[n]
    match e.fn with
    | none => u
    | some fn =>
      if e.st != 2 || u.extentPending e then u else
      let u1 := (u.extentDirty e).foldl (fun (v : State) l => v.flushLine l) u
      (u1.modExtent n fun x => { x with st := 3, fn := none }).respond fn 0 []) s

end Sys2Proof.Machine
end

