-- ==== Sys2Proof/Machine/Regs.lean ====
section
/-! DEFINITION. Package registers (R6, R7, R24 to R29, R121, R133, R312, R350, R351, R367): what each reads as, and what a write
of each does. -/

namespace Sys2Proof.Machine

/-! Words of registers. -/

/-- A field placed at a bit of a register word. -/
def fieldAt {n : Nat} (b : BitVec n) (lo : Nat) : Word := (b.zeroExtend 64) <<< lo

def flagAt (b : Bool) (i : Nat) : Word := if b then 1#64 <<< i else 0

def FmtWindow.word (w : FmtWindow) (r : Nat) : Word :=
  match r with
  | 0 => fieldAt w.base 16
  | 1 => fieldAt w.limit 16
  | 2 => fieldAt w.sbase 6
  | _ => fieldAt w.fmt 8 ||| fieldAt w.blk 4 ||| flagAt w.err 1 ||| flagAt w.ena 0

def ProtWindow.word (w : ProtWindow) (r : Nat) : Word :=
  match r with
  | 0 => fieldAt w.base 16
  | 1 => fieldAt w.limit 16
  | 2 => fieldAt w.idx 28 ||| flagAt w.q 24 ||| fieldAt w.n 16 ||| fieldAt w.pgid 0
  | _ => flagAt w.degr 2 ||| flagAt w.err 1 ||| flagAt w.ena 0

def SrtEntry.word (e : SrtEntry) (r : Nat) : Word :=
  if r = 0 then fieldAt e.base 16 else fieldAt e.limit 16 ||| flagAt e.lock 1 ||| flagAt e.valid 0

def PoolExtent.word (e : PoolExtent) (r : Nat) : Word :=
  if r = 0 then fieldAt e.base 16 else fieldAt e.limit 16 ||| fieldAt e.st 0

def Einj.word (e : Einj) : Word :=
  fieldAt e.target 0 ||| fieldAt e.sev 4 ||| flagAt e.trig 6 ||| flagAt e.arm 7 ||| flagAt e.done 8 ||| flagAt e.err 9 |||
    fieldAt e.parr 16 ||| fieldAt e.index 24

/-- Register `r` of a queue (R312); the doorbell reads zero. -/
def Queue.word (x : Queue) (r : Nat) : Word :=
  match r with
  | 0 => fieldAt x.base 8
  | 1 => fieldAt x.prio 0 ||| fieldAt x.log2e 4 ||| flagAt x.sec 8 ||| flagAt x.mgmt 9 ||| BitVec.ofNat 64 (x.func.val * 2 ^ 12) |||
      fieldAt x.asid 16 ||| BitVec.ofNat 64 (x.vmin % 256 * 2 ^ 32) ||| BitVec.ofNat 64 (x.vmaj % 256 * 2 ^ 40)
  | 3 => fieldAt x.head 0
  | 4 => BitVec.ofNat 64 x.done
  | 5 => fieldAt x.prog 0
  | 6 => BitVec.ofNat 64 (x.t1 % 65536 + x.t2 % 65536 * 65536)
  | 7 => BitVec.ofNat 64 (x.st % 8 + x.err % 256 * 256)
  | _ => 0

/-- The registers of the package register region. -/
inductive PReg where
  | fw (n : Fin 16) (r : Fin 4)
  | pw (n : Fin 16) (r : Fin 4)
  | srt (n : Fin 64) (limit : Bool)
  | atbr
  | pxt (n : Fin 64) (limit : Bool)
  | einjCtl
  | einjAddr
  | boot
  | queue (n : Fin 64) (r : Fin 8)
  deriving DecidableEq, Repr

/-- The register at a physical address; none: no register of the manual is there (R363). -/
def pregAt (addr : Nat) : Option PReg :=
  if addr % 8 ≠ 0 ∨ addr < Config.regBase then none else
  let o := addr - Config.regBase
  if 0x1000 ≤ o ∧ o < 0x1200 then
    some (.fw ⟨(o - 0x1000) / 32 % 16, by omega⟩ ⟨o / 8 % 4, by omega⟩)
  else if 0x2000 ≤ o ∧ o < 0x2200 then
    some (.pw ⟨(o - 0x2000) / 32 % 16, by omega⟩ ⟨o / 8 % 4, by omega⟩)
  else if 0x3000 ≤ o ∧ o < 0x3400 then some (.srt ⟨(o - 0x3000) / 16 % 64, by omega⟩ (o / 8 % 2 == 1))
  else if o = 0x4000 then some .atbr
  else if 0x4800 ≤ o ∧ o < 0x4C00 then some (.pxt ⟨(o - 0x4800) / 16 % 64, by omega⟩ (o / 8 % 2 == 1))
  else if o = 0x5000 then some .einjCtl
  else if o = 0x5008 then some .einjAddr
  else if o = 0x6000 then some .boot
  else if 0x10000 ≤ o ∧ o < 0x11000 then
    some (.queue ⟨(o - 0x10000) / 64 % 64, by omega⟩ ⟨o / 8 % 8, by omega⟩)
  else none

def State.pregRead (s : State) : PReg → Word
  | .fw n r => (s.fw[n]).word r.val
  | .pw n r => (s.pw[n]).word r.val
  | .srt n l => (s.srt[n]).word (if l then 1 else 0)
  | .atbr => fieldAt s.atbrBase 16 ||| flagAt s.atbrEna 0
  | .pxt n l => (s.pxt[n]).word (if l then 1 else 0)
  | .einjCtl => s.einj.word
  | .einjAddr => fieldAt s.einj.addr 0
  | .boot => s.bootStatus
  | .queue n r => (s.queue n.val).word r.val

/-! Format windows (R24, R25). -/

/-- The bytes of a window's scale region from its base. -/
def FmtWindow.scaleBytes (w : FmtWindow) : Nat := (w.limit.toNat + 1 - w.base.toNat) * 8192

def spansMeet (a n b m : Nat) : Bool := decide (a < b + m ∧ b < a + n)

def FmtWindow.data (w : FmtWindow) : Nat × Nat := (w.base.toNat * 65536, (w.limit.toNat + 1 - w.base.toNat) * 65536)
def FmtWindow.scales (w : FmtWindow) : Nat × Nat := (w.sbase.toNat * 64, w.scaleBytes)

/-- The checks of an enabling write (R25). The window itself is not enabled yet, so its scale region may meet its own data range
(assumption 148). -/
def State.fmtOk (s : State) (n : Fin 16) : Bool :=
  let w := s.fw[n]
  let backed := fun (p : Nat × Nat) => decide (p.1 + p.2 ≤ s.visible)
  decide (w.base.toNat ≤ w.limit.toNat) && backed w.data && decide (w.fmt.toNat ≤ 1) && w.blk == 0 && backed w.scales &&
  (List.finRange 16).all fun m =>
    let v := s.fw[m]
    m == n || !v.ena || (!spansMeet w.data.1 w.data.2 v.data.1 v.data.2 && !spansMeet w.data.1 w.data.2 v.scales.1 v.scales.2 &&
      !spansMeet w.scales.1 w.scales.2 v.data.1 v.data.2)

def State.modFmt (s : State) (n : Fin 16) (f : FmtWindow → FmtWindow) : State :=
  { s with fw := s.fw.set n.val (f s.fw[n]) n.isLt }

/-- FORMAT_WINDOW_ENABLE (R25): the window is enabled, or ERR is set. -/
def execFormatWindowEnable (n : Fin 16) (s : State) : Out :=
  .next (if (s.fw[n]).ena then s
    else if s.fmtOk n then s.modFmt n fun w => { w with ena := true }
    else s.modFmt n fun w => { w with err := true })

/-- A copy or feed that joins scales and has begun (R25, R26). -/
def State.joining (s : State) : Bool :=
  s.arrays.toList.any fun x => (x.near ++ x.poolq).any (fun j => j.joins && !j.done) ||
    x.ctxs.toList.any fun y => y.staged.any fun f => f.waitFor != 0

/-- A window whose ENA is to clear can clear now. -/
def State.fmtClosable (s : State) (n : Fin 16) : Bool := (s.fw[n]).closing.isSome && !s.joining

/-- FORMAT_WINDOW_DISABLE (R25): the clearing write completes once the copies and feeds that sampled the window have
finished. -/
def execFormatWindowDisable (n : Fin 16) (s : State) : Out :=
  match (s.fw[n]).closing with
  | none => .next s
  | some fn =>
    if s.joining then .next s
    else .next ((s.modFmt n fun w => { w with ena := false, closing := none }).respond fn 0 [])

/-! Protection windows (R27, R28, R105). -/

/-- The checks of an enabling write: R28, and the unit count, N, Q and IDX of the registration (R105). -/
def State.protOk (s : State) (n : Fin 16) : Bool :=
  let w := s.pw[n]
  decide (w.base.toNat ≤ w.limit.toNat) && decide ((w.limit.toNat + 1) * 65536 ≤ s.visible) &&
  decide (4 ≤ w.n.toNat ∧ w.n.toNat ≤ 16 ∧ w.idx.toNat < w.n.toNat) &&
  (List.finRange 16).all (fun m =>
    let v := s.pw[m]
    m == n || !v.ena || decide (v.limit.toNat < w.base.toNat ∨ w.limit.toNat < v.base.toNat)) &&
  match s.group? w.pgid.toNat with
  | none => false
  | some g => decide (w.limit.toNat + 1 - w.base.toNat = g.k ∧ w.n.toNat = g.n ∧ g.q = (if w.q then 1 else 0) ∧ w.idx.toNat = g.index)

def State.modProt (s : State) (n : Fin 16) (f : ProtWindow → ProtWindow) : State :=
  { s with pw := s.pw.set n.val (f s.pw[n]) n.isLt }

/-- PROTECTION_WINDOW_ENABLE (R28): the window is enabled, degraded where its group has a lost member, or ERR is set. Its pages are
no longer ones that this package gave up by isolation (R111). -/
def execProtectionWindowEnable (n : Fin 16) (s : State) : Out :=
  .next (if (s.pw[n]).ena then s
    else if s.protOk n then
      let v := s.pw[n]
      let degr := match s.group? v.pgid.toNat with | some g => !g.lost.isEmpty | none => false
      { s.modProt n fun w => { w with ena := true, degr := degr } with
        isolated := s.isolated.filter fun e => decide (v.limit.toNat < e.1 ∨ e.2 < v.base.toNat) }
    else s.modProt n fun w => { w with err := true })

/-! The secure region table (R29). -/

/-- SECURE_REGION_TABLE_WRITE (R29): only the base controller writes, and no locked entry. -/
def execSecureRegionTableWrite (byBase : Bool) (n : Fin 64) (limitReg : Bool) (value : Word) (s : State) : Out :=
  if !byBase then .next (s.report { errRec 0x0023 7 2 0 with addr := Config.regBase + 0x3000 + 16 * n.val + (if limitReg then 8 else 0) })
  else if (s.srt[n]).lock then .next s
  else
    let e := s.srt[n]
    let e1 : SrtEntry :=
      if limitReg then { e with limit := value.extractLsb' 16 36, lock := value.getLsbD 1, valid := value.getLsbD 0 }
      else { e with base := value.extractLsb' 16 36 }
    .next { s with srt := s.srt.set n.val e1 n.isLt }

/-! Error injection (R350, R351). -/

/-- The line or location of an injection is present at its level (R351). -/
def State.einjPresent (s : State) (e : Einj) : Bool :=
  let l := e.addr.toNat / 64
  match e.target.toNat with
  | 0 => (s.lineMeta l).l2 != .invalid
  | 1 => (s.lineMeta l).tarn != .invalid
  | 2 => decide (e.addr.toNat < s.visible)
  | 3 => (s.arr ⟨e.parr.toNat, e.parr.isLt⟩).vc.any (·.line == l)
  | _ => true

/-- A reserved code, or a code outside its range. -/
def Einj.reserved (e : Einj) : Bool :=
  decide (8 ≤ e.target.toNat) || e.sev == 3 || (e.sev == 2 && decide (e.target.toNat < 5)) ||
  (e.target == 6 && decide (48 ≤ e.index.toNat)) || (e.target == 7 && decide (4 ≤ e.index.toNat))

/-- The fields of EINJCTL that a write sets, where it does not arm: ARM written 0 withdraws an armed injection; DONE and ERR
clear on 1. -/
def Einj.take (e : Einj) (v : Word) : Einj :=
  { e with
    target := v.extractLsb' 0 4, sev := v.extractLsb' 4 2, trig := v.getLsbD 6, parr := v.extractLsb' 16 5
    arm := e.arm && v.getLsbD 7, index := v.extractLsb' 24 6, done := e.done && !v.getLsbD 8, err := e.err && !v.getLsbD 9 }

/-- EINJ_ARM (R350, R351): a write of EINJCTL with ARM. It is refused with ERR, placed at once, or armed. -/
def execEinjArm (value : Word) (secure : Bool) (s : State) : Out :=
  if !s.cfg.injEna then .next { s with einj := { s.einj with err := true } } else
  let e := s.einj.take value
  let bad := e.reserved || (e.trig && !s.einjPresent e) || (!secure && decide (e.target.toNat ≤ 3) && s.secureAt e.addr.toNat)
  if bad then .next { s with einj := { e with err := true, arm := false } }
  else
    let s1 := { s with einj := { e with arm := true } }
    .next (if e.trig then s1.einjPlaced else s1)

/-- EINJ_PLACE (R350): a deferred injection is placed at the read of its location. -/
def execEinjPlace (s : State) : Out := .next (if s.einj.arm && !s.einj.trig then s.einjPlaced else s)

/-! Writes (R363). -/

/-- What a mailbox write of a register comes to: a status at once, or nothing yet. -/
def State.doneWith (fn : FnId) (o : Out) : Out :=
  match o with
  | .next t => .next (t.respond fn 0 [])
  | o => o

/-- A write of a format-window register (R25). -/
def State.writeFmt (s : State) (fn : FnId) (n : Fin 16) (r : Nat) (v : Word) : Out :=
  let w := s.fw[n]
  if r ≠ 3 then
    .next ((if w.ena then s else s.modFmt n fun x =>
      match r with
      | 0 => { x with base := v.extractLsb' 16 36 }
      | 1 => { x with limit := v.extractLsb' 16 36 }
      | _ => { x with sbase := v.extractLsb' 6 46 }).respond fn 0 [])
  else
    let s1 := s.modFmt n fun x => { x with err := x.err && !v.getLsbD 1 }
    if w.ena then
      if v.getLsbD 0 then .next (s1.respond fn 0 [])
      else .next (s1.modFmt n fun x => { x with closing := some fn })
    else
      let s2 := s1.modFmt n fun x => { x with fmt := v.extractLsb' 8 3, blk := v.extractLsb' 4 2 }
      if v.getLsbD 0 then State.doneWith fn (execFormatWindowEnable n s2) else .next (s2.respond fn 0 [])

/-- A write of a protection-window register (R28): ignored while the window is enabled. -/
def State.writeProt (s : State) (fn : FnId) (n : Fin 16) (r : Nat) (v : Word) : Out :=
  let w := s.pw[n]
  if r ≠ 3 then
    .next ((if w.ena then s else s.modProt n fun x =>
      match r with
      | 0 => { x with base := v.extractLsb' 16 36 }
      | 1 => { x with limit := v.extractLsb' 16 36 }
      | _ => { x with idx := v.extractLsb' 28 4, q := v.getLsbD 24, n := v.extractLsb' 16 5, pgid := v.extractLsb' 0 16 }).respond fn 0 [])
  else
    if w.ena then .next (s.respond fn 0 [])
    else
      let s1 := s.modProt n fun x => { x with err := x.err && !v.getLsbD 1 }
      if v.getLsbD 0 then State.doneWith fn (execProtectionWindowEnable n s1) else .next (s1.respond fn 0 [])

/-- A write of a queue register that has no effect but on its fields (R312): PRIO, T1 and T2. -/
def Queue.write (x : Queue) (r : Nat) (v : Word) : Queue :=
  match r with
  | 1 => { x with prio := v.extractLsb' 0 4 }
  | 6 =>
    let t2 := (v.extractLsb' 16 16).toNat
    { x with t1 := (v.extractLsb' 0 16).toNat, t2 := if t2 = 0 then 1 else t2 }
  | _ => x

/-- READ_REG (R363). -/
def execReadReg (fn : FnId) (addr : Nat) (s : State) : Out :=
  s.onlyFn0 fn (
    match pregAt addr with
    | none => .next (s.respond fn 3 [])
    | some r => .next (s.respond fn 0 (natToBytes 8 (s.pregRead r).toNat)))

/-- WRITE_REG (R363), subject to R25, R28, R29 and R350. -/
def execWriteReg (fn : FnId) (addr : Nat) (value : Word) (s : State) : Out :=
  s.onlyFn0 fn (
    match pregAt addr with
    | none => .next (s.respond fn 3 [])
    | some (.fw n r) => s.writeFmt fn n r.val value
    | some (.pw n r) => s.writeProt fn n r.val value
    | some (.srt n l) =>
      if !s.fnSecure fn then .next (s.respond fn 4 []) else State.doneWith fn (execSecureRegionTableWrite true n l value s)
    | some .atbr =>
      if value.extractLsb' 16 3 != 0 then .next (s.respond fn 3 [])
      else .next (({ s with atbrBase := value.extractLsb' 16 36, atbrEna := value.getLsbD 0 }).respond fn 0 [])
    | some .einjCtl =>
      if value.getLsbD 7 then State.doneWith fn (execEinjArm value (s.fnSecure fn) s)
      else if !s.cfg.injEna then .next (({ s with einj := { s.einj with err := true } }).respond fn 0 [])
      else .next (({ s with einj := s.einj.take value }).respond fn 0 [])
    | some .einjAddr =>
      if !s.cfg.injEna then .next (({ s with einj := { s.einj with err := true } }).respond fn 0 [])
      else .next (({ s with einj := { s.einj with addr := value.extractLsb' 0 52 } }).respond fn 0 [])
    | some (.queue n r) =>
      if r.val = 2 then State.doneWith fn (execQueueDoorbell n (value.extractLsb' 0 16) s)
      else .next ((s.modQueue n.val fun x => x.write r.val value).respond fn 0 [])
    | some (.pxt _ _) | some .boot => .next (s.respond fn 0 []))

end Sys2Proof.Machine
end

