-- ==== Sys2Proof/Machine/Links.lean ====
section
/-! DEFINITION. Delotte ports (R364 to R366), copy chunks (R372), requests of other packages (R15, R18, R23, R30, R48, R106, R113,
R195, R309, R344) and error records to the host (R348, R362). -/

namespace Sys2Proof.Machine

/-! Ports. -/

/-- 1 µs, 2 µs and 10 ms in ac (R5). -/
def acPerUs : Nat := 1750

def State.port (s : State) (p : PortId) : Port := s.ports[p]

/-- Flits that the port may hold unacknowledged (R364, R365). -/
def Port.room (x : Port) : Bool := decide (x.replay.length < min x.window 4096)

/-- Items of the outbox that travel over Delotte. -/
def Output.linked : Output → Bool
  | .msix _ _ | .readReply _ _ _ | .flit _ _ | .quiesce _ | .advertise _ _ | .report _ _ => false
  | _ => true

/-- A flit that carries no data leaves a port: idle 0, NAK 2 or control 3, with the E of the receiver (R364 to R366). -/
def State.sendE (s : State) (p : PortId) (typ : BitVec 4) : State :=
  let e := (s.port p).rxE
  (s.modPort p fun y => { y with acked := e }).send (.flit p (Flit.made typ 0 e []))

/-- The port sends a new flit (R364, R365): it is kept until it is acknowledged. -/
def State.sendFlit (s : State) (p : PortId) (item : Nat) : State :=
  let x := s.port p
  let f := Flit.made 1 x.txSeq x.rxE ((Config.payload item).take 240)
  let s1 := s.modPort p fun y =>
    { y with acked := y.rxE, txSeq := y.txSeq + 1, replay := y.replay ++ [f], lastAck := if y.replay.isEmpty then s.now else y.lastAck }
  (if x.replay.isEmpty then s1.atAc (s.now + 2 * acPerUs) (.replayTimeout p) else s1).send (.flit p f)

/-- A port that is replaying resends the next flit (R365). -/
def State.replayNext (s : State) (p : PortId) : State :=
  let x := s.port p
  match x.replaying with
  | none => s
  | some k =>
    match x.replay[k]? with
    | none => s.modPort p fun y => { y with replaying := none }
    | some f => (s.modPort p fun y => { y with acked := y.rxE, replaying := some (k + 1) }).send (.flit p (f.again x.rxE))

/-- A port that can take a new flit. -/
def Port.free (x : Port) : Bool := x.up && !x.repairing && !x.quiesced && x.replaying.isNone && x.room

/-- The port that carries an item: the one that its route gives, or, that one being down, the next one up (assumption 30). -/
def State.portFor (s : State) (item : Nat) : PortId :=
  let at_ := fun (k : Nat) => (⟨(Config.route item + k) % 16, by omega⟩ : PortId)
  ((List.range 16).map at_).find? (fun p => (s.port p).up) |>.getD (at_ 0)

/-- The links take up what the package has to send, in order, as far as their windows allow; `n` bounds the items. -/
def State.takeUp (s : State) : Nat → State
  | 0 => s
  | n + 1 =>
    match s.outbox[s.carried]? with
    | none => s
    | some o =>
      let s1 := { s with carried := s.carried + 1 }
      if !o.linked then State.takeUp s1 n
      else
        let p := s.portFor s.carried
        if (s.port p).free then State.takeUp (s1.sendFlit p s.carried) n else s

/-- One ac of every port: a replay, what the package has to send, and an idle flit where an acknowledgement is still to be carried
(assumption 124). -/
def State.linkTick (s : State) : State :=
  let s1 := (List.finRange 16).foldl (fun (u : State) p =>
    if (u.port p).up && !(u.port p).repairing then u.replayNext p else u) s
  let s2 := s1.takeUp (s1.outbox.length - s1.carried)
  (List.finRange 16).foldl (fun (u : State) p =>
    let x := u.port p
    if x.up && !x.repairing && !x.quiesced && x.acked != x.rxE then u.sendE p 0 else u) s2

/-- Flits below `e` leave the replay buffer (R365). -/
def Port.freeBelow (x : Port) (e : BitVec 16) (now : Nat) : Port :=
  let done := fun (f : Flit) => decide (0 < (e - f.seq).toNat ∧ (e - f.seq).toNat ≤ 32768)
  let gone := (x.replay.takeWhile done).length
  if gone = 0 then x else
  { x with replay := x.replay.drop gone, replaying := x.replaying.map fun k => k - gone, lastAck := now }

/-- An acknowledgement (R364, R365). -/
def State.ackBelow (s : State) (p : PortId) (e : BitVec 16) : State :=
  let s1 := s.modPort p fun x => x.freeBelow e s.now
  if (s1.port p).replay.length < (s.port p).replay.length && !(s1.port p).replay.isEmpty then
    s1.atAc (s.now + 2 * acPerUs) (.replayTimeout p) else s1

/-- A replay begins (R365), with its record (R375). -/
def State.startReplay (s : State) (p : PortId) : State :=
  let x := s.port p
  if x.replay.isEmpty || !x.up || x.repairing then s else
  let recent := (x.replays ++ [s.now]).filter fun t => decide (s.now < t + 10 * acPerMs)
  let s1 := s.modPort p fun y => { y with replaying := some 0, replays := recent, lastAck := s.now }
  (s1.report { errRec 0x0060 9 1 p.val with detail := recent.length }).atAc (s.now + 2 * acPerUs) (.replayTimeout p)

/-- DATA_FLIT_RECEIVE (R365): accepted in order with a good CRC; a duplicate is dropped; any other is discarded with one
NAK. -/
def execDataFlitReceive (p : PortId) (f : Flit) (s : State) : Out :=
  let x := s.port p
  if !x.up || x.repairing then .next s
  else
    let s1 := if f.crcOk then s.ackBelow p f.ack else s
    if f.crcOk && f.seq == x.rxE then .next (s1.modPort p fun y => { y with rxE := y.rxE + 1, nakHold := none })
    else if f.crcOk && decide (0 < (x.rxE - f.seq).toNat ∧ (x.rxE - f.seq).toNat ≤ 32768) then .next s1
    else if x.nakHold.isSome then .next s1
    else .next (((s1.modPort p fun y => { y with nakHold := some (s.now + acPerUs) }).sendE p 2).atAc (s.now + acPerUs)
      (.nakHoldoffExpire p))

/-- NAK_HOLDOFF_EXPIRE (R365). -/
def execNakHoldoffExpire (p : PortId) (s : State) : Out :=
  .next (s.modPort p fun x =>
    match x.nakHold with
    | some t => if t ≤ s.now then { x with nakHold := none } else x
    | none => x)

/-- NAK_RECEIVE (R365): the NAK's E acknowledges; the transmitter replays from the oldest flit it still holds. -/
def execNakReceive (p : PortId) (e : BitVec 16) (s : State) : Out := .next ((s.ackBelow p e).startReplay p)

/-- FLIT_ACK_RECEIVE (R364, R365). -/
def execFlitAckReceive (p : PortId) (ack : BitVec 16) (s : State) : Out := .next (s.ackBelow p ack)

/-- REPLAY_TIMEOUT (R365): 2 µs without ACK progress. -/
def execReplayTimeout (p : PortId) (s : State) : Out :=
  .next (if (s.port p).lastAck + 2 * acPerUs ≤ s.now then s.startReplay p else s)

/-- A port goes down (R366): a route down for R111. The silent members that no route reaches are looked at again. -/
def State.portDown (s : State) (p : PortId) : State :=
  let s1 := (s.modPort p fun x => { x with up := false, repairing := false, replaying := none }).report (errRec 0x0062 9 2 p.val)
  s1.groups.foldl (fun u g => g.others.foldl (fun v m =>
    if s1.unreachable (s1.redirect (g.member m)) && decide (g.heardAt m + heartLimit ≤ s1.now) then v.soon (.heartbeatTimeout g.pgid m) else v) u) s1

/-- LANE_ERROR_LIMIT (R366): a lane over its limit of symbol errors, or one that loses lock: live repair onto the spare; the replay under way is finished or abandoned at the flit boundary.
With the spare in use the port goes down. -/
def execLaneErrorLimit (p : PortId) (lane : Nat) (s : State) : Out :=
  let x := s.port p
  if !x.up || decide (8 < lane) then .next s
  else if x.spare || x.repairing then .next (s.portDown p)
  else .next (s.modPort p fun y => { y with repairing := true, replaying := none })

/-- Symbol errors that a lane shows (R366): more than 64 in 1 ms are over its limit. -/
def State.symbolErrors (s : State) (p : PortId) (lane n : Nat) : Out :=
  let recent := ((s.port p).errs ++ [(lane, s.now, n)]).filter fun e => decide (s.now < e.2.1 + acPerMs)
  let sum := ((recent.filter (·.1 == lane)).map (·.2.2)).foldl (fun (k n : Nat) => k + n) 0
  if 64 < sum then execLaneErrorLimit p lane (s.modPort p fun x => { x with errs := recent.filter (·.1 != lane) })
  else .next (s.modPort p fun x => { x with errs := recent })

/-- LANE_RETRAIN_COMPLETE (R366): each end's E is exchanged; flits below the peer's are freed and the others sent again. A
failed retrain takes the port down. -/
def execLaneRetrainComplete (p : PortId) (ok : Bool) (e : BitVec 16) (s : State) : Out :=
  if !(s.port p).repairing then .next s
  else if !ok then .next (s.portDown p)
  else
    let s1 := (s.modPort p fun x => { x with repairing := false, spare := true }).ackBelow p e
    let s2 := s1.modPort p fun x => { x with replaying := if x.replay.isEmpty then none else some 0, lastAck := s.now }
    let s3 := (s2.report (errRec 0x0061 9 1 p.val)).sendE p 3
    .next (if (s3.port p).replay.isEmpty then s3 else s3.atAc (s.now + 2 * acPerUs) (.replayTimeout p))

/-- LINK_TRAIN (R364, R369, R373): the higher common version; under 1.1 the window that the peer's receiver advertises, this one
advertising its own. The port goes on from its SEQ: what is unacknowledged is sent again. -/
def execLinkTrain (p : PortId) (peerMajor peerMinor window : Nat) (s : State) : Out :=
  if peerMajor ≠ 1 then .next ((s.modPort p fun x => { x with up := false }).report (errRec 0x0063 9 2 p.val))
  else
    let minor := min peerMinor 1
    let s1 := s.modPort p fun x =>
      { x with
        up := true, minor := minor, quiesced := false, peerQuiet := false, repairing := false
        replaying := if x.replay.isEmpty then none else some 0, lastAck := s.now
        window := if minor = 0 then 512 else max 64 (min 4096 window) }
    let s2 := if (s.port p).replay.isEmpty then s1 else s1.atAc (s.now + 2 * acPerUs) (.replayTimeout p)
    .next (if minor = 0 then s2 else s2.send (.advertise p (64 + Config.linkWindow p % 4033)))

/-- QUIESCE_FLIT_RECEIVE (R371, step 6). -/
def execQuiesceFlitReceive (p : PortId) (s : State) : Out := .next (s.modPort p fun x => { x with peerQuiet := true })

/-! Accesses of other packages at their home here. -/

/-- Where an access of another package leads here, or the code of its refusal and the reason of the record: it is checked against
this package's ranges, parity units, private pages, world table and sealed pages (R15, R23, R30, R106, R195, R347). -/
def State.inbound (s : State) (addr : Nat) (sec writes : Bool) : Except (Nat × Nat) Nat :=
  match s.localLine (addr / 64) with
  | none => .error (fPhys, 0x0021)
  | some l =>
    let pa := 64 * l + addr % 64
    if s.parityLine l || s.privateAt pa then .error (fPhys, 0x0021)
    else match s.physFault pa sec .sync with
      | some e => .error e
      | none => if writes && s.sealedAt pa then .error (fWorld, 0x0022) else .ok pa

/-! Chunks (R372). -/

/-- The lines that `n` bytes at an address meet. -/
def linesOf (pa n : Nat) : List Nat := if n = 0 then [] else (List.range ((pa + n - 1) / 64 + 1 - pa / 64)).map fun i => pa / 64 + i

/-- Bytes written at home line by line, for an ASID. -/
def State.homeBytes (s : State) (pa : Nat) (bs : List Byte) (reduce : Nat) (asid : BitVec 16) : State :=
  (linesOf pa bs.length).foldl (fun (u : State) l =>
    let lo := max pa (64 * l)
    let part := (bs.drop (lo - pa)).take (min (64 * l + 64) (pa + bs.length) - lo)
    let (old, _, u1) := u.homeRead l asid
    let new := if reduce = 0 then part else addElems (reduce == 2) ((lineBytes old).drop (lo % 64)) part
    let (d, m) := placeBytes (lo % 64) new
    u1.homeWrite l m d asid (reduce == 0)) s

/-- The array of a rank's task, once its map entry serves (R20). -/
def State.rankHere (s : State) (team rank : Nat) : Option ArrId :=
  (s.team? team).bind fun t => (t.tasks.find? (·.rank == rank)).bind fun k =>
    match t.entry k.larr s.now with | .here a _ => some a | _ => none

/-- Words of an earlier chunk of a package have still to be placed. -/
def State.placingFor (s : State) (pkg : Nat) : Bool :=
  s.arrays.toList.any fun x => x.net.any fun m => match m.chunk with | some (p, _) => p == pkg | none => false

/-- A chunk waits until the one before it is applied, and one for an array store until its rank is placed here. -/
def State.chunkWaits (s : State) (pkg rank reduce : Nat) : Bool :=
  s.placingFor pkg || (reduce == 3 && (s.rankHere (rank / 2 ^ 14) (rank % 2 ^ 14)).isNone)

/-- The runs of a chunk for an array store lie in the store and in the plan of the team's image (R17). -/
def State.chunkAsOk (s : State) (rank : Nat) (runs : List (Nat × List Byte)) : Bool :=
  match (s.team? (rank / 2 ^ 14)).bind fun t => s.image? t.image with
  | none => false
  | some i => runs.all fun r => decide (r.1 + r.2.length ≤ 0x1000000) &&
      i.plan.holdsWords (r.1 / 32 * 32) ((r.1 + r.2.length + 31) / 32 - r.1 / 32)

/-- The words that a run of bytes meets, each with its bytes. -/
def runWords (addr : Nat) (bs : List Byte) : List (Nat × List Byte) :=
  (List.range ((addr + bs.length + 31) / 32 - addr / 32)).map fun i =>
    let lo := max addr ((addr / 32 + i) * 32)
    (lo, (bs.drop (lo - addr)).take ((addr / 32 + i + 1) * 32 - lo))

/-- The words of a chunk arrive at the array of its rank; with the last one it is applied. -/
def State.chunkWords (s : State) (src seq rank : Nat) (runs : List (Nat × List Byte)) : State :=
  match s.rankHere (rank / 2 ^ 14) (rank % 2 ^ 14) with
  | none => s
  | some a =>
    let ms : List NetMsg := (runs.flatMap fun r => runWords r.1 r.2).map fun w =>
      { netBytes w.1 w.2 with src := a, remote := some (src, rank / 2 ^ 14, 0) }
    let last := (ms.drop (ms.length - 1)).map fun (m : NetMsg) => { m with chunk := some (src, seq) }
    (ms.dropLast ++ last).foldl (fun (u : State) m => u.arrive a m) s

/-- The parts of a run in the lines that it meets. -/
def runLines (r : Nat × List Byte) : List (Nat × List Byte) :=
  (linesOf r.1 r.2.length).map fun l =>
    let lo := max r.1 (64 * l)
    (lo, (r.2.drop (lo - r.1)).take (64 * l + 64 - lo))

/-- Parts of lines are written, or added, at home, up to the first that may not be: its address, the code of the refusal and the
reason of the record (R304). -/
def State.chunkApply (s : State) (src : Sender) (reduce : Nat) : List (Nat × List Byte) → State × Option (Nat × Nat × Nat)
  | [] => (s, none)
  | p :: t =>
    match s.inbound p.1 src.sec true with
    | .error e => (s, some (p.1, e))
    | .ok pa => State.chunkApply (s.homeBytes pa p.2 reduce src.asid) src reduce t

/-- CHUNK_RECEIVE (R372, R302, R301): applied if its number is next, then acknowledged, with the code of its refusal where it is
refused; one for an array store when its last word is placed (R303). One at or below the last applied is dropped. It is checked in
the world that it carries (R30, R31), a chunk for an array store against its range and plan (R17). -/
def execChunkReceive (src : Sender) (seq : Nat) (rank : Nat) (reduce : BitVec 2) (runs : List (Nat × List Byte)) (s : State) : Out :=
  let c := s.chunksTo src.pkg
  let answer := fun (u : State) (code : Nat) => Host.Outcome.next (u.send (.chunkAck src.pkg seq code))
  if seq ≤ c.applied then answer s 0
  else if seq ≠ c.applied + 1 || s.chunkWaits src.pkg rank reduce.toNat then .next s
  else if reduce = 3 then
    (if s.chunkAsOk rank runs && runs.any (fun r => !r.2.isEmpty) then .next (s.chunkWords src.pkg seq rank runs)
     else answer (s.putChunks { c with applied := seq }) (if s.chunkAsOk rank runs then 0 else 0x10))
  else
    match (s.putChunks { c with applied := seq }).chunkApply src reduce.toNat (runs.flatMap runLines) with
    | (s1, none) => answer s1 0
    | (s1, some (addr, code, reason)) =>
      answer (if reason = 0 then s1 else
        s1.report { errRec reason 9 2 (homeSlice (addr / 64)) with addr := addr, asid := src.asid.toNat }) code

/-- A copy has an answer for its chunks to a package up to a number: a refusal is its status (R304). -/
def CopyJob.acked (j : CopyJob) (src seq code : Nat) : CopyJob :=
  { j with
    sent := j.sent.filter fun e => !(e.1 == src && decide (e.2 ≤ seq))
    status := if code ≠ 0 ∧ j.sent.contains (src, seq) ∧ j.status = 0 then Use.copyWrite.abortCode code else j.status }

/-- CHUNK_ACK_RECEIVE (R372). -/
def execChunkAckReceive (src : Nat) (reply : ChunkReply) (s : State) : Out :=
  let c := s.chunksTo src
  let f := fun (l : List CopyJob) => l.map fun j => j.acked src reply.seq reply.code
  let s1 := s.putChunks { c with ackOut := max c.ackOut reply.seq, unacked := c.unacked.filter fun u => decide (reply.seq < u.seq) }
  .next { s1 with
    arrays := s1.arrays.map fun x : Arr => { x with near := f x.near, poolq := f x.poolq }
    bces := s1.bces.map fun b : Bce => { b with near := f b.near, pool := f b.pool } }

/-! Requests of other packages. -/

/-- The operation code under which a publication entry is sampled; the model's own. -/
def opSample : BitVec 6 := 0x3F

/-- A sample of a publication entry marks the package in the sampler mask of the log's array (R344). -/
def State.sampledBy (s : State) (src addr : Nat) : State :=
  match s.rings.find? fun r => decide (r.slot < 128) && (s.pubAddr r == some (addr / 64 * 64) || s.pubAddr r == some (addr / 32 * 32)) with
  | none => s
  | some r => s.modArr ⟨r.slot / 4 % 32, by omega⟩ fun x => { x with sampler := setBit x.sampler src }

/-- A request that writes: a store or an atomic. -/
def requestWrites (op : BitVec 6) : Bool := op == 0x03 || decide (0x10 ≤ op.toNat ∧ op.toNat ≤ 0x1A)

/-- A read of a protected data line waits while a fold holds it at its home, and until it is reconstructed where that has to be
(R113, R118). -/
def State.requestWaits (s : State) (l : Nat) (op : BitVec 6) : Bool :=
  !requestWrites op && (((s.dataUnit l).isSome && s.lineHeld l) || s.needsMend l)

/-- A request is served at the home slice of a line here: the bytes that it reads, with code 0x13 where they are poisoned. -/
def State.serve (s : State) (src : Nat) (op : BitVec 6) (pa size : Nat) (operand compare : Word) (asid : BitVec 16) : State :=
  let (d, p, s1) := s.homeRead (pa / 64) asid
  let reply := Output.peerReply src (if p then 0x13 else 0) (BitVec.ofNat 512 (d.toNat / 2 ^ (8 * (pa % 64)) % 2 ^ (8 * size)))
  let old := lineField d (pa % 64) size
  if op = 0x03 then (s.homeStore pa operand.toNat size asid).send (.peerReply src 0 0)
  else if op = 0x1C then
    { s1 with peerWatch := (s1.peerWatch.filter fun w : Nat × Nat × Nat × Word => !(w.1 == src && w.2.1 == pa)) ++ [(src, pa, size, old)] }.send
      reply
  else if requestWrites op then
    (s1.homeStore pa (atomicNew op.toNat (8 * size) old.toNat operand.toNat compare.toNat) size asid).send reply
  else if op = opSample then (s1.sampledBy src pa).send reply
  else s1.send reply

/-- PEER_PACKAGE_REQUEST (R23, R30, R97, R106, R113, R114, R116, R195, R293, R344): a load, store, atomic, MON or sample of another
package, by its opcode, is checked again here and served at the home slice; a read of a lost member's data line by its
reconstructor. -/
def execPeerPackageRequest (src : Nat) (op : BitVec 6) (addr size : Nat) (operand compare : Word) (agent : Agent) (s : State) : Out :=
  let abort := fun (e : Nat × Nat) =>
    Host.Outcome.next ((s.report { s.abortRec e.2 9 (homeSlice (addr / 64)) addr with asid := agent.asid.toNat }).send
      (.peerReply src e.1 0))
  let serve := fun (pa : Nat) =>
    if s.requestWaits (pa / 64) op then
      Host.Outcome.next (((s.awaitMend (pa / 64)).getD s).atAc (s.now + 1) (.peerPackageRequest src op addr size operand compare agent))
    else .next (s.serve src op pa size operand compare agent.asid)
  if !decide (0 < size ∧ addr % 64 + size ≤ 64) then abort (fPhys, 0x0021) else
  match s.lostAt addr, rangeOf addr with
  | some (g, m, st), .peer =>
    if (g.parity st).contains m then abort (fPhys, 0x0021)
    else if g.stripeLost st 0 then abort (fStripe, 0x0034)
    else if requestWrites op || !g.reconstructs st then abort (fPhys, 0x0021)
    else serve addr
  | _, _ =>
    match s.inbound addr agent.sec (requestWrites op) with
    | .error e => abort e
    | .ok pa => serve pa

/-! What other packages send besides. -/

/-- A message for a rank here waits for its entry; true where it can be taken (R20, R307). -/
def State.messageReady (s : State) (team rank : Nat) : Bool := (s.rankHere team rank).isSome

def State.takeMessage (s : State) (pkg team sender rank ring : Nat) (data : CWord) : State :=
  match s.rankHere team rank, (s.team? team).bind fun t => t.tasks.find? (·.rank == rank) with
  | some a, some k =>
    s.arrive a ⟨a, 0, some (pkg, team, sender), some (k.ctx, ⟨ring % 4, by omega⟩), 0, data, 0xFFFFFFFF, false, none, none⟩
  | _, _ => s

/-- The notice that a SEND's word is placed, with which the SEND performs, or that its ring is not configured, with which the sender
stops (R307). -/
def State.takePlaced (s : State) (team rank : Nat) (ok : Bool) : State :=
  match (s.team? team).bind fun t => t.tasks.find? (·.rank == rank) with
  | none => s
  | some k => if ok then s.sendOver k.arr k.ctx else (s.sendOver k.arr k.ctx).askCtx k.arr k.ctx fDescr

/-- A word watched on another package has changed: the local entries on it are satisfied (R293). -/
def State.takeChanged (s : State) (pa : Nat) : State :=
  s.watchTab.foldl (fun u w =>
    if (((u.ctxOf w.arr w.ctx).watch[w.entry.toNat]'w.entry.isLt).pa == pa) then u.soon (.watchSatisfy w.arr w.ctx w.entry) else u) s

/-! Error records (R348, R362). -/

/-- The 64 bytes of a record. -/
def ErrRec.bytes (r : ErrRec) : List Byte :=
  let n := natToBytes
  n 8 r.seq ++ n 1 1 ++ n 1 0 ++ n 2 r.reason ++ n 1 r.src ++ n 1 r.sev ++ n 2 r.unit_ ++ n 8 r.cycle ++ n 8 r.addr ++ n 8 r.lo ++
    n 8 r.hi ++ n 2 r.queue ++ n 2 r.team ++ n 2 r.rank ++ n 2 r.asid ++ n 4 r.detail ++ n 2 r.node ++ n 1 r.fault ++ n 1 r.flags.toNat

/-- ERROR_RECORD_DELIVER (R362): the oldest waiting record of a function is written and vector 0 fires; with the ring full or
off it is dropped, and the next one written carries LOST. -/
def execErrorRecordDeliver (fn : FnId) (s : State) : Out :=
  let f := s.funcs[fn]
  match f.errs with
  | [] => .next s
  | r :: rest =>
    let n := 2 ^ f.eqlog2.toNat
    if decide (f.eqlog2.toNat < 6) || (f.eqtail - f.eqhead).toNat == n then
      .next (s.modFunc fn fun x => { x with errs := rest, lost := true })
    else
      let r1 := if f.lost then { r with flags := r.flags ||| 0x40 } else r
      let at_ := Config.hostBase + f.eqbase.toNat * 4096 + f.eqtail.toNat % n * 64
      let s1 := s.hardBytes at_ (bytesToNat r1.bytes) 64 0 true .nobody
      .next ((s1.modFunc fn fun x => { x with errs := rest, lost := false, eqtail := x.eqtail + 1 }).send (.msix fn 0))

end Sys2Proof.Machine
end

