-- ==== Sys2Proof/Machine/Power.lean ====
section
/-! DEFINITION. Power states (R370), suspend and resume (R371 to R373), package reset (R367, R374). -/

namespace Sys2Proof.Machine

/-! Quiet (R370). -/

/-- Every array has been free for 100 µs. -/
def State.quietDue (s : State) : Bool :=
  s.pstate == 0 && s.ready && s.susp.isNone && decide (s.busyAc + 100 * acPerUs ≤ s.now)

/-- QUIET_ENTRY (R370). -/
def execQuietEntry (s : State) : Out := .next (if s.quietDue then { s with pstate := 1 } else s)

/-- QUIET_EXIT (R370). -/
def execQuietExit (s : State) : Out := .next (if s.pstate = 1 then { s with pstate := 0, busyAc := s.now } else s)

/-! Suspend (R371). -/

/-- The address of REPORT: a 64 KiB area of sync kind. -/
def State.reportAt (s : State) (x : Queue) (dva : Nat) : Option Nat :=
  if dva % 65536 ≠ 0 ∨ 2 ^ 55 ≤ dva then none else
  match s.walk x.asid x.sec dva with
  | .error _ => none
  | .ok (e, big) => if leafKind e = 2 then some (leafPa e + dva % (if big then 2 ^ 29 else 65536)) else none

/-- SUSPEND (R371, R321): the checks, then admission stops and every placed team is asked to stop at its next NODE. -/
def execSuspend (q : QueueId) (card : List Byte) (s : State) : Out :=
  let x := s.queue q.val
  if !x.mgmt then .next (s.refuseCard q card 0x04)
  else match cardRegions card, s.reportAt x (cardNat card 16 8) with
  | some regions, some _ =>
    let s1 := s.enterCard q card regions
    let s2 := { s1 with teams := s1.teams.map fun t : Team =>
      if t.placed then { t with request := some none } else t }
    .next { s2 with
      pstate := 3
      susp := some
        { queue := q, seq := cardNat card 0 8, report := cardNat card 16 8, pod := cardNat card 24 1 == 1, step := 2
          stopped := 0, killed := 0, resuming := false, job := s2.jobNo } }
  | _, _ => .next (s.refuseCard q card 0x05)

/-- Every published segment is folded (step 3). -/
def State.allFolded (s : State) : Bool :=
  s.anns.isEmpty && s.carriedAnns.isEmpty && s.segs.isEmpty && s.folds.isEmpty && s.rings.all fun r => r.release.isNone

/-- Copies may make beats: not from step 5 of a suspend until the resume (R371, R372). -/
def State.copying (s : State) : Bool := match s.susp with | some x => x.resuming || decide (x.step < 5) | none => true

/-- L2 and Tarn are written to HBM (step 4). -/
def State.flushAll (s : State) : State := (s.lines.map (·.1)).foldl (fun (u : State) l => u.flushLine l) s

/-- The bytes of REPORT (R372). -/
def State.reportBytes (s : State) (x : Suspend) (status : Nat) : List Byte :=
  natToBytes 8 status ++ natToBytes 8 s.winNo ++ natToBytes 8 s.now ++ natToBytes 4 x.stopped ++ natToBytes 4 x.killed ++
    natToBytes 32 0 ++
    (s.chunks.map fun c => natToBytes 2 c.peer ++ natToBytes 6 0 ++ natToBytes 8 c.ackOut ++ natToBytes 8 c.applied ++ natToBytes 8 0).flatten

/-- Bytes that hardware writes at a physical address, line by line. -/
def State.hardLines (s : State) (pa : Nat) (bs : List Byte) (asid : BitVec 16) (sec : Bool) : State :=
  (linesOf pa bs.length).foldl (fun (u : State) l =>
    let lo := max pa (64 * l)
    let part := (bs.drop (lo - pa)).take (min (64 * l + 64) (pa + bs.length) - lo)
    u.hardBytes lo (bytesToNat part) part.length asid sec .nobody) s

/-- REPORT is written, in the world and for the ASID of its queue. -/
def State.writeReport (s : State) (x : Suspend) (bs : List Byte) : State :=
  let q := s.queue x.queue.val
  match s.reportAt q x.report with
  | none => s
  | some pa => s.hardLines pa bs q.asid q.sec

/-- What the retain image keeps of a log: its pointers, and of a bulk copy engine's or a host function's the unpublished part. The
pages of protected records that it no longer retains are noted (R110). -/
def State.retainRing (s : State) (r : Ring) : Ring :=
  let kept : Sparse (Option Record) := if r.slot < 128 then [] else
    (List.range (r.tail - r.pub)).foldl (fun m i => Sparse.set none m ((r.pub + i) % r.n) (r.recs.get none ((r.pub + i) % r.n))) []
  { r with
    recs := kept, seen := []
    guards := (r.lines s.named r.oldest r.pub).foldl (fun l ln => if (s.guardOf ln).isSome then insertNat (ln / 1024) l else l) r.guards }

/-- The retain image (R371, step 4). -/
def State.retainImage (s : State) : Retain :=
  { winNo := s.winNo, cycle := s.cycle, errSeq := s.errSeq, rings := s.rings.map s.retainRing, acquired := s.rings.map (fun r => (r.id, r.seen)), queues := s.queues, retPages := s.retPages
    quarL2 := s.quarL2, quarTarn := s.quarTarn, images := s.images.map fun m => (m.id, m.measure), ports := s.ports, chunks := s.chunks }

/-- A record of a log in the retain area. -/
def retainRec (r : Option Record) : List Byte := match r with | some k => recBytes k | none => []

/-- The bytes of the retain image; the layout is the model's own (assumption 75). -/
def Retain.bytes (r : Retain) : List Byte :=
  let n := natToBytes
  n 8 r.winNo ++ n 8 r.cycle.toNat ++ n 8 r.errSeq ++
  (r.queues.toList.map fun q => ((List.range 8).map fun k => n 8 (q.word k).toNat).flatten).flatten ++
  (r.images.map fun m => n 8 m.1 ++ n 64 m.2.toNat).flatten ++
  (r.retPages.map (n 8)).flatten ++ ((r.quarL2 ++ r.quarTarn).map fun e => n 2 e.1 ++ n 4 e.2.1 ++ n 2 e.2.2).flatten ++
  (r.rings.map fun g => n 8 g.id ++ n 8 g.tail ++ n 8 g.pub ++ n 8 g.fold ++ (g.recs.map fun e => retainRec e.2).flatten).flatten ++
  (r.acquired.map fun e => n 8 e.1 ++ (e.2.map fun p => n 8 p.1 ++ n 8 p.2).flatten).flatten ++
  (r.ports.toList.map fun p => n 2 p.txSeq.toNat ++ n 2 p.rxE.toNat).flatten ++
  (r.chunks.map fun c => n 8 c.peer ++ n 8 c.ackOut ++ n 8 c.applied).flatten

/-- The image is written into the retain area: the 64 MiB of the hidden area that follow the publication area (R52, R371). -/
def State.writeRetain (s : State) (r : Retain) : State :=
  { s with mem := Memory.store s.mem (s.visible + 4096) (r.bytes.take (2 ^ 26)), retain := some r }

/-- The package enters Retain (step 7): REPORT, reason 0x0080, the card's completion and vector 1. -/
def State.enterRetain (s : State) (x : Suspend) : State :=
  let s1 := (s.writeReport x (s.reportBytes x 1)).flushAll
  let s2 := (((s1.report (errRec 0x0080 7 0 0)).completeJob x.job false).send (.msix 0 1))
  { s2.writeRetain s2.retainImage with pstate := 2, ready := false }

/-- The suspend sequence makes what progress it can (R371). -/
def State.suspendTick (s : State) : State :=
  match s.susp with
  | none => s
  | some x =>
    let goto := fun (u : State) (n : Nat) => { u with susp := some { x with step := n } }
    if x.resuming then s
    else if x.step = 2 then (if s.teams.any (·.placed) then s else goto s 3)
    else if x.step = 3 then (if s.allFolded then goto s 4 else s)
    else if x.step = 4 then goto (s.flushAll.flushParts fun _ => true) 5
    else if x.step = 5 then
      if !s.asks.isEmpty then s else
      goto ((List.finRange 16).foldl (fun (u : State) p =>
        if (u.port p).up then (u.modPort p fun y => { y with quiesced := true }).send (.quiesce p) else u) s) 6
    else if x.step = 6 then
      (if x.pod && (List.finRange 16).any (fun p => (s.port p).up && !(s.port p).peerQuiet) then s else (goto s 7).enterRetain { x with step := 7 })
    else s

/-! Resume (R373). -/

/-- An array that has lost power keeps only its engines' queues, whose progress the retain image records (R372). -/
def Arr.afterRetain (x : Arr) : Arr := { ({} : Arr) with near := x.near, poolq := x.poolq }

/-- The machine as a package reset leaves it, with the boot status (R367, R374). What HBM, the host and the pool hold stands, with
its poison marks (assumption 33). -/
def State.afterReset (s : State) (boots : Nat) (status : Word) : State :=
  let marks : Sparse LineMeta := s.lines.filterMap fun e =>
    if e.2.poison || e.2.errHbm != 0 then some (e.1, { poison := e.2.poison, errHbm := e.2.errHbm }) else none
  { State.reset with
    mem := s.mem, lines := marks, draws := s.draws, inputs := s.inputs, outbox := s.outbox, carried := s.carried, cfg := s.cfg
    pkgNo := s.pkgNo, boots := boots, retired := s.cfg.retired, bootStatus := status, ready := status == 0 }

/-- The wake block leaves Retain: steps 1 to 5 of the resume; the links are down until they train again, each from its noted SEQ. A
boot that fails leaves the package in reset, with its reason in the boot status register (R367). -/
def State.wakeUp (s : State) : State :=
  match s.retain with
  | none => s
  | some r =>
    if s.pstate ≠ 2 then s else
    let boots := s.boots + 1
    if !Config.firmwareOk boots then s.afterReset boots 0x70
    else if !Config.recordOk boots then s.afterReset boots 0x71
    else
      let s1 : State := { s with
        boots := boots, bootStatus := 0, winNo := r.winNo, cycle := r.cycle, errSeq := r.errSeq
        rings := r.rings.map fun g : Ring => { g with seen := ((r.acquired.find? fun e => e.1 == g.id).map (·.2)).getD [] }, queues := r.queues
        retPages := r.retPages, quarL2 := r.quarL2, quarTarn := r.quarTarn, chunks := r.chunks, images := [], sealed := []
        ports := r.ports.map fun p : Port => { p with up := false, repairing := false, replaying := none, quiesced := false, peerQuiet := false }
        arrays := s.arrays.map Arr.afterRetain, watchTab := [], peerWatch := [], dieTc := Vector.replicate 4 [], walks := []
        pstate := 0, ready := true, busyAc := r.cycle.toNat
        susp := s.susp.map fun x : Suspend => { x with resuming := true, step := 5 } }
      if Config.hostNarrow boots then s1.report (errRec 0x0065 8 0 0) else s1

/-- The chunks that are not acknowledged are sent again (R372; R373, step 7). -/
def State.resendChunks (s : State) : State :=
  s.chunks.foldl (fun u c => c.unacked.foldl (fun v m => v.send (.chunk c.peer m)) u) s

/-- RETAIN_WAKE_DOORBELL (R373): a doorbell write to function 0. -/
def execRetainWakeDoorbell (s : State) : Out := .next s.wakeUp

/-- POWER_RETAIN_EXIT (R363, R373): answered with status 5 where the boot fails. -/
def execPowerRetainExit (fn : FnId) (s : State) : Out :=
  let u := s.wakeUp
  s.onlyFn0 fn (if s.pstate = 2 then
      .next ((u.modFunc fn fun x => { x with req := (s.funcs[fn]).req }).respond fn (if u.ready then 0 else 5) [])
    else .next (s.respond fn 3 []))

/-- A team that waits to be resumed. -/
def Team.waits (t : Team) : Bool := t.everPlaced && !t.placed && !t.dead && t.tasks.any (!·.ended)

/-- RESUME (R373, steps 6 and 7): each pre-empted team whose image is loaded is ready; the others are terminated. Chunks are sent
again. -/
def execResume (q : QueueId) (card : List Byte) (s : State) : Out :=
  let x := s.queue q.val
  if !x.mgmt then .next (s.refuseCard q card 0x04)
  else match cardRegions card, s.reportAt x (cardNat card 16 8) with
  | some regions, some _ =>
    let s1 := s.enterCard q card regions
    let gone := s1.teams.filter fun t => t.waits && (s1.image? t.image).isNone
    let s2 := gone.foldl (fun (u : State) (t : Team) =>
      (u.report { errRec 0x0083 5 2 0 with queue := t.queue.val, team := t.id, asid := t.asid.toNat }).terminateTeam t.id none) s1
    .next { s2.resendChunks with
      susp := some
        { queue := q, seq := cardNat card 0 8, report := cardNat card 16 8, pod := cardNat card 24 1 == 1, step := 6
          stopped := (s.susp.map (·.stopped)).getD 0, killed := (s.susp.map (·.killed)).getD 0, resuming := true, job := s2.jobNo } }
  | _, _ => .next (s.refuseCard q card 0x05)

/-- The RESUME card completes when every pre-empted team is placed or has failed: STATUS 2 and reason 0x0082. -/
def State.resumeTick (s : State) : State :=
  match s.susp with
  | none => s
  | some x =>
    if !x.resuming || decide (x.step < 6) || s.teams.any (·.waits) then s
    else
      let s1 := ((s.writeReport x (natToBytes 8 2)).report (errRec 0x0082 7 0 0)).completeJob x.job false
      { s1 with susp := none }

/-! Reset (R374). -/

/-- PACKAGE_RESET (R367, R374): secure boot; the record is applied; every cache invalid, every tag empty, every flag zero, W,
sr.cycle and PROG 0 and the error SEQ 1. What HBM, the host and the pool hold stands, with its poison marks (assumption 33). -/
def execPackageReset (s : State) : Out :=
  let boots := s.boots + 1
  let status : Word := if !Config.firmwareOk boots then 0x70 else if !Config.recordOk boots then 0x71 else 0
  let s1 := s.afterReset boots status
  .next (if status == 0 && Config.hostNarrow boots then s1.report (errRec 0x0065 8 0 0) else s1)

end Sys2Proof.Machine
end

