-- ==== Sys2Proof/Machine/HostPort.lean ====
section
/-! DEFINITION. The host port (R359 to R363): BAR0, the mailbox, and the host log window of BAR2. -/

namespace Sys2Proof.Machine

/-! BAR2 (R361, R78, R102). -/

/-- An access of a window, split at lines: DVA and bytes. -/
def linePieces (dva : Nat) (data : List Byte) : List (Nat × List Byte) :=
  let first := dva / 64
  let last := (dva + data.length - 1) / 64
  if data.isEmpty then [] else
  (List.range (last + 1 - first)).map fun i =>
    let lo := max dva (64 * (first + i))
    (lo, (data.drop (lo - dva)).take (min (64 * (first + i) + 64) (dva + data.length) - lo))

/-- The DVA of a window offset. -/
def State.windowDva (s : State) (fn : FnId) (off : Nat) : Nat := (s.funcs[fn]).wbase.toNat * 65536 + off

/-- Translate a host access in its function's world (R125, R361). -/
def State.hostAccess (s : State) (fn : FnId) (u : Use) (dva : Nat) : Except Nat Target × State :=
  if 2 ^ 55 ≤ dva then (.error fMalformed, s) else s.access (.host fn) (s.funcs[fn]).hasid (s.fnSecure fn) none u dva

/-- The record of a refused host access (R361); an abort has written its own (R15, R30, R347). -/
def State.hostFault (s : State) (fn : FnId) (dva : Nat) : State := s.report { errRec 0x0064 8 2 fn.val with addr := dva, asid := (s.funcs[fn]).hasid.toNat, flags := 0x10 }

/-- The host log has folded everything (R78). -/
def State.hostEmpty (s : State) (fn : FnId) : Bool :=
  match s.ring? (hostRing fn) with | some r => r.fold == r.tail | none => true

/-- The host log takes one more record: it is not full, and its unpublished part has not reached N - 1 (R73, R74, R78). -/
def State.hostRoom (s : State) (fn : FnId) : Bool :=
  match s.ring? (hostRing fn) with
  | some r => s.roomy r && decide (r.tail - r.pub + 1 ≤ r.n - 1)
  | none => true

/-- An owner has still to answer a function's access. -/
def State.hostAsks (s : State) (fn : FnId) : Bool := s.asks.any (·.who == .host fn)

/-- What holds back the next line of a posted write: a walk, a full host log, a sync write before the log is folded, a moving page,
an earlier write that its line's owner has still to take (R102). -/
def State.postedBlocked (s : State) (fn : FnId) (off : Nat) : Bool :=
  s.hostAsks fn || (s.funcs[fn]).hena &&
    match s.hostAccess fn .store (s.windowDva fn off) with
    | (.error c, _) => c == fWalking
    | (.ok t, _) => t.wp || (if t.kind.isLogged then !s.hostRoom fn else !(s.funcs[fn]).synced || !s.hostEmpty fn || s.hostBusy (t.pa / 64))

/-- What a held posted write sets going: its walk; the release before a sync write (R78); the forced publication of N - 1
unpublished records (R74). A full log only stalls (R73). -/
def State.postedKick (s : State) (fn : FnId) (off : Nat) : State :=
  if s.hostAsks fn || !(s.funcs[fn]).hena then s else
  match s.hostAccess fn .store (s.windowDva fn off), s.ring? (hostRing fn) with
  | (.error c, s1), _ => if c = fWalking then s1 else s
  | (.ok t, _), some r =>
    if t.wp || r.release.isSome then s
    else if t.kind.isLogged then
      (if r.n - 1 ≤ r.tail - r.pub then s.startRelease (hostRing fn) 5 false true false 0 else s)
    else if (s.funcs[fn]).synced && r.tail == r.pub then s
    else (s.hostRelease fn).modFunc fn fun f => { f with synced := true }
  | _, _ => s

/-- One line of a posted write, by page kind. -/
def State.postLine (s : State) (fn : FnId) (dva : Nat) (bs : List Byte) : State :=
  match s.hostAccess fn .store dva with
  | (.error _, s1) => if s1.errSeq = s.errSeq then s1.hostFault fn dva else s1
  | (.ok t, s1) =>
    let (d, m) := placeBytes (t.pa % 64) bs
    let asid := (s.funcs[fn]).hasid
    if t.kind.isLogged then (s1.appendFor (hostRing fn) (dataRecord (t.pa / 64) t.kind 0 m d false true) asid (s.fnSecure fn)).getD s1
    else if s1.ours (t.pa / 64) then s1.homeWrite (t.pa / 64) m d asid false
    else s1.request (.host fn) t.pa (.write m d) (s.fnSecure fn) asid

/-- A function that the configuration record enables; no request of another is one of a function here (R359). -/
def State.fnOn (s : State) (fn : FnId) : Bool := s.cfg.fnOn.getLsbD fn.val

/-- HOST_POSTED_WRITE (R361, R78): dropped with reason 0x0064 while the window is off or where it does not translate; appended to
the host log; or, on a sync line, written at home once the log is folded. A write longer than a line is made line by line, what
is left of it being the function's next input; one that is held back waits as it is. -/
def execHostPostedWrite (fn : FnId) (off : Nat) (data : List Byte) (s : State) : Out :=
  let dva := s.windowDva fn off
  let k := 64 - dva % 64
  if !s.fnOn fn then .next s
  else if !(s.funcs[fn]).hena then .next (s.hostFault fn dva)
  else if data.isEmpty then .next s
  else if s.postedBlocked fn off then .next { s with inputs := .event (.hostPostedWrite fn off data) :: s.inputs }
  else
    let s1 := s.postLine fn dva (data.take k)
    .next (if data.length ≤ k then s1.modFunc fn fun f => { f with synced := false } else { s1 with inputs := .event (.hostPostedWrite fn (off + k) (data.drop k)) :: s1.inputs })

/-- Read one line's bytes at home. -/
def State.readLine (s : State) (fn : FnId) (dva n : Nat) : Option (List Byte) × State :=
  match s.hostAccess fn .load dva with
  | (.error _, s1) => (none, s1)
  | (.ok t, s1) =>
    let (d, p, s2) := s1.homeRead (t.pa / 64) (s.funcs[fn]).hasid
    (if p then none else some (((lineBytes d).drop (t.pa % 64)).take n), s2)

/-- The first line of a read that cannot be read yet: it is walked for, or its owner has to be asked; and what then happens. -/
def State.readPends (s : State) (fn : FnId) (off n : Nat) : Option State :=
  if s.hostAsks fn then some s else
  if !(s.funcs[fn]).hena then none else
  (linePieces (s.windowDva fn off) (List.replicate n 0)).findSome? fun p =>
    match s.hostAccess fn .load p.1 with
    | (.error c, s1) => if c = fWalking then some s1 else none
    | (.ok t, s1) =>
      let l := t.pa / 64
      if s1.needsMend l then some ((s1.awaitMend l).getD s1)
      else if s1.hostBusy l then some s
      else if !s1.ours l && !s1.copyHere l then some (s1.request (.host fn) t.pa .read (s.fnSecure fn) (s.funcs[fn]).hasid)
      else none

/-- HOST_READ (R361, R102): the value at home, or an unsupported request with reason 0x0064. -/
def execHostRead (fn : FnId) (off n : Nat) (s : State) : Out :=
  let dva := s.windowDva fn off
  let bad := fun (u : State) => Host.Outcome.next ((u.hostFault fn dva).send (.readReply fn false []))
  if !s.fnOn fn then .next (s.send (.readReply fn false []))
  else if !(s.funcs[fn]).hena then bad s
  else if (s.readPends fn off n).isSome then .next { s with inputs := .event (.hostRead fn off n) :: s.inputs }
  else
    let r := (linePieces dva (List.replicate n 0)).foldl (fun (acc : Option (List Byte) × State) p =>
      match acc.1 with
      | none => acc
      | some l =>
        match acc.2.readLine fn p.1 p.2.length with
        | (none, u) => (none, u)
        | (some b, u) => (some (l ++ b), u)) (some [], s)
    match r with
    | (none, u) => if u.errSeq = s.errSeq then bad u else .next (u.send (.readReply fn false []))
    | (some l, u) => .next (u.send (.readReply fn true l))

/-! BAR0 (R360, R362, R363). -/

/-- The queue whose registers stand at a BAR0 offset, and which register, where the function owns it. -/
def State.barQueue (s : State) (fn : FnId) (off : Nat) : Option (QueueId × Nat) :=
  if h : 0x10000 ≤ off ∧ off < 0x11000 then
    let n : QueueId := ⟨(off - 0x10000) / 64, by omega⟩
    if (s.queue n.val).func = fn then some (n, off / 8 % 8) else none
  else none

def bytes8 (l : List Byte) : Word := BitVec.ofNat 64 (bytesToNat l)

/-- A 64-bit read of BAR0. -/
def State.barRead (s : State) (fn : FnId) (off : Nat) : Word :=
  let f := s.funcs[fn]
  match s.barQueue fn off with
  | some (n, r) => (s.queue n.val).word r
  | none =>
    if off = 0 then flagAt s.ready 0 ||| BitVec.ofNat 64 (s.pstate % 4 * 2) ||| flagAt (s.fnSecure fn) 3
    else if off = 0x10 then fieldAt f.wbase 16
    else if off = 0x18 then fieldAt f.hasid 0 ||| flagAt f.hena 16
    else if 0x20000 ≤ off ∧ off < 0x20100 then bytes8 (getBytes f.req (off - 0x20000) 8)
    else if 0x20100 ≤ off ∧ off < 0x20140 then bytes8 (getBytes f.resp (off - 0x20100) 8)
    else if off = 0x20148 then flagAt f.busy 0 ||| flagAt f.mbdone 1
    else if off = 0x30000 then fieldAt f.eqbase 12 ||| fieldAt f.eqlog2 0
    else if off = 0x30008 then fieldAt f.eqhead 0
    else if off = 0x30010 then fieldAt f.eqtail 0
    else if 0x40000 ≤ off ∧ off < 0x40420 then bytes8 (getBytes f.msix (off - 0x40000) 8)
    else 0

/-- A BAR0 read is answered, a function that is not enabled being an unsupported request (R359, R360). -/
def State.barReply (s : State) (fn : FnId) (off : Nat) : State :=
  s.send (if s.fnOn fn then .readReply fn true (natToBytes 8 (s.barRead fn off).toNat) else .readReply fn false [])

/-- REGISTER_WRITE (R6, R7, R312, R360 to R363): a BAR0 write of a register with no behaviour of its own sets its writable fields. -/
def execRegisterWrite (fn : FnId) (off : Nat) (value : Word) (s : State) : Out :=
  match s.barQueue fn off with
  | some (n, r) => .next (s.modQueue n.val fun x => x.write r value)
  | none => .next (s.modFunc fn fun f =>
    if off = 0x10 then { f with wbase := value.extractLsb' 16 39 }
    else if off = 0x18 then { f with hasid := value.extractLsb' 0 16, hena := value.getLsbD 16 }
    else if 0x20000 ≤ off ∧ off < 0x20100 then { f with req := putBytes f.req (off - 0x20000) (natToBytes 8 value.toNat) }
    else if off = 0x20148 then { f with mbdone := f.mbdone && !value.getLsbD 1 }
    else if off = 0x30000 then { f with eqbase := value.extractLsb' 12 40, eqlog2 := value.extractLsb' 0 4 }
    else if off = 0x30008 then { f with eqhead := value.extractLsb' 0 16 }
    else if 0x40000 ≤ off ∧ off < 0x40420 then { f with msix := putBytes f.msix (off - 0x40000) (natToBytes 8 value.toNat) }
    else f)

/-- MAILBOX_DOORBELL_IGNORED (R363): a write of MBDB while BUSY is set. -/
def execMailboxDoorbellIgnored (_fn : FnId) (s : State) : Out := .next s

/-- Operand `i` of the request (R363). -/
def State.operand (s : State) (fn : FnId) (i : Nat) : Nat := bytesToNat (getBytes (s.funcs[fn]).req (8 + 8 * i) 8)

/-- A command that takes one-bit operands: a value other than 0 or 1 fails the operand check. -/
def State.withBits (s : State) (fn : FnId) (l : List Nat) (k : Out) : Out :=
  if l.all (· ≤ 1) then k else .next (s.respond fn 3 [])

/-- The command of a request (R363, R105, R127 to R134, R313, R374); BUSY is set. -/
def State.command (s : State) (fn : FnId) : Out :=
  let code := bytesToNat (getBytes (s.funcs[fn]).req 0 2)
  let o := fun i => s.operand fn i
  let known := [0x0100, 0x0101, 0x0110, 0x0111, 0x0120, 0x0140, 0x0141, 0x0142, 0x0143, 0x0150, 0x0151, 0x0152, 0x0153, 0x0160, 0x0161,
    0x0162, 0x0170]
  if !known.contains code then .next (s.respond fn 1 [])
  else if getBytes (s.funcs[fn]).req 2 2 ≠ [1, 0] then .next (s.respond fn 2 [])
  else if code = 0x0100 then execReadReg fn (o 0) s
  else if code = 0x0170 && s.pstate == 2 then execPowerRetainExit fn s
  else if !s.ready then .next (s.respond fn 5 [])
  else match code with
  | 0x0101 => execWriteReg fn (o 0) (BitVec.ofNat 64 (o 1)) s
  | 0x0110 => s.withBits fn [o 2] (execImageLoad fn (o 0) (o 1) (o 2 == 1) s)
  | 0x0111 => execImageUnload fn (o 0) s
  | 0x0120 => execAttest fn (getBytes (s.funcs[fn]).req 8 32) (o 4) s
  | 0x0140 => execGroupRegister fn (o 0) (o 1) (o 2) (o 3) ((List.range (min (o 1) 16)).map fun i => o (4 + i)) s
  | 0x0141 => execGroupLeave fn (o 0) s
  | 0x0142 => execGroupDeclareLost fn (o 0) (o 1) s
  | 0x0143 => if o 3 % 65536 ≠ 0 then .next (s.respond fn 3 []) else execGroupRebuild fn (o 0) (o 1) (o 2) (o 3 / 65536) s
  | 0x0150 => s.withBits fn [o 3] (execShootdown fn (o 0) (o 1) (o 2) (o 3 == 1) s)
  | 0x0151 => execMigrate fn (o 0) (o 1) (o 2) s
  | 0x0152 => execPageReady fn (o 0) (o 1) s
  | 0x0153 => s.withBits fn [o 1] (execExtentRelease fn (o 0) (o 1 == 1) s)
  | 0x0160 => s.withBits fn [o 6, o 7]
      (execQueueCreate fn (o 0) (o 1) (o 2) (o 3) (o 4) (o 5) (o 6 == 1) (o 7 == 1) (o 8 % 256) (o 8 / 256 % 256) s)
  | 0x0161 => execQueueReset fn (o 0) s
  | 0x0162 => execQueueDestroy fn (o 0) s
  | _ => execPowerRetainExit fn s

/-- A BAR0 write of a function that is enabled. In Retain only a doorbell or the mailbox of function 0 is heard (R373). -/
def State.barWrite (s : State) (fn : FnId) (off : Nat) (value : Word) : Out :=
  if off % 8 ≠ 0 || !s.fnOn fn then .next s
  else match s.barQueue fn off with
  | some (n, 2) =>
    if s.pstate = 2 then (if fn = 0 then execRetainWakeDoorbell s else .next s)
    else execQueueDoorbell n (value.extractLsb' 0 16) s
  | _ =>
    if off = 0x20140 then
      if (s.funcs[fn]).busy then execMailboxDoorbellIgnored fn s
      else (s.modFunc fn fun f => { f with busy := true }).command fn
    else execRegisterWrite fn off value s

/-! Inputs. -/

/-- The source of an input: inputs of one source keep their order. -/
def Input.source : Input → Nat
  | .bar0Write fn _ _ | .bar0Read fn _ => 1 + fn.val
  | .event (.hostPostedWrite fn _ _) | .event (.hostRead fn _ _) => 1 + fn.val
  | .event (.chunkReceive src _ _ _ _) => 1024 + src.pkg
  | .event (.peerPackageRequest src _ _ _ _ _ _) => 3072 + src
  | .message pkg _ _ _ _ _ => 2048 + pkg
  | .outside _ _ => 4096
  | .lock pkg _ _ off _ => 2 ^ 40 + 512 * off + pkg
  | .arrived team _ _ _ rank => 8192 + 16384 * team + rank
  | _ => 0

/-- What holds an input back: R78 for posted writes, a walk or an owner's answer for a host access, a doorbell while the host log's
release is under way, a chunk or message for a rank that is not placed (R20), an arrival of a generation to come (R309), a write
of the host to a line that is held exclusive here, a lock of a parity line while a lost member's line is folded. -/
def State.inputBlocked (s : State) : Input → Bool
  | .event (.hostPostedWrite fn off _) => s.postedBlocked fn off
  | .event (.hostRead fn off n) => (s.readPends fn off n).isSome
  | .bar0Write fn off _ => s.hostAsks fn || match s.barQueue fn off with | some (_, 2) => s.releasing (hostRing fn) | _ => false
  | .event (.chunkReceive src _ rank r _) => s.chunkWaits src.pkg rank r.toNat
  | .message _ team _ rank _ _ => !s.messageReady team rank
  | .arrived team scope id gen _ => decide (s.genOf team scope 0 id < gen)
  | .outside pa data => (linesOf pa data.length).any s.exclusive
  | .lock _ pgid _ off on => on && s.lockWaits pgid off
  | _ => false

/-- The first input that can be taken, and those left: none of its source stands blocked before it. -/
def State.pickInput (s : State) (blocked : List Nat) : List Input → Option (Input × List Input)
  | [] => none
  | i :: t =>
    if !blocked.contains i.source && !s.inputBlocked i then some (i, t)
    else (State.pickInput s (i.source :: blocked) t).map fun p => (p.1, i :: p.2)

/-- A function's first host access that is held back sets going what it waits for. -/
def State.kickFn (s : State) (fn : FnId) : State :=
  match s.inputs.find? fun i => i.source == 1 + fn.val with
  | some (.event (.hostPostedWrite g off _)) => s.postedKick g off
  | some (.event (.hostRead g off n)) => (s.readPends g off n).getD s
  | _ => s

def State.kickInputs (s : State) : State :=
  if s.inputs.isEmpty then s else (List.finRange 8).foldl (fun (u : State) fn => u.kickFn fn) s

end Sys2Proof.Machine
end

