-- ==== Sys2Proof/Machine/Crossbar.lean ====
section
/-! DEFINITION. The die crossbars (R55 to R59). Arbitration is modelled whole; the packets are the traffic of the accesses that
perform, and hold none of them up (assumption 5). -/

namespace Sys2Proof.Machine

/-! Arbitration. -/

/-- The heads of the queues of each ingress for each egress, where what may not be presented is left out. -/
def headPackets : List Packet → List Packet → List Packet
  | [], acc => acc
  | p :: t, acc =>
    if acc.any fun q => q.ingress == p.ingress && q.egress == p.egress then headPackets t acc else headPackets t (acc ++ [p])

/-- The rank of a packet (R58). -/
def Packet.rank (p : Packet) : Nat := if p.age = 255 then 16 else p.prio

/-- How recently an egress granted an input: its place in the least-recently-granted order; an input that has not been granted
comes before all that have, in order of number. -/
def lrgPlace (order : List Nat) (input : Nat) : Nat :=
  match order.idxOf? input with
  | some i => 80 + i
  | none => input

/-- The winner among packets presented to one egress (R58). -/
def egressWinner (order : List Nat) : List Packet → Option Packet
  | [] => none
  | p :: t =>
    match egressWinner order t with
    | none => some p
    | some q =>
      if p.rank > q.rank ∨ (p.rank = q.rank ∧ lrgPlace order p.ingress < lrgPlace order q.ingress) then some p else some q

/-- The grant that an ingress accepts (R59): the highest rank, then the next egress in rotation after the last accepted. -/
def ingressChoice (last : Nat) : List Packet → Option Packet
  | [] => none
  | p :: t =>
    match ingressChoice last t with
    | none => some p
    | some q =>
      let turn := fun (e : Nat) => (e + 80 - last % 80) % 80
      if p.rank > q.rank ∨ (p.rank = q.rank ∧ turn p.egress < turn q.egress) then some p else some q

/-- The receive buffer of a packet: its egress and class (R56). -/
def Packet.buffer (p : Packet) : Nat := 2 * p.egress + if p.resp then 1 else 0

/-- The packet's class has a free entry at its egress. -/
def Xbar.free (x : Xbar) (d : Fin 4) (p : Packet) : Bool :=
  decide (Sparse.get 0 x.used p.buffer ≤ Config.bufferEntries d.val p.egress p.resp)

/-- The receivers take some of the packets that their buffers hold; how many in an ac is open (R56; assumption 5). -/
def State.drain (s : State) (d : Fin 4) : State :=
  (s.xbars[d]).used.foldl (fun u e =>
    let (k, v) := u.draw (e.2 + 1)
    { v with xbars := v.xbars.set d.val { v.xbars[d] with used := Sparse.set 0 v.xbars[d].used e.1 k } d.isLt }) s

/-- Packets that an ac of a crossbar grants: the head of each queue, or the first response in it where its requests have no free
entry, is presented if its class has one, each egress takes its highest, and each ingress
accepts one grant, whose packet reserves its entry (R56, R58, R59). A packet that lost to another at its egress ages. -/
def Xbar.arbitrate (x : Xbar) (d : Fin 4) : Xbar × List Packet :=
  let able := (headPackets (x.queue.filter fun p => p.resp || x.free d p) []).filter (x.free d)
  let egs := (able.map (·.egress)).foldl (fun l e => insertNat e l) []
  let grants := egs.filterMap fun e => egressWinner (Sparse.get [] x.order e) (able.filter (·.egress == e))
  let ins := (grants.map (·.ingress)).foldl (fun l e => insertNat e l) []
  let taken := ins.filterMap fun i => ingressChoice (Sparse.get 0 x.lastAcc i) (grants.filter (·.ingress == i))
  let gid := grants.map (·.id)
  let tid := taken.map (·.id)
  let aged := able.filter fun p => !gid.contains p.id
  ({ queue := (x.queue.filter fun p => !tid.contains p.id).map fun p =>
        if aged.any (·.id == p.id) then { p with age := min 255 (p.age + 1) } else p
     order := grants.foldl (fun m p =>
        Sparse.set [] m p.egress ((Sparse.get [] m p.egress).filter (· != p.ingress) ++ [p.ingress])) x.order
     lastAcc := taken.foldl (fun m p => Sparse.set 0 m p.ingress (p.egress + 1)) x.lastAcc
     used := taken.foldl (fun m p => Sparse.set 0 m p.buffer (Sparse.get 0 m p.buffer + 1)) x.used }, taken)

/-- One ac of a die's crossbar; what it lets pass goes on to the next one of its path, where it ages afresh. -/
def State.xbarDie (s : State) (d : Fin 4) : State :=
  if (s.xbars[d]).queue.isEmpty && (s.xbars[d]).used.isEmpty then s else
  let s1 := s.drain d
  let (x, taken) := (s1.xbars[d]).arbitrate d
  taken.foldl (fun u p => u.sendPacket p.onward p.prio p.bytes p.resp) { s1 with xbars := s1.xbars.set d.val x d.isLt }

/-- One ac of every crossbar. -/
def State.xbarTick (s : State) : State := (List.finRange 4).foldl (fun u d => u.xbarDie d) s

/-! Traffic (R57; assumption 5). -/

/-- The slice through which a record of a ring goes to its place in L2. -/
def Ring.slice (r : Ring) : Nat := r.die % 4 * 32 + r.tail % 32

/-- The record that a log takes travels to its die. -/
def State.appendTraffic (s : State) (ring die port prio : Nat) : State :=
  match s.ring? ring with
  | some r => s.traffic die port r.slice prio 96 0
  | none => s

/-- A copy reads a line of this kind through its issuer's view cache (R99). -/
def CopyJob.viewed (j : CopyJob) (e : BitVec 64) : Bool :=
  !j.bulk && !j.away && (match kindOf (leafKind e) with | some k => k.isLogged || k == .owned | none => false)

/-- The slice of a DVA of a copy, as it translates now; none for a source that the view cache holds or fetches. -/
def State.copySlice (s : State) (j : CopyJob) (dva : Nat) (source : Bool) : Option Nat :=
  match s.walk j.asid j.sec dva with
  | .ok (e, big) => if source && j.viewed e then none else some (homeSlice ((leafPa e + dva % (if big then 2 ^ 29 else 65536)) / 64))
  | .error _ => none

/-- A source line that the job's beat has still to read. -/
def CopyJob.missing (j : CopyJob) : Option Nat :=
  (List.range (j.beatEnd - j.col)).findSome? fun i =>
    match (j.source j.row (j.col + i)).1 with
    | .inr a => if j.srcBuf.any (·.1 == a / j.unitSize) then none else some a
    | .inl _ => none

/-- The packets of a copy's beat: a source line is read, or the destination written, by way of the log where it is logged, of the
network interface where it is another array's store. -/
def State.copyTraffic (s : State) (e : Nat) (j : CopyJob) : State :=
  let prio := s.copyPrio j
  let die := if j.bulk then (e - 32) / 2 % 4 else ArrId.die j.arr
  let port := fun (write : Bool) => if j.bulk then portBce e write else portArray j.arr (if write then 2 else 1)
  match j.missing with
  | some a =>
    if j.srcAs then s else
    match s.copySlice j a true with
    | some sl => s.traffic die (port false) sl prio 0 64
    | none => s
  | none =>
    if j.dspace = 2 then
      match s.peer (s.issuer j).team.toNat j.gb with
      | .here b _ => if b = j.arr then s else s.sendPacket (xpath die (portArray j.arr 3) (ArrId.die b) (portArray b 3) s.packetNo) prio 32 false
      | _ => s
    else if j.dspace = 1 then s
    else match s.walk j.asid j.sec (j.dest j.row j.col) with
      | .error _ => s
      | .ok (l, _) =>
        match kindOf (leafKind l), s.copySlice j (j.dest j.row j.col) false with
        | some k, some sl =>
          if k.isLogged && j.op != 0x24 then s.appendTraffic (s.copyRing e j) die (port true) prio else s.traffic die (port true) sl prio 64 0
        | _, _ => s

/-- The packets of the head of a context's queue; what the view cache fetches or writes back it asks for itself
(`State.viewTraffic`). -/
def State.queueTraffic (s : State) (a : ArrId) (x : Ctx) (e : QEntry) : State :=
  let prio := (s.queue x.queue).prio.toNat
  let line := s.traffic (ArrId.die a) (portArray a 0) (homeSlice (e.pa / 64)) prio
  let viewed := e.kind.isLogged || e.kind == .owned
  match e.op with
  | .ld | .lds | .prf => if viewed then s else line 0 64
  | .mon => line 0 64
  | .st | .logst => if viewed then s else line 64 0
  | .atomic | .reduce => line 16 8
  | .send =>
    match s.peer x.team.toNat (BitVec.ofNat 64 e.dva) with
    | .here b _ => s.sendPacket (xpath (ArrId.die a) (portArray a 3) (ArrId.die b) (portArray b 3) s.packetNo) prio 32 false
    | _ => s
  | _ => s

/-- Traffic of the base controller with every array: a shoot-down (R127). -/
def State.shootTraffic (s : State) : State :=
  (List.finRange 32).foldl (fun (u : State) a =>
    (u.sendPacket (xpath 0 portBase (ArrId.die a) (portArray a 0) u.packetNo) 15 32 false).sendPacket
      (xpath (ArrId.die a) (portArray a 0) 0 portBase u.packetNo) 15 0 true) s

/-- The packets of a step: of contexts and copies at their queue's priority, of fold engines, parity, shoot-downs, the Gander relay
and the base controller at 15; a card read at its queue's priority and host accesses at 0, of which R57 says nothing (assumption 5). -/
def State.trafficOf (s : State) : Instr → State
  | .queuePerform a c store =>
    let x := s.ctxOf a c
    match (if store then x.storeTurn else x.loadQ.head?) with
    | some e => s.queueTraffic a x e
    | none => s
  | .logBufferEntryAppend a c =>
    s.appendTraffic (s.ctxOf a c).ring (ArrId.die a) (portArray a 2) (s.queue (s.ctxOf a c).queue).prio.toNat
  | .copyBeat e pool =>
    match s.copyQ e pool with
    | j :: _ => s.copyTraffic e j
    | [] => s
  | .foldSegment slice => s.sendPacket (xpath (slice.val / 32) (portSlice slice.val) 0 portBase s.packetNo) 15 8 false
  | .parityDeltaReceive pgid _ _ _ _ off _ =>
    match s.groupWindow pgid with
    | some w => s.traffic 0 portBase (homeSlice ((w.base.toNat * 65536 + off) / 64)) 15 64 0
    | none => s
  | .stampReceive slot =>
    if 128 ≤ slot then s else s.sendPacket (xpath 0 portBase (slot / 32) (slot % 32 / 4 * 4 + 2) s.packetNo) 15 16 false
  | .logTrackerAdvance ring =>
    match (s.ring? ring).bind s.pubAddr with
    | some pa => s.traffic 0 portBase (homeSlice (pa / 64)) 15 16 0
    | none => s
  | .shootdownAck => s.shootTraffic
  | .cardAdmit q =>
    let x := s.queue q.val
    s.traffic 0 portScheduler (homeSlice (x.base.toNat * 4 + x.head.toNat % 2 ^ x.log2e.toNat * 4)) x.prio.toNat 0 64
  | .hostPostedWrite fn off _ =>
    match s.hostAccess fn .store (s.windowDva fn off) with
    | (.ok t, _) => s.traffic 0 (portHost true) (homeSlice (t.pa / 64)) 0 64 0
    | _ => s
  | .hostRead fn off _ =>
    match s.hostAccess fn .load (s.windowDva fn off) with
    | (.ok t, _) => s.traffic 0 (portHost false) (homeSlice (t.pa / 64)) 0 0 64
    | _ => s
  | _ => s

end Sys2Proof.Machine
end

