-- ==== Sys2Proof/Machine/Dispatch.lean ====
section
/-! DEFINITION. One arm per instruction and step of the part, each one call of its meaning. -/

namespace Sys2Proof.Machine

def exec (i : Instr) (s : State) : Host.Outcome State Fault Refusal :=
  match i with
  | .nop => Sys2Proof.Machine.execNop s
  | .add gd ga gb => Sys2Proof.Machine.execAdd gd ga gb s
  | .sub gd ga gb => Sys2Proof.Machine.execSub gd ga gb s
  | .mul gd ga gb => Sys2Proof.Machine.execMul gd ga gb s
  | .mulh gd ga gb => Sys2Proof.Machine.execMulh gd ga gb s
  | .mulhu gd ga gb => Sys2Proof.Machine.execMulhu gd ga gb s
  | .and gd ga gb => Sys2Proof.Machine.execAnd gd ga gb s
  | .or gd ga gb => Sys2Proof.Machine.execOr gd ga gb s
  | .xor gd ga gb => Sys2Proof.Machine.execXor gd ga gb s
  | .shl gd ga gb => Sys2Proof.Machine.execShl gd ga gb s
  | .shr gd ga gb => Sys2Proof.Machine.execShr gd ga gb s
  | .sra gd ga gb => Sys2Proof.Machine.execSra gd ga gb s
  | .min gd ga gb => Sys2Proof.Machine.execMin gd ga gb s
  | .max gd ga gb => Sys2Proof.Machine.execMax gd ga gb s
  | .minu gd ga gb => Sys2Proof.Machine.execMinu gd ga gb s
  | .maxu gd ga gb => Sys2Proof.Machine.execMaxu gd ga gb s
  | .seq gd ga gb => Sys2Proof.Machine.execSeq gd ga gb s
  | .slt gd ga gb => Sys2Proof.Machine.execSlt gd ga gb s
  | .sltu gd ga gb => Sys2Proof.Machine.execSltu gd ga gb s
  | .clz gd ga => Sys2Proof.Machine.execClz gd ga s
  | .popc gd ga => Sys2Proof.Machine.execPopc gd ga s
  | .divu gd ga gb => Sys2Proof.Machine.execDivu gd ga gb s
  | .divs gd ga gb => Sys2Proof.Machine.execDivs gd ga gb s
  | .remu gd ga gb => Sys2Proof.Machine.execRemu gd ga gb s
  | .rems gd ga gb => Sys2Proof.Machine.execRems gd ga gb s
  | .addi gd ga imm => Sys2Proof.Machine.execAddi gd ga imm s
  | .andi gd ga imm => Sys2Proof.Machine.execAndi gd ga imm s
  | .ori gd ga imm => Sys2Proof.Machine.execOri gd ga imm s
  | .xori gd ga imm => Sys2Proof.Machine.execXori gd ga imm s
  | .shli gd ga sh => Sys2Proof.Machine.execShli gd ga sh s
  | .shri gd ga sh => Sys2Proof.Machine.execShri gd ga sh s
  | .srai gd ga sh => Sys2Proof.Machine.execSrai gd ga sh s
  | .li gd imm => Sys2Proof.Machine.execLi gd imm s
  | .lik gd idx => Sys2Proof.Machine.execLik gd idx s
  | .slti gd ga imm => Sys2Proof.Machine.execSlti gd ga imm s
  | .sltiu gd ga imm => Sys2Proof.Machine.execSltiu gd ga imm s
  | .beq ga gb off => Sys2Proof.Machine.execBeq ga gb off s
  | .bne ga gb off => Sys2Proof.Machine.execBne ga gb off s
  | .blt ga gb off => Sys2Proof.Machine.execBlt ga gb off s
  | .bge ga gb off => Sys2Proof.Machine.execBge ga gb off s
  | .bltu ga gb off => Sys2Proof.Machine.execBltu ga gb off s
  | .bgeu ga gb off => Sys2Proof.Machine.execBgeu ga gb off s
  | .bfs f off => Sys2Proof.Machine.execBfs f off s
  | .bfc f off => Sys2Proof.Machine.execBfc f off s
  | .baf ga agg inv off => Sys2Proof.Machine.execBaf ga agg inv off s
  | .jmp off => Sys2Proof.Machine.execJmp off s
  | .call off => Sys2Proof.Machine.execCall off s
  | .ret => Sys2Proof.Machine.execRet s
  | .jr ga => Sys2Proof.Machine.execJr ga s
  | .loop ga off => Sys2Proof.Machine.execLoop ga off s
  | .mloop gcount iim1 stm1 bodym1 => Sys2Proof.Machine.execMloop gcount iim1 stm1 bodym1 s
  | .lbrk => Sys2Proof.Machine.execLbrk s
  | .fset f => Sys2Proof.Machine.execFset f s
  | .fclr f => Sys2Proof.Machine.execFclr f s
  | .fmov fd fs => Sys2Proof.Machine.execFmov fd fs s
  | .fget gd => Sys2Proof.Machine.execFget gd s
  | .selc sp ga => Sys2Proof.Machine.execSelc sp ga s
  | .selr sp ga => Sys2Proof.Machine.execSelr sp ga s
  | .selk sp skew origin => Sys2Proof.Machine.execSelk sp skew origin s
  | .selg sp ga gb => Sys2Proof.Machine.execSelg sp ga gb s
  | .wait ga imm => Sys2Proof.Machine.execWait ga imm s
  | .yield => Sys2Proof.Machine.execYield s
  | .node idx => Sys2Proof.Machine.execNode idx s
  | .ckpt => Sys2Proof.Machine.execCkpt s
  | .trap code => Sys2Proof.Machine.execTrap code s
  | .rdsr gd sr => Sys2Proof.Machine.execRdsr gd sr s
  | .wrsr ga sr => Sys2Proof.Machine.execWrsr ga sr s
  | .lease => Sys2Proof.Machine.execLease s
  | .unlease => Sys2Proof.Machine.execUnlease s
  | .kats ga => Sys2Proof.Machine.execKats ga s
  | .endt => Sys2Proof.Machine.execEndt s
  | .vadd dst a b sp ty => Sys2Proof.Machine.execVadd dst a b sp ty s
  | .vsub dst a b sp ty => Sys2Proof.Machine.execVsub dst a b sp ty s
  | .vmul dst a b sp ty => Sys2Proof.Machine.execVmul dst a b sp ty s
  | .vfma dst a b sp ty => Sys2Proof.Machine.execVfma dst a b sp ty s
  | .vfms dst a b sp ty => Sys2Proof.Machine.execVfms dst a b sp ty s
  | .vmin dst a b sp ty => Sys2Proof.Machine.execVmin dst a b sp ty s
  | .vmax dst a b sp ty => Sys2Proof.Machine.execVmax dst a b sp ty s
  | .vabs dst a b sp ty => Sys2Proof.Machine.execVabs dst a b sp ty s
  | .vneg dst a b sp ty => Sys2Proof.Machine.execVneg dst a b sp ty s
  | .vcmpeq dst a b sp ty => Sys2Proof.Machine.execVcmpeq dst a b sp ty s
  | .vcmplt dst a b sp ty => Sys2Proof.Machine.execVcmplt dst a b sp ty s
  | .vcmple dst a b sp ty => Sys2Proof.Machine.execVcmple dst a b sp ty s
  | .vsel dst a b sp ty => Sys2Proof.Machine.execVsel dst a b sp ty s
  | .vrcp dst a b sp ty => Sys2Proof.Machine.execVrcp dst a b sp ty s
  | .vrsq dst a b sp ty => Sys2Proof.Machine.execVrsq dst a b sp ty s
  | .vexp2 dst a b sp ty => Sys2Proof.Machine.execVexp2 dst a b sp ty s
  | .vlog2 dst a b sp ty => Sys2Proof.Machine.execVlog2 dst a b sp ty s
  | .vtanh dst a b sp ty => Sys2Proof.Machine.execVtanh dst a b sp ty s
  | .vcvt dst a conv part sp => Sys2Proof.Machine.execVcvt dst a conv part sp s
  | .viadd dst a b sp => Sys2Proof.Machine.execViadd dst a b sp s
  | .visub dst a b sp => Sys2Proof.Machine.execVisub dst a b sp s
  | .vimul dst a b sp => Sys2Proof.Machine.execVimul dst a b sp s
  | .vand dst a b sp => Sys2Proof.Machine.execVand dst a b sp s
  | .vor dst a b sp => Sys2Proof.Machine.execVor dst a b sp s
  | .vxor dst a b sp => Sys2Proof.Machine.execVxor dst a b sp s
  | .vshl dst a b sp => Sys2Proof.Machine.execVshl dst a b sp s
  | .vshr dst a b sp => Sys2Proof.Machine.execVshr dst a b sp s
  | .vsra dst a b sp => Sys2Proof.Machine.execVsra dst a b sp s
  | .vicmpeq dst a b sp => Sys2Proof.Machine.execVicmpeq dst a b sp s
  | .vicmplt dst a b sp => Sys2Proof.Machine.execVicmplt dst a b sp s
  | .vmov dst a b sp ty => Sys2Proof.Machine.execVmov dst a b sp ty s
  | .vbcl dst a b sp ty => Sys2Proof.Machine.execVbcl dst a b sp ty s
  | .vperm dst a b sp ty => Sys2Proof.Machine.execVperm dst a b sp ty s
  | .vrsum dst a b sp ty => Sys2Proof.Machine.execVrsum dst a b sp ty s
  | .vrmax dst a b sp ty => Sys2Proof.Machine.execVrmax dst a b sp ty s
  | .vmacf dst a b sp ty => Sys2Proof.Machine.execVmacf dst a b sp ty s
  | .mma a shift commit part latch cl zp sp ty => Sys2Proof.Machine.execMma a shift commit part latch cl zp sp ty s
  | .wld part a latch sp => Sys2Proof.Machine.execWld part a latch sp s
  | .wrd dst part latch sp => Sys2Proof.Machine.execWrd dst part latch sp s
  | .katc ty => Sys2Proof.Machine.execKatc ty s
  | .wfeed fd cd ftag ctag => Sys2Proof.Machine.execWfeed fd cd ftag ctag s
  | .dfeed fd cd ftag ctag pt pd => Sys2Proof.Machine.execDfeed fd cd ftag ctag pt pd s
  | .wfeedg fd cd ftag ctag iv => Sys2Proof.Machine.execWfeedg fd cd ftag ctag iv s
  | .wfeedt fd cd ftag ctag th => Sys2Proof.Machine.execWfeedt fd cd ftag ctag th s
  | .npush fd cd ftag ctag pt => Sys2Proof.Machine.execNpush fd cd ftag ctag pt s
  | .spull cd ctag => Sys2Proof.Machine.execSpull cd ctag s
  | .epull cd ctag => Sys2Proof.Machine.execEpull cd ctag s
  | .eaclr ga cntm1 first => Sys2Proof.Machine.execEaclr ga cntm1 first s
  | .eadrain cd ctag ga cntm1 first => Sys2Proof.Machine.execEadrain cd ctag ga cntm1 first s
  | .fdset fd ga imm => Sys2Proof.Machine.execFdset fd ga imm s
  | .cdset cd ga imm => Sys2Proof.Machine.execCdset cd ga imm s
  | .ivld iv ga imm => Sys2Proof.Machine.execIvld iv ga imm s
  | .etag full ga gb => Sys2Proof.Machine.execEtag full ga gb s
  | .etest f ga => Sys2Proof.Machine.execEtest f ga s
  | .ld gd ga size cls disp => Sys2Proof.Machine.execLd gd ga size cls disp s
  | .lds gd ga size order scope => Sys2Proof.Machine.execLds gd ga size order scope s
  | .st gs ga size cls disp => Sys2Proof.Machine.execSt gs ga size cls disp s
  | .asld gd ga size mode disp => Sys2Proof.Machine.execAsld gd ga size mode disp s
  | .asst gs ga size mode disp => Sys2Proof.Machine.execAsst gs ga size mode disp s
  | .prf ga disp => Sys2Proof.Machine.execPrf ga disp s
  | .logst gs ga size cls disp => Sys2Proof.Machine.execLogst gs ga size cls disp s
  | .rel scope => Sys2Proof.Machine.execRel scope s
  | .acq ga scope => Sys2Proof.Machine.execAcq ga scope s
  | .relsv => Sys2Proof.Machine.execRelsv s
  | .fence scope => Sys2Proof.Machine.execFence scope s
  | .fencesc scope => Sys2Proof.Machine.execFencesc scope s
  | .qsync => Sys2Proof.Machine.execQsync s
  | .vcinv ga => Sys2Proof.Machine.execVcinv ga s
  | .aadd gd ga gb size order scope => Sys2Proof.Machine.execAadd gd ga gb size order scope s
  | .afadd gd ga gb order scope => Sys2Proof.Machine.execAfadd gd ga gb order scope s
  | .aand gd ga gb size order scope => Sys2Proof.Machine.execAand gd ga gb size order scope s
  | .aor gd ga gb size order scope => Sys2Proof.Machine.execAor gd ga gb size order scope s
  | .axor gd ga gb size order scope => Sys2Proof.Machine.execAxor gd ga gb size order scope s
  | .amin gd ga gb size order scope => Sys2Proof.Machine.execAmin gd ga gb size order scope s
  | .amax gd ga gb size order scope => Sys2Proof.Machine.execAmax gd ga gb size order scope s
  | .aminu gd ga gb size order scope => Sys2Proof.Machine.execAminu gd ga gb size order scope s
  | .amaxu gd ga gb size order scope => Sys2Proof.Machine.execAmaxu gd ga gb size order scope s
  | .aswp gd ga gb size order scope => Sys2Proof.Machine.execAswp gd ga gb size order scope s
  | .acas gd ga gb size order scope => Sys2Proof.Machine.execAcas gd ga gb size order scope s
  | .mon ga size entry => Sys2Proof.Machine.execMon ga size entry s
  | .mwait gd ga order scope => Sys2Proof.Machine.execMwait gd ga order scope s
  | .tdesc ga th => Sys2Proof.Machine.execTdesc ga th s
  | .cpy gd ga gb th => Sys2Proof.Machine.execCpy gd ga gb th s
  | .cpys gd ga gb th => Sys2Proof.Machine.execCpys gd ga gb th s
  | .cpyg gd ga gb th stamp => Sys2Proof.Machine.execCpyg gd ga gb th stamp s
  | .cpyr gd ga gb th bf16 => Sys2Proof.Machine.execCpyr gd ga gb th bf16 s
  | .cpyx gd ga gb th => Sys2Proof.Machine.execCpyx gd ga gb th s
  | .send ga gb ring => Sys2Proof.Machine.execSend ga gb ring s
  | .rcv gd ring => Sys2Proof.Machine.execRcv gd ring s
  | .bara id scope => Sys2Proof.Machine.execBara id scope s
  | .barw id scope => Sys2Proof.Machine.execBarw id scope s
  | .bar id scope => Sys2Proof.Machine.execBar id scope s
  | .residueRepresent a c => Sys2Proof.Machine.execResidueRepresent a c s
  | .contextSwitch a => Sys2Proof.Machine.execContextSwitch a s
  | .bundleCountExpire a => Sys2Proof.Machine.execBundleCountExpire a s
  | .sequencerWake a => Sys2Proof.Machine.execSequencerWake a s
  | .leaseQuantumEnd a => Sys2Proof.Machine.execLeaseQuantumEnd a s
  | .divideResult a => Sys2Proof.Machine.execDivideResult a s
  | .loopBackEdge a c => Sys2Proof.Machine.execLoopBackEdge a c s
  | .mloopPresentation a c => Sys2Proof.Machine.execMloopPresentation a c s
  | .waitDeadline a c => Sys2Proof.Machine.execWaitDeadline a c s
  | .cOpRowExecute a op row => Sys2Proof.Machine.execCOpRowExecute a op row s
  | .slowResultWrite a op row => Sys2Proof.Machine.execSlowResultWrite a op row s
  | .katcCheck a op => Sys2Proof.Machine.execKatcCheck a op s
  | .feedStage a c => Sys2Proof.Machine.execFeedStage a c s
  | .southCapture a op => Sys2Proof.Machine.execSouthCapture a op s
  | .eastCapture a op row => Sys2Proof.Machine.execEastCapture a op row s
  | .collectorWrite a c => Sys2Proof.Machine.execCollectorWrite a c s
  | .asBankAccess a bank => Sys2Proof.Machine.execAsBankAccess a bank s
  | .tagWaiterRetry a word => Sys2Proof.Machine.execTagWaiterRetry a word s
  | .queuePerform a c store => Sys2Proof.Machine.execQueuePerform a c store s
  | .logBufferEntryAppend a c => Sys2Proof.Machine.execLogBufferEntryAppend a c s
  | .appendStallEnd a c => Sys2Proof.Machine.execAppendStallEnd a c s
  | .packageWindowClose => Sys2Proof.Machine.execPackageWindowClose s
  | .stampReceive slot => Sys2Proof.Machine.execStampReceive slot s
  | .foldSegment slice => Sys2Proof.Machine.execFoldSegment slice s
  | .peerRecordReceive src tag rec => Sys2Proof.Machine.execPeerRecordReceive src tag rec s
  | .peerRecordAck tag outOfRange => Sys2Proof.Machine.execPeerRecordAck tag outOfRange s
  | .logTrackerAdvance ring => Sys2Proof.Machine.execLogTrackerAdvance ring s
  | .watchSatisfy a c entry => Sys2Proof.Machine.execWatchSatisfy a c entry s
  | .mwaitDeadline a c => Sys2Proof.Machine.execMwaitDeadline a c s
  | .copyBeat engine pool => Sys2Proof.Machine.execCopyBeat engine pool s
  | .copyComplete engine pool => Sys2Proof.Machine.execCopyComplete engine pool s
  | .messagePlace a => Sys2Proof.Machine.execMessagePlace a s
  | .barrierComplete idx => Sys2Proof.Machine.execBarrierComplete idx s
  | .peerEntryValid team larr => Sys2Proof.Machine.execPeerEntryValid team larr s
  | .contextFatalFault a c => Sys2Proof.Machine.execContextFatalFault a c s
  | .terminationNoticeReceive team => Sys2Proof.Machine.execTerminationNoticeReceive team s
  | .pageRequestFault a c => Sys2Proof.Machine.execPageRequestFault a c s
  | .dataErrorTake a c => Sys2Proof.Machine.execDataErrorTake a c s
  | .segmentEndSignature a c => Sys2Proof.Machine.execSegmentEndSignature a c s
  | .suspectNoticeReceive pkg arr lo hi => Sys2Proof.Machine.execSuspectNoticeReceive pkg arr lo hi s
  | .relaunchNoticeReceive team => Sys2Proof.Machine.execRelaunchNoticeReceive team s
  | .selfTest a pass => Sys2Proof.Machine.execSelfTest a pass s
  | .uncorrectableRead line level => Sys2Proof.Machine.execUncorrectableRead line level s
  | .dirtyLineError line level => Sys2Proof.Machine.execDirtyLineError line level s
  | .parityDeltaReceive pgid src slice rot seq offset delta => Sys2Proof.Machine.execParityDeltaReceive pgid src slice rot seq offset delta s
  | .parityAckReceive holder slice rot seq => Sys2Proof.Machine.execParityAckReceive holder slice rot seq s
  | .heartbeatSend => Sys2Proof.Machine.execHeartbeatSend s
  | .heartbeatTimeout pgid member => Sys2Proof.Machine.execHeartbeatTimeout pgid member s
  | .heartbeatReceive pgid member => Sys2Proof.Machine.execHeartbeatReceive pgid member s
  | .lossNoticeReceive pgid notice => Sys2Proof.Machine.execLossNoticeReceive pgid notice s
  | .degradedRead line => Sys2Proof.Machine.execDegradedRead line s
  | .rebuildStripe pgid => Sys2Proof.Machine.execRebuildStripe pgid s
  | .scrubCountSample channel ce ue => Sys2Proof.Machine.execScrubCountSample channel ce ue s
  | .channelRetire => Sys2Proof.Machine.execChannelRetire s
  | .groupRegister fn pgid n q k members => Sys2Proof.Machine.execGroupRegister fn pgid n q k members s
  | .groupLeave fn pgid => Sys2Proof.Machine.execGroupLeave fn pgid s
  | .groupDeclareLost fn pgid member => Sys2Proof.Machine.execGroupDeclareLost fn pgid member s
  | .groupRebuild fn pgid member target base => Sys2Proof.Machine.execGroupRebuild fn pgid member target base s
  | .shootdown fn asid dva count all => Sys2Proof.Machine.execShootdown fn asid dva count all s
  | .shootdownAck => Sys2Proof.Machine.execShootdownAck s
  | .migrate fn asid dva pa => Sys2Proof.Machine.execMigrate fn asid dva pa s
  | .pageReady fn asid dva => Sys2Proof.Machine.execPageReady fn asid dva s
  | .extentRelease fn extent forced => Sys2Proof.Machine.execExtentRelease fn extent forced s
  | .poolExtentAdd n base limit => Sys2Proof.Machine.execPoolExtentAdd n base limit s
  | .queueCreate fn q base log2e prio asid owner world mgmt vmaj vmin => Sys2Proof.Machine.execQueueCreate fn q base log2e prio asid owner world mgmt vmaj vmin s
  | .queueReset fn q => Sys2Proof.Machine.execQueueReset fn q s
  | .queueDestroy fn q => Sys2Proof.Machine.execQueueDestroy fn q s
  | .readReg fn addr => Sys2Proof.Machine.execReadReg fn addr s
  | .writeReg fn addr value => Sys2Proof.Machine.execWriteReg fn addr value s
  | .imageLoad fn pa len world => Sys2Proof.Machine.execImageLoad fn pa len world s
  | .imageUnload fn id => Sys2Proof.Machine.execImageUnload fn id s
  | .attest fn nonce buf => Sys2Proof.Machine.execAttest fn nonce buf s
  | .powerRetainExit fn => Sys2Proof.Machine.execPowerRetainExit fn s
  | .formatWindowEnable n => Sys2Proof.Machine.execFormatWindowEnable n s
  | .formatWindowDisable n => Sys2Proof.Machine.execFormatWindowDisable n s
  | .protectionWindowEnable n => Sys2Proof.Machine.execProtectionWindowEnable n s
  | .secureRegionTableWrite byBase n limitReg value => Sys2Proof.Machine.execSecureRegionTableWrite byBase n limitReg value s
  | .einjArm value secure => Sys2Proof.Machine.execEinjArm value secure s
  | .einjPlace => Sys2Proof.Machine.execEinjPlace s
  | .registerWrite fn off value => Sys2Proof.Machine.execRegisterWrite fn off value s
  | .queueDoorbell q tail => Sys2Proof.Machine.execQueueDoorbell q tail s
  | .mailboxDoorbellIgnored fn => Sys2Proof.Machine.execMailboxDoorbellIgnored fn s
  | .cardAdmit q => Sys2Proof.Machine.execCardAdmit q s
  | .launch q card => Sys2Proof.Machine.execLaunch q card s
  | .copy q card => Sys2Proof.Machine.execCopy q card s
  | .waitstamp q card => Sys2Proof.Machine.execWaitstamp q card s
  | .waitstampSatisfied q => Sys2Proof.Machine.execWaitstampSatisfied q s
  | .signal q card => Sys2Proof.Machine.execSignal q card s
  | .fenceCard q card => Sys2Proof.Machine.execFenceCard q card s
  | .suspend q card => Sys2Proof.Machine.execSuspend q card s
  | .resume q card => Sys2Proof.Machine.execResume q card s
  | .jobReady job => Sys2Proof.Machine.execJobReady job s
  | .jobAgeStep job => Sys2Proof.Machine.execJobAgeStep job s
  | .jobPromote job => Sys2Proof.Machine.execJobPromote job s
  | .gangPlace job => Sys2Proof.Machine.execGangPlace job s
  | .bulkCopyAssign job => Sys2Proof.Machine.execBulkCopyAssign job s
  | .preemptRequest job => Sys2Proof.Machine.execPreemptRequest job s
  | .teamPreempt team => Sys2Proof.Machine.execTeamPreempt team s
  | .teamResume team => Sys2Proof.Machine.execTeamResume team s
  | .watchdogT1Expire q => Sys2Proof.Machine.execWatchdogT1Expire q s
  | .watchdogT2Expire team => Sys2Proof.Machine.execWatchdogT2Expire team s
  | .arrayScrub a => Sys2Proof.Machine.execArrayScrub a s
  | .hostPostedWrite fn off data => Sys2Proof.Machine.execHostPostedWrite fn off data s
  | .hostRead fn off n => Sys2Proof.Machine.execHostRead fn off n s
  | .errorRecordDeliver fn => Sys2Proof.Machine.execErrorRecordDeliver fn s
  | .dataFlitReceive p f => Sys2Proof.Machine.execDataFlitReceive p f s
  | .nakReceive p e => Sys2Proof.Machine.execNakReceive p e s
  | .flitAckReceive p ack => Sys2Proof.Machine.execFlitAckReceive p ack s
  | .replayTimeout p => Sys2Proof.Machine.execReplayTimeout p s
  | .nakHoldoffExpire p => Sys2Proof.Machine.execNakHoldoffExpire p s
  | .laneErrorLimit p lane => Sys2Proof.Machine.execLaneErrorLimit p lane s
  | .laneRetrainComplete p ok e => Sys2Proof.Machine.execLaneRetrainComplete p ok e s
  | .linkTrain p peerMajor peerMinor window => Sys2Proof.Machine.execLinkTrain p peerMajor peerMinor window s
  | .chunkReceive src seq rank reduce runs => Sys2Proof.Machine.execChunkReceive src seq rank reduce runs s
  | .chunkAckReceive src reply => Sys2Proof.Machine.execChunkAckReceive src reply s
  | .quiesceFlitReceive p => Sys2Proof.Machine.execQuiesceFlitReceive p s
  | .peerPackageRequest src op addr size operand compare agent => Sys2Proof.Machine.execPeerPackageRequest src op addr size operand compare agent s
  | .quietEntry => Sys2Proof.Machine.execQuietEntry s
  | .quietExit => Sys2Proof.Machine.execQuietExit s
  | .retainWakeDoorbell => Sys2Proof.Machine.execRetainWakeDoorbell s
  | .packageReset => Sys2Proof.Machine.execPackageReset s

end Sys2Proof.Machine
end

