-- ==== Sys2Proof/Machine/Tick.lean ====
section
/-! DEFINITION. What can happen next: inputs, the issue of each array's sequencer (R151, R152, R179, R181), the banks of the
array stores (R40), the steps of the agents whose order the manual leaves open (R5; assumption 1), and the end of an array
cycle (R3). -/

namespace Sys2Proof.Machine

/-! Inputs. -/

/-- Steps whose cause lies outside the package. -/
def fromOutside : Instr → Bool
  | .peerRecordReceive .. | .peerRecordAck .. | .terminationNoticeReceive .. | .suspectNoticeReceive ..
  | .relaunchNoticeReceive .. | .uncorrectableRead .. | .dirtyLineError .. | .parityDeltaReceive .. | .parityAckReceive ..
  | .heartbeatReceive .. | .lossNoticeReceive .. | .scrubCountSample .. | .poolExtentAdd .. | .hostPostedWrite .. | .hostRead ..
  | .dataFlitReceive .. | .nakReceive .. | .flitAckReceive .. | .laneErrorLimit .. | .laneRetrainComplete .. | .linkTrain ..
  | .chunkReceive .. | .chunkAckReceive .. | .quiesceFlitReceive .. | .peerPackageRequest .. | .packageReset => true
  | _ => false

/-- Another owner writes its memory, as seen here (R15): a copy of a line that a peer or the host owns goes, and watches on its
lines are satisfied. -/
def State.outsideWrite (s : State) (pa : Nat) (data : List Byte) : State :=
  let s1 := { s with mem := Memory.store s.mem pa data }
  (linesOf pa data.length).foldl (fun (u : State) l =>
    let u1 := if rangeOf (64 * l) = .peer ∨ rangeOf (64 * l) = .host then u.evictL2 l else u
    u1.noticeWatches l (u1.lineData l)) s1

/-- An input is taken. -/
def State.takeInput (s : State) : Input → Out
  | .bar0Write fn off v => s.barWrite fn off v
  | .bar0Read fn off => .next (s.barReply fn off)
  | .event i => if fromOutside i then exec i (s.trafficOf i) else .next s
  | .outside pa data => .next (s.outsideWrite pa data)
  | .message pkg team sender rank ring d => .next (s.takeMessage pkg team sender rank ring d)
  | .placed team rank ok => .next (s.takePlaced team rank ok)
  | .badEntry team rank => .next (s.rewriteEntry team rank)
  | .arrived team scope id gen rank => .next (if s.genOf team scope 0 id = gen then s.arriveAt team scope 0 id rank else s)
  | .lock pkg pgid member off on => .next (s.takeLock pkg pgid member off on)
  | .locked pkg pgid member off => .next (s.takeLocked pkg pgid member off)
  | .parityRead pkg pgid member off => .next (s.takeParityRead pkg pgid member off)
  | .parityLine pkg pgid member off bad d => .next (s.takeParityLine pkg pgid member off bad d)
  | .changed pa => .next (s.takeChanged pa)
  | .settled pgid holder member => .next (s.takeSettled pgid holder member)
  | .answer tag code data => .next (s.takeAnswer tag code data)
  | .symbolErrors p lane n => s.symbolErrors p lane n
  | .upset a e => .next (s.modArr a (·.upset e))
  | .upsetLine level line n => .next (s.upsetLine level line (n % 4))
  | .upsetRecord ring n => .next (s.upsetRecord ring n)

/-- In Retain only BAR0, whose PSTATE says so (R360), the wake block of function 0 and a reset hear anything; what else comes is
lost, a read of BAR2 as an unsupported request (R370, R373; assumption 34). -/
def State.takeInRetain (s : State) : Input → Out
  | .bar0Write fn off v => s.barWrite fn off v
  | .bar0Read fn off => .next (s.barReply fn off)
  | .event .packageReset => exec .packageReset s
  | .event (.hostRead fn _ _) => .next (s.send (.readReply fn false []))
  | _ => .next s

/-! Issue. -/

/-- A slot op of a context makes its try. -/
def State.runSlot (s : State) (a : ArrId) (c : CtxId) (o : SlotOp) : Out := exec o.ins { s with act := ⟨a, c, o.slot⟩ }

/-- A try of a slot op would bring it on: it issues, faults, parks, reaches another phase or starts a walk. -/
def State.moves (s : State) (a : ArrId) (c : CtxId) (o : SlotOp) : Bool :=
  match s.runSlot a c o with
  | .next t =>
    let y := t.ctxOf a c
    !(y.residue.any fun q => q.slot == o.slot && q.phase == o.phase) || y.faults != (s.ctxOf a c).faults ||
      y.run != (s.ctxOf a c).run || t.walks != s.walks
  | _ => true

/-- Accesses of a run that a rollback has undone still stand in the context's queues: no bundle is presented until both
are empty of them (R80). -/
def Ctx.drains (x : Ctx) : Bool := x.loadQ.any (fun e => decide (e.seg < x.seg)) || x.storeQ.any fun e => decide (e.seg < x.seg)

/-- A context that can issue (R151): it has a bundle to present, or some slot of its residue could go on. -/
def State.canIssue (s : State) (a : ArrId) (c : CtxId) : Bool :=
  let x := s.ctxOf a c
  x.run == .active && !x.drains && ((x.residue.isEmpty && x.pageWait.isNone) ||
    (let t := s.represent a c
     let y := t.ctxOf a c
     y.residue.any fun o => y.todo.contains o.slot && t.moves a c o))

/-- The contexts of an array that can issue. -/
def State.ableMask (s : State) (a : ArrId) : BitVec 4 :=
  (List.finRange 4).foldl (fun m c => if s.canIssue a c then setBit m c.val else m) 0

def State.withAble (s : State) (a : ArrId) : State :=
  let m := s.ableMask a
  s.modArr a fun z => { z with able := m }

/-- The first slot op that the presentation still has to try. -/
def Ctx.nextSlot (x : Ctx) : Option SlotOp :=
  match x.todo with
  | [] => none
  | k :: _ => x.residue.find? (·.slot == k)

/-- The presentation just made tries its first slot op, in the same ac. A bundle of four NOPs has nothing to try. -/
def State.firstTry (s : State) (a : ArrId) (c : CtxId) : Out :=
  let x := s.ctxOf a c
  match x.nextSlot with
  | some o => s.runSlot a c o
  | none => if x.residue.isEmpty && x.faults.isEmpty then exec .nop { s with act := ⟨a, c, 0⟩ } else .next s

/-- A context that stands at a bundle boundary, or does not run, and was asked to stop or has met a data error (R338, R339). -/
def State.boundary (s : State) (a : ArrId) : Option CtxId :=
  let z := s.arr a
  (List.finRange 4).find? fun c =>
    let x := z.ctx c
    x.run == .active && (x.ask.isSome || x.dataErr.isSome) &&
    (z.running != c || z.gated || (x.residue.isEmpty && x.todo.isEmpty))

/-- The holder of the lease is blocked and another context asks for it (R152). -/
def State.leaseBlocked (s : State) (a : ArrId) : Bool :=
  match (s.arr a).holder with
  | none => false
  | some c => ((s.arr a).nextReq c).isSome && (s.ctxOf a c).todo.isEmpty && !s.canIssue a c

/-- The running context may present in this ac. -/
def State.presents (s : State) (a : ArrId) : Out :=
  let z := s.arr a
  let c := z.running
  let x := z.ctx c
  if x.drains || (x.residue.isEmpty && x.pageWait.isSome) then execContextSwitch a (s.withAble a)
  else if !x.residue.isEmpty then
    if s.canIssue a c then (s.represent a c).firstTry a c else execContextSwitch a (s.withAble a)
  else match s.fetchAsks a c x.fetchPcs with
    | (some r, s1) => .next (s1.fetchRefused a c r)
    | (none, s1) =>
      let s2 := s1.fetchTraffic a c x.fetchPcs
      if x.mloop.isSome then execMloopPresentation a c s2 else (s2.present a c).firstTry a c

/-- What the sequencer of an array does next in this ac. None: nothing more. -/
def State.issueArr (s : State) (a : ArrId) : Option Out :=
  let z := s.arr a
  let c := z.running
  let x := z.ctx c
  match s.boundary a with
  | some d => some (if (s.ctxOf a d).ask.isSome then execContextFatalFault a d s else execDataErrorTake a d s)
  | none =>
    match x.run, x.todo with
    | .active, k :: _ =>
      match x.nextSlot with
      | some o => some (s.runSlot a c o)
      | none => some (.next (s.modCtx a c (·.passSlot k)))
    | _, _ =>
      if s.leaseBlocked a then some (.next ((s.withAble a).passBlocked a))
      else if z.gated then
        if (List.finRange 4).any (s.canIssue a) then some (execSequencerWake a (s.withAble a)) else none
      else if decide (s.now < z.nextAc) then none
      else if x.run != .active then some (execContextSwitch a (s.withAble a))
      else if x.yields && x.residue.isEmpty then some (execContextSwitch a (s.withAble a))
      else if decide (s.now < x.nextAc) then none
      else some (s.presents a)

/-- The first array of a list whose sequencer has something to do. -/
def State.issueFrom (s : State) : List ArrId → Option Out
  | [] => none
  | a :: t =>
    match s.issueArr a with
    | some o => some o
    | none => State.issueFrom s t

/-! Banks. -/

/-- A bank of an array with a request that it can look at, not yet used in this ac (R40). -/
def State.bankDue (s : State) (a : ArrId) : Option (Fin 64) :=
  let z := s.arr a
  (z.asReqs.find? fun r => !z.asUsed.contains (asBank r.word) && s.asEligible a (asBank r.word) r).map fun r =>
    Fin.ofNat 64 (asBank r.word)

/-- The first array of a list with a bank due. -/
def State.bankFrom (s : State) : List ArrId → Option (ArrId × Fin 64)
  | [] => none
  | a :: t =>
    match s.bankDue a with
    | some b => some (a, b)
    | none => State.bankFrom s t

/-! The steps of agents whose order is open. -/

def pickIf (b : Bool) (i : Instr) : List Instr := if b then [i] else []

/-- Steps for a context. -/
def State.ctxSteps (s : State) (a : ArrId) (c : CtxId) : List Instr :=
  let x := s.ctxOf a c
  pickIf (s.nextStage a c).isSome (.feedStage a c) ++
  pickIf (s.collReady a c) (.collectorWrite a c) ++
  pickIf (!x.loadQ.isEmpty && (s.loadStep a c).isSome) (.queuePerform a c false) ++
  pickIf (!x.storeQ.isEmpty && (s.storeStep a c).isSome) (.queuePerform a c true) ++
  pickIf (x.run != .free && (s.releaseReady x.ring || (x.aged s.now && !s.releasing x.ring))) (.logBufferEntryAppend a c)

/-- Steps of the copy engines: those of the arrays and the eight bulk copy engines (R131). -/
def State.copySteps (s : State) : List Instr :=
  if !s.copying then [] else
  (List.range 40).flatMap fun e =>
    pickIf (!(s.copyQ e false).isEmpty && (s.copyStep e false).isSome) (.copyBeat e false) ++
    pickIf (!(s.copyQ e true).isEmpty && (s.copyStep e true).isSome) (.copyBeat e true)

/-- Steps of logs and slices (R67, R71, R72). -/
def State.logSteps (s : State) : List Instr :=
  (if s.segs.isEmpty && s.folds.isEmpty then [] else
    (List.finRange 128).flatMap fun sl : SliceId => pickIf (s.foldReady sl.val) (.foldSegment sl)) ++
  s.rings.flatMap fun r =>
    pickIf (match s.firstSeg r.id with | some g => s.segPassed g | none => false) (.logTrackerAdvance r.id)

/-- Releases of logs that no context runs can take a step: the host's, the bulk copy engines', and those of pre-empted tasks whose
copies go on (R74, R78, R79). -/
def State.fixedReleases (s : State) : State :=
  s.rings.foldl (fun u r => if (u.ringCtx r).isNone && u.releaseReady r.id then u.pushRelease r.id else u) s

/-- Steps of the scheduler (R314 to R333). -/
def State.schedSteps (s : State) : List Instr :=
  ((List.finRange 64).flatMap fun q : QueueId =>
    if (s.queue q.val).st = 0 then [] else
    pickIf (s.admitReady q) (.cardAdmit q) ++ pickIf (s.stampMet q).isSome (.waitstampSatisfied q) ++
    pickIf (s.t1Due q) (.watchdogT1Expire q)) ++
  (s.jobs.flatMap fun j => pickIf (s.jobDue j) (.jobReady j.id)) ++
  s.nextPlaced.toList ++
  (match s.preemptDue with | some (j, _) => [.preemptRequest j.id] | none => []) ++
  s.teams.flatMap fun t => pickIf (s.preemptReady t) (.teamPreempt t.id) ++ pickIf (s.t2Due t) (.watchdogT2Expire t.id)

/-- Steps of the package's other parts. -/
def State.packageSteps (s : State) : List Instr :=
  (s.groups.flatMap fun g => pickIf (s.rebuildReady g) (.rebuildStripe g.pgid)) ++
  pickIf s.retireReady .channelRetire ++
  ((List.finRange 32).flatMap fun a : ArrId => if s.testDue a then [.selfTest a (s.testPasses a)] else []) ++
  pickIf (s.shoots.any fun x => x.sent && (!x.begun || s.shootDrained x)) .shootdownAck ++
  ((List.finRange 16).flatMap fun n : Fin 16 => pickIf (s.fmtClosable n) (.formatWindowDisable n)) ++
  ((List.finRange 8).flatMap fun n : FnId => pickIf (!(s.funcs[n]).errs.isEmpty) (.errorRecordDeliver n)) ++
  pickIf s.quietDue .quietEntry

/-- Every step that some agent could make now. -/
def State.enabled (s : State) : List Instr :=
  ((List.finRange 32).flatMap fun a => (List.finRange 4).flatMap (s.ctxSteps a)) ++
  s.copySteps ++ s.logSteps ++ s.schedSteps ++ s.packageSteps

/-! The end of an ac. -/

/-- What an array commits at the end of an ac (R136, R182, R220). -/
def Arr.endAc (x : Arr) (t : Nat) (asks : AsReq → Bool) : Arr :=
  let y := x.commitPend
  { y with ctxs := y.ctxs.map fun c : Ctx => c.commitDelayed t }.endBanks asks

/-- Upkeep that needs no time of its own: what waits is looked at again. -/
def State.upkeep (s : State) : State :=
  s.walkTick.mendTick.takeRecords.dropUnreached.fixedReleases.reapTeams.dropJobs.tidyQueues.retryLost.leaveGroups.moveHolds.releaseExtents.suspendTick.resumeTick.kickInputs.linkTick.xbarTick

/-- Some array is not free (R370). -/
def State.busy (s : State) : Bool := s.arrays.toList.any fun x => x.ctxs.toList.any fun y => y.run != CtxRun.free

/-- The ac ends and the next begins. -/
def State.endAc (s : State) : State :=
  let s1 := { s with
    part := 0, arrays := Vector.ofFn fun a : Fin 32 => (s.arr a).endAc s.now fun r => s.asEligible a (asBank r.word) r }.upkeep
  { s1 with busyAc := if s1.busy then s1.now else s1.busyAc, cycle := s1.cycle + 1 }

/-- The events of the ac's end, one by one, and then the ac ends. -/
def State.finish (s : State) : Out :=
  match s.agenda with
  | e :: t => if e.at_ ≤ 2 * s.now + 1 then exec e.ev { s.trafficOf e.ev with agenda := t, part := 2 } else .next s.endAc
  | [] => .next s.endAc

/-- An agent whose turn is open makes its step, or the ac ends (assumption 1). -/
def State.openTurn (s : State) : Out :=
  match s.enabled with
  | [] => s.finish
  | l =>
    let (k, s1) := s.draw (l.length + 1)
    match l[k]? with
    | some i => exec i { s1.trafficOf i with part := 1 }
    | none => s1.finish

/-- An event at a known time is due by the start of this ac. -/
def State.dueNow (s : State) : Bool := match s.agenda with | e :: _ => decide (e.at_ ≤ 2 * s.now) | [] => false

/-- What the sequencers, the banks and the other agents do in this ac, in that order: a change that a bank or another agent
makes is one of the end of the ac, which the sequencers find in the next (R151, R179). -/
def State.act_ (s : State) : Out :=
  match if s.part = 0 then s.issueFrom (List.finRange 32) else none with
  | some o => o
  | none =>
    if s.part = 2 then s.finish else
    match s.bankFrom (List.finRange 32) with
    | some (a, b) => execAsBankAccess a b { s with part := 1 }
    | none => s.openTurn

/-! One step. -/

/-- The machine makes one step: what follows at once, the events due by the start of this ac, an input, an array's issue, a
bank's access, an agent of open order, the end of the ac; in that order. In Retain only inputs are looked at. -/
def State.turn (s : State) : Out :=
  match s.urgent with
  | i :: t => exec i { s with urgent := t }
  | [] =>
    if s.pstate = 2 then
      match s.inputs with
      | i :: t => State.takeInRetain { s with inputs := t } i
      | [] => .next s
    else if s.dueNow then
      match s.agenda with
      | e :: t => exec e.ev { s.trafficOf e.ev with agenda := t }
      | [] => .next s
    else
      match s.pickInput [] s.inputs with
      | some (i, t) => State.takeInput { s with inputs := t } i
      | none => s.act_

/-! A word placed for the next fetch (assumption 35). -/

/-- Where a placed bundle lies: a sealed page. -/
def fetchPa : Nat := 0x100000

/-- The bundle that holds a word in its slot; an E.F op is paired with VMOV m0, m0 (R178). -/
def bundleBits (k : Fin 4) (w : BitVec 32) : BitVec 128 :=
  let zero : BitVec 32 := 0
  match k with
  | 0 => zero ++ zero ++ zero ++ w
  | 1 => zero ++ zero ++ w ++ zero
  | 2 =>
    let pairs := match decodeE w with | .ok i => !(feedFds i).isEmpty || (match i with | .spull .. | .epull .. => true | _ => false) | _ => false
    if pairs then zero ++ w ++ encode (.vmov 0 0 0 0 0) ++ encodeHeader ⟨true, none, none, none, 0, none⟩
    else zero ++ w ++ zero ++ zero
  | 3 => w ++ zero ++ zero ++ zero

/-- A machine about to fetch on context 0 of array 0 the bundle that holds a word. -/
def State.placeWord (s : State) (k : Fin 4) (w : BitVec 32) : State :=
  let world := s.secureAt fetchPa
  let img : Image :=
    { id := 0, pa := fetchPa, len := 16, sec := world, entry := 0, codePa := fetchPa, count := 1, consts := [], plan := {},
      preload := [], nodes := [], tag := 0, measure := 0 }
  let calm := fun (x : Ctx) => { x with ask := none, dataErr := none, yields := false }
  let s1 := { s with
    part := 0, urgent := [], inputs := [], agenda := s.agenda.filter (fun e => decide (2 * s.now < e.at_)),
    pstate := if s.pstate = 2 then 0 else s.pstate
    mem := Memory.store s.mem fetchPa (natToBytes 16 (bundleBits k w).toNat)
    images := img :: s.images, sealed := (fetchPa / 65536, world, 0) :: s.sealed }
  s1.modArr 0 fun z =>
    { z with
      running := 0, gated := false, nextAc := 0, reqs := Vector.replicate 4 false
      ctxs := (z.ctxs.map calm).set 0 { calm z.ctxs[0] with
        run := .active, sec := world, image := 0, pc := 0, residue := [], todo := [], faults := [], branch := none, mloop := none
        nextAc := 0 } }

end Sys2Proof.Machine
end

