-- ==== Sys2Proof/Machine/Step.lean ====
section
/-! DEFINITION. One step of the machine, and a state that is about to run a given instruction word. -/

namespace Sys2Proof.Machine

/-- One step (see `State.turn`). -/
def step (s : State) : Host.Outcome State Fault Refusal := s.turn

/-- `s` with the instruction of a table row's word where the next step fetches and runs it (assumption 35). A word that no
slot accepts is placed in the S slot. -/
def State.withFetchWord (s : State) (_nbits w : Nat) : State :=
  s.placeWord ((tableSlot (BitVec.ofNat 32 w)).getD 0) (BitVec.ofNat 32 w)

end Sys2Proof.Machine
end

