-- ==== Sys2Proof/Safety.lean ====
section
/-! DEFINITION. What the claims are said with: which parts of the state a slot op leaves alone, what it means that an op
issues, waits or faults, and the invariant of every step. -/

namespace Sys2Proof.Machine

/-- A context without what the sequencer moves as slots issue and bundles end: the PC and the pending branch, the residue,
the faults met, sr.bundles, the signature's count and what is to happen at the bundle's end (R179 to R182, R223, R224, R233). -/
def Ctx.lasting (c : Ctx) : Ctx :=
  { c with
    pc := 0, nextAc := 0, stall := 0, branch := none, residue := [], todo := [], faults := [], bundles := 0,
    sigCount := 0, yields := false, drops := false }

/-- An array without its contexts and without the lease and the count of consecutive bundles (R151, R152). -/
def Arr.lasting (x : Arr) : Arr :=
  { x with
    ctxs := Vector.replicate 4 {}, streak := 0, holder := none, remain := 0, reqs := Vector.replicate 4 false }

/-- The package without its arrays and without the events still to come. -/
def State.rest (s : State) : State := { s with arrays := Vector.replicate 32 {}, urgent := [], agenda := [] }

/-- The acting context's slot reads values that have all arrived, writes a register that awaits none, and takes no hazard
(R179, R183). -/
def State.Clear (s : State) (srcs : List Reg) (dst : Reg) : Prop :=
  s.me.owes srcs dst = false ∧ s.me.hazards srcs = false

/-- Memory stands, byte by byte. -/
def SameMemory (s t : State) : Prop := ∀ p, Memory.read t.mem p = Memory.read s.mem p

/-- No context but the acting one differs, and no array but in its lease. -/
def OthersStand (s t : State) : Prop :=
  (∀ a c, ¬(a = s.act.arr ∧ c = s.act.ctx) → t.ctxOf a c = s.ctxOf a c) ∧
  (∀ a, (t.arr a).lasting = (s.arr a).lasting)

/-- Only the acting context differs: memory, the package, the other contexts and the arrays stand. -/
def Beside (s t : State) : Prop := SameMemory s t ∧ t.rest = s.rest ∧ OthersStand s t

/-- The acting slot has issued: it has left the residue, the other slots stay. -/
def Left (s t : State) : Prop := t.me.residue = s.me.residue.filter (·.slot != s.act.slot)

/-- The op issues: its context is now `c` and its array `x`, but for what the sequencer moves and for the lease, `p` holds
of the next state, and nothing else differs. -/
def IssuesIn (s : State) (o : Out) (x : Arr) (c : Ctx) (p : State → Prop) : Prop :=
  ∃ t, o = .next t ∧ SameMemory s t ∧ t.rest = s.rest ∧
    (∀ a d, ¬(a = s.act.arr ∧ d = s.act.ctx) → t.ctxOf a d = s.ctxOf a d) ∧
    (∀ a, a ≠ s.act.arr → (t.arr a).lasting = (s.arr a).lasting) ∧
    (t.arr s.act.arr).lasting = x.lasting ∧ Left s t ∧ t.me.lasting = c.lasting ∧ p t

/-- The op issues: its context is now `c`, but for what the sequencer moves, and nothing else differs. -/
def Issues (s : State) (o : Out) (c : Ctx) : Prop := IssuesIn s o (s.arr s.act.arr) c fun _ => True

/-- The op issues and writes `v` to `gd` at the end of its ac; a write to g0 is discarded (R206). Every other register,
flag, selector and descriptor stands, and so does every result owed to another register. -/
def WritesReg (s : State) (o : Out) (gd : Reg) (v : Word) : Prop :=
  ∃ t, o = .next t ∧ Beside s t ∧ Left s t ∧
    (∀ r, t.me.gv r = if r = gd ∧ r ≠ 0 then v else s.me.gv r) ∧
    (t.me.delayed.filter fun d => d.target != .g gd) = (s.me.delayed.filter fun d => d.target != .g gd) ∧
    t.me.lasting = { s.me with g := t.me.g, delayed := t.me.delayed }.lasting

/-- The op issues and owes `v` to the end of ac `due`, as the newest of the results owed (R182, R206, R220). -/
def Owes (s : State) (o : Out) (due : Nat) (x : DelayedReg) (v : Word) : Prop :=
  Issues s o { s.me with delayed := s.me.delayed ++ [⟨due, s.me.order, x, v⟩] }

/-- The op issues and a branch to `target` is pending, or takes effect where the bundle ends here (R181, R213). -/
def BranchesTo (s : State) (o : Out) (target : Nat) : Prop :=
  ∃ t, o = .next t ∧ Beside s t ∧ Left s t ∧ t.me.lasting = s.me.lasting ∧
    (t.me.branch = some (target, 2) ∨ (t.me.residue = [] ∧ t.me.pc = target))

/-- The op issues without a branch; where the bundle ends here, the next bundle follows, unless the end of a loop or of an
MLOOP pass decides what follows (R181, R214, R217). -/
def FallsThrough (s : State) (o : Out) : Prop :=
  ∃ t, o = .next t ∧ Beside s t ∧ Left s t ∧ t.me.lasting = s.me.lasting ∧
    (s.me.branch = none → t.me.branch = none ∧
      (t.me.pc = s.me.pc ∨ (t.me.residue = [] ∧ t.me.pc = s.me.pc + 1)))

/-- The op waits: its slot stays in the residue, the next presentation tries again (R179). -/
def Waits (s : State) (o : Out) : Prop :=
  ∃ t, o = .next t ∧ Beside s t ∧ t.me.residue = s.me.residue ∧ t.me.lasting = s.me.lasting

/-- The op meets the fault `code`: its slot stays, and the fault is in the presentation's list or is already being
reported (R334, R335). -/
def Faults (s : State) (o : Out) (code : Nat) : Prop :=
  ∃ t, o = .next t ∧ Beside s t ∧ t.me.residue = s.me.residue ∧ t.me.lasting = s.me.lasting ∧
    (s.act.slot.val, code) ∈ t.me.faults

/-- Translation has at most filled translation caches, which may take free choices (R123). -/
def OnlyCaches (s u : State) : Prop :=
  { u with dieTc := s.dieTc, draws := s.draws, arrays := s.arrays } = s ∧
    ∀ a, { u.arr a with tc := (s.arr a).tc } = s.arr a

/-- An access of `n` bytes by the acting context's M slot translates and passes every check: it reaches `t`, and the
translation caches are then those of `u` (R23, R125, R278, R279). -/
def Reaches (s : State) (use : Use) (addr : Word) (n : Nat) (t : Target) (u : State) : Prop :=
  s.accessM s.act.arr s.act.ctx use addr n = (.ok t, u)

/-- The address of an M.M access: the base and the displacement, in units of the access, of 12 bits, or of 36 with an
extension header (R177, R278). -/
def effective (base : Word) (disp : BitVec 12) (ext : Option (BitVec 24)) (n : Nat) : Word :=
  BitVec.ofInt 64 (base.toInt + n * (match ext with
    | some e => (e ++ disp : BitVec 36).toInt
    | none => disp.toInt))

/-- The op issues from state `u` with one more entry in the load queue, whose register then awaits its value (R280); `c` is the
context as it stands but for that. -/
def Loads (u : State) (c : Ctx) (o : Out) (p : QEntry → Prop) : Prop :=
  ∃ e, e.id = u.me.mseq ∧ e.seg = u.me.seg ∧ e.issued = u.now ∧ p e ∧
    IssuesIn u o (u.arr u.act.arr)
      { c with loadQ := u.me.loadQ ++ [e], mseq := u.me.mseq + 1, sb := (u.me.await e.gd).sb } fun _ => True

/-- The op issues from state `u` with one more entry in the store queue (R280). -/
def Stores (u : State) (c : Ctx) (o : Out) (p : QEntry → Prop) : Prop :=
  ∃ e, e.id = u.me.mseq ∧ e.seg = u.me.seg ∧ e.issued = u.now ∧ p e ∧
    IssuesIn u o (u.arr u.act.arr) { c with storeQ := u.me.storeQ ++ [e], mseq := u.me.mseq + 1 } fun _ => True

/-- The op is through its first part: its slot stays as residue, at phase `n`, and `p` holds of the next state, in which the
context's registers and memory stand. -/
def Proceeds (s : State) (o : Out) (n : Nat) (p : State → Prop) : Prop :=
  ∃ t, o = .next t ∧ SameMemory s t ∧ t.act = s.act ∧ t.me.g = s.me.g ∧ t.me.flags = s.me.flags ∧
    t.me.residue = modWhere (fun o : SlotOp => o.slot == s.act.slot) (fun o => { o with phase := n }) s.me.residue ∧ p t

/-- The issuing context's g registers, flags, selector pairs, descriptors and system registers stand. -/
def SameRegs (c d : Ctx) : Prop :=
  d.g = c.g ∧ d.flags = c.flags ∧ d.sp = c.sp ∧ d.fd = c.fd ∧ d.cd = c.cd ∧ d.iv = c.iv ∧ d.th = c.th ∧
    d.loops = c.loops ∧ d.rets = c.rets ∧ d.mloop = c.mloop ∧ d.kat = c.kat ∧ d.chk = c.chk ∧ d.rm = c.rm ∧
    d.fpflags = c.fpflags ∧ d.seed = c.seed ∧ d.ovac = c.ovac ∧ d.node = c.node ∧ d.rings = c.rings

/-- A load of a line whose newest bytes stand in the log buffer is in state `w` once the log has taken them: those entries of a
line that the view cache does not hold whose class meets the load's (R65). Otherwise it waits for nothing. -/
def Settles (u : State) (t : Target) (cls : BitVec 2) (w : State) : Prop :=
  let l := t.pa / 64
  let waits : Prop := t.kind.isLogged = true ∧ (∀ v ∈ (u.arr u.act.arr).vc, v.ownOf u.act.ctx l = false) ∧
    ∃ b ∈ u.me.buf, b.line = l ∧ (cls = 0 ∨ cls = b.acls)
  (waits → u.appendThrough u.act.arr u.act.ctx l 17 = some w) ∧ (¬waits → w = u)

/-- No uncorrectable or injected error waits in any level of the line storage (R345, R350). -/
def NoStoreErrors (s : State) : Prop :=
  s.einj.arm = false ∧ ∀ l, (s.lineMeta l).errL2 = 0 ∧ (s.lineMeta l).errTarn = 0 ∧ (s.lineMeta l).errHbm = 0

/-- Nor is any line lost with its package (R113). -/
def NoLineErrors (s : State) : Prop := NoStoreErrors s ∧ ∀ l, s.lostAt (64 * l) = none

/-- Nor is any line poisoned. -/
def NoPoison (s : State) : Prop := NoLineErrors s ∧ ∀ l, (s.lineMeta l).poison = false

/-- No two lines of a view cache stand in one way of one set (R45). -/
def Arr.vcApart (x : Arr) : Prop :=
  ∀ v ∈ x.vc, ∀ w ∈ x.vc, vcSet v.line = vcSet w.line → v.way = w.way → v = w

/-- A line's bytes are those that memory holds. -/
def HomeBytes (s : State) (l : Nat) (d : LineData) : Prop := ∀ i < 64, byteOf d i = Memory.read s.mem (64 * l + i)

/-- The value of `n` bytes of memory from `p`, little-endian (R3). -/
def valueAt (s : State) (p n : Nat) : Nat := bytesToNat (Memory.bytes s.mem p n)

/-- Memory holds the `n` low bytes of `v` from `p`, and stands at every other address. -/
def MemoryPut (s t : State) (p n v : Nat) : Prop :=
  (∀ i < n, Memory.read t.mem (p + i) = BitVec.ofNat 8 (v / 2 ^ (8 * i))) ∧
    ∀ q, ¬(p ≤ q ∧ q < p + n) → Memory.read t.mem q = Memory.read s.mem q

/-- Element `k` of `w` bits of a word (R156). -/
def laneOf (w : Nat) (x : CWord) (k : Nat) : Nat := x.toNat / 2 ^ (w * k) % 2 ^ w

/-- A power of two as a rational number. -/
def pow2 (e : Int) : Rat := if 0 ≤ e then ((2 ^ e.toNat : Nat) : Rat) else 1 / ((2 ^ (-e).toNat : Nat) : Rat)

/-- The number that a finite value is (R155). -/
def FVal.number : FVal → Option Rat
  | .fin neg m e => some ((if neg then -1 else 1) * (m : Rat) * pow2 e)
  | _ => none

/-- Every array and every byte of memory stands. -/
def ArraysStand (s t : State) : Prop := t.arrays = s.arrays ∧ SameMemory s t

/-- Only array `a` differs, and the events that follow at once. -/
def OnlyArray (s t : State) (a : ArrId) : Prop :=
  t.rest = s.rest ∧ SameMemory s t ∧ t.agenda = s.agenda ∧ ∀ b, b ≠ a → t.arr b = s.arr b

/-- One more error record waits for function 0, with the next SEQ; its fields are as `p` says (R348, R362). -/
def Reports (s t : State) (reason : Nat) (p : ErrRec → Prop) : Prop :=
  t.errSeq = s.errSeq + 1 ∧ ∃ e, t.funcs[(0 : Fin 8)].errs = s.funcs[(0 : Fin 8)].errs ++ [e] ∧ e.reason = reason ∧
    e.seq = s.errSeq ∧ e.cycle = s.now ∧ p e

/-- The mailbox of a function has its answer: ID, status and results in the response, BUSY clear, DONE set, and vector 1
sent last (R363). -/
def Answers (s t : State) (fn : FnId) (status : Nat) (results : List Byte) : Prop :=
  (t.funcs[fn]).busy = false ∧ (t.funcs[fn]).mbdone = true ∧
  (t.funcs[fn]).resp = putBytes [] 0 (getBytes (s.funcs[fn]).req 4 4 ++ natToBytes 2 status ++ [0, 0] ++ results.take 56) ∧
  ∃ l, t.outbox = s.outbox ++ l ++ [.msix fn 1]

/-- A command has only been answered: nothing else of the package differs but that function's mailbox and what is sent. -/
def OnlyAnswers (s : State) (o : Out) (fn : FnId) (status : Nat) (results : List Byte) : Prop :=
  ∃ t, o = .next t ∧ Answers s t fn status results ∧ { t with funcs := s.funcs, outbox := s.outbox } = s ∧
    ∀ k : Fin 8, k ≠ fn → t.funcs[k] = s.funcs[k]

/-- A card becomes a job of its queue, waiting for what it depends on (R316, R318, R320). -/
def Admits (s t : State) (q : QueueId) (card : List Byte) : Prop :=
  ArraysStand s t ∧ t.jobNo = s.jobNo + 1 ∧ t.teams = s.teams ∧
  Sparse.get 1 t.nextSeq (s.queue q.val).asid.toNat = cardNat card 0 8 + 1 ∧
  ∃ j, t.jobs = s.jobs ++ [j] ∧ j.id = s.jobNo + 1 ∧ j.queue = q ∧ j.seq = cardNat card 0 8 ∧ j.cmd = cardNat card 8 1 ∧
    j.asid = (s.queue q.val).asid ∧ j.st = .waiting ∧ j.body = card.take 64

/-- A card is refused with `code`: its queue stops and a record of reason 0x0040 names the card (R321). -/
def Refuses (s t : State) (q : QueueId) (seq code : Nat) : Prop :=
  ArraysStand s t ∧ t.jobs = s.jobs ∧ t.teams = s.teams ∧ (t.queue q.val).st = 2 ∧ (t.queue q.val).err = code ∧
  Reports s t 0x0040 fun e => e.queue = q.val ∧ e.addr = seq

/-- Memory holds the bytes of `d` that the mask names in line `l`, and stands at every other address. -/
def LinePut (s t : State) (l : Nat) (mask : BitVec 64) (d : LineData) : Prop :=
  ∀ p, Memory.read t.mem p =
    if 64 * l ≤ p ∧ p < 64 * l + 64 ∧ mask.getLsbD (p - 64 * l) = true then byteOf d (p - 64 * l) else Memory.read s.mem p

/-- What every step keeps: memory in its canonical form. -/
def Inv (s : State) : Prop := Memory.wf s.mem = true

/-- A step that keeps the machine: it answers a next state, in which memory is canonical and the part is the same part
(the configuration record and the package number are fixed, R1, R10). -/
def SafeStep (s : State) : Prop :=
  ∃ t, step s = .next t ∧ Inv t ∧ t.cfg = s.cfg ∧ t.pkgNo = s.pkgNo

end Sys2Proof.Machine
end

