-- ==== Sys2Proof/Certificates/Slice0/Obligations.lean ====
section
/-! DEFINITION. The statements for the provers. Each docstring names the rules of spec/ that it says; what it calls the model's
choice names the log entry. -/

open Sys2Proof Sys2Proof.Machine

/-! The machine as a whole: words and bundles, the step, reset and the invariant. -/

/-- R186, R206 to R309: words written out from the tables of the four slots' encodings decode to the ops they stand for,
and words with a reserved bit set, an unassigned opcode or an unassigned function code are refused by name. -/
def Obligations.DecodedWords : Prop :=
  decodeSlot 0 0x04432000 = .ok (.add 2 3 4) ∧
  decodeSlot 0 0x08430005 = .ok (.addi 2 3 5) ∧
  decodeSlot 0 0x4022FFFF = .ok (.beq 1 2 0xFFFF) ∧
  decodeSlot 0 0xC8000007 = .ok (.node 7) ∧
  decodeSlot 0 0x34000000 = .error .opc ∧
  decodeSlot 0 0x04000018 = .error .fn ∧
  decodeSlot 0 0x90200000 = .error .resv ∧
  decodeSlot 1 0x0DDBB8A4 = .ok (.vmul 0x3B 0x3B 0x45 1 0) ∧
  decodeSlot 1 0xA2000000 = .ok (.mma 0 true false 0 0 0 false 0 0) ∧
  decodeSlot 1 0x7C000000 = .error .opc ∧
  decodeSlot 2 0x14080000 = .ok (.npush 0 0 2 false false) ∧
  decodeSlot 2 0x18120000 = .ok (.spull 1 true) ∧
  decodeSlot 3 0x04888000 = .ok (.ld 4 8 2 0 0) ∧
  decodeSlot 3 0x0CC2C000 = .ok (.st 6 2 3 0 0) ∧
  decodeSlot 3 0x28000060 = .ok .relsv

/-- R173, R186 to R193: decoding what a well-formed op encodes to gives the op back, with every operand at every value;
and a word that decodes is exactly the encoding of the op it decodes to, which is well formed and one of its slot's
own, or NOP. -/
def Obligations.DecodeAndEncodeAgree : Prop :=
  (∀ (i : Instr) (k : Fin 4), i.slot = some k → i.wf = true → decodeSlot k (encode i) = .ok i) ∧
  ∀ (k : Fin 4) (w : BitVec 32) (i : Instr), decodeSlot k w = .ok i → encode i = w ∧ i.fits k = true

/-- R173 to R177: a bundle's bits decode to a bundle exactly where they are the encoding of a well-formed one. -/
def Obligations.BundlesDecodeToWhatTheyEncode : Prop :=
  ∀ (w : BitVec 128) (b : Bundle), decodeBundle w = .ok b ↔ (b.wf = true ∧ encodeBundle b = w)

/-- R151, R173, R179, R180, R195, R227: where nothing else is due, the running context of the first array with work
fetches the bundle at its PC: the tables are asked where the image has a device virtual address, the slice is read, and
the step runs, on the state in which the bundle is presented, the op of its first ready slot in the order S, E, C, M; the
steps after it run the other slots. A bundle that is not sealed is the fault 0x1B; a fetch that the tables refuse (R125,
R126) presents nothing: it is asked again while its walk is under way, waits for its page with the page request of R337
where that is not present, and is fatal with its code otherwise. An event that follows at once, an event that is due and an input from outside are run alone, the last two
on the state with the packets that they put on the crossbar; with nothing left to do the array cycle ends and sr.cycle
counts. In Retain nothing runs but what an input brings. -/
def Obligations.StepRunsDecoded : Prop :=
  ∀ (s : State) (a : ArrId) (m : Image) (b : Bundle),
    let c := (s.arr a).running
    let x := s.ctxOf a c
    let f := s.fetchAsk a c x.pc
    let u := f.2.fetchTraffic a c [x.pc]
    let y := u.ctxOf a c
    let p := u.presentOps a c y.pc (slotOps b y.pc 0) (stallOf b)
    let runs := fun (k : Fin 4) (i : Instr) => step s = exec i { p with act := ⟨a, c, k⟩ }
    let nothing : Prop := s.urgent = [] ∧ s.pstate ≠ 2 ∧ s.dueNow = false ∧ s.pickInput [] s.inputs = none
    let fetches : Prop := nothing ∧ s.part = 0 ∧ s.issueFrom ((List.finRange 32).take a.val) = none ∧ s.boundary a = none ∧
      s.leaseBlocked a = false ∧ (s.arr a).gated = false ∧ (s.arr a).nextAc ≤ s.now ∧ x.run = .active ∧ x.nextAc ≤ s.now ∧
      x.yields = false ∧ x.residue = [] ∧ x.todo = [] ∧ x.mloop = none ∧ x.drains = false ∧ x.pageWait = none
    let pa := m.codePa + 16 * y.pc
    let sealed_ : Prop := (∃ id, (pa / 65536, y.sec, id) ∈ u.sealed) ∧ u.secureAt pa = y.sec ∧ y.pc < m.count
    (m.codeAt = none → s.image? x.image = some m → f = (none, s)) ∧
    (fetches → f.1 = none → u.image? y.image = some m → sealed_ → decodeBundle (BitVec.ofNat 128 (valueAt u pa 16)) = .ok b → b.hdr = none →
      (b.s ≠ .nop → runs 0 b.s) ∧
      (b.s = .nop → b.e ≠ .nop → runs 2 b.e) ∧
      (b.s = .nop → b.e = .nop → b.c ≠ .nop → runs 1 b.c) ∧
      (b.s = .nop → b.e = .nop → b.c = .nop → b.m ≠ .nop → runs 3 b.m) ∧
      (b.s = .nop → b.e = .nop → b.c = .nop → b.m = .nop → runs 0 .nop)) ∧
    (fetches → f.1 = none → u.image? y.image = some m → ¬sealed_ → step s = .next (u.fetchFault a c)) ∧
    (∀ r, fetches → f.1 = some r → step s = .next (f.2.fetchRefused a c r)) ∧
    (∀ (u : State) (at_ : Nat),
      ((u.fetchRefused a c (fWalking, at_)).arr a).nextAc = u.now + 1 ∧ (u.fetchRefused a c (fWalking, at_)).urgent = u.urgent ∧
      (∀ d, (u.fetchRefused a c (fWalking, at_)).ctxOf a d = u.ctxOf a d) ∧
      (u.fetchRefused a c (fNotPresent, at_)).urgent = u.urgent ++ [.pageRequestFault a c] ∧
      (∀ code, code ≠ fWalking → code ≠ fNotPresent →
        (u.fetchRefused a c (code, at_)).urgent = u.urgent ++ [.contextFatalFault a c] ∧
        ((u.fetchRefused a c (code, at_)).ctxOf a c).faults = [(0, code)])) ∧
    (nothing → s.part = 0 → s.issueFrom ((List.finRange 32).take a.val) = none → s.boundary a = none → x.run = .active →
      ∀ o k l, x.todo = k :: l → o.slot = k → x.residue = [o] → step s = exec o.ins { s with act := ⟨a, c, k⟩ }) ∧
    (∀ i l, s.urgent = i :: l → step s = exec i { s with urgent := l }) ∧
    (∀ e l, s.urgent = [] → s.pstate ≠ 2 → s.agenda = e :: l → e.at_ ≤ 2 * s.now →
      step s = exec e.ev { s.trafficOf e.ev with agenda := l }) ∧
    (∀ i l, s.urgent = [] → s.pstate ≠ 2 → s.dueNow = false → s.pickInput [] s.inputs = some (.event i, l) → fromOutside i = true →
      step s = exec i ({ s with inputs := l }.trafficOf i)) ∧
    (nothing → s.issueFrom (List.finRange 32) = none → s.bankFrom (List.finRange 32) = none → s.enabled = [] → s.agenda = [] →
      ∃ t, step s = .next t ∧ t.cycle = s.cycle + 1) ∧
    (s.urgent = [] → s.pstate = 2 → s.inputs = [] → step s = .next s)

/-- R15, R68, R317, R348, R374: after reset no byte of memory is listed and every line is invalid in every cache, the
arrays hold no task, every tag is empty and every flag zero, the queues are disabled with PROG 0, W, sr.cycle are 0
and the error SEQ 1, and the package is ready. What the registers of a context hold besides is the model's choice
(logs 9, 12 and 14). -/
def Obligations.ResetLeavesTheMachineEmpty : Prop :=
  let s := State.reset
  s.cycle = 0 ∧ s.winNo = 0 ∧ s.errSeq = 1 ∧ s.ready = true ∧ s.images = [] ∧ s.jobs = [] ∧ s.teams = [] ∧
  (∀ p, Memory.read s.mem p = 0) ∧ (∀ l, (s.lineMeta l).l2 = .invalid ∧ (s.lineMeta l).tarn = .invalid) ∧
  (∀ a c, (s.ctxOf a c).run = .free ∧ (s.ctxOf a c).flags = 0 ∧ (s.ctxOf a c).fpflags = 0) ∧
  (∀ a : ArrId, (s.arr a).tags = [] ∧ (s.arr a).vc = [] ∧ (s.arr a).tc = [] ∧ (s.arr a).holder = none) ∧
  (∀ q : QueueId, (s.queues[q]).st = 0 ∧ (s.queues[q]).prog = 0) ∧ Inv s

/-- Every step keeps memory in its canonical form and the part what it is: its configuration record and its package
number (R1, R10, R15; the canonical form is the model's own, log 4). -/
def Obligations.EveryStepKeepsTheInvariant : Prop :=
  ∀ s t : State, Inv s → step s = .next t → Inv t ∧ t.cfg = s.cfg ∧ t.pkgNo = s.pkgNo

/-- Nothing stops the machine: every instruction and every step answers a next state, from every state (R334 to R338: a
fault ends a context, never the package). -/
def Obligations.NothingStopsTheMachine : Prop :=
  (∀ (i : Instr) (s : State), ∃ t, exec i s = .next t) ∧ ∀ s : State, ∃ t, step s = .next t

/-! Sequencer ops (R206 to R234). -/

/-- R207: the sixteen two-operand and the two one-operand register ops that write at the end of their issue ac. Each
answers a next state wherever its sources have arrived, for every register number, g0 among them: its write is
discarded. R207: CLZ counts leading zeros, 64 for 0, and POPC counts set bits. -/
def Obligations.RegisterOpsWriteResult : Prop :=
  (∀ (s : State) (gd ga gb : Reg), s.Clear [ga, gb] gd →
    let a := s.me.rd ga
    let b := s.me.rd gb
    let n := b.toNat % 64
    WritesReg s (exec (.add gd ga gb) s) gd (BitVec.ofNat 64 (a.toNat + b.toNat)) ∧
    WritesReg s (exec (.sub gd ga gb) s) gd (BitVec.ofInt 64 ((a.toNat : Int) - b.toNat)) ∧
    WritesReg s (exec (.and gd ga gb) s) gd (BitVec.ofNat 64 (a.toNat &&& b.toNat)) ∧
    WritesReg s (exec (.or gd ga gb) s) gd (BitVec.ofNat 64 (a.toNat ||| b.toNat)) ∧
    WritesReg s (exec (.xor gd ga gb) s) gd (BitVec.ofNat 64 (a.toNat ^^^ b.toNat)) ∧
    WritesReg s (exec (.shl gd ga gb) s) gd (BitVec.ofNat 64 (a.toNat * 2 ^ n)) ∧
    WritesReg s (exec (.shr gd ga gb) s) gd (BitVec.ofNat 64 (a.toNat / 2 ^ n)) ∧
    WritesReg s (exec (.sra gd ga gb) s) gd (BitVec.ofInt 64 (a.toInt / 2 ^ n)) ∧
    WritesReg s (exec (.min gd ga gb) s) gd (BitVec.ofInt 64 (min a.toInt b.toInt)) ∧
    WritesReg s (exec (.max gd ga gb) s) gd (BitVec.ofInt 64 (max a.toInt b.toInt)) ∧
    WritesReg s (exec (.minu gd ga gb) s) gd (BitVec.ofNat 64 (min a.toNat b.toNat)) ∧
    WritesReg s (exec (.maxu gd ga gb) s) gd (BitVec.ofNat 64 (max a.toNat b.toNat)) ∧
    WritesReg s (exec (.seq gd ga gb) s) gd (if a = b then 1 else 0) ∧
    WritesReg s (exec (.slt gd ga gb) s) gd (if a.toInt < b.toInt then 1 else 0) ∧
    WritesReg s (exec (.sltu gd ga gb) s) gd (if a.toNat < b.toNat then 1 else 0)) ∧
  (∀ (s : State) (gd ga : Reg), s.Clear [ga] gd →
    (∃ n, n ≤ 64 ∧ WritesReg s (exec (.clz gd ga) s) gd (BitVec.ofNat 64 n) ∧
      (∀ i, 64 - n ≤ i → (s.me.rd ga).getLsbD i = false) ∧ (n < 64 → (s.me.rd ga).getLsbD (63 - n) = true)) ∧
    WritesReg s (exec (.popc gd ga) s) gd
      (BitVec.ofNat 64 ((List.range 64).filter fun i => (s.me.rd ga).getLsbD i).length))

/-- R209: the immediate ops; LIK reads entry imm16 of the constant table of the context's image (R204), which an image
that passed the seal check has (a constant index past the table is refused there). -/
def Obligations.ImmediateOpsWriteResult : Prop :=
  ∀ (s : State) (gd ga : Reg) (imm : BitVec 16) (sh : BitVec 6),
    (s.Clear [ga] gd →
      let a := s.me.rd ga
      WritesReg s (exec (.addi gd ga imm) s) gd (BitVec.ofInt 64 (a.toInt + imm.toInt)) ∧
      WritesReg s (exec (.andi gd ga imm) s) gd (BitVec.ofNat 64 (a.toNat &&& imm.toNat)) ∧
      WritesReg s (exec (.ori gd ga imm) s) gd (BitVec.ofNat 64 (a.toNat ||| imm.toNat)) ∧
      WritesReg s (exec (.xori gd ga imm) s) gd (BitVec.ofNat 64 (a.toNat ^^^ imm.toNat)) ∧
      WritesReg s (exec (.shli gd ga sh) s) gd (BitVec.ofNat 64 (a.toNat * 2 ^ sh.toNat)) ∧
      WritesReg s (exec (.shri gd ga sh) s) gd (BitVec.ofNat 64 (a.toNat / 2 ^ sh.toNat)) ∧
      WritesReg s (exec (.srai gd ga sh) s) gd (BitVec.ofInt 64 (a.toInt / 2 ^ sh.toNat)) ∧
      WritesReg s (exec (.slti gd ga imm) s) gd (if a.toInt < imm.toInt then 1 else 0) ∧
      WritesReg s (exec (.sltiu gd ga imm) s) gd (if a.toNat < imm.toNat then 1 else 0)) ∧
    (s.Clear [] gd →
      WritesReg s (exec (.li gd imm) s) gd (BitVec.ofInt 64 imm.toInt) ∧
      ∀ (m : Image) (v : Word), s.image? s.me.image = some m → m.consts[imm.toNat]? = some v →
        WritesReg s (exec (.lik gd imm) s) gd v)

/-- R206, R207: the multiplies owe their result to the end of t + 2. R182, R206, R220: what is owed is written by the
end of its ac, and of two results due in the same ac that of the bundle that issued later stands; what is due later
stays owed. -/
def Obligations.MultipliesOweTheirResult : Prop :=
  (∀ (s : State) (gd ga gb : Reg), s.Clear [ga, gb] gd →
    let a := s.me.rd ga
    let b := s.me.rd gb
    Owes s (exec (.mul gd ga gb) s) (s.now + 2) (.g gd) (BitVec.ofNat 64 (a.toNat * b.toNat)) ∧
    Owes s (exec (.mulh gd ga gb) s) (s.now + 2) (.g gd) (BitVec.ofInt 64 (a.toInt * b.toInt / 2 ^ 64)) ∧
    Owes s (exec (.mulhu gd ga gb) s) (s.now + 2) (.g gd) (BitVec.ofNat 64 (a.toNat * b.toNat / 2 ^ 64))) ∧
  (∀ (c : Ctx) (t m n : Nat) (gd : Reg) (v w : Word), gd ≠ 0 → m < n →
    (c.delayed = [⟨t, m, .g gd, v⟩] →
      (c.commitDelayed t).gv gd = v ∧ (c.commitDelayed t).delayed = [] ∧
        (∀ r, r ≠ gd → (c.commitDelayed t).gv r = c.gv r)) ∧
    (c.delayed = [⟨t, m, .g gd, v⟩, ⟨t, n, .g gd, w⟩] ∨ c.delayed = [⟨t, n, .g gd, w⟩, ⟨t, m, .g gd, v⟩] →
      (c.commitDelayed t).gv gd = w) ∧
    (∀ f : FlagNo, c.delayed = [⟨t, m, .flag f, v⟩] →
      (c.commitDelayed t).flag f = (v != 0) ∧
        ∀ h : FlagNo, h ≠ f → (c.commitDelayed t).flag h = c.flag h) ∧
    (c.delayed = [⟨t + 1, m, .g gd, v⟩] → c.commitDelayed t = c))

/-- R206, R208: a divide or remainder takes a free divider for itself through the end of t + 19, when its result is
delivered; one that finds the divider busy waits. Division by zero and the overflow have the results of R208's
table. R206, R179, R180: DIVIDE_RESULT writes the result to its register, which no longer awaits a value, and to a
source captured meanwhile, and frees the divider. Every other register of every context stands. -/
def Obligations.DividesUseTheDivider : Prop :=
  (∀ (s : State) (gd ga gb : Reg), s.Clear [ga, gb] gd →
    let a := s.me.rd ga
    let b := s.me.rd gb
    let k := s.act.arr
    let takes := fun (o : Out) (v : Word) =>
      IssuesIn s o { s.arr k with divBusy := some (s.now + 19), divRes := some (s.act.ctx, gd, v) }
        { s.me with dv := if gd = 0 then s.me.dv else s.me.dv ||| 1#32 <<< gd.toNat } fun t => t.agenda = insertTimed ⟨2 * (s.now + 19) + 1, .divideResult k⟩ s.agenda
    ((s.arr k).divBusy = none →
      takes (exec (.divu gd ga gb) s) (if b = 0 then BitVec.allOnes 64 else BitVec.ofNat 64 (a.toNat / b.toNat)) ∧
      takes (exec (.divs gd ga gb) s) (if b = 0 then BitVec.allOnes 64 else BitVec.ofInt 64 (a.toInt.tdiv b.toInt)) ∧
      takes (exec (.remu gd ga gb) s) (if b = 0 then a else BitVec.ofNat 64 (a.toNat % b.toNat)) ∧
      takes (exec (.rems gd ga gb) s) (if b = 0 then a else BitVec.ofInt 64 (a.toInt.tmod b.toInt))) ∧
    ((s.arr k).divBusy ≠ none →
      Waits s (exec (.divu gd ga gb) s) ∧ Waits s (exec (.divs gd ga gb) s) ∧
      Waits s (exec (.remu gd ga gb) s) ∧ Waits s (exec (.rems gd ga gb) s))) ∧
  (∀ (s : State) (k : ArrId) (c : CtxId) (gd : Reg) (v : Word), (s.arr k).divRes = some (c, gd, v) →
    ∃ t, exec (.divideResult k) s = .next t ∧ (t.arr k).divBusy = none ∧ (t.arr k).divRes = none ∧
      (∀ r, (t.ctxOf k c).gv r = if r = gd ∧ r ≠ 0 then v else (s.ctxOf k c).gv r) ∧
      (gd ≠ 0 → (t.ctxOf k c).dv.getLsbD gd.toNat = false ∧ (t.ctxOf k c).capDv.getLsbD gd.toNat = false ∧
        ((s.ctxOf k c).capDv.getLsbD gd.toNat = true → (t.ctxOf k c).rd gd = v)) ∧
      (∀ b d, ¬(b = k ∧ d = c) → t.ctxOf b d = s.ctxOf b d) ∧ SameMemory s t ∧ t.rest = s.rest)

/-- R179, R180: an op that reads a register whose value is still in flight from the M slot or the divider, or writes one
that still awaits the M slot, waits, whatever else holds. R183: with CHK set a source read while a fixed-latency result is still owed to it is the
hazard fault 0x18; at first presentation the sources are captured, and with CHK clear there is no such fault. -/
def Obligations.SourcesInFlightWaitOrFault : Prop :=
  (∀ (s : State) (gd ga gb : Reg),
    (s.me.owes [ga, gb] gd = true →
      ∀ i ∈ [Instr.add gd ga gb, .sub gd ga gb, .mul gd ga gb, .mulh gd ga gb, .mulhu gd ga gb, .and gd ga gb,
        .or gd ga gb, .xor gd ga gb, .shl gd ga gb, .shr gd ga gb, .sra gd ga gb, .min gd ga gb, .max gd ga gb,
        .minu gd ga gb, .maxu gd ga gb, .seq gd ga gb, .slt gd ga gb, .sltu gd ga gb, .divu gd ga gb,
        .divs gd ga gb, .remu gd ga gb, .rems gd ga gb], Waits s (exec i s)) ∧
    ((s.me.owes [ga, gb] gd = true ↔
      (ga ≠ 0 ∧ (s.me.capPend.getLsbD ga.toNat = true ∨ s.me.capDv.getLsbD ga.toNat = true)) ∨
        (gb ≠ 0 ∧ (s.me.capPend.getLsbD gb.toNat = true ∨ s.me.capDv.getLsbD gb.toNat = true)) ∨ (gd ≠ 0 ∧ s.me.sb.getLsbD gd.toNat = true)))) ∧
  (∀ (s : State) (gd ga gb : Reg) (a : ArrId) (c : CtxId) (pc : Nat) (ops : List SlotOp) (st : Nat),
    (s.me.owes [ga, gb] gd = false → s.me.hazards [ga, gb] = true →
      ∀ i ∈ [Instr.add gd ga gb, .sub gd ga gb, .mul gd ga gb, .mulh gd ga gb, .mulhu gd ga gb, .and gd ga gb,
        .or gd ga gb, .xor gd ga gb, .shl gd ga gb, .shr gd ga gb, .sra gd ga gb, .min gd ga gb, .max gd ga gb,
        .minu gd ga gb, .maxu gd ga gb, .seq gd ga gb, .slt gd ga gb, .sltu gd ga gb, .divu gd ga gb,
        .divs gd ga gb, .remu gd ga gb, .rems gd ga gb], Faults s (exec i s) 0x18) ∧
    (∀ r, ((s.presentOps a c pc ops st).ctxOf a c).rd r = (s.ctxOf a c).gv r) ∧
    ((s.ctxOf a c).chk = false → ((s.presentOps a c pc ops st).ctxOf a c).hazards [ga, gb] = false) ∧
    ((s.ctxOf a c).chk = true → ga ≠ 0 →
      (∃ d ∈ (s.ctxOf a c).delayed, d.target = .g ga) → ((s.presentOps a c pc ops st).ctxOf a c).hazards [ga, gb] = true))

/-- R210, R211, R212, R213: a branch whose condition holds for the sources as captured goes to its own bundle index plus
the signed offset; one whose condition fails issues and changes nothing else. BFS and BFC read the flag as it
stands. R211, R141, R185: BAF waits while a compare of its context is still descending, then tests bit ga[4:0] of
the aggregate: kind 0 is "any cell of row i", 1 "every cell of row i", 2 and 3 the same of column i; with the
inverting bit the branch is taken when the bit is clear. -/
def Obligations.BranchesGoWhereTheyShould : Prop :=
  (∀ (s : State) (ga gb : Reg) (f : FlagNo) (off : BitVec 16) (off26 : BitVec 26),
    let a := s.me.rd ga
    let b := s.me.rd gb
    let goes := fun (o : Out) (taken : Prop) =>
      (taken → BranchesTo s o ((s.me.pc : Int) + off.toInt).toNat) ∧ (¬taken → FallsThrough s o)
    (s.Clear [ga, gb] 0 →
      goes (exec (.beq ga gb off) s) (a = b) ∧ goes (exec (.bne ga gb off) s) (a ≠ b) ∧
      goes (exec (.blt ga gb off) s) (a.toInt < b.toInt) ∧ goes (exec (.bge ga gb off) s) (b.toInt ≤ a.toInt) ∧
      goes (exec (.bltu ga gb off) s) (a.toNat < b.toNat) ∧ goes (exec (.bgeu ga gb off) s) (b.toNat ≤ a.toNat)) ∧
    goes (exec (.bfs f off) s) (s.me.flag f = true) ∧ goes (exec (.bfc f off) s) (s.me.flag f = false) ∧
    BranchesTo s (exec (.jmp off26) s) ((s.me.pc : Int) + off26.toInt).toNat) ∧
  (∀ (s : State) (ga : Reg) (agg : BitVec 2) (inv : Bool) (off : BitVec 16), s.Clear [ga] 0 →
    let a := s.act.arr
    let c := s.act.ctx
    let i := (s.me.rd ga).toNat % 32
    let at_ := fun (p j : Nat) => (s.arr (s.chainArr a c p)).cfAt (if agg.toNat < 2 then i * 32 + j else j * 32 + i) c
    let bit : Prop := if agg.toNat % 2 = 0 then ∃ p < 2 ^ s.me.chain.toNat, ∃ j < 32, at_ p j = true
      else ∀ p < 2 ^ s.me.chain.toNat, ∀ j < 32, at_ p j = true
    ((s.arr a).cfQuiet c = false → Waits s (exec (.baf ga agg inv off) s)) ∧
    ((s.arr a).cfQuiet c = true →
      ((bit ↔ inv = false) → BranchesTo s (exec (.baf ga agg inv off) s) ((s.me.pc : Int) + off.toInt).toNat) ∧
      (¬(bit ↔ inv = false) → FallsThrough s (exec (.baf ga agg inv off) s))))

/-- R212, R213: CALL pushes PC + 1 and goes to its target, unless the return stack holds 16 entries already; RET pops;
JR goes to a bundle of the image. The others are the fatal return-stack fault 0x19 and the unsealed-fetch fault
0x1B. -/
def Obligations.CallsAndReturns : Prop :=
  ∀ (s : State) (ga : Reg) (off : BitVec 26),
    let branched := fun (o : Out) (target : Nat) (rets : List Nat) =>
      ∃ t, o = .next t ∧ Beside s t ∧ Left s t ∧ t.me.lasting = { s.me with rets := rets }.lasting ∧
        (t.me.branch = some (target, 2) ∨ (t.me.residue = [] ∧ t.me.pc = target))
    (s.me.rets.length < 16 →
      branched (exec (.call off) s) ((s.me.pc : Int) + off.toInt).toNat ((s.me.pc + 1) :: s.me.rets)) ∧
    (16 ≤ s.me.rets.length → Faults s (exec (.call off) s) 0x19) ∧
    (∀ p l, s.me.rets = p :: l → branched (exec .ret s) p l) ∧
    (s.me.rets = [] → Faults s (exec .ret s) 0x19) ∧
    (s.Clear [ga] 0 → ∀ m, s.image? s.me.image = some m →
      ((s.me.rd ga).toNat < m.count → branched (exec (.jr ga) s) (s.me.rd ga).toNat s.me.rets) ∧
      (m.count ≤ (s.me.rd ga).toNat → Faults s (exec (.jr ga) s) 0x1B))

/-- R214: LOOP with four entries active is the fatal loop fault 0x1A, whatever its count, and the stack is unchanged;
otherwise it pushes its entry, or skips its body where the trip count is zero. R214, R215: at a loop's end only the top
entry is processed: it counts down and control goes to its start, or it is popped and control goes past its end. R216,
R219: LBRK ends the innermost LOOP and goes past its end, or lets no iteration of an MLOOP above that of its own stage
begin; with no loop active it is the fatal loop fault; its off26 is zero. -/
def Obligations.LoopsCount : Prop :=
  (∀ (s : State) (ga : Reg) (off : BitVec 16), s.Clear [ga] 0 →
    let n := (s.me.rd ga).toNat
    let last := ((s.me.pc : Int) + off.toInt).toNat
    (4 ≤ s.me.loops.length → Faults s (exec (.loop ga off) s) 0x1A) ∧
    (s.me.loops.length < 4 → n = 0 → BranchesTo s (exec (.loop ga off) s) (last + 1)) ∧
    (s.me.loops.length < 4 → n ≠ 0 →
      Issues s (exec (.loop ga off) s) { s.me with loops := ⟨s.me.pc + 1, last, n⟩ :: s.me.loops })) ∧
  (∀ (s : State) (a : ArrId) (c : CtxId) (e : LoopEntry) (l : List LoopEntry),
    (s.ctxOf a c).loops = e :: l →
    ∃ t, exec (.loopBackEdge a c) s = .next t ∧ t.rest = s.rest ∧ SameMemory s t ∧
      (∀ b d, ¬(b = a ∧ d = c) → t.ctxOf b d = s.ctxOf b d) ∧
      (2 ≤ e.remaining → t.ctxOf a c =
        { s.ctxOf a c with loops := { e with remaining := e.remaining - 1 } :: l, pc := e.start }) ∧
      (e.remaining = 1 → t.ctxOf a c = { s.ctxOf a c with loops := l, pc := e.last + 1 })) ∧
  (encode .lbrk).extractLsb' 0 26 = 0 ∧
  (∀ (s : State),
    (s.me.mloop = none → ∀ e l, s.me.loops = e :: l →
      ∃ t, exec .lbrk s = .next t ∧ Beside s t ∧ Left s t ∧ t.me.lasting = { s.me with loops := l }.lasting ∧
        (t.me.branch = some (e.last + 1, 2) ∨ (t.me.residue = [] ∧ t.me.pc = e.last + 1))) ∧
    (s.me.mloop = none → s.me.loops = [] → Faults s (exec .lbrk s) 0x1A) ∧
    (∀ m o, s.me.mloop = some m → s.slotOp = some o → o.stage ≤ m.k →
      Issues s (exec .lbrk s) { s.me with mloop := some { m with n := min m.n (m.k - o.stage + 1) } }))

/-- R217: MLOOP reads its trip count once and starts its passes at the bundle after it. R217, R219: the next cycle of a
running MLOOP sets sr.q0 to sr.q7 to k - s for its stages and zero above, and takes the live stages, oldest iteration
first; after pass n + stages - 2, or at once where the trip count is zero, the loop is over and the next bundle is the
one after the body. R214: where the MLOOP is the last bundle of the innermost LOOP, that entry is processed then (log 44
says how). -/
def Obligations.MloopRunsPasses : Prop :=
  (∀ (s : State) (ga : Reg) (iim1 : BitVec 4) (stm1 : BitVec 3) (bm1 : BitVec 7), s.Clear [ga] 0 →
    Issues s (exec (.mloop ga iim1 stm1 bm1) s)
      { s.me with mloop := some ⟨(s.me.rd ga).toNat, iim1.toNat + 1, stm1.toNat + 1, s.me.pc + 1, 0, 0, [], false⟩ }) ∧
  (∀ (s : State) (a : ArrId) (c : CtxId) (m : MLoop), (s.ctxOf a c).mloop = some m → (s.ctxOf a c).residue = [] →
    (s.ctxOf a c).run = .active → m.opened = false → 1 ≤ m.st →
    let x := s.ctxOf a c
    let past := m.base + m.ii * m.st
    ∃ t, exec (.mloopPresentation a c) s = .next t ∧ t.rest = s.rest ∧ SameMemory s t ∧
      (∀ b d, ¬(b = a ∧ d = c) → t.ctxOf b d = s.ctxOf b d) ∧
      (1 ≤ m.n → m.k ≤ m.n + m.st - 2 →
        (∀ j : Fin 8, (t.ctxOf a c).q[j] = if j.val < m.st then BitVec.ofInt 64 ((m.k : Int) - j.val) else 0) ∧
        ∃ gs, t.ctxOf a c = { x with mloop := some { m with groups := gs, opened := true }, q := (t.ctxOf a c).q } ∧
          gs.flatten = ((List.range m.st).reverse.filter fun st => decide (st ≤ m.k ∧ m.k - st < m.n)).map
            fun st => (st, m.base + st * m.ii + m.c)) ∧
      (m.n = 0 ∨ m.n + m.st - 2 < m.k →
        ((∀ e l, x.loops = e :: l → e.last + 1 ≠ m.base) → t.ctxOf a c = { x with mloop := none, pc := past }) ∧
        (∀ e l, x.loops = e :: l → e.last + 1 = m.base →
          (2 ≤ e.remaining → t.ctxOf a c =
            { x with mloop := none, loops := { e with remaining := e.remaining - 1 } :: l, pc := e.start }) ∧
          (e.remaining = 1 → t.ctxOf a c = { x with mloop := none, loops := l, pc := past }))))

/-- R220: the flag ops write their flag at the end of their issue ac, FMOV and FGET from the flags as captured at first
presentation; FMOV of a flag to itself has no effect. R221, R139: the selector ops write their fields of sp1 to sp7 and leave every other pair; a write to
sp0 changes nothing; SELG with a skew of 11 is the descriptor fault 0x12 and changes nothing. -/
def Obligations.FlagAndSelectorOps : Prop :=
  (∀ (s : State) (fd fs : FlagNo) (gd : Reg),
    Owes s (exec (.fset fd) s) s.now (.flag fd) 1 ∧
    Owes s (exec (.fclr fd) s) s.now (.flag fd) 0 ∧
    (fd ≠ fs → Owes s (exec (.fmov fd fs) s) s.now (.flag fd) (if s.me.capFlags.getLsbD fs.toNat = true then 1 else 0)) ∧
    (fd = fs → Issues s (exec (.fmov fd fs) s) s.me) ∧
    (s.Clear [] gd → WritesReg s (exec (.fget gd) s) gd (BitVec.ofNat 64 s.me.capFlags.toNat))) ∧
  (∀ (s : State) (p : SelNo) (ga gb : Reg) (skew : BitVec 2) (origin : BitVec 5),
    let a := s.me.rd ga
    let b := s.me.rd gb
    let puts := fun (o : Out) (f : Sel → Sel) =>
      ∃ t, o = .next t ∧ Beside s t ∧ Left s t ∧ t.me.lasting = { s.me with sp := t.me.sp }.lasting ∧
        ∀ k : Fin 8, t.me.sp[k] = if k.val = p.toNat ∧ k.val ≠ 0 then f s.me.sp[k] else s.me.sp[k]
    (s.Clear [ga] 0 →
      puts (exec (.selc p ga) s) (fun x => { x with cols := a.extractLsb' 0 32 }) ∧
      puts (exec (.selr p ga) s) (fun x => { x with rows := a.extractLsb' 0 32 })) ∧
    puts (exec (.selk p skew origin) s) (fun x => { x with skew := skew, origin := origin }) ∧
    (s.Clear [ga, gb] 0 → (b.extractLsb' 0 2 ≠ 3 →
      puts (exec (.selg p ga gb) s) (fun _ => ⟨a.extractLsb' 0 32, a.extractLsb' 32 32, b.extractLsb' 0 2,
        b.extractLsb' 2 5⟩)) ∧
      (b.extractLsb' 0 2 = 3 → Faults s (exec (.selg p ga gb) s) 0x12)))

/-- R230 to R234: RDSR writes the register it names: identity, counts, log pointers, status, the lease, and the rest. The
sticky flags and the aggregates are read once the C ops they wait for are through, and
the op waits for them (R141, R231). R230, R231: WRSR writes the writable registers: the append-stall count, CHK and RM
at the end of the ac; a one to a sticky flag clears it; a seed is kept and descends to the cells as a C op does; a
write of any other register has no effect. A number that is not in the table is refused at sealing, for both ops. -/
def Obligations.SystemRegisters : Prop :=
  (∀ (s : State) (gd : Reg), s.Clear [] gd →
    let x := s.me
    let y := s.arr s.act.arr
    let reads := fun (n : BitVec 16) (v : Word) => WritesReg s (exec (.rdsr gd n) s) gd v
    reads 0x000 (BitVec.ofNat 64 s.act.ctx.val) ∧ reads 0x001 (BitVec.ofNat 64 x.larr.toNat) ∧
    reads 0x002 (BitVec.ofNat 64 s.act.arr.val) ∧ reads 0x003 (BitVec.ofNat 64 x.team.toNat) ∧
    reads 0x004 (BitVec.ofNat 64 x.tsize.toNat) ∧ reads 0x005 (BitVec.ofNat 64 x.rank.toNat) ∧
    reads 0x008 s.cycle ∧ reads 0x009 x.bundles ∧
    (∀ r, s.ring? x.ring = some r →
      reads 0x010 (BitVec.ofNat 64 r.tail) ∧ reads 0x011 (BitVec.ofNat 64 r.pub) ∧
      reads 0x012 (BitVec.ofNat 64 r.fold)) ∧
    reads 0x013 (BitVec.ofNat 64 x.ovac.toNat) ∧
    reads 0x018 (BitVec.ofNat 64 ((if x.chk then 1 else 0) + (if x.rm then 2 else 0) + (if x.sec then 4 else 0) +
      8 * x.chain.toNat)) ∧
    (let asked := if y.reqs[s.act.ctx] then 2 else 0
     (y.holder = none → reads 0x019 (BitVec.ofNat 64 asked)) ∧
     ∀ d, y.holder = some d → reads 0x019 (BitVec.ofNat 64 ((if d = s.act.ctx then 1 else 0) + asked + 4 * d.val + 16 +
       2 ^ 16 * (y.remain % 2 ^ 15)))) ∧
    reads 0x01B (BitVec.ofNat 64 x.seed.toNat) ∧ reads 0x01C (BitVec.ofNat 64 x.node.toNat) ∧
    (∀ r : Fin 4, reads (0x028 + BitVec.ofNat 16 r.val) (BitVec.ofNat 64 (x.rings[r].head.toNat +
        2 ^ 32 * x.rings[r].base.toNat + 2 ^ 56 * x.rings[r].log2n.toNat)) ∧
      reads (0x02C + BitVec.ofNat 16 r.val) (BitVec.ofNat 64 (x.rings[r].tail.toNat + 2 ^ 32 * x.rings[r].count.toNat))) ∧
    (∀ k : Fin 8, reads (0x030 + BitVec.ofNat 16 k.val) x.q[k]) ∧
    (y.cQuiet s.act.ctx = true → reads 0x01A (BitVec.ofNat 64 x.fpflags.toNat)) ∧
    (y.cQuiet s.act.ctx = false → Waits s (exec (.rdsr gd 0x01A) s)) ∧
    (∀ k : Fin 4,
      (y.cfQuiet s.act.ctx = true → ∃ w : Word, reads (0x020 + BitVec.ofNat 16 k.val) w ∧
        ∀ i < 64, w.getLsbD i = (decide (i < 32) && s.aggBit s.act.arr s.act.ctx k.val i)) ∧
      (y.cfQuiet s.act.ctx = false → Waits s (exec (.rdsr gd (0x020 + BitVec.ofNat 16 k.val)) s)))) ∧
  (∀ (gd ga : Reg) (n : BitVec 16), srAssigned n = false → (Instr.rdsr gd n).wf = false ∧ (Instr.wrsr ga n).wf = false) ∧
  (∀ (c : Ctx) (t m : Nat) (v : Word), c.delayed = [⟨t, m, .status, v⟩] →
    (c.commitDelayed t).chk = v.getLsbD 0 ∧ (c.commitDelayed t).rm = v.getLsbD 1) ∧
  (∀ (s : State) (ga : Reg), s.Clear [ga] 0 →
    let v := s.me.rd ga
    let x := s.arr s.act.arr
    Issues s (exec (.wrsr ga 0x013) s) { s.me with ovac := BitVec.ofNat 32 v.toNat } ∧
    Owes s (exec (.wrsr ga 0x018) s) s.now .status v ∧
    (x.cQuiet s.act.ctx = true →
      Issues s (exec (.wrsr ga 0x01A) s) { s.me with fpflags := s.me.fpflags &&& ~~~(v.extractLsb' 0 7) }) ∧
    (x.cQuiet s.act.ctx = false → Waits s (exec (.wrsr ga 0x01A) s)) ∧
    (∃ o : COp, o.id = x.opNo ∧ o.ctx = s.act.ctx ∧ o.ins = .wrsr ga 0x01B ∧ o.kat = v ∧ o.issued = s.now ∧ o.done = 0 ∧
      IssuesIn s (exec (.wrsr ga 0x01B) s) { x with wave := x.wave ++ [o], opNo := x.opNo + 1 }
        { s.me with seed := BitVec.ofNat 32 v.toNat } fun t =>
        t.agenda = insertTimed ⟨2 * (s.now + 3), .cOpRowExecute s.act.arr x.opNo 0⟩ s.agenda) ∧
    (∀ n : BitVec 16, srAssigned n = true → n ∉ [0x013, 0x018, 0x01A, 0x01B] → Issues s (exec (.wrsr ga n) s) s.me))

/-- R222, R223, R224, R229, R174: WAIT holds its slot until its deadline, a sum that does not wrap; YIELD has its
context switched out at the end of the bundle; LEASE takes a lease that nobody holds or asks for it; UNLEASE gives it up
at the end of the bundle; KATS
sets the known-answer constant; a NOP does nothing. -/
def Obligations.WaitYieldLease : Prop :=
  ∀ (s : State) (ga : Reg) (imm : BitVec 16),
    let a := s.act.arr
    let c := s.act.ctx
    let due := (s.me.rd ga).toNat + imm.toNat
    (s.Clear [ga] 0 →
      (due ≤ s.now → Issues s (exec (.wait ga imm) s) s.me) ∧
      (s.now < due → ∃ t, exec (.wait ga imm) s = .next t ∧ Beside s t ∧
        (t.me.residue.map (·.slot)) = (s.me.residue.map (·.slot)) ∧ t.me.lasting = s.me.lasting ∧
        (s.phase = 0 → t.agenda = insertTimed ⟨2 * due, .waitDeadline a c⟩ s.agenda)) ∧
      Issues s (exec (.kats ga) s) { s.me with kat := s.me.rd ga }) ∧
    IssuesIn s (exec .yield s) (s.arr a) s.me (fun t => t.me.yields = true ∧
      (s.me.drops = false → (t.arr a).holder = (s.arr a).holder)) ∧
    (s.me.drops = false →
      (((s.arr a).holder = none ∨ (s.arr a).holder = some c) →
        IssuesIn s (exec .lease s) (s.arr a) s.me fun t => (t.arr a).holder = some c) ∧
      ∀ d, (s.arr a).holder = some d → d ≠ c →
        IssuesIn s (exec .lease s) (s.arr a) s.me fun t => (t.arr a).holder = some d ∧ (t.arr a).reqs[c] = true) ∧
    IssuesIn s (exec .unlease s) (s.arr a) s.me (fun t => (t.arr a).reqs[c] = false ∧
      ((s.arr a).holder = some c → (t.arr a).holder ≠ some c ∨ t.me.drops = true)) ∧
    ∃ t, exec .nop s = .next t ∧ Beside s t ∧ t.me.lasting = s.me.lasting ∧ t.me.residue = s.me.residue

/-! C ops (R135 to R145, R235 to R256). -/

/-- R135, R140, R152, R179, R235: a C op issues where its context holds the array lease, no slow-class result is met too
early with CHK set, and a paired one has its feed: for each of the forty C ops, every operand code and selector. It
enters the array with the selector pair, RM, known-answer constant, feed and capture as they stand, and its first
row executes three ac later; no register of the context changes. A feed it is paired with is then used, and its
capture takes the next place in the collector's order. R152, R179: a C op of a context that does not hold the lease
stays as residue, and the lease goes to it where nobody holds it; one that has no feed yet stays as residue. R183,
R243: with CHK set, a slow-class result met too early is the hazard fault, once its feed is there or stands staged. -/
def Obligations.CellOpsDescend : Prop :=
  (∀ (s : State) (i : Instr), i.slot = some 1 → i ≠ .nop → (s.arr s.act.arr).holder = some s.act.ctx →
    s.meetsSlow i = false → (s.paired = true → s.me.fed ≠ none) →
    let x := s.arr s.act.arr
    ∃ (o : COp) (l : List CollItem), o.id = x.opNo ∧ o.ctx = s.act.ctx ∧ o.ins = i ∧ o.sel = s.me.selOf i ∧
      o.rm = s.me.rm ∧ o.issued = s.now ∧ o.kat = s.me.kat ∧ o.rows = 32 * 2 ^ s.me.chain.toNat ∧ o.done = 0 ∧
      (∀ f, s.me.fed = some f → o.west = f.west ∧ o.push = f.push ∧ o.capt = f.capt) ∧
      (s.me.fed = none → o.west = none ∧ o.push = none ∧ o.capt = none) ∧
      l.length = (if o.capt.isSome then 1 else 0) ∧
      (∀ it ∈ l, it.op = x.opNo ∧ it.words = [] ∧ it.full = false ∧ it.sent = 0) ∧
      IssuesIn s (exec i s)
        { x with
          wave := x.wave ++ [o], opNo := x.opNo + 1,
          coll := x.coll.set s.act.ctx.val (x.coll[s.act.ctx] ++ l) s.act.ctx.isLt }
        { s.me with fed := none }
        fun t => t.agenda = insertTimed ⟨2 * (s.now + 3), .cOpRowExecute s.act.arr x.opNo 0⟩ s.agenda) ∧
  (∀ (s : State) (i : Instr), i.slot = some 1 → i ≠ .nop →
    ((s.arr s.act.arr).holder ≠ some s.act.ctx →
      ∃ t, exec i s = .next t ∧ Beside s t ∧ t.me.residue = s.me.residue ∧ t.me.lasting = s.me.lasting ∧
        ((s.arr s.act.arr).holder = none → s.me.residue ≠ [] → (t.arr s.act.arr).holder = some s.act.ctx) ∧
        (∀ d, (s.arr s.act.arr).holder = some d → s.me.residue ≠ [] → (t.arr s.act.arr).reqs[s.act.ctx] = true)) ∧
    ((s.arr s.act.arr).holder = some s.act.ctx → s.meetsSlow i = false → s.paired = true → s.me.fed = none →
      Waits s (exec i s)) ∧
    ((s.arr s.act.arr).holder = some s.act.ctx → s.meetsSlow i = true →
      (s.paired = true → s.me.fed ≠ none ∨ s.partnerFed = true) → Faults s (exec i s) 0x18) ∧
    (s.meetsSlow i = true ↔ s.me.capChk = true ∧
      (s.arr s.act.arr).slowHazard s.act.ctx s.now (2 ^ s.me.chain.toNat) i (s.me.selOf i) = true))

/-- R135, R136, R138, R140, R145: when a C op executes in a chain row, every cell that its selector pair selects makes
its writes, columns ascending, to take effect at the end of the ac; no other cell does. The row's flags are set in
sr.fpflags, and the op goes to the next row, or off the south edge, one ac later. The slow class (R243) makes its
writes three ac later. R35, R136, R238: at the end of the ac a cell's write reaches its register, and a result
enters the last-result file, whose earlier entry moves on. The registers are read back by the accessors that
operands use. R136: the end of an ac makes every write that still waits in the array, in their order: a cell's register then
holds the last of them, and one that none names stands. R243: a slow-class op's writes of a row are made at the end of the
third ac after, with its sticky flags. -/
def Obligations.CellRowsExecute : Prop :=
  (∀ (s : State) (a : ArrId) (op row : Nat) (o : COp), (s.arr a).wave.find? (·.id == op) = some o → row < o.rows →
    isCell o.ins = true → (∀ ty, o.ins ≠ .katc ty) → s.einj.arm = false →
    let b := s.chainArr a o.ctx (row / 32)
    let r := row % 32
    let x := s.arr b
    let on := (List.range 32).filter fun c => o.sel.rows.getLsbD r &&
      o.sel.cols.getLsbD (if o.sel.skew = 1 then (c + 32 - (r + 32 - o.sel.origin.toNat) % 32) % 32
        else if o.sel.skew = 2 then (c + (r + 32 - o.sel.origin.toNat) % 32) % 32 else c)
    let ws := (on.map fun c => (x.runCell o (row / 32) r c).1).flatten
    x.errs = [] →
    ∃ t, exec (.cOpRowExecute a op row) s = .next t ∧ SameMemory s t ∧
      (isSlow o.ins = false →
        (t.arr b).pend = x.pend ++ ws ∧
        (t.ctxOf a o.ctx).fpflags = on.foldl (fun f c => f ||| (x.runCell o (row / 32) r c).2) 0 ||| (s.ctxOf a o.ctx).fpflags) ∧
      (isSlow o.ins = true → (t.arr b).pend = x.pend ∧
        ⟨2 * (s.now + 3) + 1, .slowResultWrite a op row⟩ ∈ t.agenda) ∧
      ⟨2 * (s.now + 1), .cOpRowExecute a op (if r = 31 then o.rows + row / 32 else row + 1)⟩ ∈ t.agenda) ∧
  (∀ (x : Arr) (p cell r : Nat) (c : CtxId) (d : CWord) (side : BitVec 32), r < 48 →
    let put := fun (g : CellReg) => x.applyWrite p ⟨cell, c, g, d, side⟩
    (put (.m r)).mAt cell r = d ∧
    (∀ k q, q < 48 → (k, q) ≠ (cell, r) → (put (.m r)).mAt k q = x.mAt k q) ∧
    (r < 8 → (put (.o r)).oAt cell r = d) ∧
    (∀ w < 3, (put (.comm w)).commAt cell c w = ⟨d, side⟩ ∧
      ∀ e : CtxId, e ≠ c → (put (.comm w)).commAt cell e w = x.commAt cell e w) ∧
    (put .last).lastAt cell 0 = d ∧ (put .last).lastAt cell 1 = x.lastAt cell 0 ∧
    (∀ l < 4, ∀ k < 9, (put (.latch l k)).latchAt cell l k = d) ∧
    (put .cp).cpAt cell c = d.truncate 32 ∧ (put .cf).cfAt cell c = (d != 0)) ∧
  (∀ (x : Arr) (t : Nat) (asks : AsReq → Bool) (cell r : Nat), r < 48 → (∀ w ∈ x.pend, ∀ q, w.reg = .m q → q < 48) →
    (x.endAc t asks).pend = [] ∧
    (x.endAc t asks).mAt cell r =
      match (x.pend.filter fun w => decide (w.cell = cell ∧ w.reg = .m r)).getLast? with
      | some w => w.data
      | none => x.mAt cell r) ∧
  (∀ (s : State) (a : ArrId) (op row : Nat) (o : COp) (w : CellWrite) (f : BitVec 7),
    (s.arr a).wave.find? (·.id == op) = some o → o.slow = [(row, [w], f)] →
    ∃ t, exec (.slowResultWrite a op row) s = .next t ∧ SameMemory s t ∧
      (t.ctxOf a o.ctx).fpflags = (s.ctxOf a o.ctx).fpflags ||| f ∧
      ∀ r, w.reg = .m r →
        (t.arr (s.chainArr a o.ctx (row / 32))).mAt w.cell r = w.data)

/-- R240, R246: the integer ops, lane by lane, a lane that cp disables keeping its old value; no flag is raised. -/
def Obligations.CellIntegerOps : Prop :=
  ∀ (d a b : Opnd) (p : SelNo) (x : CellIn), ∀ k < 8,
    let A := laneOf 32 x.a k
    let B := laneOf 32 x.b k
    let lane := fun (i : Instr) (v : Nat) =>
      laneOf 32 (cellEval i x).data k = (if x.cp.getLsbD k then v else laneOf 32 x.d k) ∧ (cellEval i x).flags = 0 ∧
        (cellEval i x).side = 0x3F800000
    lane (.viadd d a b p) ((A + B) % 2 ^ 32) ∧ lane (.visub d a b p) ((A + 2 ^ 32 - B) % 2 ^ 32) ∧
    lane (.vimul d a b p) (A * B % 2 ^ 32) ∧ lane (.vand d a b p) (A &&& B) ∧ lane (.vor d a b p) (A ||| B) ∧
    lane (.vxor d a b p) (A ^^^ B) ∧ lane (.vshl d a b p) (A * 2 ^ (B % 32) % 2 ^ 32) ∧
    lane (.vshr d a b p) (A / 2 ^ (B % 32)) ∧
    lane (.vsra d a b p) (BitVec.ofInt 32 ((BitVec.ofNat 32 A).toInt / 2 ^ (B % 32))).toNat

/-- R240, R242, R249: the floating-point lane ops give the exact sum, difference, product or fused product of finite
lanes, rounded once; the fused ops take their addend from the destination and widen 16-bit lanes to FP32. -/
def Obligations.CellFloatOpsRoundOnce : Prop :=
  ∀ (d a b : Opnd) (p : SelNo) (ty : BitVec 2) (x : CellIn) (k : Nat) (u v z : Rat), ty ≠ 3 → x.cp.getLsbD k = true →
    let f := tyFmt ty
    let w := f.width
    (k < 256 / w → (f.value (laneOf w x.a k)).number = some u → (f.value (laneOf w x.b k)).number = some v →
      let gives := fun (i : Instr) (q : Rat) =>
        ∃ e : FVal, e.number = some q ∧ laneOf w (cellEval i x).data k = (f.ofVal x.round e).1
      gives (.vadd d a b p ty) (u + v) ∧ gives (.vsub d a b p ty) (u - v) ∧ gives (.vmul d a b p ty) (u * v)) ∧
    (k < 8 → (f.value (laneOf w x.a (if ty = 0 then k else 2 * k))).number = some u →
      (f.value (laneOf w x.b (if ty = 0 then k else 2 * k))).number = some v →
      (fp32.value (laneOf 32 x.d k)).number = some z →
      let gives := fun (i : Instr) (q : Rat) =>
        ∃ e : FVal, e.number = some q ∧ laneOf 32 (cellEval i x).data k = (fp32.ofVal x.round e).1
      gives (.vfma d a b p ty) (z + u * v) ∧ gives (.vfms d a b p ty) (z - u * v) ∧ gives (.vmacf d a b p ty) (z + u * v))

/-- R157, R159, R160, R240, R242 to R245: sign ops change the sign bit alone and a minimum or maximum is one of its lanes; a
NaN, in either operand where there are two, gives the canonical NaN of the format, and so does a result that is none. The
reciprocal to nearest is a value that none other of the format is nearer to, and the
slow class has its special cases. Conversions fill the lanes of their part and leave the others. R165: an LFSR shifts its
feedback in, and no step of one that is not zero gives zero. -/
def Obligations.CellSignsSpecialsAndConversions : Prop :=
  ∀ (d a b : Opnd) (p : SelNo) (part : BitVec 2) (x : CellIn) (k : Nat), x.cp.getLsbD k = true →
    (∀ ty : BitVec 2, ty ≠ 3 →
      let f := tyFmt ty
      let w := f.width
      let A := laneOf w x.a k
      let B := laneOf w x.b k
      let lane := fun (i : Instr) => laneOf w (cellEval i x).data k
      let nan := if ty = 0 then 0x7FC00000 else if ty = 1 then 0x7FC0 else 0x7E00
      k < 256 / w →
      (f.value A ≠ .nan → lane (.vabs d a b p ty) = A % 2 ^ (w - 1) ∧ lane (.vneg d a b p ty) = A ^^^ 2 ^ (w - 1)) ∧
      (f.value A = .nan → ∀ i ∈ [Instr.vabs d a b p ty, .vneg d a b p ty, .vrcp d a b p ty, .vrsq d a b p ty,
        .vexp2 d a b p ty, .vlog2 d a b p ty, .vtanh d a b p ty], lane i = nan) ∧
      (f.value A = .nan ∨ f.value B = .nan → ∀ i ∈ [Instr.vmin d a b p ty, .vmax d a b p ty, .vadd d a b p ty, .vsub d a b p ty,
        .vmul d a b p ty], lane i = nan) ∧
      (∀ u v, (f.value A).number = some u → (f.value B).number = some v →
        (lane (.vmin d a b p ty) = A ∨ lane (.vmin d a b p ty) = B) ∧ (f.value (lane (.vmin d a b p ty))).number = some (min u v) ∧
        (lane (.vmax d a b p ty) = A ∨ lane (.vmax d a b p ty) = B) ∧ (f.value (lane (.vmax d a b p ty))).number = some (max u v)) ∧
      (∀ u v z c, x.round = .rne → (f.value A).number = some u → u ≠ 0 → (f.value (lane (.vrcp d a b p ty))).number = some v → c < 2 ^ w →
        (f.value c).number = some z → (if 1 / u ≤ v then v - 1 / u else 1 / u - v) ≤ (if 1 / u ≤ z then z - 1 / u else 1 / u - z)) ∧
      ((f.value A).number = some 0 → f.value (lane (.vrcp d a b p ty)) = .inf (A.testBit (w - 1)) ∧
        f.value (lane (.vrsq d a b p ty)) = .inf (A.testBit (w - 1)) ∧ f.value (lane (.vlog2 d a b p ty)) = .inf true ∧
        (f.value (lane (.vexp2 d a b p ty))).number = some 1 ∧ lane (.vtanh d a b p ty) = A) ∧
      (∀ u, (f.value A).number = some u → u < 0 → lane (.vrsq d a b p ty) = nan ∧ lane (.vlog2 d a b p ty) = nan) ∧
      (∀ sg, f.value A = .inf sg → (f.value (lane (.vrcp d a b p ty))).number = some 0 ∧
        (f.value (lane (.vtanh d a b p ty))).number = some (if sg then -1 else 1) ∧
        (sg = true → lane (.vrsq d a b p ty) = nan ∧ lane (.vlog2 d a b p ty) = nan ∧
          (f.value (lane (.vexp2 d a b p ty))).number = some 0) ∧
        (sg = false → (f.value (lane (.vrsq d a b p ty))).number = some 0 ∧ f.value (lane (.vlog2 d a b p ty)) = .inf false ∧
          f.value (lane (.vexp2 d a b p ty)) = .inf false))) ∧
    (let cvt := fun (conv : BitVec 5) => cellEval (.vcvt d a conv part p) x
     let here : Prop := 8 * part.toNat ≤ k ∧ k < 8 * part.toNat + 8
     (k < 16 → part.toNat < 2 →
       (here → laneOf 16 (cvt 0x00).data k = (bf16.ofVal x.round (fp32.value (laneOf 32 x.a (k - 8 * part.toNat)))).1 ∧
         laneOf 16 (cvt 0x01).data k = (fp16.ofVal x.round (fp32.value (laneOf 32 x.a (k - 8 * part.toNat)))).1) ∧
       (¬here → laneOf 16 (cvt 0x00).data k = laneOf 16 x.d k ∧ laneOf 16 (cvt 0x01).data k = laneOf 16 x.d k)) ∧
     (k < 8 → part.toNat < 2 →
       (fp32.value (laneOf 32 (cvt 0x11).data k)).number = (bf16.value (laneOf 16 x.a (8 * part.toNat + k))).number ∧
       (fp32.value (laneOf 32 (cvt 0x12).data k)).number = (fp16.value (laneOf 16 x.a (8 * part.toNat + k))).number) ∧
     (k < 8 → (BitVec.ofNat 32 (laneOf 32 (cvt 0x1A).data k)).toInt = (BitVec.ofNat 8 (laneOf 8 x.a (8 * part.toNat + k))).toInt) ∧
     (k < 32 → here → (BitVec.ofNat 8 (laneOf 8 (cvt 0x1C).data k)).toInt =
       max (-128) (min 127 (BitVec.ofNat 32 (laneOf 32 x.a (k - 8 * part.toNat))).toInt)) ∧
     (k < 32 → ¬here → laneOf 8 (cvt 0x1C).data k = laneOf 8 x.d k)) ∧
    ∀ z : BitVec 32, (z ≠ 0 → lfsrStep z ≠ 0) ∧ (∀ i < 31, (lfsrStep z).getLsbD (i + 1) = z.getLsbD i) ∧
      (lfsrStep z).getLsbD 0 = (z.getLsbD 31 ^^ z.getLsbD 21 ^^ z.getLsbD 1 ^^ z.getLsbD 0)

/-- R158: rounding to nearest gives a value of the format that no other finite value of it is nearer to, and rounding
toward zero gives the largest that is not beyond; an infinite result is excepted. R155, R158: a value of a format
rounds to itself, without a flag. -/
def Obligations.RoundingIsRight : Prop :=
  (∀ f ∈ [fp32, bf16, fp16], ∀ (m : Nat) (e : Int) (c : Nat) (v u : Rat), c < 2 ^ (f.width - 1) →
    (f.value c).number = some u →
    let x := (m : Rat) * pow2 e
    ((f.value (f.round .rne false m e false).1).number = some v →
      (if x ≤ v then v - x else x - v) ≤ (if x ≤ u then u - x else x - u)) ∧
    ((f.value (f.round .rtz false m e false).1).number = some v → v ≤ x ∧ (u ≤ x → u ≤ v))) ∧
  (∀ f ∈ [fp32, bf16, fp16], ∀ (r : Round) (c : Nat), c < 2 ^ f.width → f.value c ≠ .nan → f.ofVal r (f.value c) = (c, 0))

/-- R241: a compare writes whole lanes, sets cp to the comparisons and clears it above, and sets cf where some lane is
true. R240, R242, R247, R248, R251, R252: moves keep the side field, a select copies bits, a broadcast and a permute
name lanes modulo their number, an integer reduction covers the enabled lanes; WLD and WRD move a latch word. -/
def Obligations.ComparesMovesAndReductions : Prop :=
  (∀ (d a b : Opnd) (p : SelNo) (x : CellIn),
    let marks := fun (i : Instr) (w : Nat) (t : Nat → Prop) =>
      (∀ k < 256 / w, (t k → laneOf w (cellEval i x).data k = 2 ^ w - 1) ∧ (¬t k → laneOf w (cellEval i x).data k = 0)) ∧
      (∃ cp, (cellEval i x).cp = some cp ∧ (∀ k < 256 / w, cp.getLsbD k = true ↔ t k) ∧
        ∀ k, 256 / w ≤ k → cp.getLsbD k = false) ∧
      (∃ cf, (cellEval i x).cf = some cf ∧ (cf = true ↔ ∃ k < 256 / w, t k)) ∧ (cellEval i x).flags = 0
    marks (.vicmpeq d a b p) 32 (fun k => laneOf 32 x.a k = laneOf 32 x.b k) ∧
    marks (.vicmplt d a b p) 32 (fun k =>
      (BitVec.ofNat 32 (laneOf 32 x.a k)).toInt < (BitVec.ofNat 32 (laneOf 32 x.b k)).toInt) ∧
    ∀ ty : BitVec 2, ty ≠ 3 →
      let f := tyFmt ty
      let va := fun k => f.value (laneOf f.width x.a k)
      let vb := fun k => f.value (laneOf f.width x.b k)
      marks (.vcmpeq d a b p ty) f.width (fun k => (va k).eqv (vb k) = true) ∧
      marks (.vcmplt d a b p ty) f.width (fun k => (va k).lt (vb k) = true) ∧
      marks (.vcmple d a b p ty) f.width (fun k => (va k).lt (vb k) = true ∨ (va k).eqv (vb k) = true)) ∧
  (∀ (d a b : Opnd) (p : SelNo) (x : CellIn), ∀ k < 8,
    let A := fun j => laneOf 32 x.a j
    laneOf 32 (cellEval (.vmov d a b p 3) x).data k = (if x.cp.getLsbD k then A k else laneOf 32 x.d k) ∧
    (cellEval (.vmov d a b p 3) x).side = x.aSide ∧
    laneOf 32 (cellEval (.vsel d a b p 3) x).data k = (if x.cp.getLsbD k then A k else laneOf 32 x.b k) ∧
    laneOf 32 (cellEval (.vbcl d a b p 3) x).data k = A (laneOf 32 x.b 0 % 8) ∧
    laneOf 32 (cellEval (.vperm d a b p 3) x).data k = A (laneOf 32 x.b k % 8) ∧
    laneOf 32 (cellEval (.vrsum d a b p 3) x).data k =
      ((List.range 8).foldl (fun t j => t + (if x.cp.getLsbD j then A j else 0)) 0) % 2 ^ 32 ∧
    ((BitVec.ofNat 32 (laneOf 32 (cellEval (.vrmax d a b p 3) x).data k)).toInt =
      (List.range 8).foldl (fun t j => if x.cp.getLsbD j then max t (BitVec.ofNat 32 (A j)).toInt else t) (-2 ^ 31)))

/-- R168, R169, R250, R251, R252: MMA in one cell, with its unread operand code 0x00 or 0x44 (R189). It writes cv and the
last result, forwards the fed word and its scale east, with SHIFT takes the cw of the cell above as it stood before that
cell ran the op, or in the first row the word pushed to cw, and with COMMIT puts the resulting cw in a part of a latch.
Lane by lane, ty i8 adds the dot product of the fed bytes and a latch block to the word from above (zero with ZP),
saturating; the other types add to it the exact sum of products times both scales, rounded once, with the cases of R168
for NaN, a zero scale and infinities. WLD loads a latch word and WRD reads one. -/
def Obligations.MatrixOpsInACell : Prop :=
  ∀ (x : Arr) (o : COp) (p r c : Nat) (f : Opnd) (shift commit : Bool) (pt : BitVec 4) (l cl : BitVec 2) (zp : Bool)
    (sp : SelNo) (ty : BitVec 2), f = 0x00 ∨ f = 0x44 → o.ins = .mma f shift commit pt l cl zp sp ty →
    let cell := r * 32 + c
    let one : BitVec 32 := 0x3F800000
    let a := (x.operand o p r c 0x3C)
    let above : CWord := if zp then 0 else (x.operand o p r c 0x3E).1
    let old := x.commAt cell o.ctx 2
    let cw : CWord × BitVec 32 :=
      if shift = false then (old.data, old.side)
      else if p = 0 ∧ r = 0 then (match o.push with | some (true, ws) => ws.getD c (0, one) | _ => (0, one))
      else o.cwOld.getD c (0, one)
    (∃ v, (x.runCell o p r c).1 = [⟨cell, o.ctx, .comm 1, v, one⟩, ⟨cell, o.ctx, .comm 0, a.1, a.2⟩,
        ⟨cell, o.ctx, .last, v, one⟩] ++ (if shift then [⟨cell, o.ctx, .comm 2, cw.1, cw.2⟩] else []) ++
          (if commit then [⟨cell, o.ctx, .latch cl.toNat pt.toNat, cw.1, cw.2⟩] else []) ∧
      (ty = 3 → ∀ k < 8, (BitVec.ofNat 32 (laneOf 32 v k)).toInt =
        max (-2 ^ 31) (min (2 ^ 31 - 1) ((BitVec.ofNat 32 (laneOf 32 above k)).toInt +
          (List.range 32).foldl (fun t j => t + (BitVec.ofNat 8 (laneOf 8 a.1 j)).toInt *
            (BitVec.ofNat 8 (laneOf 8 (x.latchAt cell l.toNat k) j)).toInt) 0))) ∧
      (ty ≠ 3 → ∀ k < 8,
        let n := if ty = 0 then 32 else 16
        let el := fun (w : CWord) (i : Nat) =>
          if ty = 0 then mf8Value (laneOf 8 w i) else if ty = 1 then bf16.value (laneOf 16 w i) else fp16.value (laneOf 16 w i)
        let A := el a.1
        let W := el (x.latchAt cell l.toNat k)
        let sa := fp32.value a.2.toNat
        let sw := fp32.value (laneOf 32 (x.latchAt cell l.toNat 8) k)
        let P := laneOf 32 above k
        let lane := laneOf 32 v k
        let plus := fun (q : Nat) => lane = (fp32.sum .rne q P).1
        let inf := fun (sg : Bool) => if sg then 0xFF800000 else 0x7F800000
        let t := fun i => ((A i).mul (W i)).1
        let noNan : Prop := (∀ i < n, A i ≠ .nan ∧ W i ≠ .nan) ∧ sa ≠ .nan ∧ sw ≠ .nan
        let zero := fun (z : FVal) => z.number = some 0
        (¬noNan → lane = 0x7FC00000) ∧
        (noNan → zero sa ∨ zero sw → plus 0) ∧
        (∀ (u w : Nat → Rat) (su sv : Rat), (∀ i < n, (A i).number = some (u i) ∧ (W i).number = some (w i)) →
          let S := (List.range n).foldl (fun t i => t + u i * w i) 0
          (sa.number = some su → sw.number = some sv → su ≠ 0 → sv ≠ 0 →
            ∃ e : FVal, e.number = some (S * su * sv) ∧ (S = 0 → e.sign = false) ∧ plus (fp32.ofVal .rne e).1) ∧
          (noNan → ¬zero sa → ¬zero sw → sa.isInf = true ∨ sw.isInf = true →
            (S = 0 → lane = 0x7FC00000) ∧ (S ≠ 0 → plus (inf ((decide (S < 0) != sa.sign) != sw.sign))))) ∧
        (noNan → ¬zero sa → ¬zero sw →
          let bad : Prop := (∃ i < n, t i = .nan) ∨ ((∃ i < n, t i = .inf true) ∧ ∃ i < n, t i = .inf false)
          (bad → lane = 0x7FC00000) ∧
          (¬bad → ∀ sg, (∃ i < n, t i = .inf sg) → plus (inf ((sg != sa.sign) != sw.sign)))))) ∧
    ∀ (part : BitVec 4) (d q : Opnd),
      (x.runCell { o with ins := .wld part q l sp } p r c).1 =
        [⟨cell, o.ctx, .latch l.toNat part.toNat, (x.operand { o with ins := .wld part q l sp } p r c q).1,
          (x.operand { o with ins := .wld part q l sp } p r c q).2⟩] ∧
      (d.toNat < 48 → (x.runCell { o with ins := .wrd d part l sp } p r c).1 =
        [⟨cell, o.ctx, .m d.toNat, x.latchAt cell l.toNat part.toNat, 0x3F800000⟩,
          ⟨cell, o.ctx, .last, x.latchAt cell l.toNat part.toNat, 0⟩])

/-- R256, R341, R344: a known-answer check that agrees records the stamp and the ac in every array of the chain; one
that does not raises the data error 0x0005 with its record. -/
def Obligations.KnownAnswerCheck : Prop :=
  ∀ (s : State) (a : ArrId) (op : Nat) (o : COp), (s.arr a).wave.find? (·.id == op) = some o → o.rows = 32 →
    (katCrc o.katRow = o.kat →
      ∃ t, exec (.katcCheck a op) s = .next t ∧ (t.arr a).passAc = s.now ∧
        (t.arr a).passStamp = s.lastStamp (s.ctxOf a o.ctx) ∧ t.errSeq = s.errSeq ∧ SameMemory s t) ∧
    (katCrc o.katRow ≠ o.kat →
      ∃ t, exec (.katcCheck a op) s = .next t ∧ t.errSeq = s.errSeq + 1 ∧ (t.arr a).passAc = (s.arr a).passAc ∧
        SameMemory s t ∧ (∃ e, e ∈ t.funcs[(0 : Fin 8)].errs ∧ e.reason = 0x0005 ∧ e.unit_ = a.val ∧ e.seq = s.errSeq) ∧
        ((s.ctxOf a o.ctx).run = .active → (s.ctxOf a o.ctx).dataErr = none → o.seg = (s.ctxOf a o.ctx).seg →
          (t.ctxOf a o.ctx).dataErr = some (0x0005, o.seg)))

/-! E ops and the array store (R40, R41, R257 to R276). -/

/-- R142, R178, R263, R269: a paired feed issues with its C op once its words are staged: the feed leaves the head of
the staged feeds and is handed to the C op with its push and its capture; its descriptor has advanced by one feed,
the words that it took are empty, and its capture descriptor counts one more. SPULL and EPULL feed nothing and only
capture. A feed with a staging fault faults here, and one whose words are not all read waits. R261: where the edge unit
holds eight ops of the context, or the paired C op cannot issue, all of them wait. R262, R264 to R268:
staging begins the next feed, of each of the five forms and in a chain of any length, with the words that its descriptors,
index vector and tile give. One whose words and scales lie in the plan asks each position's array store for its west words,
the leader's alone for its push words, and has as many reads to wait for; another stages the AS-range fault 0x10 and asks for
nothing, and a tile that R267 refuses the descriptor fault 0x12. R142, R263: a word that a bank reads for a staged feed is
put at its position, a scale as the side field there, and is one read less to wait for; taken, it is reserved and its tag
stays full until the bundle issues. R267: a staged word's clipped bytes are replaced as the bundle issues. -/
def Obligations.FeedsAreStagedAndIssue : Prop :=
  (∀ (s : State) (fd cd pd : BitVec 3) (ft : BitVec 2) (ct pt : Bool) (iv : BitVec 2) (th : BitVec 4),
    let captures := fun (t : State) (f : Fed) (put east : Bool) =>
      (cd = 0 → f.capt = none ∧ t.me.cd = s.me.cd) ∧
      (cd ≠ 0 → ∃ k, f.capt = some k ∧ k.desc = (s.me.cd[cd.toNat]'cd.isLt) ∧ k.j = cdJ k.desc ∧ k.put = put ∧ k.east = east ∧
        cdJ (t.me.cd[cd.toNat]'cd.isLt) = (k.j + 1) % 2 ^ 32 ∧
        ∀ n : Fin 8, n.val ≠ cd.toNat → t.me.cd[n] = s.me.cd[n])
    let advanced := fun (t : State) (n : BitVec 3) =>
      let d := s.me.fd[n.toNat]'n.isLt
      let e := t.me.fd[n.toNat]'n.isLt
      fdCount e = (fdCount d + 1) % 2 ^ 32 ∧ (fdCur e : Int) = ((fdCur d : Int) + fdFstride d) % 2 ^ 24 ∧
        fdWstride e = fdWstride d ∧ fdFstride e = fdFstride d ∧ fdWords e = fdWords d
    (s.partnerReady = true → s.me.edgeQ.length < 8 →
      (∀ i ∈ [Instr.wfeed fd cd ft ct, .wfeedg fd cd ft ct iv, .wfeedt fd cd ft ct th, .npush fd cd ft ct pt,
          .dfeed fd cd ft ct pt pd], 
        (s.me.staged = [] → Waits s (exec i s)) ∧ ∀ g l, s.me.staged = g :: l →
        (g.ins ≠ i → Waits s (exec i s)) ∧
        (g.ins = i →
        (g.waitFor ≠ 0 → Waits s (exec i s)) ∧
        (g.waitFor = 0 → ∀ code, g.fault = some code → Faults s (exec i s) code) ∧
        (g.waitFor = 0 → g.fault = none →
          ∃ t f, exec i s = .next t ∧ SameMemory s t ∧ Left s t ∧ t.me.g = s.me.g ∧ t.me.flags = s.me.flags ∧
            t.me.staged = l ∧ t.me.fed = some f ∧ f.push = g.push ∧ (g.clips = [] → f.west = g.west) ∧
            (∀ w, g.west = some w → ∃ v, f.west = some v ∧ v.length = w.length ∧
              (∀ k, (∀ e ∈ g.clips, e.1 ≠ k) → v[k]? = w[k]?) ∧
              ∀ k m q z, g.clips = [(k, m, q)] → w[k]? = some z →
                ∃ y, v[k]? = some (y, z.2) ∧ ∀ b < 32, byteOf y b = if m.getLsbD b then byteOf q b else byteOf z.1 b) ∧
            captures t f ct false ∧ (∀ e ∈ g.reserved, (t.arr e.1).tagAt e.2 = false) ∧
            ((i ≠ .dfeed fd cd ft ct pt pd ∨ pd ≠ fd) → advanced t fd) ∧
            (i = .dfeed fd cd ft ct pt pd → pd ≠ fd → advanced t pd) ∧
            (i = .dfeed fd cd ft ct pt pd → pd = fd →
              fdCount (t.me.fd[fd.toNat]'fd.isLt) = (fdCount (s.me.fd[fd.toNat]'fd.isLt) + 2) % 2 ^ 32) ∧
            ∀ n : Fin 8, n.val ≠ fd.toNat → (i = .dfeed fd cd ft ct pt pd → n.val ≠ pd.toNat) → t.me.fd[n] = s.me.fd[n]))) ∧
      (∃ t f, exec (.spull cd ct) s = .next t ∧ Beside s t ∧ Left s t ∧ t.me.fed = some f ∧ f.west = none ∧ f.push = none ∧
        captures t f ct false ∧ t.me.lasting = { s.me with fed := t.me.fed, cd := t.me.cd }.lasting) ∧
      (∃ t f, exec (.epull cd ct) s = .next t ∧ Beside s t ∧ Left s t ∧ t.me.fed = some f ∧ f.west = none ∧ f.push = none ∧
        captures t f ct true ∧ t.me.lasting = { s.me with fed := t.me.fed, cd := t.me.cd }.lasting)) ∧
    (s.partnerReady = false ∨ 8 ≤ s.me.edgeQ.length →
      ∀ i ∈ [Instr.wfeed fd cd ft ct, .wfeedg fd cd ft ct iv, .wfeedt fd cd ft ct th, .npush fd cd ft ct pt,
          .dfeed fd cd ft ct pt pd, .spull cd ct, .epull cd ct], Waits s (exec i s))) ∧
  (∀ (s : State) (a : ArrId) (c : CtxId) (presented : Bool) (pc : Nat) (i : Instr) (fd cd pd : BitVec 3) (ft : BitVec 2)
      (ct pt : Bool) (iv : BitVec 2) (th : BitVec 4),
    let x := s.ctxOf a c
    let n := 2 ^ x.chain.toNat
    let p := s.planOf x
    s.nextStage a c = some (presented, pc, i) → (∀ k < n, ∀ j < n, s.chainArr a c k = s.chainArr a c j → k = j) →
    let at_ := fun (m : BitVec 3) => x.stagedFd[m.toNat]'m.isLt
    -- the words of a descriptor from a base: pushed or not, position, offset, and the offset of the scale
    let words := fun (d : BitVec 256) (push : Bool) (base : Int) => (List.range (fdWords d)).map fun (w : Nat) =>
      let o := base + w * fdWstride d
      (push, w, o, if fdSmode d then some ((((fdSbase d : Int) + o / 32 * 4) % 2 ^ 24).toNat) else none)
    let same := fun (t : State) => SameMemory s t ∧ (t.ctxOf a c).g = x.g ∧ (t.ctxOf a c).fd = x.fd ∧ (t.ctxOf a c).cd = x.cd
    let stages := fun (l : List (Bool × Nat × Int × Option Nat)) (west push : Bool) (q : Staged → Prop) =>
      let inPlan : Prop := ∀ e ∈ l, 0 ≤ e.2.2.1 ∧ e.2.2.1 < 0x1000000 ∧ p.holds (e.2.2.1.toNat / 32 * 32) 32 = true ∧
        ∀ k, e.2.2.2 = some k → p.holds k 4 = true
      ∃ t g, exec (.feedStage a c) s = .next t ∧ same t ∧ (t.ctxOf a c).staged = x.staged ++ [g] ∧ g.pc = pc ∧ g.ins = i ∧
        g.reserved = [] ∧ q g ∧
        g.west = (if west then some (List.replicate (32 * n) (0, 0x3F800000)) else none) ∧
        g.push = (if push then some (pt, List.replicate 32 (0, 0x3F800000)) else none) ∧
        (inPlan → g.fault = none ∧
          g.waitFor = (l.map fun e => (if e.1 then 1 else n) * (if e.2.2.2.isSome then 2 else 1)).foldl (· + ·) 0 ∧
          ∀ k < n, (t.arr (s.chainArr a c k)).asReqs.map (·.word) = (s.arr (s.chainArr a c k)).asReqs.map (·.word) ++
            ((l.filter fun e => decide (k = 0) || !e.1).map fun e =>
              e.2.2.1.toNat / 32 :: e.2.2.2.toList.map (· / 32)).flatten) ∧
        (¬inPlan → g.fault = some 0x10 ∧ g.waitFor = 0 ∧ ∀ b, (t.arr b).asReqs = (s.arr b).asReqs)
    let plain := fun (st : Bool) (g : Staged) => g.status = st ∧ g.clips = []
    let d := at_ fd
    (i = .wfeed fd cd ft ct → stages (words d false (fdCur d)) true false (plain false)) ∧
    (i = .npush fd cd ft ct pt → stages (words d true (fdCur d)) false true (plain false)) ∧
    (i = .dfeed fd cd ft ct pt pd → pd ≠ fd →
      stages (words d false (fdCur d) ++ words (at_ pd) true (fdCur (at_ pd))) true true (plain false)) ∧
    (i = .dfeed fd cd ft ct pt pd → pd = fd →
      stages (words d false (fdCur d) ++ words d true (((fdCur d : Int) + fdFstride d) % 2 ^ 24)) true true (plain false)) ∧
    (i = .wfeedg fd cd ft ct iv →
      let idx := ((x.iv[iv.toNat]'iv.isLt).extractLsb' (16 * (fdCount d % 32)) 16).toNat
      (idx = 0xFFFF → stages [] true false (plain false)) ∧
      (idx ≠ 0xFFFF → fdLimit d ≤ idx → stages [] true false (plain true)) ∧
      (idx ≠ 0xFFFF → idx < fdLimit d → stages (words d false ((fdCur d : Int) + idx * fdGstride d)) true false (plain false))) ∧
    (i = .wfeedt fd cd ft ct th →
      let h := (if presented then x.capTh else x.th)[th.toNat]'th.isLt
      let sound : Prop := tileClean h = true ∧ h.extractLsb' 0 2 = 1 ∧ tileSigned h 36 % 32 = 0
      let y := tileSigned h 32 + fdCount d
      let clipped := fun (r b : Nat) =>
        let z := tileSigned h 36 + 32 * r + b
        decide (y < 0 ∨ (tileField h 24 4 : Int) ≤ y ∨ z < 0 ∨ (tileField h 28 4 : Int) ≤ z)
      (¬sound → ∃ t g, exec (.feedStage a c) s = .next t ∧ same t ∧ (t.ctxOf a c).staged = x.staged ++ [g] ∧
        g.fault = some 0x12 ∧ g.waitFor = 0 ∧ ∀ b, (t.arr b).asReqs = (s.arr b).asReqs) ∧
      (sound → stages (((List.range (fdWords d)).filter fun r => (List.range 32).any fun b => !clipped r b).map fun (r : Nat) =>
          (false, r, (tileField h 8 8 : Int) + y * tileField h 16 4 + (tileSigned h 36 + 32 * r), none)) true false fun g =>
        g.status = false ∧ (∀ e ∈ g.clips, e.1 < 32 * n ∧ ∀ b < 32, e.2.1.getLsbD b = clipped (e.1 % 32) b ∧
          byteOf e.2.2 b = BitVec.ofNat 8 ((h.extractLsb' 32 32).toNat / 2 ^ (8 * (b % 4)))) ∧
        ∀ k < n, ∀ r < fdWords d, (∃ b < 32, clipped r b = true) → ∃ e ∈ g.clips, e.1 = 32 * k + r))) ∧
  (∀ (s : State) (a : ArrId) (bank : Fin 64) (r : AsReq) (c : CtxId) (id pos : Nat) (push scale : Bool) (l m : List Staged)
      (g : Staged),
    bestReq ((s.arr a).asReqs.filter (s.asEligible a bank.val)) = some r → s.einj.arm = false → (s.arr a).errs = [] →
    r.who = .feed c id pos push scale → r.write = false → r.mode ∈ [TagMode.ignore, .fullKeep, .fullTake] →
    r.mode.holds ((s.arr a).tagAt r.word && !(s.arr a).reserved.contains r.word) = true →
    (s.ctxOf r.owner c).staged = l ++ g :: m → (∀ q ∈ l ++ m, q.id ≠ id) → g.id = id →
    let k := pos % 1024
    let v := (s.arr a).asWord r.word
    let put := fun (ws : List (CWord × BitVec 32)) (e : CWord × BitVec 32) =>
      ws.set k (if scale then (e.1, v.extractLsb' (32 * (pos / 1024)) 32) else (v, e.2))
    ∃ t h, exec (.asBankAccess a bank) s = .next t ∧ SameMemory s t ∧ (t.ctxOf r.owner c).staged = l ++ h :: m ∧
      h.waitFor = g.waitFor - 1 ∧ h.ins = g.ins ∧ h.fault = g.fault ∧ (t.arr a).asw = (s.arr a).asw ∧
      (∀ w, (t.arr a).tagAt w = (s.arr a).tagAt w) ∧
      (∀ ws e, g.west = some ws → ws[k]? = some e → h.west = if push then some ws else some (put ws e)) ∧
      (∀ b ws e, g.push = some (b, ws) → ws[k]? = some e → h.push = if push then some (b, put ws e) else some (b, ws)) ∧
      (r.mode = .fullTake → h.reserved = g.reserved ++ [(a, r.word)] ∧ r.word ∈ (t.arr a).reserved) ∧
      (r.mode ≠ .fullTake → h.reserved = g.reserved ∧ (t.arr a).reserved = (s.arr a).reserved))

/-- R272, R273, R271: EACLR and EADRAIN take the next place in the context's capture order, or raise the descriptor
fault 0x12 where their rows or words are not in the plan; both wait where the edge unit holds eight ops (R261). R143, R269 to R273: south and east captures bring their
words to the collector's order, and the collector writes: EACLR clears its rows, a capture overwrites eight elements of
its row or adds to them, with INT32 saturation or as FP32 to nearest even, an array-store capture asks for its bank, and
EADRAIN does so for each word of its rows in turn, converted as DFMT says, in ascending order, leaving the rows as they are;
a word that R270 discards is passed over. The bank that takes a word brings the collector to the next. R143, R269: the words of row 31's cv, taken as
the op left the south edge, enter the collector's order as one full sample; a word of ch of column 31 enters row by
row, the last making the sample full. -/
def Obligations.EdgeAccumulatorAndCaptures : Prop :=
  (∀ (s : State) (ga : Reg) (cnt : BitVec 5) (first : BitVec 7) (cd : BitVec 3) (ct : Bool), s.Clear [ga] 0 →
    let a := s.act.arr
    let c := s.act.ctx
    let x := s.arr a
    let row := (s.me.rd ga + first.zeroExtend 64).toNat
    let n := cnt.toNat + 1
    let p := s.planOf s.me
    let rowsOk : Prop := row + n ≤ 128 ∧ p.eaFirst ≤ row ∧ row + n ≤ p.eaFirst + p.eaCount
    let queued := fun (o : Out) (k : CollKind) =>
      ∃ it : CollItem, it.kind = k ∧ it.op = x.opNo ∧ it.sent = 0 ∧
        IssuesIn s o { x with coll := x.coll.set c.val (x.coll[c] ++ [it]) c.isLt, opNo := x.opNo + 1 } s.me fun _ => True
    (8 ≤ s.me.edgeQ.length → Waits s (exec (.eaclr ga cnt first) s) ∧ Waits s (exec (.eadrain cd ct ga cnt first) s)) ∧
    (s.me.edgeQ.length < 8 →
     (rowsOk → queued (exec (.eaclr ga cnt first) s) (.clear row n)) ∧
     (¬rowsOk → Faults s (exec (.eaclr ga cnt first) s) 0x12) ∧
     let d := s.me.cd[cd.toNat]'cd.isLt
     (rowsOk → cdKind d = 2 → p.drainOk d n = true → queued (exec (.eadrain cd ct ga cnt first) s) (.drain d ct row n)) ∧
     (¬(rowsOk ∧ cdKind d = 2 ∧ p.drainOk d n = true) → Faults s (exec (.eadrain cd ct ga cnt first) s) 0x12))) ∧
  (∀ (s : State) (a : ArrId) (c : CtxId) (it : CollItem) (l : List CollItem), (s.arr a).coll[c] = it :: l →
    s.lastPos a c = a → (s.ctxOf a c).chain = 0 → s.collBusy a c = false → s.einj.arm = false → (s.arr a).errs = [] →
    (∀ row n, it.kind = .clear row n →
      ∃ t, exec (.collectorWrite a c) s = .next t ∧ SameMemory s t ∧ (t.arr a).coll[c] = l ∧
        (∀ i < n, ∀ e < 256, (t.arr a).eaAt (row + i) e = 0) ∧
        ∀ i e, e < 256 → ¬(row ≤ i ∧ i < row + n) → (t.arr a).eaAt i e = (s.arr a).eaAt i e) ∧
    let asks := fun (t : State) (put : Bool) (v : CWord) (off : Int) =>
      ∃ r, (t.arr a).asReqs = (s.arr a).asReqs ++ [r] ∧ r.write = true ∧ r.data = v ∧ r.mask = 0xFFFFFFFF ∧
        r.word = off.toNat / 32 ∧ r.who = .capture c ∧ r.mode = if put then .emptyPut else .ignore
    let next : List CollItem := { it with sent := it.sent + 1 } :: l
    (∀ k int z idx w, it.kind = .capture k int → it.words[it.sent]? = some (z, idx, w) → idx < 32 → it.full = true →
      (k.row idx = none → cdKind k.desc ≤ 2 →
        ∃ t, exec (.collectorWrite a c) s = .next t ∧ (t.arr a).coll[c] = next ∧ (t.arr a).ea = (s.arr a).ea ∧
          (t.arr a).asReqs = (s.arr a).asReqs) ∧
      (∀ i, k.row idx = some i → 
        let e0 := 8 * idx
        let old := fun (e : Nat) => (s.arr a).eaAt (cdEaRow k.desc + i) (e0 + e)
        ∃ t, exec (.collectorWrite a c) s = .next t ∧ SameMemory s t ∧
          let new := fun (e : Nat) => (t.arr a).eaAt (cdEaRow k.desc + i) (e0 + e)
          (cdKind k.desc ≤ 1 → (t.arr a).coll[c] = next) ∧
          (cdKind k.desc = 0 → ∀ e < 8, (new e).toNat = laneOf 32 w e) ∧
          (cdKind k.desc = 1 → int = true → ∀ e < 8, (new e).toInt =
            max (-2 ^ 31) (min (2 ^ 31 - 1) ((old e).toInt + (BitVec.ofNat 32 (laneOf 32 w e)).toInt))) ∧
          (cdKind k.desc = 1 → int = false → ∀ e < 8, ∀ u v, (fp32.value (old e).toNat).number = some u →
            (fp32.value (laneOf 32 w e)).number = some v →
            ∃ q : FVal, q.number = some (u + v) ∧ (new e).toNat = (fp32.ofVal .rne q).1) ∧
          (cdKind k.desc = 2 → asks t k.put w (cdOffset k.desc i idx) ∧ (t.arr a).ea = (s.arr a).ea))) ∧
    (∀ d put row n, it.kind = .drain d put row n → cdDfmt d < 6 →
      let f := cdDfmt d
      let by_ := if f = 0 ∨ f = 4 then 4 else if f = 1 ∨ f = 2 then 2 else 1
      let i := it.sent / (8 * by_)
      let w := it.sent % (8 * by_)
      (it.sent < 8 * by_ * n →
        ∃ t v, exec (.collectorWrite a c) s = .next t ∧ SameMemory s t ∧ (t.arr a).ea = (s.arr a).ea ∧
          asks t put v (cdOffset d i w) ∧
          ∀ e < 32 / by_,
            let x := ((s.arr a).eaAt (row + i) (w * (32 / by_) + e)).toNat
            laneOf (8 * by_) v e = (if f = 1 then (bf16.ofVal .rne (fp32.value x)).1
              else if f = 2 then (fp16.ofVal .rne (fp32.value x)).1 else if f = 3 then (toMf8 none (fp32.value x)).1
              else if f = 5 then ((max (-128) (min 127 (BitVec.ofNat 32 x).toInt)) % 256).toNat else x)) ∧
      (8 * by_ * n ≤ it.sent → ∃ t, exec (.collectorWrite a c) s = .next t ∧ (t.arr a).coll[c] = l))) ∧
  (∀ (s : State) (a : ArrId) (bank : Fin 64) (r : AsReq) (c : CtxId) (it : CollItem) (l : List CollItem),
    bestReq ((s.arr a).asReqs.filter (s.asEligible a bank.val)) = some r → s.einj.arm = false → (s.arr a).errs = [] →
    r.who = .capture c → r.write = true → r.mode.holds ((s.arr a).tagAt r.word && !(s.arr a).reserved.contains r.word) = true →
    (s.arr r.owner).coll[c] = it :: l →
    ∃ t, exec (.asBankAccess a bank) s = .next t ∧ SameMemory s t ∧ (t.arr r.owner).coll[c] = { it with sent := it.sent + 1 } :: l ∧
      (r.mask = 0xFFFFFFFF → (t.arr a).asWord r.word = r.data)) ∧
  (∀ (s : State) (a : ArrId) (op row : Nat) (o : COp) (it : CollItem), (s.arr a).wave.find? (·.id == op) = some o →
    (s.arr a).coll[o.ctx] = [it] → it.op = op →
    (∃ t, exec (.southCapture a op) s = .next t ∧ SameMemory s t ∧
      (t.arr a).coll[o.ctx] = [{ it with
        words := it.words ++ (List.range 32).map (fun c => (s.now, c, (o.sample.getD c (0, 0x3F800000)).1)), full := true }]) ∧
    (∃ t, exec (.eastCapture a op row) s = .next t ∧ SameMemory s t ∧
      (t.arr a).coll[o.ctx] = [{ it with
        words := it.words ++ [(s.now, row, ((s.arr (s.chainArr a o.ctx (row / 32))).commAt (row % 32 * 32 + 31) o.ctx 0).data)]
        full := it.full || decide (row + 1 = o.rows) }]))

/-- R274, R258 to R260, R296: a descriptor, index-vector or tile load is kept as residue for 4 ac from its first
presentation, and asks at once for the words of an image that is aligned and in the plan; then a misaligned offset is the
fault 0x11, one off the plan the AS-range fault 0x10, and once the words are read the register is loaded, or the
descriptor fault 0x12 is raised where the image's check fails and the register stands. R261: in the E slot the op first
waits for room in the edge unit, and loads once the tag ops issued before it are done. -/
def Obligations.DescriptorLoads : Prop :=
  ∀ (s : State) (ga : Reg) (imm : BitVec 12) (fd cd : BitVec 3) (iv : BitVec 2) (th : BitVec 4) (lo hi : CWord),
    s.Clear [ga] 0 →
    let at_ := fun (unit : Nat) => (effective (s.me.rd ga) imm s.ext unit).toNat
    let inPlan := fun (off n : Nat) => off + 32 * n ≤ 0x1000000 ∧ (s.planOf s.me).holds off (32 * n) = true
    let words := fun (t : State) => ((t.arr s.act.arr).asReqs.map (·.word))
    let begins := fun (o : Out) (off align n : Nat) =>
      (s.phase = 0 →
        (off % align = 0 → inPlan off n → Proceeds s o (s.now + 4) fun t => words t = words s ++ (List.range n).map (off / 32 + ·)) ∧
        (¬(off % align = 0 ∧ inPlan off n) → Proceeds s o (s.now + 4) fun t => words t = words s)) ∧
      (s.phase ≠ 0 → s.now < s.phase → Waits s o) ∧
      (s.phase ≠ 0 → s.phase ≤ s.now →
        (off % align ≠ 0 → Faults s o 0x11) ∧
        (off % align = 0 → ¬inPlan off n → Faults s o 0x10) ∧
        (off % align = 0 → inPlan off n → s.me.imageWords s.act.slot n = none → Waits s o))
    let read := fun (off align n : Nat) (l : List CWord) =>
      s.phase ≠ 0 ∧ s.phase ≤ s.now ∧ off % align = 0 ∧ inPlan off n ∧ s.me.imageWords s.act.slot n = some l
    let loads := fun (o : Out) (y : Ctx) => Issues s o { y with descBuf := s.me.descBuf.filter fun e => e.1 / 2 != s.act.slot.val }
    let refuses := fun (o : Out) => ∃ t, o = .next t ∧ SameMemory s t ∧ SameRegs s.me t.me ∧ t.me.residue = s.me.residue ∧
      (s.act.slot.val, 0x12) ∈ t.me.faults
    ((if s.phase = 0 then s.me.edgeQ.length < 8 else s.me.edgeQ = []) →
      begins (exec (.fdset fd ga imm) s) (at_ 32) 32 1 ∧ begins (exec (.cdset cd ga imm) s) (at_ 32) 32 1 ∧
      begins (exec (.ivld iv ga imm) s) (at_ 64) 32 2) ∧
    ((if s.phase = 0 then 8 ≤ s.me.edgeQ.length else s.me.edgeQ ≠ []) →
      Waits s (exec (.fdset fd ga imm) s) ∧ Waits s (exec (.cdset cd ga imm) s) ∧ Waits s (exec (.ivld iv ga imm) s)) ∧
    begins (exec (.tdesc ga th) s) (s.me.rd ga).toNat 64 2 ∧
    (s.me.edgeQ = [] → read (at_ 32) 32 1 [lo] →
      (fdOk lo = true → loads (exec (.fdset fd ga imm) s) { s.me with fd := s.me.fd.set fd.toNat lo fd.isLt }) ∧
      (cdOk (s.planOf s.me) (2 ^ s.me.chain.toNat) lo = true →
        loads (exec (.cdset cd ga imm) s) { s.me with cd := s.me.cd.set cd.toNat lo cd.isLt }) ∧
      (fdOk lo = false → refuses (exec (.fdset fd ga imm) s)) ∧
      (cdOk (s.planOf s.me) (2 ^ s.me.chain.toNat) lo = false → refuses (exec (.cdset cd ga imm) s))) ∧
    (s.me.edgeQ = [] → read (at_ 64) 32 2 [lo, hi] →
      loads (exec (.ivld iv ga imm) s) { s.me with iv := s.me.iv.set iv.toNat (hi ++ lo) iv.isLt }) ∧
    (read (s.me.rd ga).toNat 64 2 [lo, hi] →
      (tileOk (hi ++ lo) = true → loads (exec (.tdesc ga th) s) { s.me with th := s.me.th.set th.toNat (hi ++ lo) th.isLt }) ∧
      (tileOk (hi ++ lo) = false → refuses (exec (.tdesc ga th) s)))

/-- R275, R276, R261: ETAG and ETEST enter the edge unit, at most eight deep; a misaligned offset and one outside the
plan fault, and an ETAG of no words does nothing. R40, R41, R263: a bank serves the request that precedes: the word
is written under its mask or stands, its tag is left as the mode says, and the word read goes to its requester: the load's
register (ASLD), the words a descriptor load, a SEND or a QSYNC-tagged op keeps, the flag of ETEST, the head job of a copy
engine; ETAG goes to its next word, an ASST leaves the store queue, and a message is placed. What a feed and the collector
take is stated with them (O29, O30). A request whose tag condition fails waits on the tag instead, and a change of the tag
has its waiters tried again. -/
def Obligations.TagOpsAndBanks : Prop :=
  (∀ (s : State) (full : Bool) (ga gb : Reg) (f : FlagNo),
    let off := (s.me.rd ga).toNat
    let n := (s.me.rd gb).toNat
    let queued := fun (o : Out) (k : EdgeKind) => ∃ t, o = .next t ∧ SameMemory s t ∧ Left s t ∧ SameRegs s.me t.me ∧
      t.me.edgeQ = s.me.edgeQ ++ [⟨s.me.order, s.now, k⟩]
    (s.Clear [ga, gb] 0 →
      (8 ≤ s.me.edgeQ.length → Waits s (exec (.etag full ga gb) s)) ∧
      (s.me.edgeQ.length < 8 →
        (off % 32 ≠ 0 → Faults s (exec (.etag full ga gb) s) 0x11) ∧
        (off % 32 = 0 → n = 0 → Issues s (exec (.etag full ga gb) s) s.me) ∧
        (off % 32 = 0 → n ≠ 0 → off + 32 * n ≤ 0x1000000 → (s.planOf s.me).holdsWords off n = true →
          queued (exec (.etag full ga gb) s) (.etag full (off / 32) n)) ∧
        (off % 32 = 0 → n ≠ 0 → (0x1000000 < off + 32 * n ∨ (s.planOf s.me).holdsWords off n = false) →
          Faults s (exec (.etag full ga gb) s) 0x10))) ∧
    (s.Clear [ga] 0 →
      (8 ≤ s.me.edgeQ.length → Waits s (exec (.etest f ga) s)) ∧
      (s.me.edgeQ.length < 8 →
        (off % 32 ≠ 0 → Faults s (exec (.etest f ga) s) 0x11) ∧
        (off % 32 = 0 → off + 32 ≤ 0x1000000 → (s.planOf s.me).holds off 32 = true →
          queued (exec (.etest f ga) s) (.etest f (off / 32))) ∧
        (off % 32 = 0 → (0x1000000 < off + 32 ∨ (s.planOf s.me).holds off 32 = false) →
          Faults s (exec (.etest f ga) s) 0x10)))) ∧
  (∀ (s : State) (a : ArrId) (bank : Fin 64) (r : AsReq) (word : Nat),
    (∃ t, exec (.tagWaiterRetry a word) s = .next t ∧ SameMemory s t ∧ (t.arr a).asw = (s.arr a).asw ∧
      (∀ q ∈ (t.arr a).asReqs, q.word = word → q.waiting = false) ∧
      (t.arr a).asReqs.map (·.id) = (s.arr a).asReqs.map (·.id)) ∧
    (bestReq ((s.arr a).asReqs.filter (s.asEligible a bank.val)) = some r → s.einj.arm = false → (s.arr a).errs = [] →
      let o := s.arr r.owner
      let v := (s.arr a).asWord r.word
      let seen := (s.arr a).tagAt r.word && !(s.arr a).reserved.contains r.word
      (r.mode.holds seen = false →
        ∃ t, exec (.asBankAccess a bank) s = .next t ∧ SameMemory s t ∧ (t.arr a).asw = (s.arr a).asw ∧
          (t.arr a).tags = (s.arr a).tags ∧ ∀ q ∈ (t.arr a).asReqs, q.id = r.id → q.waiting = true) ∧
      (r.mode.holds seen = true → (∀ c id pos push scale, r.who ≠ .feed c id pos push scale) →
        ∃ t, exec (.asBankAccess a bank) s = .next t ∧ SameMemory s t ∧
          let y := fun (c : CtxId) => o.ctx c
          let z := fun (c : CtxId) => t.ctxOf r.owner c
          (r.write = true → (t.arr a).asWord r.word = mergeWord v r.data r.mask) ∧
          (r.write = false → (t.arr a).asWord r.word = v) ∧
          (∀ w, w ≠ r.word → (t.arr a).asWord w = (s.arr a).asWord w ∧ (t.arr a).tagAt w = (s.arr a).tagAt w) ∧
          (t.arr a).tagAt r.word = (match r.mode with
            | .fullTake | .setEmpty => false
            | .emptyPut | .setFull => true
            | _ => (s.arr a).tagAt r.word) ∧
          (∀ c id, r.who = .mStore c id →
            (z c).storeQ = (y c).storeQ.filter (·.id != id) ∧ (z c).g = (y c).g) ∧
          (∀ c id e, r.who = .mLoad c id → (y c).loadQ.find? (·.id == id) = some e →
            (z c).loadQ = (y c).loadQ.filter (·.id != id) ∧
            (∀ q, (z c).gv q = if q = e.gd ∧ q ≠ 0 then
              BitVec.ofNat 64 (v.toNat / 2 ^ (8 * (e.pa % 32)) % 2 ^ (8 * e.size)) else (y c).gv q) ∧
            (e.gd ≠ 0 → (z c).sb.getLsbD e.gd.toNat = false)) ∧
          (∀ c, r.who = .mTag c → (z c).descBuf = (y c).descBuf ++ [(6, v)] ∧ (z c).g = (y c).g) ∧
          (∀ c, r.who = .sendRead c → (z c).descBuf = (y c).descBuf ++ [(8, v)] ∧ (z c).g = (y c).g) ∧
          (∀ c part, r.who = .descr c part → (z c).descBuf = (y c).descBuf ++ [(part, v)] ∧ (z c).g = (y c).g) ∧
          (∀ c e l, r.who = .edge c → (y c).edgeQ = e :: l →
            (∀ f w, e.kind = .etest f w → (z c).edgeQ = l ∧
              (z c).delayed = (y c).delayed ++ [⟨s.now, e.order, .flag f, if seen then 1 else 0⟩]) ∧
            (∀ f w n, e.kind = .etag f w n →
              (z c).edgeQ = if n ≤ 1 then l else ⟨e.order, e.issued, .etag f (w + 1) (n - 1)⟩ :: l)) ∧
          (∀ pool j l, r.who = .copyRead pool → (if pool then o.poolq else o.near) = j :: l →
            (if pool then (t.arr r.owner).poolq else (t.arr r.owner).near) =
              { j with asBuf := some v, asBad := false, asWait := 2 } :: l) ∧
          (∀ pool j l, r.who = .copyWrite pool → (if pool then o.poolq else o.near) = j :: l →
            (if pool then (t.arr r.owner).poolq else (t.arr r.owner).near) = { j with asWait := 2 } :: l) ∧
          (r.who = .net → t.urgent = s.urgent ++ [.messagePlace a]))))

/-! M ops (R278 to R310). -/

/-- R278 to R280, R282, R283, R285, R293: LD, LDS, MON and PRF issue into the load queue once their address translates
and passes its checks; the loads' register then awaits its value. A full queue makes them wait, and so does a walk of
the tables. R65: a load of a line with bytes in the log buffer issues once the log has taken them. PRF drops an
address that would fault. R279, R125, R336: an M access that does not pass its checks raises the fault of its check
at its slot; a page that is not present is remembered for the slot, which then waits for it. R121: with ATBR off no
address translates. -/
def Obligations.LoadsIssueOrFault : Prop :=
  (∀ (s : State) (gd ga : Reg) (size : BitVec 2) (cls order : BitVec 2) (scope entry : BitVec 3) (disp : BitVec 12)
      (t : Target) (u w : State),
    let n := 2 ^ size.toNat
    let addr := effective (s.me.rd ga) disp s.ext n
    let near := effective (s.me.rd ga) disp s.ext 1
    let m := if size = 1 then 8 else 4
    (s.Clear [ga] gd → s.me.loadQ.length < 32 → Reaches s .load addr n t u → Settles u t cls w →
      Loads w w.me (exec (.ld gd ga size cls disp) s) fun e => e.op = .ld ∧ e.pa = t.pa ∧ e.dva = addr.toNat ∧
        e.size = n ∧ e.kind = t.kind ∧ e.cls = cls ∧ e.gd = gd ∧ e.phase = 0) ∧
    (s.Clear [ga] gd → s.me.loadQ.length < 32 → Reaches s .load (s.me.rd ga) m t u → Settles u t 0 w →
      Loads w (w.me.signScope order scope) (exec (.lds gd ga size order scope) s) fun e => e.op = .lds ∧ e.pa = t.pa ∧
        e.size = m ∧ e.kind = t.kind ∧ e.cls = 0 ∧ e.gd = gd ∧ e.order = order ∧ e.scope = scope ∧ e.phase = 0) ∧
    (s.Clear [ga] 0 → s.me.loadQ.length < 32 → Reaches s .watch (s.me.rd ga) n t u → t.wp = false →
      Loads u u.me (exec (.mon ga size entry) s) fun e => e.op = .mon ∧ e.pa = t.pa ∧ e.size = n ∧
        e.code.toNat = entry.toNat ∧ e.gd = 0) ∧
    (s.Clear [ga] 0 → s.me.loadQ.length < 32 → Reaches s .load near 1 t u →
      Loads u u.me (exec (.prf ga disp) s) fun e => e.op = .prf ∧ e.pa = t.pa ∧ e.gd = 0) ∧
    (s.Clear [ga] 0 → s.me.loadQ.length < 32 →
      (∀ code v, s.accessM s.act.arr s.act.ctx .load near 1 = (.error code, v) → code ≠ fWalking →
        Issues { s with walks := v.walks } (exec (.prf ga disp) s) s.me)) ∧
    (s.Clear [ga] gd → 32 ≤ s.me.loadQ.length →
      Waits s (exec (.ld gd ga size cls disp) s) ∧ Waits s (exec (.lds gd ga size order scope) s)) ∧
    (s.Clear [ga] 0 → 32 ≤ s.me.loadQ.length →
      Waits s (exec (.mon ga size entry) s) ∧ Waits s (exec (.prf ga disp) s)) ∧
    (Reaches s .load addr n t u → OnlyCaches s u)) ∧
  (∀ (s : State) (gd ga : Reg) (size : BitVec 2) (cls : BitVec 2) (disp : BitVec 12),
    let n := 2 ^ size.toNat
    let addr := effective (s.me.rd ga) disp s.ext n
    s.Clear [ga] gd → s.me.loadQ.length < 32 →
    (2 ^ 55 ≤ addr.toNat → Faults s (exec (.ld gd ga size cls disp) s) 0x16) ∧
    (addr.toNat < 2 ^ 55 → addr.toNat % n ≠ 0 → Faults s (exec (.ld gd ga size cls disp) s) 0x11) ∧
    (∀ code v, s.accessM s.act.arr s.act.ctx .load addr n = (.error code, v) →
      (code = fWalking → Waits v (exec (.ld gd ga size cls disp) s)) ∧
      (code ≠ fWalking →
        ∃ t, exec (.ld gd ga size cls disp) s = .next t ∧ SameMemory s t ∧ SameRegs s.me t.me ∧
          (s.act.slot.val, code) ∈ t.me.faults ∧ t.me.residue = s.me.residue ∧
          (code = 0x01 → t.me.pageWait = some addr.toNat))) ∧
    (s.atbrEna = false → addr.toNat < 2 ^ 55 → addr.toNat % n = 0 →
      s.accessM s.act.arr s.act.ctx .load addr n = (.error 0x01, s)))

/-- R65, R83, R282, R284: a store to a sync, host-coherent or private page waits in the store queue for its turn; one to
a logged, protected or pool page enters the log buffer at issue, where its bytes stand under its line's mask, takes
the line's index entry, and changes no byte of memory; the address stored to is the translation of the effective
address. R17, R278, R286: ASLD and ASST without a tag condition enter their queue; with one they ask the bank from
the slot in their queue's turn, and the slot stays as residue until the bank has answered. An offset off the plan is the AS-range fault 0x10, a
misaligned one 0x11. -/
def Obligations.StoresIssue : Prop :=
  (∀ (s : State) (gs ga : Reg) (size : BitVec 2) (cls : BitVec 2) (disp : BitVec 12) (t : Target) (u : State),
    let n := 2 ^ size.toNat
    let addr := effective (s.me.rd ga) disp s.ext n
    let v := s.me.rd gs
    let l := t.pa / 64
    s.Clear [gs, ga] 0 → s.me.storeQ.length < 32 → t.wp = false → u.pubEntryAt u.me.team.toNat addr.toNat t.pa = false →
    (Reaches s .store addr n t u → t.kind.isLogged = false →
      Stores u u.me (exec (.st gs ga size cls disp) s) fun e => e.op = .st ∧ e.pa = t.pa ∧ e.size = n ∧ e.data = v ∧
        e.kind = t.kind ∧ e.cls = cls ∧ e.phase = 0) ∧
    (let entersLog := fun (o : Out) (op : QOp) =>
      t.kind.isLogged = true → u.me.indexRoom l = true → u.me.releaseAhead = false → u.releasing u.me.ring = false →
        u.entering u.me l = .enters → NoLineErrors u → (∀ w ∈ (u.arr u.act.arr).vc, w.st ≠ .ownedDirty) →
        ∃ t', o = .next t' ∧ t'.me.g = s.me.g ∧ t'.me.flags = s.me.flags ∧ (rangeOf t.pa ≠ .peer → SameMemory s t') ∧
          t'.me.hasOwn l = true ∧
          (∃ e, t'.me.storeQ = s.me.storeQ ++ [e] ∧ e.op = op ∧ e.pa = t.pa ∧ e.phase = 1) ∧
          ∃ b ∈ t'.me.buf, b.line = l ∧ ∀ i < n, b.mask.getLsbD (t.pa % 64 + i) = true ∧
            byteOf b.data (t.pa % 64 + i) = byteOf v i
     (Reaches s .store addr n t u → t.pa % n = 0 → entersLog (exec (.st gs ga size cls disp) s) .st) ∧
     (Reaches s .logst addr n t u → t.pa % n = 0 → entersLog (exec (.logst gs ga size cls disp) s) .logst))) ∧
  (∀ (s : State) (gd gs ga : Reg) (size mode : BitVec 2) (disp : BitVec 12),
    let n := 2 ^ size.toNat
    let addr := effective (s.me.rd ga) disp s.ext n
    let inside := addr.toNat < 0x1000000 ∧ addr.toNat % n = 0 ∧ (s.planOf s.me).holds addr.toNat n = true
    (s.Clear [ga] gd → s.me.loadQ.length < 32 →
      (inside → mode = 0 → Loads s s.me (exec (.asld gd ga size mode disp) s) fun e =>
        e.op = .asld ∧ e.pa = addr.toNat ∧ e.size = n ∧ e.gd = gd ∧ e.phase = 0) ∧
      (inside → (mode = 1 ∨ mode = 2) → s.phase ≠ 0 → s.me.descBuf.find? (·.1 == 6) = none →
        Waits s (exec (.asld gd ga size mode disp) s)) ∧
      (inside → (mode = 1 ∨ mode = 2) → s.phase ≠ 0 → ∀ v, s.me.descBuf.find? (·.1 == 6) = some (6, v) →
        Loads s { s.me with descBuf := s.me.descBuf.filter (·.1 != 6) } (exec (.asld gd ga size mode disp) s) fun e =>
          e.op = .asld ∧ e.gd = gd ∧ e.phase = 2 ∧ e.data.toNat = v.toNat / 2 ^ (8 * (addr.toNat % 32)) % 2 ^ (8 * n)) ∧
      (inside → (mode = 1 ∨ mode = 2) → s.phase = 0 → s.me.loadQ = [] → s.me.storeQ = [] →
        Proceeds s (exec (.asld gd ga size mode disp) s) 1 fun t => ∃ r, (t.arr s.act.arr).asReqs = (s.arr s.act.arr).asReqs ++ [r] ∧
          r.word = addr.toNat / 32 ∧ r.write = false ∧ r.mode = (if mode = 1 then .fullKeep else .fullTake)) ∧
      (0x1000000 ≤ addr.toNat → Faults s (exec (.asld gd ga size mode disp) s) 0x10) ∧
      (addr.toNat < 0x1000000 → addr.toNat % n ≠ 0 → Faults s (exec (.asld gd ga size mode disp) s) 0x11) ∧
      (addr.toNat < 0x1000000 → addr.toNat % n = 0 → (s.planOf s.me).holds addr.toNat n = false →
        Faults s (exec (.asld gd ga size mode disp) s) 0x10)) ∧
    (s.Clear [gs, ga] 0 → s.me.storeQ.length < 32 →
      (inside → mode = 0 → Stores s s.me (exec (.asst gs ga size mode disp) s) fun e =>
        e.op = .asst ∧ e.pa = addr.toNat ∧ e.size = n ∧ e.data = s.me.rd gs ∧ e.phase = 0) ∧
      (inside → mode = 3 → s.phase = 0 → s.me.storeQ = [] → s.me.loadQ = [] → s.releasing s.me.ring = false →
        Proceeds s (exec (.asst gs ga size mode disp) s) 1 fun t => ∃ r, (t.arr s.act.arr).asReqs = (s.arr s.act.arr).asReqs ++ [r] ∧
          r.word = addr.toNat / 32 ∧ r.write = true ∧ r.mode = .emptyPut ∧ r.mask.toNat = (2 ^ n - 1) * 2 ^ (addr.toNat % 32)) ∧
      (inside → mode = 3 → s.phase ≠ 0 → ∀ v, s.me.descBuf.find? (·.1 == 6) = some (6, v) →
        Issues s (exec (.asst gs ga size mode disp) s) { s.me with descBuf := s.me.descBuf.filter (·.1 != 6) })))

/-- R291, R292, R280: an atomic takes an entry in both queues and its register awaits the old value; with gd g0 it is a
reduction with a store-queue entry alone. ACAS compares with gd as read at first presentation, which its entry keeps. -/
def Obligations.AtomicsIssue : Prop :=
  ∀ (s : State) (gd ga gb : Reg) (size order : BitVec 2) (scope : BitVec 3) (t : Target) (u : State),
    let m := if size = 1 then 8 else 4
    let issues := fun (o : Out) (code n : Nat) =>
      ∃ e : QEntry, e.pa = t.pa ∧ e.size = n ∧ e.code.toNat = code ∧ e.data = s.me.rd gb ∧ e.gd = gd ∧ e.order = order ∧
        e.scope = scope ∧ e.kind = t.kind ∧ e.phase = 0 ∧ (code = 0x1A → e.cmp = s.me.rd gd) ∧
        (gd = 0 → e.op = .reduce ∧ Stores u (u.me.signScope order scope) o (· = e)) ∧
        (gd ≠ 0 → e.op = .atomic ∧ IssuesIn u o (u.arr u.act.arr)
          { u.me.signScope order scope with
            loadQ := u.me.loadQ ++ [e], storeQ := u.me.storeQ ++ [e], mseq := u.me.mseq + 1, sb := (u.me.await gd).sb }
          fun _ => True)
    s.me.storeQ.length < 32 → s.me.loadQ.length < 32 → u.pubEntryAt u.me.team.toNat (s.me.rd ga).toNat t.pa = false →
    t.wp = false →
    (s.Clear [ga, gb] gd → Reaches s .atomic (s.me.rd ga) m t u →
      issues (exec (.aadd gd ga gb size order scope) s) 0x10 m ∧ issues (exec (.aand gd ga gb size order scope) s) 0x12 m ∧
      issues (exec (.aor gd ga gb size order scope) s) 0x13 m ∧ issues (exec (.axor gd ga gb size order scope) s) 0x14 m ∧
      issues (exec (.amin gd ga gb size order scope) s) 0x15 m ∧ issues (exec (.amax gd ga gb size order scope) s) 0x16 m ∧
      issues (exec (.aminu gd ga gb size order scope) s) 0x17 m ∧ issues (exec (.amaxu gd ga gb size order scope) s) 0x18 m ∧
      issues (exec (.aswp gd ga gb size order scope) s) 0x19 m) ∧
    (s.Clear [ga, gb] gd → Reaches s .atomic (s.me.rd ga) 4 t u → issues (exec (.afadd gd ga gb order scope) s) 0x11 4) ∧
    (s.Clear [gd, ga, gb] gd → Reaches s .atomic (s.me.rd ga) m t u →
      issues (exec (.acas gd ga gb size order scope) s) 0x1A m)

/-- R83, R96, R97, R279, R281, R291: what the queues perform on a sync or host-coherent line of this package happens at its
home slice, memory being read and written there and nowhere else, for each of the sizes 1, 2, 4 and 8: a load, LDS among
them, delivers the little-endian bytes zero-extended, a store writes its bytes, an atomic of 4 or 8 bytes delivers the old
value and writes the new one in one step, AFADD the FP32 sum rounded to nearest even. On a line of another owner, the host
or another package, the owner is asked: for the line, to take the bytes stored, to execute the atomic, or, for the host's,
to give the line exclusive; the access waits for the answer, and memory stands (log 136 says how owners are asked). R22,
R45, R47, R86, R87: a load of a logged, protected or pool line delivers the bytes of the context's own copy; where it has
stored to the line and has no copy, the home line with its own unfolded stores put in, which becomes its copy; otherwise
those of the view line of its ASID, whatever the home line holds by now, or of the home line, which becomes a view line; a
load that a younger store has overtaken takes the own bytes older than it and the home line. A private line is read and
stored to in the owner's line of the view cache, which takes the home line's bytes first, and memory stands. R65, R82,
R90: a store to a logged, protected or pool line leaves the store queue once it stands in the log buffer; one that waited
behind a release enters it in its turn, and memory stands. R84: a load waits for an older store of its line that has not
performed and whose alias class meets its own. -/
def Obligations.QueuesPerformAtHome : Prop :=
  ∀ (s : State) (a : ArrId) (c : CtxId) (e : QEntry) (l : List QEntry),
    NoLineErrors s → e.size ∈ [1, 2, 4, 8] → e.pa % e.size = 0 → e.order = 0 →
    e.phase = 0 → (∀ q ∈ (s.ctxOf a c).loadQ ++ (s.ctxOf a c).storeQ, q.order = 0) → s.releasing (s.ctxOf a c).ring = false →
    let x := s.ctxOf a c
    let asks := fun (o : Out) (op : AskOp) => ∃ t, o = .next t ∧ SameMemory s t ∧
      t.outbox = s.outbox ++ [.ask s.askNo e.pa op x.sec x.asid] ∧ t.asks = s.asks ++ [⟨s.askNo, .entry a c e.id, e.pa, op⟩] ∧
      t.ctxOf a c = { x with
        loadQ := x.loadQ.map fun q => if q.id = e.id then { q with phase := 5 } else q
        storeQ := x.storeQ.map fun q => if q.id = e.id then { q with phase := 5 } else q }
    let loads : Prop := (e.op = .ld ∨ e.op = .lds) ∧ x.loadQ = e :: l ∧ x.storeQ = [] ∧ ∀ q ∈ l, q.id ≠ e.id
    let stores : Prop := e.op = .st ∧ x.storeQ = e :: l ∧ ∀ q ∈ l, q.id ≠ e.id
    let atomic : Prop := e.op = .atomic ∧ 4 ≤ e.size ∧ x.storeQ = e :: l ∧ x.loadQ = [e] ∧ ∀ q ∈ l, q.id ≠ e.id
    let y := s.arr a
    let ln := e.pa / 64
    let delivers := fun (p : LineData → State → Prop) => ∃ t v, exec (.queuePerform a c false) s = .next t ∧
      (t.ctxOf a c).loadQ = l ∧ p v t ∧
      ∀ r, (t.ctxOf a c).gv r =
        if r = e.gd ∧ r ≠ 0 then BitVec.ofNat 64 (v.toNat / 2 ^ (8 * (e.pa % 64)) % 2 ^ (8 * e.size)) else x.gv r
    let holds := fun (t : State) (st : VcState) (v : LineData) =>
      ∃ w ∈ (t.arr a).vc, w.st = st ∧ w.line = ln ∧ w.asid = x.asid ∧ w.owner = c ∧ w.data = v
    let sound : Prop := NoPoison s ∧ y.errs = [] ∧ y.vcApart ∧ (∀ w ∈ y.vc, w.poison = false) ∧ rangeOf (64 * ln) = .hbm
    let stored := fun (v w : LineData) => ∀ i < 64, byteOf v i =
      if e.pa % 64 ≤ i ∧ i < e.pa % 64 + e.size then byteOf e.data (i - e.pa % 64) else byteOf w i
    (e.kind.isLogged = true → sound → loads →
      let own := y.vc.find? (·.ownOf c ln)
      let view := y.vc.find? (·.viewOf x ln)
      let mine := s.ownBytes x ln
      (∀ m d, e.seen = some (d, m) → delivers fun v _ =>
        ∀ i < 64, byteOf v i = if m.getLsbD i then byteOf d i else Memory.read s.mem (64 * ln + i)) ∧
      (e.seen = none →
        (∀ w, own = some w → delivers fun v _ => v = w.data) ∧
        (own = none → x.hasOwn ln = true → delivers fun v t => holds t .own v ∧
          ∀ i < 64, byteOf v i = if mine.2.getLsbD i then byteOf mine.1 i else Memory.read s.mem (64 * ln + i)) ∧
        (own = none → x.hasOwn ln = false → ∀ w, view = some w → delivers fun v _ => v = w.data) ∧
        (own = none → x.hasOwn ln = false → view = none → delivers fun v t => HomeBytes s ln v ∧ holds t .view v))) ∧
    (∀ q ∈ x.storeQ, (e.op = .ld ∨ e.op = .lds) → x.loadQ = e :: l → q.id < e.id → q.unperformed = true → q.pa / 64 = ln →
      (q.cls = e.cls ∨ q.cls = 0 ∨ e.cls = 0) → exec (.queuePerform a c false) s = .next s) ∧
    (e.kind = .owned → sound →
      let mine := y.vc.find? (·.ownedBy c ln)
      (loads → (∀ w, mine = some w → delivers fun v t => v = w.data ∧ SameMemory s t) ∧
        (mine = none → (∀ w ∈ y.vc, w.st ≠ .ownedDirty) → delivers fun v t => HomeBytes s ln v ∧ holds t .ownedClean v ∧ SameMemory s t)) ∧
      (stores → (∀ w ∈ y.vc, mine = some w ∨ w.st ≠ .ownedDirty) →
        ∃ t v w, exec (.queuePerform a c true) s = .next t ∧ SameMemory s t ∧ (t.ctxOf a c).storeQ = l ∧
          (t.ctxOf a c).g = x.g ∧ (∃ z ∈ (t.arr a).vc, z.st = .ownedDirty ∧ z.line = ln ∧ z.owner = c ∧ z.data = v) ∧ stored v w ∧
          (∀ z, mine = some z → w = z.data) ∧ (mine = none → HomeBytes s ln w))) ∧
    (e.kind.isLogged = true → x.storeQ = { e with phase := 1 } :: l → (e.op = .st ∨ e.op = .logst) → (∀ q ∈ l, q.id ≠ e.id) →
      ∃ t, exec (.queuePerform a c true) s = .next t ∧ SameMemory s t ∧ (t.ctxOf a c).storeQ = l ∧ (t.ctxOf a c).buf = x.buf ∧
        (t.ctxOf a c).g = x.g) ∧
    (e.kind.isLogged = true → x.storeQ = e :: l → (e.op = .st ∨ e.op = .logst) → (∀ q ∈ l, q.id ≠ e.id) → s.entering x ln = .enters →
      ∃ t, exec (.queuePerform a c true) s = .next t ∧ SameMemory s t ∧ (t.ctxOf a c).storeQ = l ∧ (t.ctxOf a c).g = x.g ∧
        ∃ b ∈ (t.ctxOf a c).buf, b.line = ln ∧ ∀ i < e.size, b.mask.getLsbD (e.pa % 64 + i) = true ∧
          byteOf b.data (e.pa % 64 + i) = byteOf e.data i) ∧
    (e.kind = .sync ∨ e.kind = .host → rangeOf (64 * ln) = .hbm →
      (loads →
        ∃ t, exec (.queuePerform a c false) s = .next t ∧ SameMemory s t ∧ (t.ctxOf a c).loadQ = l ∧
          ∀ r, (t.ctxOf a c).gv r = if r = e.gd ∧ r ≠ 0 then BitVec.ofNat 64 (valueAt s e.pa e.size) else x.gv r) ∧
      (stores →
        ∃ t, exec (.queuePerform a c true) s = .next t ∧ MemoryPut s t e.pa e.size e.data.toNat ∧
          (t.ctxOf a c).storeQ = l ∧ (t.ctxOf a c).g = x.g) ∧
      (atomic →
        ∃ t new, exec (.queuePerform a c true) s = .next t ∧ MemoryPut s t e.pa e.size new ∧
          (t.ctxOf a c).storeQ = l ∧ (t.ctxOf a c).loadQ = [] ∧
          (∀ r, (t.ctxOf a c).gv r = if r = e.gd ∧ r ≠ 0 then BitVec.ofNat 64 (valueAt s e.pa e.size) else x.gv r) ∧
          (let w := 8 * e.size
           let old := valueAt s e.pa e.size
           let b := e.data.toNat % 2 ^ w
           (e.code = 0x11 → e.size = 4 → ∀ u v, (fp32.value old).number = some u → (fp32.value b).number = some v →
             ∃ q : FVal, q.number = some (u + v) ∧ new = (fp32.ofVal .rne q).1) ∧
           (e.code = 0x10 → new = (old + b) % 2 ^ w) ∧ (e.code = 0x12 → new = old &&& b) ∧ (e.code = 0x13 → new = old ||| b) ∧
           (e.code = 0x14 → new = old ^^^ b) ∧ (e.code = 0x17 → new = min old b) ∧ (e.code = 0x18 → new = max old b) ∧
           (e.code = 0x19 → new = b) ∧ (e.code = 0x1A → new = if old = e.cmp.toNat % 2 ^ w then b else old) ∧
           (e.code = 0x15 → (BitVec.ofNat w new).toInt = min (BitVec.ofNat w old).toInt (BitVec.ofNat w b).toInt) ∧
           (e.code = 0x16 → (BitVec.ofNat w new).toInt = max (BitVec.ofNat w old).toInt (BitVec.ofNat w b).toInt)))) ∧
    (e.kind = .sync ∨ e.kind = .host → s.ours ln = false → s.hostBusy ln = false →
      (loads → asks (exec (.queuePerform a c false) s) .read) ∧
      (stores → ∃ m d, asks (exec (.queuePerform a c true) s) (.write m d) ∧
        ∀ i < 64, m.getLsbD i = decide (e.pa % 64 ≤ i ∧ i < e.pa % 64 + e.size) ∧
          (m.getLsbD i = true → byteOf d i = byteOf e.data (i - e.pa % 64))) ∧
      (atomic → (e.kind = .sync → asks (exec (.queuePerform a c true) s) (.atomic e.code e.size e.data e.cmp)) ∧
        (e.kind = .host → asks (exec (.queuePerform a c true) s) .own)))

/-- R287, R288, R90 to R94, R88, R290: a release enters the store queue; an acquire that may sample starts and at its
end issues; a FENCE waits until every older access has performed at its scope, and at scope .sv until every published
record is folded; QSYNC until no access is outstanding and the log buffer is empty; FENCESC makes a release, then an
acquire, and issues once every older access has performed at its scope; where it must acquire from a rank whose
package is lost it is the fault 0x1E (R75). R75, R92: an acquire waits while a writer's fold pointer is below the tail that
it has sampled, and is then patched from the writer's records above its last position: each view line of the ASID and own
copy of the context that they name takes the home line's bytes, the own stores put in again, and the others stand; with
records overwritten, or more than 2,048 of them, or a CRC that does not hold, every view and own line of the ASID goes, the
first case counted in sr.ovac; the position is then the sampled tail. R76: one that named ranks on other packages
invalidates the view lines, those homed here and the own copies too (log 157), and advances the epoch. VCINV drops the context's lines, all or those of one page. -/
def Obligations.OrderingOps : Prop :=
  ∀ (s : State) (ga : Reg) (scope : BitVec 3),
    let ring := s.me.ring
    let idle := s.me.loadQ = [] ∧ s.me.storeQ = []
    let drops := fun (u : State) (o : Out) (p : VcLine → Prop) =>
      ∃ t, o = .next t ∧ SameMemory u t ∧ Left u t ∧ SameRegs u.me t.me ∧
        ∀ v, v ∈ (t.arr u.act.arr).vc ↔ v ∈ (u.arr u.act.arr).vc ∧
          ¬(p v ∧ ((v.st = .view ∧ v.asid = u.me.asid) ∨ (v.st = .own ∧ v.owner = u.act.ctx)))
    (s.me.storeQ.length < 32 →
      Stores s (s.me.sign [scope.zeroExtend 8]) (exec (.rel scope) s) (fun e => e.op = .release ∧ e.scope = scope) ∧
      Stores s (s.me.sign [6]) (exec .relsv s) (fun e => e.op = .release ∧ e.scope = 6)) ∧
    (32 ≤ s.me.storeQ.length → Waits s (exec (.rel scope) s) ∧ Waits s (exec .relsv s)) ∧
    (idle → scope ≠ 7 → s.accessesDone scope = true) ∧
    (s.accessesDone scope = true → scope ≠ 6 → Issues s (exec (.fence scope) s) s.me) ∧
    (s.accessesDone scope = false → Waits s (exec (.fence scope) s)) ∧
    (s.accessesDone 6 = true → s.foldedTo ring (s.pubOf ring) = false → Waits s (exec (.fence 6) s)) ∧
    (s.accessesDone 6 = true → (∀ r, s.ring? ring = some r → r.pub ≤ r.fold ∧ s.unguardedGroups r = []) →
      Issues s (exec (.fence 6) s) s.me) ∧
    (¬idle → Waits s (exec .qsync s)) ∧
    (idle → s.releasing ring = false → s.me.buf = [] → Issues s (exec .qsync s) s.me) ∧
    (s.Clear [ga] 0 → s.phase = 0 → s.me.maySample = false → Waits s (exec (.acq ga scope) s)) ∧
    (s.Clear [ga] 0 → s.phase = 0 → s.me.maySample = true →
      (∀ code, s.acqOperand (s.me.rd ga) scope = .error code → Faults s (exec (.acq ga scope) s) code) ∧
      (∀ k, s.acqOperand (s.me.rd ga) scope = .ok k → NoPoison s →
        Proceeds s (exec (.acq ga scope) s) 1 fun t => ∃ q, t.me.acquire = some q ∧ q.scope = scope)) ∧
    (s.Clear [ga] 0 → s.phase ≠ 0 → ∀ u, s.stepAcquire s.act.arr s.act.ctx = (true, u) → u.act = s.act →
      ∃ t, exec (.acq ga scope) s = .next t ∧ Beside u t ∧ Left u t ∧ t.me.lasting = u.me.lasting) ∧
    (s.phase = 0 → s.accessesDone scope = true → s.releasing ring = false → s.me.maySample = true → (∃ r, s.ring? ring = some r) →
      Proceeds s (exec (.fencesc scope) s) 1 fun t => t.releasing ring = true) ∧
    (s.phase = 0 → s.me.maySample = false → Waits s (exec (.fencesc scope) s)) ∧
    (s.phase = 1 → (s.releasing ring = true ∨ s.me.maySample = false) → Waits s (exec (.fencesc scope) s)) ∧
    (s.phase = 1 → s.releasing ring = false → s.me.maySample = true →
      let lost := s.ranksLost s.me.team.toNat (s.farBelow s.act.arr s.act.ctx scope)
      (lost = true → Faults s (exec (.fencesc scope) s) 0x1E) ∧
      (lost = false → NoPoison s → Proceeds s (exec (.fencesc scope) s) 2 fun t => ∃ q, t.me.acquire = some q ∧ q.scope = scope)) ∧
    (2 ≤ s.phase → ∀ u, s.stepAcquire s.act.arr s.act.ctx = (true, u) → u.act = s.act → u.accessesDone scope = true →
      ∃ t, exec (.fencesc scope) s = .next t ∧ Beside u t ∧ Left u t ∧ t.me.lasting = u.me.lasting) ∧
    (let x := s.me
     let y := s.arr s.act.arr
     let out := exec (.acq ga scope) s
     let vc := fun (t : State) => (t.arr s.act.arr).vc
     let ends := fun (p : State → Prop) => ∃ t, out = .next t ∧ SameMemory s t ∧ Left s t ∧ t.me.acquire = none ∧
       t.me.g = x.g ∧ p t
     let cleared := fun (t : State) => ∀ v, v ∈ vc t ↔ v ∈ y.vc ∧ ¬(v.asid = x.asid ∧ (v.st = .view ∨ v.st = .own))
     let counts := fun (t : State) => t.me.ovac = if x.ovac = 0xFFFFFFFF then x.ovac else x.ovac + 1
     s.Clear [ga] 0 → s.phase ≠ 0 → NoPoison s →
     (∀ sc w r, x.acquire = some ⟨sc, [w], false⟩ → w.done = false → w.st = 2 → w.key < remoteKey → s.ring? w.ring = some r →
       r.seen = [] →
       let u := Sparse.get 0 x.pos w.key
       let old := (s.sample r).2.1
       let ends_ := fun (p : State → Prop) => ends fun t => Sparse.get 0 t.me.pos w.key = max u w.tail ∧ p t
       (r.fold < w.tail → ∃ t, out = .next t ∧ SameMemory s t ∧ t.me.residue = x.residue ∧ vc t = y.vc ∧ t.me.pos = x.pos) ∧
       (w.tail ≤ r.fold →
         (w.tail ≤ u → ends_ fun t => vc t = y.vc ∧ t.me.ovac = x.ovac) ∧
         (u < w.tail → u < old → ends_ fun t => cleared t ∧ counts t) ∧
         (u < w.tail → old ≤ u → 2048 < w.tail - u → ends_ fun t => cleared t ∧ t.me.ovac = x.ovac) ∧
         (u < w.tail → old ≤ u → w.tail - u ≤ 2048 →
           (r.walkRecs u (w.tail - u) = .overrun → ends_ fun t => cleared t ∧ counts t) ∧
           (r.walkRecs u (w.tail - u) = .crc → ends_ fun t => cleared t ∧ t.me.ovac = x.ovac) ∧
           (∀ ls, r.walkRecs u (w.tail - u) = .lines ls →
             (∀ l ∈ ls, rangeOf (64 * s.named l) = .hbm ∧ s.pageRetired (64 * s.named l) = false) →
             (∀ k < w.tail - u, ∃ rc, Sparse.get none r.recs ((u + k) % r.n) = some rc ∧ rc.seq.toNat = (u + k) % 2 ^ 48 ∧
               (rc.rel = false → rc.line.toNat ∈ ls)) ∧
             ends_ fun t => t.me.ovac = x.ovac ∧ (vc t).length = y.vc.length ∧ ∀ (k : Nat) v, y.vc[k]? = some v →
               ∃ z, (vc t)[k]? = some z ∧ z.line = v.line ∧ z.st = v.st ∧
                 let named : Prop := ∃ l ∈ ls, s.named l = v.line
                 (v.asid = x.asid → v.st = .view → named → HomeBytes s v.line z.data) ∧
                 (v.asid = x.asid → v.st = .own → v.owner = s.act.ctx → named → ∀ i < 64, byteOf z.data i =
                   if (s.ownBytes x v.line).2.getLsbD i then byteOf (s.ownBytes x v.line).1 i
                   else Memory.read s.mem (64 * v.line + i)) ∧
                 (¬(named ∧ v.asid = x.asid ∧ (v.st = .view ∨ (v.st = .own ∧ v.owner = s.act.ctx))) → z = v))))) ∧
     ∀ sc ws, x.acquire = some ⟨sc, ws, true⟩ → (∀ w ∈ ws, w.done = true) →
       ends fun t => cleared t ∧ t.epoch = s.epoch + 1) ∧
    (s.Clear [ga] 0 → (∀ v ∈ (s.arr s.act.arr).vc, v.st = .view ∨ v.st = .own) →
      (s.me.rd ga = 0 → drops s (exec (.vcinv ga) s) fun _ => True) ∧
      (s.me.rd ga ≠ 0 → ∀ t u, Reaches s .load (s.me.rd ga) 1 t u →
        drops u (exec (.vcinv ga) s) fun v => v.line / 1024 = t.pa / 65536))

/-- R293 to R295: a watch entry that its word's change satisfies is noted; MWAIT without an order qualifier writes the
mask of satisfied entries above the zero code and disarms them, or code 2 with what was noted for the context and
disarms all, or code 1 at its deadline, or waits until then. -/
def Obligations.WatchesAndMwait : Prop :=
  ∀ (s : State) (a : ArrId) (c : CtxId) (n : BitVec 3) (gd ga : Reg) (scope : BitVec 3),
    (∃ t, exec (.watchSatisfy a c n) s = .next t ∧ SameMemory s t ∧ t.rest = s.rest ∧
      ((s.ctxOf a c).watch[n.toNat]'n.isLt).armed = (((t.ctxOf a c).watch[n.toNat]'n.isLt).armed) ∧
      (((s.ctxOf a c).watch[n.toNat]'n.isLt).armed = true → ((t.ctxOf a c).watch[n.toNat]'n.isLt).satisfied = true) ∧
      (t.ctxOf a c).g = (s.ctxOf a c).g) ∧
    (s.Clear [ga] gd → s.phase = 0 →
      let sat : Nat := (s.me.satisfied).toNat
      (sat ≠ 0 → ∃ t, exec (.mwait gd ga 0 scope) s = .next t ∧ SameMemory s t ∧ Left s t ∧
        (∀ r, t.me.gv r = if r = gd ∧ r ≠ 0 then BitVec.ofNat 64 (256 * sat) else s.me.gv r) ∧
        ∀ k : Fin 8, (s.me.watch[k].armed = true ∧ s.me.watch[k].satisfied = true → t.me.watch[k].armed = false) ∧
          (¬(s.me.watch[k].armed = true ∧ s.me.watch[k].satisfied = true) → t.me.watch[k] = s.me.watch[k])) ∧
      (sat = 0 → s.me.spurious ≠ 0 → ∃ t, exec (.mwait gd ga 0 scope) s = .next t ∧ SameMemory s t ∧ Left s t ∧ t.me.spurious = 0 ∧
        (∀ r, t.me.gv r = if r = gd ∧ r ≠ 0 then BitVec.ofNat 64 (2 + s.me.spurious * 2 ^ 16) else s.me.gv r) ∧
        ∀ k : Fin 8, t.me.watch[k].armed = false) ∧
      (sat = 0 → s.me.spurious = 0 → (s.me.rd ga).toNat ≤ s.now → WritesReg s (exec (.mwait gd ga 0 scope) s) gd 1) ∧
      (sat = 0 → s.me.spurious = 0 → s.now < (s.me.rd ga).toNat →
        Proceeds s (exec (.mwait gd ga 0 scope) s) 3 fun t =>
          t.agenda = insertTimed ⟨2 * (s.me.rd ga).toNat, .mwaitDeadline s.act.arr s.act.ctx⟩ s.agenda))

/-- R131, R297, R299, R303: a copy enters its engine's queue, of sixteen places, with its operands and tile as they
stand, and its register awaits the token; full queues make it wait. R99: a source line is read whole, once. R26, R41, R100,
R132, R297 to R302, R304, R372: a beat moves the gathered bytes of one line or word of the destination and goes on. To memory
it writes them there, or, on a logged, protected or pool line, appends their record and patches the issuer's own copy; CPYR
adds each element at home, rounded to nearest even; to an array store, the engine's own or, for CPYX, one that its peer
reference names, the bank is asked to write the bytes and set the word full, or the word goes to the other array's network
interface; for another package the bytes join a chunk, which is sent once it is full or the copy is through. With JOIN the
scale of the source word is written behind each word. Behind the last row, and once every chunk is acknowledged, CPYG writes
its stamp, and the copy is done with status 0; a stopped copy is done with the status it has; one that waits for a page or
for a bank makes no beat. R297, R303, R330: a finished copy leaves its queue and its token, of bytes, status and the clip
bit, is written to its register, and kept with its team where the node record does not hold it yet; that of a task that is
pre-empted is kept alone. -/
def Obligations.CopiesRunAndComplete : Prop :=
  (∀ (s : State) (gd ga gb : Reg) (th : BitVec 4) (opt : Bool), s.Clear [ga, gb] gd →
    (∀ p, (s.copyQ s.act.arr.val p).length < 16) →
    let enters := fun (o : Out) (op : Nat) (opt : Bool) =>
      ∃ t p j, o = .next t ∧ SameMemory s t ∧ Left s t ∧ t.copyQ s.act.arr.val p = s.copyQ s.act.arr.val p ++ [j] ∧
        t.copyNo = s.copyNo + 1 ∧ t.me.g = s.me.g ∧ t.me.flags = s.me.flags ∧ t.me.sb = (s.me.await gd).sb ∧
        j.op = op ∧ j.opt = opt ∧ j.ga = s.me.rd ga ∧ j.gb = s.me.rd gb ∧ j.gd = gd ∧ j.th = (s.me.th[th.toNat]'th.isLt) ∧
        j.arr = s.act.arr ∧ j.ctx = s.act.ctx ∧ j.bytes = 0 ∧ j.done = false
    enters (exec (.cpy gd ga gb th) s) 0x21 false ∧ enters (exec (.cpys gd ga gb th) s) 0x22 false ∧
    enters (exec (.cpyg gd ga gb th opt) s) 0x23 opt ∧ enters (exec (.cpyr gd ga gb th opt) s) 0x24 opt ∧
    enters (exec (.cpyx gd ga gb th) s) 0x25 false) ∧
  (∀ (s : State) (gd ga gb : Reg) (th : BitVec 4) (opt : Bool), s.Clear [ga, gb] gd →
    (∀ p, 16 ≤ (s.copyQ s.act.arr.val p).length) →
    ∀ i ∈ [Instr.cpy gd ga gb th, .cpys gd ga gb th, .cpyg gd ga gb th opt, .cpyr gd ga gb th opt, .cpyx gd ga gb th],
      Waits s (exec i s)) ∧
  (∀ (s : State) (e : Nat) (pool : Bool) (j : CopyJob) (l : List CopyJob), s.copyQ e pool = j :: l →
    let out := exec (.copyBeat e pool) s
    let head := fun (t : State) (k : CopyJob) => t.copyQ e pool = k :: l
    let ends := fun (status : Nat) => ∃ t, out = .next t ∧ SameMemory s t ∧
      head t { j with status := status, done := true, stale := false } ∧ t.urgent = s.urgent ++ [.copyComplete e pool] ∧
      ∀ a c, t.ctxOf a c = s.ctxOf a c
    let bank := fun (k : CopyJob) (off n : Nat) (v : Nat → Byte) => ∃ t r, out = .next t ∧ SameMemory s t ∧ head t k ∧
      (t.arr j.arr).asReqs = (s.arr j.arr).asReqs ++ [r] ∧ r.who = .copyWrite pool ∧ r.write = true ∧ r.mode = .setFull ∧
      r.word = off / 32 ∧ ∀ i < 32, r.mask.getLsbD i = decide (off % 32 ≤ i ∧ i < off % 32 + n) ∧
        (off % 32 ≤ i ∧ i < off % 32 + n → byteOf r.data i = v (i - off % 32))
    (j.pageWait.isSome = true ∨ j.asWait = 1 → out = .next s) ∧
    (j.pageWait = none → j.asWait = 2 → j.done = false → j.stopped = false → j.status = 0 → j.asBuf = none → j.part = none →
      (j.stage = 1 → j.joins = false → ∃ t, out = .next t ∧ SameMemory s t ∧ head t (j.advance j.upto)) ∧
      (j.stage = 1 → j.joins = true →
        let off := j.dsbase + j.dest j.row j.col / 32 * 4
        (s.copyAsOk j off 4 = true → bank { j with asWait := 1, stage := 2 } off 4 fun i => byteOf (j.scaleOf j.col) i) ∧
        (s.copyAsOk j off 4 = false → ends 0x10)) ∧
      (j.stage = 2 → ∃ t, out = .next t ∧ SameMemory s t ∧ head t (j.advance j.upto)) ∧
      (j.stage = 3 → ∃ t, out = .next t ∧ SameMemory s t ∧ head t { j with stamped := true, asWait := 0, stage := 0 })) ∧
    (j.pageWait = none → j.asWait = 0 → j.done = false →
      (j.stopped = true ∨ j.status ≠ 0 → j.part = none → ends j.status) ∧
      (j.stopped = false → j.status = 0 →
        (j.row = 0 → j.col = 0 → j.shape ≠ 0 → j.part = none → ends j.shape) ∧
        (¬(j.row = 0 ∧ j.col = 0 ∧ j.shape ≠ 0) → j.rows ≤ j.row →
          (∀ p k, j.part = some (p, k) →
            let m := { k with seq := (s.chunksTo p).nextOut }
            ∃ t, out = .next t ∧ SameMemory s t ∧ head t { j with part := none, sent := j.sent ++ [(p, m.seq)] } ∧
              t.outbox = s.outbox ++ [.chunk p m] ∧ (t.chunksTo p).unacked = (s.chunksTo p).unacked ++ [m] ∧
              (t.chunksTo p).nextOut = (s.chunksTo p).nextOut + 1) ∧
          (j.part = none → j.sent ≠ [] → out = .next s) ∧
          (j.part = none → j.sent = [] → (j.op = 0x23 → j.opt = true → j.stamped = true) → ends 0) ∧
          (j.part = none → j.sent = [] → j.op = 0x23 → j.opt = true → j.stamped = false →
            let d := j.gb.toNat + j.rows * j.drs
            (j.dspace = 1 → d % 32 ≠ 0 → ends 0x11) ∧
            (j.dspace = 1 → d % 32 = 0 → s.copyAsOk j d 32 = false → ends 0x10) ∧
            (j.dspace = 1 → d % 32 = 0 → s.copyAsOk j d 32 = true →
              bank { j with asWait := 1, stage := 3 } d 32 fun i => (natToBytes 32 j.stampNo).getD i 0) ∧
            (j.dspace = 0 → d % 8 ≠ 0 → ends 0x11) ∧
            (∀ g u, j.dspace = 0 → d % 8 = 0 → s.copyAccess e pool j .copyWrite d = (.ok g, u) → g.wp = false → g.kind = .sync →
              NoLineErrors u → rangeOf g.pa = .hbm → g.pa % 8 = 0 →
              ∃ t, out = .next t ∧ MemoryPut u t g.pa 8 j.stampNo ∧
                head t { j with stamped := true, asWait := 0, stage := 0, got := none, stale := false }))) ∧
        (∀ g u addr b, ¬(j.row = 0 ∧ j.col = 0 ∧ j.shape ≠ 0) → j.row < j.rows → j.srcAs = false → j.joins = false →
          j.col < j.beatEnd → (j.source j.row j.col).1 = .inr addr → b = addr / 64 → (∀ q ∈ j.srcBuf, q.1 ≠ b ∧ q.1 ≠ badKey + b) →
          s.copyAccess e pool j .copyRead addr = (.ok g, u) → g.kind = .sync → NoPoison u → rangeOf (64 * (g.pa / 64)) = .hbm →
          ∃ t v, out = .next t ∧ SameMemory u t ∧ HomeBytes u (g.pa / 64) v ∧
            head t { j with got := none, srcBuf := j.srcBuf ++ [(b, v), (scaleKey + b, 0)] }) ∧
        (∀ last, ¬(j.row = 0 ∧ j.col = 0 ∧ j.shape ≠ 0) → j.row < j.rows →
          s.gather e pool j j.col (j.beatEnd - j.col) = .ready last → j.col ≤ last →
          let n := last - j.col
          let d := j.dest j.row j.col
          let bytes := fun i => j.byteAt (j.col + i)
          let own := { j with upto := last, asWait := 1, stage := 1 }
          (j.dspace = 1 → d % 32 + n ≤ 32 →
            (s.copyAsOk j d n = true → bank own d n bytes) ∧ (s.copyAsOk j d n = false → j.part = none → ends 0x10)) ∧
          (j.dspace = 2 → d % 32 + n ≤ 32 →
            let place := s.peer (s.issuer j).team.toNat j.gb
            (place = .invalid → out = .next s) ∧
            (place = .bad ∨ place = .outside → j.part = none → ends 0x12) ∧
            (∀ b larr, place = .here b larr →
              (s.copyAsOk j d n = false → j.part = none → ends 0x10) ∧
              (s.copyAsOk j d n = true → b = j.arr → bank own d n bytes) ∧
              (s.copyAsOk j d n = true → b ≠ j.arr → j.bulk = false →
                ∃ t m, out = .next t ∧ SameMemory s t ∧ head t { j.advance last with sent := j.sent ++ [(s.pkgNo, j.id)] } ∧
                  m.src = j.arr ∧ m.copy = some j.id ∧ m.ring = none ∧ m.word = d / 32 ∧
                  (∀ i < 32, m.mask.getLsbD i = decide (d % 32 ≤ i ∧ i < d % 32 + n) ∧
                    (d % 32 ≤ i ∧ i < d % 32 + n → byteOf m.data i = bytes (i - d % 32))) ∧
                  ((s.arr b).net = [] → (t.arr b).net = [{ m with posted := true }] ∧
                    ∃ r, (t.arr b).asReqs = (s.arr b).asReqs ++ [r] ∧ r.who = .net ∧ r.mode = .setFull ∧ r.word = d / 32) ∧
                  (∀ h z, (s.arr b).net = h :: z → h.posted = true → (t.arr b).net = h :: z ++ [m]))) ∧
            (∀ rank, place = .away rank → s.copyAsOk j d n = true → j.part = none → n < 4096 →
              ∃ t p k, out = .next t ∧ SameMemory s t ∧ head t { j.advance last with part := some (p, k) } ∧
                k.runs = [(d, (List.range n).map bytes)] ∧ k.rank = (s.issuer j).team.toNat * 2 ^ 14 + rank ∧
                k.asid = j.asid ∧ k.sec = j.sec ∧ t.outbox = s.outbox)) ∧
          ∀ g u, j.dspace = 0 →
            s.copyAccess e pool j (if j.op = 0x24 then .copyReduce else .copyWrite) d = (.ok g, u) →
            g.wp = false → NoLineErrors u → rangeOf g.pa = .hbm → g.pa % 64 + n ≤ 64 →
            (g.kind.isLogged = false → g.kind ≠ .owned → g.kind ≠ .host → j.op ≠ 0x24 →
              ∃ t, out = .next t ∧ head t (j.advance last) ∧ (∀ a c, (t.ctxOf a c).g = (s.ctxOf a c).g) ∧
                ∀ p, Memory.read t.mem p = if g.pa ≤ p ∧ p < g.pa + n then bytes (p - g.pa) else Memory.read u.mem p) ∧
            (g.kind ≠ .owned → g.kind ≠ .host → g.kind ≠ .pool → j.op = 0x24 →
              let z := j.elem
              let f := if j.opt then bf16 else fp32
              ∃ t, out = .next t ∧ head t (j.advance last) ∧
                (∀ k, (k + 1) * z ≤ n → ∀ x y, (f.value (valueAt u (g.pa + k * z) z)).number = some x →
                  (f.value (bytesToNat ((List.range z).map fun i => bytes (k * z + i)))).number = some y →
                  ∃ q : FVal, q.number = some (x + y) ∧ valueAt t (g.pa + k * z) z = (f.ofVal .rne q).1) ∧
                ∀ p, ¬(g.pa ≤ p ∧ p < g.pa + n) → Memory.read t.mem p = Memory.read u.mem p) ∧
            (∀ r, g.kind.isLogged = true → j.op ≠ 0x24 → j.bulk = false → j.away = false → u.ring? (u.ctxOf j.arr j.ctx).ring = some r →
              let x := u.ctxOf j.arr j.ctx
              let ln := g.pa / 64
              r.tail - r.pub + x.buf.length + 1 ≤ r.n - 1 → u.roomy r = true → x.indexRoom ln = true →
              (∀ b ∈ x.buf, b.line ≠ ln) → (∀ q ∈ x.storeQ, q.unentered = true → q.pa / 64 ≠ ln) →
              ∃ t q rc, out = .next t ∧ SameMemory u t ∧ head t (j.advance last) ∧ t.ring? x.ring = some q ∧
                q.tail = r.tail + 1 ∧ q.pub = r.pub ∧ Sparse.get none q.recs (r.tail % r.n) = some rc ∧
                rc.line = BitVec.ofNat 46 ln ∧ rc.copy = true ∧ rc.rel = false ∧ rc.kind.toNat = g.kind.code ∧ recOk rc = true ∧
                (∀ i < 64, rc.mask.getLsbD i = decide (g.pa % 64 ≤ i ∧ i < g.pa % 64 + n) ∧
                  (g.pa % 64 ≤ i ∧ i < g.pa % 64 + n → byteOf rc.data i = bytes (i - g.pa % 64))) ∧
                ∀ v, (u.arr j.arr).vc.find? (·.ownOf j.ctx ln) = some v →
                  ∃ w ∈ (t.arr j.arr).vc, w.line = ln ∧ w.owner = j.ctx ∧ w.st = .own ∧ ∀ i < 64, byteOf w.data i =
                    if g.pa % 64 ≤ i ∧ i < g.pa % 64 + n then bytes (i - g.pa % 64) else byteOf v.data i))))) ∧
  (∀ (s : State) (k : ArrId) (pool : Bool) (j : CopyJob) (l : List CopyJob), s.copyQ k.val pool = j :: l →
    j.done = true → j.bulk = false → j.stopped = false →
    let token := BitVec.ofNat 64 (j.bytes % 2 ^ 40 + j.status % 256 * 2 ^ 40 + (if j.clip then 2 ^ 48 else 0))
    let tokens := fun (t : State) => ((t.team? j.team).map (·.tokens)).getD []
    ∃ t, exec (.copyComplete k.val pool) s = .next t ∧ SameMemory s t ∧ t.copyQ k.val pool = l ∧
      (j.away = false → ∀ r, (t.ctxOf j.arr j.ctx).gv r = if r = j.gd ∧ r ≠ 0 then token else (s.ctxOf j.arr j.ctx).gv r) ∧
      (j.away = true → ∀ a c, (t.ctxOf a c).g = (s.ctxOf a c).g) ∧
      ((s.team? j.team).isSome = true →
        tokens t = tokens s ++ if j.gd ≠ 0 ∧ (j.away = true ∨ (j.gd.toNat < 8 ∧ j.seg < (s.ctxOf j.arr j.ctx).nodeSeg))
          then [(j.rank.toNat, j.gd, token)] else []))

/-- R306 to R308, R41: SEND checks its operands and reads its word, and enters the store queue with it; RCV waits until
the slot at HEAD is full and no older ETAG covers it, writes its offset and moves HEAD on; a placed message moves TAIL and COUNT on and lets the
sender's SEND perform. -/
def Obligations.MessagesAreSentAndReceived : Prop :=
  ∀ (s : State) (gd ga gb : Reg) (ring : BitVec 2) (a : ArrId) (m : NetMsg) (l : List NetMsg),
    let off := (s.me.rd gb).toNat
    let r := s.me.rings[ring.toNat]'ring.isLt
    (s.Clear [ga, gb] 0 → s.phase = 0 →
      (off % 32 ≠ 0 → Faults s (exec (.send ga gb ring) s) 0x11) ∧
      (off % 32 = 0 → (0x1000000 ≤ off ∨ (s.planOf s.me).holds off 32 = false) → Faults s (exec (.send ga gb ring) s) 0x10) ∧
      (off % 32 = 0 → off < 0x1000000 → (s.planOf s.me).holds off 32 = true →
        (peerClean (s.me.rd ga) = false ∨ peerOffset (s.me.rd ga) ≠ 0 → Faults s (exec (.send ga gb ring) s) 0x12) ∧
        (peerClean (s.me.rd ga) = true → peerOffset (s.me.rd ga) = 0 →
          (s.peer s.me.team.toNat (s.me.rd ga) = .outside → Faults s (exec (.send ga gb ring) s) 0x17) ∧
          (s.peer s.me.team.toNat (s.me.rd ga) = .invalid → Waits s (exec (.send ga gb ring) s)) ∧
          (((∃ b k, s.peer s.me.team.toNat (s.me.rd ga) = .here b k) ∨ ∃ k, s.peer s.me.team.toNat (s.me.rd ga) = .away k) →
          (s.me.asstPending (off / 32) = true → Waits s (exec (.send ga gb ring) s)) ∧
          (s.me.asstPending (off / 32) = false →
          Proceeds s (exec (.send ga gb ring) s) 1 fun t => ∃ q, (t.arr s.act.arr).asReqs = (s.arr s.act.arr).asReqs ++ [q] ∧
            q.word = off / 32 ∧ q.write = false ∧ q.mode = .ignore))))) ∧
    (s.Clear [ga, gb] 0 → s.phase ≠ 0 → s.me.storeQ.length < 32 → ∀ v, s.me.descBuf.find? (·.1 == 8) = some (8, v) →
      Stores s { s.me with descBuf := s.me.descBuf.filter (·.1 != 8) } (exec (.send ga gb ring) s) fun e =>
        e.op = .send ∧ e.word = v ∧ e.dva = (s.me.rd ga).toNat ∧ e.code.toNat = ring.toNat) ∧
    (s.Clear [] gd →
      (r.log2n = 0 → Faults s (exec (.rcv gd ring) s) 0x12) ∧
      (r.log2n ≠ 0 → (s.me.etagCovers (r.head.toNat / 32) = true ∨ (s.arr s.act.arr).full (r.head.toNat / 32) = false) →
        Waits s (exec (.rcv gd ring) s)) ∧
      (r.log2n ≠ 0 → s.me.etagCovers (r.head.toNat / 32) = false → (s.arr s.act.arr).full (r.head.toNat / 32) = true →
        ∃ t, exec (.rcv gd ring) s = .next t ∧ Beside s t ∧ Left s t ∧
          (∀ q, t.me.gv q = if q = gd ∧ q ≠ 0 then BitVec.ofNat 64 r.head.toNat else s.me.gv q) ∧
          (t.me.rings[ring.toNat]'ring.isLt) = { r with head := r.next r.head })) ∧
    ((s.arr a).net = m :: l → m.posted = true → m.remote = none → ∀ c n, m.ring = some (c, n) →
      ¬(m.src = a ∧ m.srcCtx = c) →
      ∃ t, exec (.messagePlace a) s = .next t ∧ SameMemory s t ∧ (t.arr a).net.length = l.length ∧
        (t.ctxOf a c).rings[n].count = (s.ctxOf a c).rings[n].count + 1 ∧
        (t.ctxOf a c).rings[n].tail = (s.ctxOf a c).rings[n].next (s.ctxOf a c).rings[n].tail ∧
        ∀ e q, (s.ctxOf m.src m.srcCtx).storeQ = e :: q → e.op = .send → e.phase = 1 →
          (t.ctxOf m.src m.srcCtx).storeQ = q)

/-- R309, R310: BARA arrives at its barrier's generation and issues; BARW waits while its arrival is pending; BAR does
both; a generation completes once every participant has arrived, its number moves on and the pending arrivals end.
In a rerun an arrival of the first run is not made again, whatever still pends. -/
def Obligations.BarriersCompleteTogether : Prop :=
  ∀ (s : State) (id : BitVec 4) (scope : BitVec 3) (no : Nat) (b : Barrier),
    let pending := s.me.arrived.any fun e => e.1 == scope.toNat && e.2.1 == id.toNat
    (s.mayArrive scope.toNat id.toNat = true → s.me.skip = 0 →
      (∃ t g, exec (.bara id scope) s = .next t ∧ SameMemory s t ∧ Left s t ∧ SameRegs s.me t.me ∧
        t.me.arrived = s.me.arrived ++ [(scope.toNat, id.toNat, g)] ∧ t.me.arrivals = s.me.arrivals + 1) ∧
      (s.phase = 0 → Proceeds s (exec (.bar id scope) s) 1 fun t =>
        ∃ g, t.me.arrived = s.me.arrived ++ [(scope.toNat, id.toNat, g)])) ∧
    (0 < s.me.skip →
      Issues s (exec (.bara id scope) s) { s.me with skip := s.me.skip - 1, arrivals := s.me.arrivals + 1 } ∧
      (s.phase = 0 → Issues s (exec (.bar id scope) s) { s.me with skip := s.me.skip - 1, arrivals := s.me.arrivals + 1 })) ∧
    (s.mayArrive scope.toNat id.toNat = false → s.me.skip = 0 →
      Waits s (exec (.bara id scope) s) ∧ (s.phase = 0 → Waits s (exec (.bar id scope) s))) ∧
    (pending = true → Waits s (exec (.barw id scope) s) ∧ (s.phase ≠ 0 → Waits s (exec (.bar id scope) s))) ∧
    (pending = false → Issues s (exec (.barw id scope) s) s.me ∧
      (s.phase ≠ 0 → Issues s (exec (.bar id scope) s) s.me)) ∧
    (s.barriers.find? (·.no == no) = some b → b.here ≠ [] → (∀ r ∈ s.participants b, r ∈ b.here) →
      ∃ t, exec (.barrierComplete no) s = .next t ∧ SameMemory s t ∧
        t.barriers.find? (·.no == no) = some { b with gen := b.gen + 1, here := [] } ∧
        ∀ tm, s.team? b.team = some tm → ∀ k ∈ tm.tasks, (b.scope = 5 ∨ b.scope = 7 ∨ barrierUnit b.scope k.arr = b.unit_) →
          (s.ctxOf k.arr k.ctx).team.toNat = b.team → (s.ctxOf k.arr k.ctx).arrived = [(b.scope, b.id, b.gen)] →
          (t.ctxOf k.arr k.ctx).arrived = [])

/-! Events of the sequencer and the logs (R62 to R82, R151, R152, R179, R222, R294). -/

/-- R151, R152, R179, R222, R294: a residue is presented again with its ready slots; a context switch goes to the next
able context in rotation, which issues 2 ac after the last bundle, and gates fetch where there is none; 4,096
bundles make the context yield; a gated sequencer wakes for a ready context, the running one before the next in rotation
(the model's choice, log 155); at the end of its quantum the lease
passes in rotation with a fresh quantum of Q x w bundles; a deadline makes its context ready. -/
def Obligations.SequencerTurns : Prop :=
  ∀ (s : State) (a : ArrId) (c : CtxId),
    let x := s.arr a
    (x.running = c → (s.ctxOf a c).run = .active → (s.ctxOf a c).residue ≠ [] → (s.ctxOf a c).todo = [] →
      ∃ t, exec (.residueRepresent a c) s = .next t ∧ OnlyArray s t a ∧ (t.arr a).lastAc = s.now ∧ (t.arr a).nextAc = s.now + 1 ∧
        (∀ d, d ≠ c → t.ctxOf a d = s.ctxOf a d) ∧ t.ctxOf a c = { s.ctxOf a c with todo := (t.ctxOf a c).todo } ∧
        ∀ k, k ∈ (t.ctxOf a c).todo ↔ (∃ o ∈ (s.ctxOf a c).residue, o.slot = k ∧ (s.ctxOf a c).waitOk o.wait = true ∧
          ¬(k = 3 ∧ (s.ctxOf a c).pageWait.isSome = true))) ∧
    (∀ i : CtxId, i ≠ 0 → x.able.getLsbD (x.running + i).val = true →
      (∀ j : CtxId, j ≠ 0 → j < i → x.able.getLsbD (x.running + j).val = false) →
      ∃ t, exec (.contextSwitch a) s = .next t ∧ OnlyArray s t a ∧ (t.arr a).running = x.running + i ∧ (t.arr a).gated = false ∧
        (t.arr a).streak = 0 ∧ (t.arr a).nextAc = max s.now (x.lastAc + 2) ∧
        (∀ d, d ≠ x.running → t.ctxOf a d = s.ctxOf a d) ∧ (t.ctxOf a x.running).g = (s.ctxOf a x.running).g ∧
        ((s.ctxOf a x.running).residue = [] → (t.ctxOf a x.running).yields = false)) ∧
    ((∀ j : CtxId, j ≠ 0 → x.able.getLsbD (x.running + j).val = false) →
      ∃ t, exec (.contextSwitch a) s = .next t ∧ OnlyArray s t a ∧
        t.arr a = { x with ctxs := (t.arr a).ctxs, streak := 0, gated := x.gated || !x.able.getLsbD x.running.val } ∧
        (∀ d, t.ctxOf a d = { s.ctxOf a d with yields := (t.ctxOf a d).yields }) ∧
        ((s.ctxOf a x.running).residue = [] → (t.ctxOf a x.running).yields = false)) ∧
    (∃ t, exec (.bundleCountExpire a) s = .next t ∧ OnlyArray s t a ∧ t.arr a = { x with ctxs := (t.arr a).ctxs, streak := 0 } ∧
      t.ctxOf a x.running = { s.ctxOf a x.running with yields := true } ∧
      ∀ d, d ≠ x.running → t.ctxOf a d = s.ctxOf a d) ∧
    (x.gated = true → x.able.getLsbD x.running.val = true →
      ∃ t, exec (.sequencerWake a) s = .next t ∧ OnlyArray s t a ∧
        t.arr a = { x with gated := false, streak := 0, nextAc := max x.nextAc (s.now + 1) }) ∧
    (∀ i : CtxId, x.gated = true → x.able.getLsbD x.running.val = false → i ≠ 0 → x.able.getLsbD (x.running + i).val = true →
      (∀ j : CtxId, j ≠ 0 → j < i → x.able.getLsbD (x.running + j).val = false) →
      ∃ t, exec (.sequencerWake a) s = .next t ∧ OnlyArray s t a ∧ (t.arr a).running = x.running + i ∧ (t.arr a).gated = false ∧
        (t.arr a).nextAc = max x.nextAc (s.now + 1) ∧ ∀ d, d ≠ x.running → t.ctxOf a d = s.ctxOf a d) ∧
    (∀ i : CtxId, x.holder = some c → (i ≠ 0 ∧ x.reqs[c + i] = true ∨ i = 0) →
      (∀ j : CtxId, j ≠ 0 → (j < i ∨ i = 0) → x.reqs[c + j] = false) →
      ∃ t, exec (.leaseQuantumEnd a) s = .next t ∧ OnlyArray s t a ∧ (t.arr a).holder = some (c + i) ∧
        (∀ tm, s.team? (s.ctxOf a (c + i)).team.toNat = some tm →
          (t.arr a).remain = tm.quantum * (1 + (s.queue (s.ctxOf a (c + i)).queue).prio.toNat / 4)) ∧
        (t.arr a).reqs[c + i] = false ∧ (∀ d, t.ctxOf a d = s.ctxOf a d)) ∧
    ((s.ctxOf a c).run = .active → x.gated = true →
      ∀ i ∈ [Instr.waitDeadline a c, .mwaitDeadline a c], ∃ t, exec i s = .next t ∧ OnlyArray s t a ∧
        (t.arr a).gated = false ∧ (t.arr a).able.getLsbD c.val = true ∧ (t.arr a).nextAc = max x.nextAc (s.now + 1) ∧
        (t.arr a).running = (if x.able.getLsbD x.running.val = true then x.running else (t.arr a).running) ∧
        ∀ d, t.ctxOf a d = s.ctxOf a d ∨
          d = x.running ∧ (t.arr a).running ≠ d ∧ t.ctxOf a d = (s.ctxOf a d).switchedOut (s.ctxOf a d).yields)

/-- R60, R65, R67 to R70, R73, R74: the oldest log-buffer entry, 256 ac after its last store, becomes the record with the next
sequence number and a good CRC; a full ring takes no record; a store that would leave no slot for its release is preceded by a
forced publication at scope .pod, which moves the rewind barrier past its record and is counted for the queue; a release whose older accesses are done goes on to its record, which it appends once the
log buffer is empty, and announces its segment where the ring has none waiting; a window's end stamps the first 128
announcements of its order W x 128 + k, within 40 ac, carries the others over, and brings bytes 16 to 31 of every
publication entry up to date; the stamp's arrival completes the release: its record carries the stamp, and the published
tail moves past it, at once where the entry is written here, and with its owner's answer elsewhere. -/
def Obligations.LogsAreWrittenAndStamped : Prop :=
  ∀ (s : State) (a : ArrId) (c : CtxId) (r : Ring), s.ring? (s.ctxOf a c).ring = some r →
    let x := s.ctxOf a c
    let ringIs := fun (t : State) (p : Ring → Prop) => ∃ r', t.ring? x.ring = some r' ∧ r'.slot = r.slot ∧ r'.n = r.n ∧ r'.fold = r.fold ∧ p r'
    let here := fun (pa : Nat) (sec : Bool) => pa % 64 = 0 ∧ rangeOf pa = .hbm ∧ (sec = true ∨ s.secureAt pa = false ∧ s.secureAt (pa + 16) = false)
    (r.release = none → s.roomy r = true → ∀ e l, x.buf = e :: l → e.last + 256 ≤ s.now →
      ∃ t, exec (.logBufferEntryAppend a c) s = .next t ∧ SameMemory s t ∧ (t.ctxOf a c).buf = l ∧ (t.ctxOf a c).g = x.g ∧
        ringIs t fun q => q.tail = r.tail + 1 ∧ q.pub = r.pub ∧ ∃ rc, q.recs.get none (r.tail % r.n) = some rc ∧
          rc.line = BitVec.ofNat 46 e.line ∧ rc.mask = e.mask ∧ rc.acls = e.acls ∧ rc.seq = BitVec.ofNat 48 r.tail ∧
          rc.rel = false ∧ recOk rc = true ∧ ∀ i < 64, byteOf rc.data i = if e.mask.getLsbD i then byteOf e.data i else 0) ∧
    (∀ y, r.release = some y → y.step = 1 → s.mayAppend r y = true →
      ∃ t, exec (.logBufferEntryAppend a c) s = .next t ∧ ArraysStand s t ∧
        ringIs t fun q => q.tail = r.tail ∧ q.release = some { y with step := 2 }) ∧
    (∀ y, r.release = some y → y.step = 2 → x.buf = [] → s.ringCtx r = some (a, c) → s.roomy r = true →
      ∃ t, exec (.logBufferEntryAppend a c) s = .next t ∧ ArraysStand s t ∧
        ringIs t fun q => q.tail = r.tail + 1 ∧ q.release = some { y with step := 3, seq := r.tail } ∧
          ∃ rc, q.recs.get none (r.tail % r.n) = some rc ∧ rc.rel = true ∧ rc.ckpt = y.ckpt ∧ rc.forced = y.forced ∧ rc.node = y.node) ∧
    (∀ y, r.release = some y → y.step = 3 → y.forced = false → s.anns = [] →
      ∃ t, exec (.appendStallEnd a c) s = .next t ∧ ArraysStand s t ∧
        (∃ n, t.anns = [n] ∧ n.ring = x.ring ∧ n.slot = r.slot ∧ n.first = r.segFirst ∧ n.rel = y.seq) ∧
        ringIs t fun q => q.release = some { y with step := 4 } ∧ q.tail = r.tail) ∧
    (∀ e l, x.storeQ = e :: l → e.op = .st → e.kind.isLogged = true → e.phase = 0 → e.order = 0 → (∀ q ∈ x.loadQ, q.order = 0) →
      r.release = none → (∀ b ∈ x.buf, b.line ≠ e.pa / 64) → r.n ≤ r.tail - r.pub + x.buf.length + 1 →
      ∃ t, exec (.queuePerform a c true) s = .next t ∧ SameMemory s t ∧ t.ctxOf a c = x ∧
        ringIs t fun q => q.tail = r.tail ∧ q.pub = r.pub ∧ ∃ y, q.release = some y ∧ y.forced = true ∧ y.scope = 5 ∧ y.step = 1) ∧
    (∀ y, r.release = some y → y.step = 3 → y.forced = true → s.anns = [] → s.ringCtx r = some (a, c) → x.queue < 64 →
      ∃ t, exec (.appendStallEnd a c) s = .next t ∧ SameMemory s t ∧ (t.ctxOf a c).barrier = y.seq + 1 ∧ (t.ctxOf a c).g = x.g ∧
        (t.queue x.queue).forced = (s.queue x.queue).forced + 1 ∧ ∃ n, t.anns = [n] ∧ n.ring = x.ring ∧ n.rel = y.seq) ∧
    (s.roomy r = false → ∃ t, exec (.logBufferEntryAppend a c) s = .next t ∧ SameMemory s t ∧ ringIs t fun q => q.tail = r.tail) ∧
    (NoLineErrors s → ∃ t, exec .packageWindowClose s = .next t ∧ (∀ b d, t.ctxOf b d = s.ctxOf b d) ∧ t.rings = s.rings ∧
      t.winNo = s.winNo + 1 ∧ t.winEnd = s.winEnd + 64 ∧ t.anns = [] ∧
      t.carriedAnns = s.windowOrder.drop 128 ∧ (⟨2 * (s.winEnd + 64), .packageWindowClose⟩ : Timed) ∈ t.agenda ∧
      (s.rings = [] → SameMemory s t) ∧
      (∀ q pa, s.rings = [q] → s.pubAddr q = some pa → s.holds = [] → here pa (q.sec || decide (128 ≤ q.slot)) →
        MemoryPut s t (pa + 16) 16 (q.fold % 2 ^ 64 + 2 ^ 64 * (q.oldest % 2 ^ 64))) ∧
      (∀ k n, s.windowOrder[k]? = some n → k < 128 → ∃ g ∈ t.segs, g.ring = n.ring ∧ g.slot = n.slot ∧ g.first = n.first ∧
        g.rel = n.rel ∧ g.touch = n.touch ∧ g.stamp = s.winNo * 128 + k ∧ s.now ≤ g.known ∧ g.known ≤ s.now + 40 ∧
        (⟨2 * g.known, .stampReceive n.slot⟩ : Timed) ∈ t.agenda) ∧
      (∀ g ∈ t.segs, g ∈ s.segs ∨ (s.winNo * 128 ≤ g.stamp ∧ g.stamp < s.winNo * 128 + 128)) ∧
      ∀ n m, s.carriedAnns = [] → (s.anns = [n, m] ∨ s.anns = [m, n]) → n.slot < 128 → m.slot < 128 →
        (n.slot + 128 - s.winNo % 128) % 128 < (m.slot + 128 - s.winNo % 128) % 128 → s.windowOrder = [n, m]) ∧
    (∀ g y, s.segs = [g] → g.ring = x.ring → g.known ≤ s.now → r.release = some y → y.step = 4 → y.seq = g.rel → NoLineErrors s →
      g.stamp ≠ 0 → s.holds = [] → (∀ k ∈ s.asks, k.who ≠ .log r.id) →
      let stamped := fun (q : Ring) => q.pub = g.rel + 1 ∧ q.tail = r.tail ∧ Sparse.get 0 q.stamps g.rel = g.stamp ∧
        ∀ rc, r.recs.get none (g.rel % r.n) = some rc → ∃ rc', q.recs.get none (g.rel % r.n) = some rc' ∧ recOk rc' = true ∧
          rc'.data = rc.data ||| BitVec.ofNat 512 g.stamp
      ∃ t, exec (.stampReceive g.slot) s = .next t ∧ (∀ b d, (t.ctxOf b d).g = (s.ctxOf b d).g) ∧ ringIs t stamped ∧
        (s.pubAddr r = none → SameMemory s t ∧ ringIs t (·.release = none)) ∧
        ∀ pa, s.pubAddr r = some pa →
          (here pa (r.sec || decide (128 ≤ r.slot)) → ringIs t (·.release = none) ∧
            MemoryPut s t pa 16 ((g.rel + 1) % 2 ^ 64 + 2 ^ 64 * (g.stamp % 2 ^ 64))) ∧
          (s.ours (pa / 64) = false → s.secureAt pa = false → ringIs t (·.release = some { y with step := 5 }) ∧
            ∃ k d m, t.asks = s.asks ++ [k] ∧ k.who = .log r.id ∧ k.pa = pa ∧ k.op = .write m d))

/-- R49, R71, R72, R81, R103, R106, R109: a fold engine writes the bytes of the next record of the lowest stamp at its line's
home, tags the line with the ASID of the log, and goes on, passes over one whose line is held, or reports a segment that is complete there; the log tracker moves
the fold pointer past a segment that every slice has reported, and writes it and the oldest retained sequence to the
log's publication entry; a record of another package is applied at its home and acknowledged, or acknowledged as out of
range with its error record; the owner's acknowledgement ends a fold of its line, or, out of range, leaves a record of
reason 0x0021. -/
def Obligations.FoldingAppliesRecords : Prop :=
  ∀ (s : State) (k : SliceId) (g : Seg) (r : Ring), NoLineErrors s → s.holds = [] → s.forwards = [] → s.redirects = [] → s.peerRecs = [] →
    (s.segs = [g] → g.touch.getLsbD k.val = true → g.reported.getLsbD k.val = false → g.known ≤ s.now → g.waiting = [] →
      (s.folds = [] → Sparse.get g.first g.next k.val = g.rel →
        ∃ t, exec (.foldSegment k) s = .next t ∧ SameMemory s t ∧ { t with segs := s.segs } = s ∧ ∃ q, t.segs = [q] ∧
          q = { g with reported := q.reported } ∧ ∀ i, q.reported.getLsbD i = (g.reported.getLsbD i || i == k.val)) ∧
      (∀ n rc, Sparse.get g.first g.next k.val = n → n < g.rel → g.first ≤ n → s.ring? g.ring = some r →
        r.recs.get none (n % r.n) = some rc → homeSlice rc.line.toNat = k.val → recOk rc = true → rc.kind = 0 →
        rangeOf (64 * rc.line.toNat) = .hbm →
        (s.folds = [] → s.pageRetired (64 * rc.line.toNat) = false →
          ∃ t q, exec (.foldSegment k) s = .next t ∧ LinePut s t rc.line.toNat rc.mask rc.data ∧ t.segs = [q] ∧ t.rings = s.rings ∧
            (t.lineMeta rc.line.toNat).owner = (r.at_ n).asid ∧
            Sparse.get q.first q.next k.val = n + 1 ∧ q.reported = g.reported ∧ q.waiting = [] ∧
            ∀ b d, (t.ctxOf b d).g = (s.ctxOf b d).g) ∧
        (∀ f, s.folds = [f] → f.line = rc.line.toNat →
          ∃ t q, exec (.foldSegment k) s = .next t ∧ { t with segs := s.segs } = s ∧ t.segs = [q] ∧ q.waiting = [(k.val, n)] ∧
            Sparse.get q.first q.next k.val = n + 1 ∧ q.reported = g.reported))) ∧
    (s.segs = [g] → g.touch &&& ~~~g.reported = 0 → g.known ≤ s.now → s.ring? g.ring = some r → g.rel < r.pub →
      (∀ q ∈ s.rings, q.next = some g.ring → q.pub ≤ q.fold) → r.next = none →
      ∃ t, exec (.logTrackerAdvance g.ring) s = .next t ∧ t.segs = [] ∧ (∀ b d, (t.ctxOf b d).g = (s.ctxOf b d).g) ∧
        (r.frees = false → ∃ q, t.ring? g.ring = some q ∧
          q = { r with fold := g.rel + 1, foldAc := s.now, foldWas := if r.foldAc = s.now then r.foldWas else r.fold }) ∧
        (r.frees = true → r.pub = g.rel + 1 → t.ring? g.ring = none) ∧
        ∀ pa, s.pubAddr r = some pa → pa % 64 = 0 → rangeOf pa = .hbm → (r.sec = true ∨ 128 ≤ r.slot ∨ s.secureAt (pa + 16) = false) →
          MemoryPut s t (pa + 16) 16 ((g.rel + 1) % 2 ^ 64 + 2 ^ 64 * (r.oldest % 2 ^ 64))) ∧
    (∀ (src : Sender) (tag : Nat) (rc : Record), let pa := 64 * rc.line.toNat
      rangeOf pa = .hbm → s.windowAt pa = none → s.adopted rc.line.toNat = none → s.isolatedAt rc.line.toNat = false →
      (s.physFault pa src.sec .logged = none → s.privateAt pa = false → s.sealedAt pa = false → s.lineHeld rc.line.toNat = false →
        ∃ t l, exec (.peerRecordReceive src tag rc) s = .next t ∧ LinePut s t rc.line.toNat rc.mask rc.data ∧ t.peerRecs = [] ∧
          t.outbox = s.outbox ++ l ++ [.recordAck src.pkg tag false]) ∧
      (∀ code reason, s.physFault pa src.sec .logged = some (code, reason) →
        ∃ t, exec (.peerRecordReceive src tag rc) s = .next t ∧ ArraysStand s t ∧ t.outbox = s.outbox ++ [.recordAck src.pkg tag true] ∧
          Reports s t reason (·.addr = pa)) ∧
      (s.physFault pa src.sec .logged = none → s.privateAt pa = false → s.sealedAt pa = false → s.lineHeld rc.line.toNat = true →
        exec (.peerRecordReceive src tag rc) s = .next { s with peerRecs := [⟨src.pkg, tag, rc, src.sec, src.asid, false⟩] })) ∧
    (∀ (u : State) (f : PFold) (tag : Nat), u.folds = [f] → f.peer = true → f.tag = tag →
      (∃ t, exec (.peerRecordAck tag false) u = .next t ∧ t.folds = [] ∧ LinePut u t f.line f.rcd.mask f.rcd.data ∧ t.arrays = u.arrays ∧
        (t.lineMeta f.line).l2 = .invalid) ∧
      (∃ t, exec (.peerRecordAck tag true) u = .next t ∧ t.folds = [] ∧ ArraysStand u t ∧
        Reports u t 0x0021 fun e => e.addr = 64 * f.line ∧ e.lo = f.stamp))

/-! Events of the scheduler (R311 to R333). -/

/-- R30, R78, R102, R314, R315, R316, R318, R319, R321: a doorbell releases the host log and sets TAIL, or stops an overrun queue
with error 0x0B; on a disabled queue it only releases; while the log's last release is under way it waits; the card at
HEAD is read and its header checked; LAUNCH, COPY, WAITSTAMP, SIGNAL and FENCE become jobs or are refused with the code of
what is wrong, a seal tag that does not hold and an address of the other world with their own records too. -/
def Obligations.CardsBecomeJobs : Prop :=
  ∀ (s : State) (q : QueueId) (card : List Byte) (tail : BitVec 16),
    let x := s.queue q.val
    let seq := cardNat card 0 8
    let full : Prop := x.st = 1 ∧ 2 ^ x.log2e.toNat < (tail - x.head).toNat
    let admits := fun (o : Out) (p : State → Prop) => ∃ t, o = .next t ∧ Admits s t q card ∧ p t
    let refuses := fun (o : Out) (code : Nat) => ∃ t, o = .next t ∧ Refuses s t q seq code
    (s.releasing (136 + x.func.val) = true → ∃ t, exec (.queueDoorbell q tail) s = .next t ∧ { t with agenda := s.agenda } = s ∧
      (⟨2 * (s.now + 1), .queueDoorbell q tail⟩ : Timed) ∈ t.agenda) ∧
    (s.releasing (136 + x.func.val) = false → x.st = 0 → ∃ t, exec (.queueDoorbell q tail) s = .next t ∧ ArraysStand s t ∧
      t.queues = s.queues ∧ ∀ r, s.ring? (136 + x.func.val) = some r → t.releasing (136 + x.func.val) = true) ∧
    (s.releasing (136 + x.func.val) = false → x.st ≠ 0 → ¬full → ∃ t, exec (.queueDoorbell q tail) s = .next t ∧ ArraysStand s t ∧ (t.queue q.val).tail = tail ∧
      (t.queue q.val).head = x.head ∧ (t.queue q.val).st = x.st ∧ t.jobs = s.jobs ∧
      ∀ r, s.ring? (136 + x.func.val) = some r → (t.queue q.val).need = r.tail + 1 ∧ t.releasing (136 + x.func.val) = true) ∧
    (s.releasing (136 + x.func.val) = false → full → ∃ t, exec (.queueDoorbell q tail) s = .next t ∧ Refuses s t q 0 0x0B) ∧
    (s.admitReady q = true → card = s.cardAt x →
      let at_ := x.base.toNat * 256 + x.head.toNat % 2 ^ x.log2e.toNat * 256
      (x.sec = false → s.secureAt at_ = true → ∃ t, exec (.cardAdmit q) s = .next t ∧ ArraysStand s t ∧ t.jobs = s.jobs ∧
        (t.queue q.val).st = 2 ∧ (t.queue q.val).err = 0x05) ∧
      ((x.sec = true ∨ s.secureAt at_ = false) →
      (cardBits card x.vmin = true → cardNat card 11 1 = x.vmaj → cardNat card 10 1 = x.vmin → s.dueSeq x.asid ≤ seq →
        ∃ t i, exec (.cardAdmit q) s = .next t ∧ ArraysStand s t ∧ t.jobs = s.jobs ∧ (t.queue q.val).head = x.head + 1 ∧
          t.urgent = s.urgent ++ [i] ∧ (cardNat card 8 1 = 1 → i = .launch q card) ∧ (cardNat card 8 1 = 2 → i = .copy q card) ∧
          (cardNat card 8 1 = 3 → i = .waitstamp q card) ∧ (cardNat card 8 1 = 4 → i = .signal q card) ∧
          (cardNat card 8 1 = 5 → i = .fenceCard q card) ∧ (cardNat card 8 1 = 6 → i = .suspend q card) ∧
          (cardNat card 8 1 = 7 → i = .resume q card)) ∧
      (cardBits card x.vmin = false → refuses (exec (.cardAdmit q) s) 0x01) ∧
      (cardBits card x.vmin = true → ¬(cardNat card 11 1 = x.vmaj ∧ cardNat card 10 1 = x.vmin) → refuses (exec (.cardAdmit q) s) 0x02) ∧
      (cardBits card x.vmin = true → cardNat card 11 1 = x.vmaj → cardNat card 10 1 = x.vmin → seq < s.dueSeq x.asid →
        refuses (exec (.cardAdmit q) s) 0x03))) ∧
    (cardRegions card = none → ∀ i ∈ [Instr.launch q card, .copy q card, .waitstamp q card, .signal q card, .fenceCard q card],
      refuses (exec i s) 0x05) ∧
    (∀ rs, cardRegions card = some rs →
      admits (exec (.fenceCard q card) s) (fun t => t.queues = s.queues) ∧
      (∀ pa, s.cardWord q (cardNat card 16 8) false = some pa → admits (exec (.waitstamp q card) s) fun t => t.queues = s.queues) ∧
      (∀ pa, s.cardWord q (cardNat card 16 8) true = some pa → admits (exec (.signal q card) s) fun t => t.queues = s.queues) ∧
      (∀ w : Bool, s.cardWord q (cardNat card 16 8) w = none →
        let i := if w then Instr.signal q card else .waitstamp q card
        (∃ t, exec i s = .next t ∧ ArraysStand s t ∧ t.jobs = s.jobs ∧ (t.queue q.val).st = 2 ∧ (t.queue q.val).err = 0x05) ∧
        ((2 ^ 55 ≤ cardNat card 16 8 ∨ s.abortAt x.asid x.sec (cardNat card 16 8) = none) → refuses (exec i s) 0x05)) ∧
      (let len := cardNat card 32 8
       let src := if cardNat card 40 1 = 1 then 8 else len
       (1 ≤ len → len ≤ 2 ^ 40 → cardNat card 16 8 + src ≤ 2 ^ 55 → cardNat card 24 8 + len ≤ 2 ^ 55 →
         admits (exec (.copy q card) s) fun t => t.queues = s.queues) ∧
       ((len = 0 ∨ 2 ^ 40 < len) → refuses (exec (.copy q card) s) 0x05)) ∧
      (cardNat card 32 8 + 2 ^ 22 ≤ 2 ^ 55 →
        (s.image? (cardNat card 16 8) = none → refuses (exec (.launch q card) s) 0x06) ∧
        ∀ m, s.image? (cardNat card 16 8) = some m →
          (m.sec ≠ x.sec → refuses (exec (.launch q card) s) 0x06) ∧
          (m.sec = x.sec → s.tagHolds m = true → s.shapeOk card m.plan = false → refuses (exec (.launch q card) s) 0x07) ∧
          (m.sec = x.sec → s.tagHolds m = false → ∃ t, exec (.launch q card) s = .next t ∧ ArraysStand s t ∧ t.jobs = s.jobs ∧
            (t.queue q.val).st = 2 ∧ (t.queue q.val).err = 0x06 ∧
            ∃ e l, t.funcs[(0 : Fin 8)].errs = s.funcs[(0 : Fin 8)].errs ++ e :: l ∧ e.reason = 0x0051 ∧ e.addr = 0) ∧
          (m.sec = x.sec → s.tagHolds m = true → s.shapeOk card m.plan = true → s.syncOk x (cardNat card 32 8) = false →
            (∀ i < 64, s.abortAt x.asid x.sec (cardNat card 32 8 + 65536 * i) = none) →
            refuses (exec (.launch q card) s) 0x08) ∧
          (m.sec = x.sec → s.tagHolds m = true → s.shapeOk card m.plan = true → s.syncOk x (cardNat card 32 8) = true →
            admits (exec (.launch q card) s) fun t => t.queues = s.queues)))

/-- R104, R316, R317, R320, R322: a job waits for an earlier one of its ASID that writes what it touches until that one has
completed and its records are folded, and for one that only reads what it writes until that one has completed; a GLOBAL card meets
every other; the waiting dependants of a job whose predecessor failed fail with it, each with its record of reason 0x0041;
a job whose turn has come is ready, a SIGNAL writes its word or adds to it and completes, or asks the
word's owner to, a FENCE completes, and a WAITSTAMP completes when its word has reached its value, or stops its queue with error
0x05 where its page no longer translates; every later card of the queue
waits for a WAITSTAMP or FENCE; a ready job gains a step each 1 ms, is
promoted at 255, and a COPY goes to the engine with the shortest queue of its class. -/
def Obligations.JobsAdvance : Prop :=
  ∀ (s : State) (job : Nat) (j : Job), s.job? job = some j →
    let jobIs := fun (t : State) (p : Job → Prop) => ∃ k, t.job? job = some k ∧ k.seq = j.seq ∧ k.failed = j.failed ∧ p k
    (s.jobDue j = true → j.failed = false →
      ((j.cmd = 1 ∨ j.cmd = 2) → ∃ t, exec (.jobReady job) s = .next t ∧ ArraysStand s t ∧
        jobIs t (fun k => k.st = .ready ∧ k.readyAc = s.now) ∧ (⟨2 * (s.now + 1750000), .jobAgeStep job⟩ : Timed) ∈ t.agenda) ∧
      (j.cmd = 5 → ∃ t, exec (.jobReady job) s = .next t ∧ ArraysStand s t ∧ jobIs t (·.st = .folding)) ∧
      (j.cmd = 4 → NoLineErrors s → ∀ pa, s.cardWord j.queue (cardNat j.body 16 8) true = some pa → pa % 8 = 0 →
        (rangeOf (64 * (pa / 64)) = .hbm →
          ∃ t, exec (.jobReady job) s = .next t ∧ jobIs t (·.st = .folding) ∧ (∀ b d, (t.ctxOf b d).g = (s.ctxOf b d).g) ∧
            MemoryPut s t pa 8 (if cardNat j.body 32 1 = 1 then (valueAt s pa 8 + cardNat j.body 24 8) % 2 ^ 64
              else cardNat j.body 24 8)) ∧
        (s.ours (pa / 64) = false →
          ∃ t k, exec (.jobReady job) s = .next t ∧ { t with asks := s.asks, askNo := s.askNo, outbox := s.outbox } = s ∧
            t.asks = s.asks ++ [k] ∧ k.who = .job job ∧ k.pa = pa))) ∧
    (s.stampMet j.queue = some j → j.id = job →
      (∀ pa, s.cardWord j.queue (cardNat j.body 16 8) false = some pa →
        ∃ t, exec (.waitstampSatisfied j.queue) s = .next t ∧ ArraysStand s t ∧ jobIs t (·.st = .folding)) ∧
      (s.cardWord j.queue (cardNat j.body 16 8) false = none →
        ∃ t k, exec (.waitstampSatisfied j.queue) s = .next t ∧ ArraysStand s t ∧ t.job? job = some k ∧ k.st = .folding ∧
          k.failed = true ∧ (t.queue j.queue.val).st = 2 ∧ (t.queue j.queue.val).err = 0x05)) ∧
    (∀ i : Job, let meets := fun (x y : Bool) => ∃ p ∈ i.regions, ∃ q ∈ j.regions, p.write = x ∧ q.write = y ∧ p.lo ≤ q.hi ∧ q.lo ≤ p.hi
      let after : Prop := i.asid = j.asid ∧ i.seq < j.seq
      ((after ∧ (i.global = true ∨ j.global = true ∨ meets true false ∨ meets true true)) ↔ edgeOf i j = .afterFold) ∧
      ((after ∧ i.global = false ∧ j.global = false ∧ ¬meets true false ∧ ¬meets true true ∧ meets false true) ↔
        edgeOf i j = .afterDone) ∧
      (i ∈ s.jobs → j.failed = false → j.st = .waiting →
        (edgeOf i j = .afterFold → (i.complete = false ∨ s.jobFolded i = false) → s.jobDue j = false) ∧
        (edgeOf i j = .afterDone → i.complete = false → s.jobDue j = false))) ∧
    (j.id = job → j.failed = true → j.st = .waiting →
      ((∀ i ∈ s.jobs, s.dependsOn j i = false) → ∃ t k, exec (.jobReady job) s = .next t ∧ ArraysStand s t ∧ t.job? job = some k ∧
        k.st = .folding ∧ k.failed = true ∧ Reports s t 0x0041 fun e => e.addr = 0 ∧ e.queue = j.queue.val) ∧
      (∀ i, s.jobs = [j, i] → i.id ≠ job → i.st = .waiting → edgeOf j i ≠ .none →
        ∃ t j' i', exec (.jobReady job) s = .next t ∧ ArraysStand s t ∧ t.jobs = [j', i'] ∧ j'.st = .folding ∧ j'.failed = true ∧
          i'.st = .folding ∧ i'.failed = true ∧ ∃ e f, t.funcs[(0 : Fin 8)].errs = s.funcs[(0 : Fin 8)].errs ++ [e, f] ∧
            e.reason = 0x0041 ∧ f.reason = 0x0041 ∧ e.queue = j.queue.val ∧ f.queue = i.queue.val ∧ e.addr = 0 ∧ f.addr = 0)) ∧
    (∀ i ∈ s.jobs, i.queue = j.queue → (i.cmd = 3 ∨ i.cmd = 5) → i.seq < j.seq → (i.st = .waiting ∨ i.st = .ready) →
      j.st = .waiting → j.failed = false → s.jobDue j = false ∧ s.stampMet j.queue ≠ some j) ∧
    (j.st = .ready →
      ∃ t, exec (.jobAgeStep job) s = .next t ∧ ArraysStand s t ∧ jobIs t (fun k => k.steps = j.steps + 1 ∧ k.st = .ready) ∧
        t.agenda = insertTimed ⟨2 * (s.now + 1750000), .jobAgeStep job⟩ s.agenda ∧
        t.urgent = if 255 ≤ j.steps + 1 ∧ j.promoted = false then s.urgent ++ [.jobPromote job] else s.urgent) ∧
    (255 ≤ j.steps → (j.st = .waiting ∨ j.st = .ready ∨ j.st = .placed) →
      ∃ t, exec (.jobPromote job) s = .next t ∧ ArraysStand s t ∧ t.queues = s.queues ∧ jobIs t (·.promoted = true)) ∧
    (j.st = .ready → j.cmd = 2 → ∀ e, s.chooseEngine (s.jobPool j) = some e →
      ∃ t c, exec (.bulkCopyAssign job) s = .next t ∧ ArraysStand s t ∧ jobIs t (·.st = .placed) ∧
        t.copyQ (32 + e) (s.jobPool j) = s.copyQ (32 + e) (s.jobPool j) ++ [c] ∧ c.job = j.id ∧ c.asid = j.asid ∧ c.bulk = true ∧
        c.ga = BitVec.ofNat 64 (cardNat j.body 16 8) ∧ c.gb = BitVec.ofNat 64 (cardNat j.body 24 8) ∧ c.bytes = 0 ∧
        (∀ k < 8, (s.copyQ (32 + e) (s.jobPool j)).length ≤ (s.copyQ (32 + k) (s.jobPool j)).length))

/-- R32, R19, R145, R323 to R325, R327, R329 to R333: a gang takes chains of usable arrays that share none, each with a leader that
has a free context, a plan apart from those of the kernels there and a ring slot of its size, and with idle followers, within one
quad, die or base die as its size asks; one array is the lowest that may lead; arrays that change world are scrubbed first; a
LAUNCH of one task starts at the image's entry with PARAM in g1, and resumes from its node record with g1 to g7, its flags
and its counts, every other register, its selectors, descriptors, loops and edge state as at reset, and its planned ranges
cleared; pre-emption is due for the head of the order alone, where it fits nowhere, and takes the fewest placed teams of strictly
lower rank that make room, one of them the lowest ranked and most recently placed; the chosen victims are asked to stop; a team that
has stopped leaves its arrays and is ready again; the watchdog asks a queue's teams to stop after T1 and kills the team and its
queue after T2; a killed context stops at once, with the values of its loads, its log-buffer entries, its watches and its records
above the published tail discarded, and its arrays are cleared of its planned ranges, its communication registers, cp and cf, and
its own view lines, and of nothing else; a scrubbed array holds nothing; a map entry becomes valid. -/
def Obligations.TeamsArePlacedAndStopped : Prop :=
  ∀ (s : State) (a : ArrId) (c : CtxId) (tm : Team) (m : Image) (g : Gang) (j : Job) (k : Task), NoLineErrors s →
    (∀ l, s.gangFit g = some l → (g.chain = 1 ∨ g.chain = 2 ∨ g.chain = 4) →
      l.length = g.tasks ∧ l.flatten.Nodup ∧
      (∀ ch ∈ l, ch.length = g.chain ∧ ∃ h tl, ch = h :: tl ∧ s.usable h = true ∧ (s.arr h).leader = none ∧
        (∃ d, (s.ctxOf h d).run = .free) ∧ (g.ringsz ≤ s.ringSlot.toList.getD (ArrId.die h) 0 ∨ s.idleDie (ArrId.die h) = true ∧ g.ringsz ≤ 8) ∧
        (s.idleArr h = true ∨ (s.arr h).sec = g.sec ∧ ∀ d, (s.ctxOf h d).run ≠ .free → g.plan.apart (s.planOf (s.ctxOf h d)) = true) ∧
        (∀ b ∈ tl, s.usable b = true ∧ (s.arr b).leader = none ∧ s.idleArr b = true) ∧
        (∀ b, tl = [b] → ArrId.quad b = ArrId.quad h) ∧
        (∀ b b2 b3, tl = [b, b2, b3] → ArrId.quad b = ArrId.quad h ∧ ArrId.quad b3 = ArrId.quad b2 ∧
          ArrId.die b2 = ArrId.die h ^^^ 1)) ∧
      (∀ n, (n = 4 ∧ g.chain ≠ 4 ∨ n = 8 ∧ g.chain ≠ 4 ∨ n = 16) → g.tasks * g.chain ≤ n →
        ∀ x ∈ l.flatten, ∀ y ∈ l.flatten, x.val / n = y.val / n)) ∧
    (∀ p q : Plan, p.apart q = true →
      (∀ r, ¬(p.mFirst ≤ r ∧ r < p.mFirst + p.mCount ∧ q.mFirst ≤ r ∧ r < q.mFirst + q.mCount)) ∧
      (∀ r, ¬(p.oFirst ≤ r ∧ r < p.oFirst + p.oCount ∧ q.oFirst ≤ r ∧ r < q.oFirst + q.oCount)) ∧
      (∀ r, ¬(p.eaFirst ≤ r ∧ r < p.eaFirst + p.eaCount ∧ q.eaFirst ≤ r ∧ r < q.eaFirst + q.eaCount)) ∧
      p.latches &&& q.latches = 0 ∧ (∀ x ∈ p.bufs, ∀ y ∈ q.bufs, x.banks &&& y.banks = 0) ∧ ¬(p.stoch = true ∧ q.stoch = true)) ∧
    (g.chain = 1 → g.tasks = 1 → ∀ wide : Bool, (wide = true → ∀ b, s.leaderOk g false b = false) →
      s.leaderOk g wide a = true → (∀ b < a, s.leaderOk g wide b = false) → s.gangFit g = some [[a]]) ∧
    (∀ l, s.job? j.id = some j → j.st = .ready → j.cmd = 1 → j.failed = false → s.jobFit j = some (tm, m, g, l) →
      (s.jobTeam j).everPlaced = false → s.pstate ≠ 1 → s.toScrub g l ≠ [] →
      ∃ t, exec (.gangPlace j.id) s = .next t ∧ { t with urgent := s.urgent } = s ∧
        t.urgent = s.urgent ++ (s.toScrub g l).map .arrayScrub) ∧
    (s.job? j.id = some j → j.st = .ready → j.cmd = 1 → j.failed = false → s.jobFit j = some (tm, m, g, [[a]]) → s.freeSlot g a = some c →
      s.toScrub g [[a]] = [] → s.pstate ≠ 1 →
      ((∀ x ∈ s.teams, x.job ≠ j.id) → cardNat j.body 56 1 = 1 →
        ∃ t, exec (.gangPlace j.id) s = .next t ∧ (∃ i, t.job? j.id = some i ∧ i.st = .placed) ∧
          (t.ctxOf a c).run = .active ∧ (t.ctxOf a c).pc = m.entry ∧ (t.ctxOf a c).asid = j.asid ∧ (t.ctxOf a c).nextAc = s.now + 1 ∧
          (t.ctxOf a c).larr = 0 ∧
          (∀ r, (t.ctxOf a c).gv r = if r = 1 then BitVec.ofNat 64 (cardNat j.body 24 8) else 0) ∧ (t.ctxOf a c).flags = 0 ∧
          (∀ b d, ¬(b = a ∧ d = c) → (t.ctxOf b d).g = (s.ctxOf b d).g ∧ (t.ctxOf b d).run = (s.ctxOf b d).run)) ∧
      (s.team? tm.id = some tm → tm.job = j.id → tm.everPlaced = true → tm.placed = false → tm.tasks = [k] → k.ended = false →
        ∀ rec_, s.nodeRecord tm k = some rec_ → (∀ i < 7, (cardNat rec_ 7 1).testBit i = false) →
        ∃ t, exec (.teamResume tm.id) s = .next t ∧ (t.ctxOf a c).run = .active ∧ (t.ctxOf a c).pc = cardNat rec_ 0 4 ∧
          (∀ i, 1 ≤ i → i ≤ 7 → (t.ctxOf a c).gv (BitVec.ofNat 5 i) = BitVec.ofNat 64 (cardNat rec_ (8 * i) 8)) ∧
          (t.ctxOf a c).flags = BitVec.ofNat 16 (cardNat rec_ 64 2) ∧ (t.ctxOf a c).sb = 0 ∧
          (t.ctxOf a c).node = BitVec.ofNat 16 (cardNat rec_ 4 2) ∧ (t.ctxOf a c).bundles = BitVec.ofNat 64 (cardNat rec_ 72 8) ∧
          (t.ctxOf a c).stamps = cardNat rec_ 80 8 ∧
          (∀ i, 8 ≤ i → i < 32 → (t.ctxOf a c).gv (BitVec.ofNat 5 i) = 0) ∧
          (let x := t.ctxOf a c
           let z := State.reset.ctxOf a c
           x.sp = z.sp ∧ x.fd = z.fd ∧ x.cd = z.cd ∧ x.iv = z.iv ∧ x.th = z.th ∧ x.loops = [] ∧ x.rets = [] ∧ x.mloop = none ∧
             x.kat = z.kat ∧ x.chk = z.chk ∧ x.rm = z.rm ∧ x.fpflags = 0 ∧ x.seed = z.seed ∧ x.staged = [] ∧ x.rings = launchRings tm.ringsW) ∧
          (∀ cell r, m.plan.mFirst ≤ r → r < m.plan.mFirst + m.plan.mCount → r < 48 → (t.arr a).mAt cell r = 0) ∧
          (∀ b ∈ m.plan.bufs, ∀ w, b.off < 32 * w + 32 → 32 * w < b.off + b.size → (t.arr a).asWord w = 0 ∧ (t.arr a).tagAt w = false))) ∧
    (∀ l, s.preemptDue = some (j, l) →
      (∃ rest, s.readyJobs = j :: rest) ∧ s.fitsNow j = false ∧ (s.without l).fitsNow j = true ∧ l ≠ [] ∧
      (∀ x ∈ l, x ∈ s.teams ∧ x.placed = true ∧ x.request = none ∧ ∃ i, s.job? x.job = some i ∧ s.rank i < s.rank j) ∧
      (∀ ts : List Team, ts.Sublist (s.victims j) → ts ≠ [] → ts.length < l.length → (s.without ts).fitsNow j = false) ∧
      ∀ x y i k', l = [x] → y ∈ s.teams → y.placed = true → y.dead = false → y.relaunch = false → y.request = none → s.job? y.job = some i →
        s.job? x.job = some k' → s.rank i < s.rank j → (s.rank i < s.rank k' ∨ s.rank i = s.rank k' ∧ x.placedAc < y.placedAc) →
        (s.without [y]).fitsNow j = false) ∧
    (∀ l, s.preemptDue = some (j, l) → ∃ t, exec (.preemptRequest j.id) s = .next t ∧ { t with teams := s.teams } = s ∧
      t.teams = s.teams.map fun x => if l.any (·.id == x.id) then { x with request := some (some j.id) } else x) ∧
    (s.team? tm.id = some tm → s.preemptReady tm = true →
      ∃ t u, exec (.teamPreempt tm.id) s = .next t ∧ (∀ i ∈ tm.tasks, i.placed = true → (t.ctxOf i.arr i.ctx).run = .free) ∧
        t.team? tm.id = some u ∧ u.placed = false ∧ u.request = none ∧ (∀ e ∈ u.map, e.valid = false) ∧
        ∀ i, s.job? tm.job = some i → ∃ i', t.job? tm.job = some i' ∧ i'.st = .ready) ∧
    (∀ q : QueueId, s.t1Due q = true → ∃ t, exec (.watchdogT1Expire q) s = .next t ∧ { t with teams := s.teams } = s ∧
      ∀ (i : Nat) (x : Team), s.teams[i]? = some x → ∃ y : Team, t.teams[i]? = some y ∧ y.id = x.id ∧
        (x.placed = true → x.queue = q → x.wdAc = none → x.dead = false → y.request ≠ none ∧ y.wdAc = some s.now) ∧
        (¬(x.placed = true ∧ x.queue = q ∧ x.wdAc = none ∧ x.dead = false) → y = x)) ∧
    (s.team? tm.id = some tm → s.t2Due tm = true → s.susp = none →
      ∃ t u, exec (.watchdogT2Expire tm.id) s = .next t ∧ SameMemory s t ∧ t.team? tm.id = some u ∧ u.dead = true ∧
        (t.queue tm.queue.val).st = 3 ∧ (t.queue tm.queue.val).err = 0x0C ∧
        Reports s t 0x0042 (fun e => e.team = tm.id ∧ e.queue = tm.queue.val) ∧
        (tm.tasks = [k] → k.placed = true → let x := s.ctxOf k.arr k.ctx
          (t.ctxOf k.arr k.ctx).run = .stopped fTerminated ∧ (t.ctxOf k.arr k.ctx).buf = [] ∧ (t.ctxOf k.arr k.ctx).todo = [] ∧
          (t.ctxOf k.arr k.ctx).watch = Vector.replicate 8 {} ∧ (∀ e ∈ (t.ctxOf k.arr k.ctx).loadQ, e.gd = 0) ∧
          ∀ r, s.ring? x.ring = some r → r.release = none → ∃ r', t.ring? x.ring = some r' ∧ r'.tail = r.pub ∧ r'.pub = r.pub ∧
            r'.fold = r.fold)) ∧
    (tm.tasks = [k] → k.placed = true →
      let x := s.ctxOf k.arr k.ctx
      let p := s.planOf x
      let t := s.reapDead tm
      let inBuf := fun (w : Nat) => ∃ b ∈ p.bufs, b.off < 32 * w + 32 ∧ 32 * w < b.off + b.size
      (t.ctxOf k.arr k.ctx).run = .free ∧ (∀ v ∈ (t.arr k.arr).vc, ¬(v.st = .own ∧ v.owner = k.ctx)) ∧
      ∀ n < chainLen x.chain,
        let z := t.arr (s.chainArr k.arr k.ctx n)
        let y := s.arr (s.chainArr k.arr k.ctx n)
        (∀ cell r, r < 48 → z.mAt cell r = if p.mFirst ≤ r ∧ r < p.mFirst + p.mCount then 0 else y.mAt cell r) ∧
        (∀ cell r, r < 8 → z.oAt cell r = if p.oFirst ≤ r ∧ r < p.oFirst + p.oCount then 0 else y.oAt cell r) ∧
        (∀ cell w i, w < 4 → i < 9 → z.latchAt cell w i = if p.latches.getLsbD w = true then 0 else y.latchAt cell w i) ∧
        (∀ r e, e < 256 → z.eaAt r e = if p.eaFirst ≤ r ∧ r < p.eaFirst + p.eaCount then 0 else y.eaAt r e) ∧
        (∀ w, (inBuf w → z.asWord w = 0 ∧ z.tagAt w = false) ∧ (¬inBuf w → z.asWord w = y.asWord w ∧ z.tagAt w = y.tagAt w)) ∧
        (∀ cell w, w < 3 → z.commAt cell k.ctx w = {}) ∧ (∀ cell, z.cpAt cell k.ctx = 0xFFFFFFFF ∧ z.cfAt cell k.ctx = false) ∧
        ∀ d, d ≠ k.ctx → (∀ cell w, w < 3 → z.commAt cell d w = y.commAt cell d w) ∧
          ∀ cell, z.cpAt cell d = y.cpAt cell d ∧ z.cfAt cell d = y.cfAt cell d) ∧
    (s.idleArr a = true → ∃ t, exec (.arrayScrub a) s = .next t ∧ OnlyArray s t a ∧ (t.arr a).scrubbed = true ∧
      (∀ cell r, (t.arr a).mAt cell r = 0 ∧ (t.arr a).oAt cell r = 0) ∧
      (∀ w, (t.arr a).asWord w = 0 ∧ (t.arr a).tagAt w = false) ∧ (∀ r e, (t.arr a).eaAt r e = 0) ∧
      (t.arr a).vc = [] ∧ (t.arr a).tc = [] ∧ ∀ d, (t.ctxOf a d).g = (s.ctxOf a d).g) ∧
    (∀ i e, s.team? tm.id = some tm → tm.map[i]? = some e →
      ∃ t u, exec (.peerEntryValid tm.id i) s = .next t ∧ ArraysStand s t ∧ t.team? tm.id = some u ∧
        u.map[i]? = some (if e.valid then e else { e with valid := true, since := s.now }) ∧ ∀ n, n ≠ i → u.map[n]? = tm.map[n]?)

/-! Events of the host port and the package registers (R24 to R31, R127 to R134, R312, R313, R345 to R351, R359 to R363). -/

/-- R127 to R130, R132, R133, R134, R195, R313, R363, R364: the mailbox commands on queues, images, pages and extents. A
command for function 0 alone is refused with status 4 elsewhere; QUEUE_CREATE makes a running queue of the lower
common version; QUEUE_RESET restarts one whose jobs have ended; QUEUE_DESTROY kills, and once the queue's jobs have ended its
STATE is 0 and it is answered; IMAGE_LOAD seals, or answers with the seal record's fields in bytes 8 to 23 of the response, and
is not permitted to a non-secure function for the secure world or a secure container; what is sealed is a well-formed signed
container of the world with no reason against any slot, and a refusal names the lowest refused slot, its lowest reason and the
number of refused bundles (R195, R196; a length or an address that no container has is an operand's failure by log 160); IMAGE_UNLOAD and ATTEST, which writes no
secure range for a non-secure function; SHOOTDOWN empties the translation caches; MIGRATE holds a page or write-protects
it, and is answered once nothing that is forwarded from its old page is left; PAGE_READY wakes what waits for it; extents. -/
def Obligations.CommandsAnswer : Prop :=
  ∀ (s : State) (fn : FnId) (q base log2e prio asid owner vmin dva count pa len id n lim : Nat) (world mgmt all forced : Bool)
      (nonce : List Byte),
    let x := s.queue q
    (fn ≠ 0 → ∀ i ∈ [Instr.queueCreate fn q base log2e prio asid owner world mgmt 1 vmin, .queueReset fn q, .queueDestroy fn q,
        .migrate fn asid dva pa, .shootdown fn asid dva count all, .pageReady fn asid dva, .extentRelease fn n forced],
      OnlyAnswers s (exec i s) fn 4 []) ∧
    (fn = 0 → q < 64 → owner < 8 → prio ≤ 15 → 4 ≤ log2e → log2e ≤ 12 → asid < 65536 → base % 256 = 0 →
      s.backed base (256 * 2 ^ log2e) = true → x.st = 0 → s.cfg.fnOn.getLsbD owner = true →
      (world = true → s.cfg.fnSec.getLsbD 0 = true ∧ s.cfg.fnSec.getLsbD owner = true) → s.rootOk asid world = true →
      (mgmt = true → owner = 0) →
      ∃ t, exec (.queueCreate fn q base log2e prio asid owner world mgmt 1 vmin) s = .next t ∧ ArraysStand s t ∧
        Answers s t fn 0 [1, BitVec.ofNat 8 (min vmin 1)] ∧ (t.queue q).st = 1 ∧ (t.queue q).func.val = owner ∧
        (t.queue q).asid = BitVec.ofNat 16 asid ∧ (t.queue q).prio = BitVec.ofNat 4 prio ∧ (t.queue q).vmin = min vmin 1 ∧
        (t.queue q).tail = 0 ∧ (t.queue q).head = 0 ∧ (t.queue q).done = 0 ∧ (t.queue q).prog = 0 ∧ (t.queue q).err = 0) ∧
    (fn = 0 → q < 64 → x.st ≠ 0 → OnlyAnswers s (exec (.queueCreate fn q base log2e prio asid owner false mgmt 1 vmin) s) fn 3 []) ∧
    (fn = 0 → q < 64 → (x.st = 2 ∨ x.st = 3) → x.ending = none →
      (s.queueQuiet q = true → ∃ t, exec (.queueReset fn q) s = .next t ∧ ArraysStand s t ∧ Answers s t fn 0 [] ∧
        t.queue q = { x with head := x.tail, err := 0, st := 1, resetting := none }) ∧
      (s.queueQuiet q = false → ∃ t, exec (.queueReset fn q) s = .next t ∧ { t with queues := s.queues } = s ∧
        t.queue q = { x with resetting := some fn })) ∧
    (fn = 0 → q < 64 → x.st ≠ 0 → s.teams = [] →
      ∃ t, exec (.queueDestroy fn q) s = .next t ∧ ArraysStand s t ∧ (t.queue q).st = 3 ∧ (t.queue q).ending = some fn ∧
        ∀ j, s.jobs = [j] → j.queue.val = q → (j.st = .waiting ∨ j.st = .ready) → j.team = 0 →
          ∃ k, t.jobs = [k] ∧ k.st = .folding ∧ k.failed = true) ∧
    (∀ f : FnId, q < 64 → x.ending = some f → s.queueQuiet q = true →
      (s.tidyQueues.queue q).st = 0 ∧ (s.tidyQueues.queue q).ending = none ∧ ArraysStand s s.tidyQueues ∧
      ((∀ k < 64, k ≠ q → (s.queue k).ending = none ∧ (s.queue k).resetting = none) → Answers s s.tidyQueues f 0 [])) ∧
    (s.cfg.fnSec.getLsbD fn.val = false → (world = true ∨ s.secureIn pa len = true) →
      OnlyAnswers s (exec (.imageLoad fn pa len world) s) fn 4 []) ∧
    ((s.cfg.fnSec.getLsbD fn.val = true ∨ world = false ∧ s.secureIn pa len = false) → 64 ≤ len → s.backed pa len = true → pa % 16 = 0 →
      (s.sealCheck ⟨pa, len⟩ world = none →
        ((s.image? (s.boxNat ⟨pa, len⟩ 16 8)).isSome = true ∨ s.measureOk (s.imageOf ⟨pa, len⟩ world) = false) →
        OnlyAnswers s (exec (.imageLoad fn pa len world) s) fn 3 []) ∧
      (s.sealCheck ⟨pa, len⟩ world = none → s.image? (s.boxNat ⟨pa, len⟩ 16 8) = none → s.measureOk (s.imageOf ⟨pa, len⟩ world) = true →
        ∃ t, exec (.imageLoad fn pa len world) s = .next t ∧ ArraysStand s t ∧ t.images = s.images ++ [s.imageOf ⟨pa, len⟩ world] ∧
          Answers s t fn 0 (natToBytes 8 (s.boxNat ⟨pa, len⟩ 16 8)) ∧
          ∀ e ∈ s.sealed, e ∈ t.sealed) ∧
      (let b : Box := ⟨pa, len⟩
       let x := s.scanOf b
       (s.sealCheck b world = none → s.boxOk b = true ∧ (s.boxNat b 6 1 = 1 ↔ world = true) ∧ s.boxSigned b = true ∧ s.planOk b = true ∧
         ∀ i k, i < x.count → k < 4 → x.slotReasons i k = []) ∧
       (∀ r, s.boxOk b = true → (s.boxNat b 6 1 = 1 ↔ world = true) → s.boxSigned b = true → s.planOk b = true →
         s.sealCheck b world = some r → r.bundle < x.count ∧ r.slot < 4 ∧
           (∃ z ∈ x.slotReasons r.bundle r.slot, r.reason = z.code ∧ ∀ y ∈ x.slotReasons r.bundle r.slot, z.code ≤ y.code) ∧
           (∀ i k, k < 4 → (i < r.bundle ∨ i = r.bundle ∧ k < r.slot) → x.slotReasons i k = []) ∧
           r.count = min ((List.range x.count).filter fun i => (List.range 4).any fun k => !(x.slotReasons i k).isEmpty).length 0xFFFF)) ∧
      (∀ r, s.sealCheck ⟨pa, len⟩ world = some r →
        let id := s.boxNat ⟨pa, len⟩ 16 8
        ∃ t, exec (.imageLoad fn pa len world) s = .next t ∧ ArraysStand s t ∧ t.images = s.images ∧ t.sealed = s.sealed ∧
          Reports s t 0x0050 (fun e => e.addr = id ∧ e.detail = r.reason) ∧
          Answers s t fn 3 (natToBytes 8 id ++ natToBytes 4 r.bundle ++ natToBytes 1 r.slot ++ natToBytes 1 r.reason ++ natToBytes 2 r.count))) ∧
    ((s.cfg.fnSec.getLsbD fn.val = true ∨ world = false ∧ s.secureIn pa len = false) → (len < 64 ∨ s.backed pa len = false ∨ pa % 16 ≠ 0) →
      OnlyAnswers s (exec (.imageLoad fn pa len world) s) fn 3 []) ∧
    (∀ m, s.image? id = some m → (m.sec = true → s.cfg.fnSec.getLsbD fn.val = true) →
      (s.imageNamed id = false → ∃ t, exec (.imageUnload fn id) s = .next t ∧ ArraysStand s t ∧ Answers s t fn 0 [] ∧ t.image? id = none ∧
        ∀ e ∈ t.sealed, e ∈ s.sealed ∧ e.2.2 ≠ id) ∧
      (s.imageNamed id = true → OnlyAnswers s (exec (.imageUnload fn id) s) fn 5 [])) ∧
    (s.image? id = none → OnlyAnswers s (exec (.imageUnload fn id) s) fn 3 []) ∧
    (let rep := s.attestBody (nonce.take 32) ++ Config.attestSignature (s.attestBody (nonce.take 32))
     let at_ := Config.hostBase + pa % 2 ^ 50
     (s.cfg.fnSec.getLsbD fn.val = false → s.secureIn at_ rep.length = true → OnlyAnswers s (exec (.attest fn nonce pa) s) fn 4 []) ∧
     ((s.cfg.fnSec.getLsbD fn.val = true ∨ s.secureIn at_ rep.length = false) →
       ∃ t, exec (.attest fn nonce pa) s = .next t ∧ t.arrays = s.arrays ∧ Answers s t fn 0 (natToBytes 8 rep.length) ∧
         ∀ p, Memory.read t.mem p = if at_ ≤ p ∧ p < at_ + rep.length then rep.getD (p - at_) 0 else Memory.read s.mem p)) ∧
    (fn = 0 → dva % 65536 = 0 → 0 < count → count ≤ 2 ^ 39 → asid < 65536 →
      ∃ t h, exec (.shootdown fn asid dva count all) s = .next t ∧ { t with shoots := s.shoots } = s ∧ t.shoots = s.shoots ++ [h] ∧
        h.asid = asid ∧ h.dva = dva ∧ h.pages = count ∧ h.all = all ∧ h.sent = false ∧ h.mailbox = true) ∧
    (∀ h, s.shoots = [h] → h.sent = true →
      (h.begun = false → ∃ t k, exec .shootdownAck s = .next t ∧ SameMemory s t ∧ t.shoots = [k] ∧ k.begun = true ∧
        (∀ a, ∀ e ∈ (t.arr a).tc, e ∈ (s.arr a).tc ∧ h.hitsEntry e = false) ∧ ∀ a c, (t.ctxOf a c).g = (s.ctxOf a c).g) ∧
      (h.begun = true → s.shootDrained h = true → h.hold = false → h.mailbox = true →
        ∃ t, exec .shootdownAck s = .next t ∧ SameMemory s t ∧ t.shoots = [] ∧ Answers s t h.fn 0 [])) ∧
    (fn = 0 → ∀ e at_ size kind fold, s.leafOf asid dva = some (e, at_, size) → newKindFor (leafKind e) (rangeOf pa) = some (kind, fold) →
      dva % size = 0 → pa % size = 0 → s.holds = [] → s.forwards = [] → rangeOf (leafPa e) ≠ .peer →
      s.kindFits (newLeaf e pa kind false) (size == 2 ^ 29) = true →
      (s.cfg.fnSec.getLsbD 0 = false → (s.secureIn pa size = true ∨ s.secureIn (leafPa e) size = true ∨ s.secureIn at_ 8 = true) →
        OnlyAnswers s (exec (.migrate fn asid dva pa) s) fn 4 []) ∧
      ((s.cfg.fnSec.getLsbD 0 = true ∨ s.secureIn pa size = false ∧ s.secureIn (leafPa e) size = false ∧ s.secureIn at_ 8 = false) →
      ∃ t h, exec (.migrate fn asid dva pa) s = .next t ∧ t.holds = [h] ∧ h.oldPa = leafPa e ∧ h.newPa = pa ∧ h.size = size ∧
        h.fold = fold ∧ h.newKind = kind ∧ h.held = [] ∧
        (fold = true → { t with holds := s.holds } = s) ∧
        (fold = false → NoLineErrors s → at_ % 8 = 0 → rangeOf (64 * (at_ / 64)) = .hbm →
          MemoryPut s t at_ 8 (BitVec.ofNat 64 (valueAt s at_ 8) ||| 128#64).toNat))) ∧
    (∀ f, s.forwards = [f] → s.holds = [] →
      (s.forwarding f = true → s.endForwards = s) ∧
      (s.forwarding f = false → s.endForwards.forwards = [] ∧ ArraysStand s s.endForwards ∧ Answers s s.endForwards f.fn 0 [])) ∧
    (fn = 0 → asid < 65536 → dva < 2 ^ 55 →
      ∃ t, exec (.pageReady fn asid dva) s = .next t ∧ SameMemory s t ∧ Answers s t fn 0 [] ∧
        ∀ a c, t.ctxOf a c = { s.ctxOf a c with pageWait := (t.ctxOf a c).pageWait } ∧
          (t.ctxOf a c).pageWait =
            (let size := match s.leafOf asid dva with | some (_, _, n) => n | none => 65536
             if (s.ctxOf a c).asid.toNat = asid ∧ (s.ctxOf a c).pageWait.map (· / size) = some (dva / size)
              then none else (s.ctxOf a c).pageWait)) ∧
    (∀ k : Fin 64, n = k.val → (s.pxt[k]).st ≠ 1 → (s.pxt[k]).st ≠ 2 →
      ∃ t, exec (.poolExtentAdd n base lim) s = .next t ∧ { t with pxt := s.pxt } = s ∧
        t.pxt[k] = ⟨BitVec.ofNat 36 base, BitVec.ofNat 36 lim, 1, none⟩ ∧ ∀ i : Fin 64, i ≠ k → t.pxt[i] = s.pxt[i]) ∧
    (∀ k : Fin 64, n = k.val → ((s.pxt[k]).st = 1 ∨ (s.pxt[k]).st = 2) → exec (.poolExtentAdd n base lim) s = .next s) ∧
    (∀ k : Fin 64, n = k.val → fn = 0 → ((s.pxt[k]).st ≠ 1 → OnlyAnswers s (exec (.extentRelease fn n false) s) fn 3 []) ∧
      ((s.pxt[k]).st ≠ 1 → (s.pxt[k]).st ≠ 2 → OnlyAnswers s (exec (.extentRelease fn n true) s) fn 3 [])) ∧
    (∀ k : Fin 64, n = k.val → fn = 0 → (s.pxt[k]).st = 1 →
      (∃ t, exec (.extentRelease fn n false) s = .next t ∧ { t with pxt := s.pxt } = s ∧ t.pxt[k] = { s.pxt[k] with st := 2, fn := some fn }) ∧
      (∃ t, exec (.extentRelease fn n true) s = .next t ∧ ArraysStand s t ∧ t.pxt[k] = { s.pxt[k] with st := 3, fn := none } ∧ Answers s t fn 0 [] ∧
        Reports s t 0x0026 (·.list = s.extentDirty s.pxt[k]) ∧
        ∀ l, (s.pxt[k]).has l = true → ((s.lineMeta l).l2 = .dirty ∨ (s.lineMeta l).tarn = .dirty) →
          (t.lineMeta l).poison = true ∧ (t.lineMeta l).l2 = .invalid ∧ (t.lineMeta l).tarn = .invalid))

/-- R24, R25, R27 to R29, R312, R350, R351, R360, R363: registers read and written through the mailbox and BAR0; format
and protection windows are enabled where their checks pass and set ERR elsewhere; the secure region table; error
injection. -/
def Obligations.RegistersReadAndWrite : Prop :=
  ∀ (s : State) (fn : FnId) (addr off : Nat) (v : Word) (n : Fin 16) (k : Fin 64),
    (∀ r, fn = 0 → pregAt addr = some r → OnlyAnswers s (exec (.readReg fn addr) s) fn 0 (natToBytes 8 (s.pregRead r).toNat)) ∧
    (fn = 0 → pregAt addr = none →
      OnlyAnswers s (exec (.readReg fn addr) s) fn 3 [] ∧ OnlyAnswers s (exec (.writeReg fn addr v) s) fn 3 []) ∧
    (fn ≠ 0 → OnlyAnswers s (exec (.readReg fn addr) s) fn 4 [] ∧ OnlyAnswers s (exec (.writeReg fn addr v) s) fn 4 []) ∧
    (fn = 0 →
      let writes := fun (p : State → Prop) => ∃ t, exec (.writeReg fn addr v) s = .next t ∧ ArraysStand s t ∧ Answers s t fn 0 [] ∧ p t
      (pregAt addr = some (.fw n 0) → (s.fw[n]).ena = false → writes fun t => t.fw[n] = { s.fw[n] with base := v.extractLsb' 16 36 }) ∧
      (pregAt addr = some (.fw n 1) → (s.fw[n]).ena = true → OnlyAnswers s (exec (.writeReg fn addr v) s) fn 0 []) ∧
      (∀ r, pregAt addr = some (.pw n r) → (s.pw[n]).ena = true → OnlyAnswers s (exec (.writeReg fn addr v) s) fn 0 []) ∧
      (pregAt addr = some .einjCtl → v.getLsbD 7 = false → s.cfg.injEna = true →
        writes fun t => t.einj = s.einj.take v ∧ t.einj.arm = false) ∧
      (pregAt addr = some (.pw n 0) → (s.pw[n]).ena = false → writes fun t => t.pw[n] = { s.pw[n] with base := v.extractLsb' 16 36 }) ∧
      (pregAt addr = some .atbr → v.extractLsb' 16 3 = 0 → writes fun t => t.atbrBase = v.extractLsb' 16 36 ∧ t.atbrEna = v.getLsbD 0) ∧
      (pregAt addr = some .boot → OnlyAnswers s (exec (.writeReg fn addr v) s) fn 0 []) ∧
      (pregAt addr = some (.queue k 1) → writes fun t => t.queue k.val = { s.queue k.val with prio := v.extractLsb' 0 4 })) ∧
    (s.barQueue fn off = none →
      let sets := fun (f : Func) => ∃ t, exec (.registerWrite fn off v) s = .next t ∧ { t with funcs := s.funcs } = s ∧ t.funcs[fn] = f ∧
        ∀ i : Fin 8, i ≠ fn → t.funcs[i] = s.funcs[i]
      (off = 0x10 → sets { s.funcs[fn] with wbase := v.extractLsb' 16 39 }) ∧
      (off = 0x18 → sets { s.funcs[fn] with hasid := v.extractLsb' 0 16, hena := v.getLsbD 16 }) ∧
      (off = 0x20148 → sets { s.funcs[fn] with mbdone := (s.funcs[fn]).mbdone && !v.getLsbD 1 }) ∧
      (off = 0x30000 → sets { s.funcs[fn] with eqbase := v.extractLsb' 12 40, eqlog2 := v.extractLsb' 0 4 }) ∧
      (off = 0x30008 → sets { s.funcs[fn] with eqhead := v.extractLsb' 0 16 }) ∧
      (off = 0 → sets s.funcs[fn])) ∧
    (∀ q, s.barQueue fn off = some (q, 6) → ∃ t, exec (.registerWrite fn off v) s = .next t ∧ { t with queues := s.queues } = s ∧
      t.queue q.val = { s.queue q.val with
        t1 := (v.extractLsb' 0 16).toNat, t2 := if v.extractLsb' 16 16 = 0 then 1 else (v.extractLsb' 16 16).toNat }) ∧
    exec (.mailboxDoorbellIgnored fn) s = .next s ∧
    (∃ t, exec (.formatWindowEnable n) s = .next t ∧ { t with fw := s.fw } = s ∧ (∀ i : Fin 16, i ≠ n → t.fw[i] = s.fw[i]) ∧
      ((s.fw[n]).ena = true → t = s) ∧
      ((s.fw[n]).ena = false → t.fw[n] = if s.fmtOk n = true then { s.fw[n] with ena := true } else { s.fw[n] with err := true })) ∧
    (∀ f, (s.fw[n]).closing = some f → s.joining = false →
      ∃ t, exec (.formatWindowDisable n) s = .next t ∧ ArraysStand s t ∧ t.fw[n] = { s.fw[n] with ena := false, closing := none } ∧
        Answers s t f 0 []) ∧
    (∃ t, exec (.protectionWindowEnable n) s = .next t ∧ { t with pw := s.pw, isolated := s.isolated } = s ∧ (∀ i : Fin 16, i ≠ n → t.pw[i] = s.pw[i]) ∧
      ((s.pw[n]).ena = true → t = s) ∧
      ((s.pw[n]).ena = false → s.protOk n = false → t.pw[n] = { s.pw[n] with err := true }) ∧
      ((s.pw[n]).ena = false → s.protOk n = true → ∀ g, s.group? (s.pw[n]).pgid.toNat = some g →
        t.pw[n] = { s.pw[n] with ena := true, degr := !g.lost.isEmpty })) ∧
    (∀ lim, (∃ t, exec (.secureRegionTableWrite false k lim v) s = .next t ∧ ArraysStand s t ∧ t.srt = s.srt ∧ Reports s t 0x0023 fun _ => True) ∧
      ((s.srt[k]).lock = true → exec (.secureRegionTableWrite true k lim v) s = .next s) ∧
      ((s.srt[k]).lock = false → ∃ t, exec (.secureRegionTableWrite true k lim v) s = .next t ∧ { t with srt := s.srt } = s ∧
        t.srt[k] = (if lim then { s.srt[k] with limit := v.extractLsb' 16 36, lock := v.getLsbD 1, valid := v.getLsbD 0 }
          else { s.srt[k] with base := v.extractLsb' 16 36 }))) ∧
    (∀ sec, (s.cfg.injEna = false → exec (.einjArm v sec) s = .next { s with einj := { s.einj with err := true } }) ∧
      (let e := s.einj.take v
       s.cfg.injEna = true →
        (e.reserved = true → exec (.einjArm v sec) s = .next { s with einj := { e with err := true, arm := false } }) ∧
        (e.reserved = false → e.trig = false → (sec = true ∨ 3 < e.target.toNat) →
          exec (.einjArm v sec) s = .next { s with einj := { e with arm := true } }))) ∧
    (s.einj.arm = true → s.einj.trig = false → s.einj.target = 0 →
      ∃ t, exec .einjPlace s = .next t ∧ ArraysStand s t ∧ t.einj = { s.einj with arm := false, done := true } ∧
        (t.lineMeta (s.einj.addr.toNat / 64)).errL2 =
          (s.lineMeta (s.einj.addr.toNat / 64)).errL2 ^^^ (if s.einj.sev = 1 then 3 else 1) ∧
        ∀ l, l ≠ s.einj.addr.toNat / 64 → t.lineMeta l = s.lineMeta l)

/-- R78, R102, R118, R341, R345, R346, R359, R361, R362: a function that is not enabled is not heard, and its reads are
unsupported requests; a posted write of the host is dropped with reason 0x0064, appended to the host log, or written at home, and
a longer one line by line; one that is held back stays the function's next input, and so does a read that has to wait; a
read answers with the bytes at home; an error record is written to its ring, or dropped where the ring is full; an
uncorrectable error in a clean line is fetched again, in HBM it poisons the line; where the line is a protected one whose stripe
gives its value, its reconstruction begins; in a dirty line it ends the owner's teams and retires the page; an array whose
contexts have been free for 1 s is tested by the package itself, on a known-answer test of each type, and the test records the
highest stamp, or retires the array with a record of its last passing stamp and its newest release's (R342); a line takes no
quarantined way of L2 (R347). -/
def Obligations.HostAccessesAndErrors : Prop :=
  ∀ (s : State) (fn : FnId) (off n : Nat) (data : List Byte) (a : ArrId),
    let dva := (s.funcs[fn]).wbase.toNat * 65536 + off
    let ring := 136 + fn.val
    (s.fnOn fn = false → exec (.hostPostedWrite fn off data) s = .next s ∧
      exec (.hostRead fn off n) s = .next { s with outbox := s.outbox ++ [.readReply fn false []] }) ∧
    (s.fnOn fn = true → (s.funcs[fn]).hena = false →
      (∃ t, exec (.hostPostedWrite fn off data) s = .next t ∧ ArraysStand s t ∧ Reports s t 0x0064 (·.addr = dva)) ∧
      (∃ t, exec (.hostRead fn off n) s = .next t ∧ ArraysStand s t ∧ Reports s t 0x0064 (·.addr = dva) ∧
        t.outbox = s.outbox ++ [.readReply fn false []])) ∧
    (∀ (g : Target) (u : State), s.fnOn fn = true → (s.funcs[fn]).hena = true → s.postedBlocked fn off = false → data ≠ [] → dva % 64 + data.length ≤ 64 →
      s.hostAccess fn .store dva = (.ok g, u) →
      (∀ r, g.kind.isLogged = true → u.ring? ring = some r → u.ringCtx r = none → u.roomy r = true →
        ∃ t q rc, exec (.hostPostedWrite fn off data) s = .next t ∧ SameMemory u t ∧ t.ring? ring = some q ∧ q.tail = r.tail + 1 ∧
          q.recs.get none (r.tail % r.n) = some rc ∧ rc.line = BitVec.ofNat 46 (g.pa / 64) ∧ rc.host = true ∧ recOk rc = true ∧
          rc.mask = BitVec.ofNat 64 ((2 ^ data.length - 1) * 2 ^ (g.pa % 64))) ∧
      (g.kind.isLogged = false → NoLineErrors u → rangeOf (64 * (g.pa / 64)) = .hbm → g.pa % 64 = dva % 64 →
        ∃ t, exec (.hostPostedWrite fn off data) s = .next t ∧
          ∀ p, Memory.read t.mem p = if g.pa ≤ p ∧ p < g.pa + data.length then data.getD (p - g.pa) 0 else Memory.read u.mem p)) ∧
    (s.fnOn fn = true → (s.funcs[fn]).hena = true → data ≠ [] →
      (s.postedBlocked fn off = true →
        exec (.hostPostedWrite fn off data) s = .next { s with inputs := .event (.hostPostedWrite fn off data) :: s.inputs }) ∧
      (∀ u, let k := 64 - dva % 64
        s.postedBlocked fn off = false → k < data.length → exec (.hostPostedWrite fn off (data.take k)) s = .next u →
        exec (.hostPostedWrite fn off data) s =
          .next ({ u with inputs := .event (.hostPostedWrite fn (off + k) (data.drop k)) :: u.inputs }.modFunc fn fun f =>
            { f with synced := (s.funcs[fn]).synced }))) ∧
    (s.fnOn fn = true → (s.funcs[fn]).hena = true → (s.readPends fn off n).isSome = true →
      exec (.hostRead fn off n) s = .next { s with inputs := .event (.hostRead fn off n) :: s.inputs }) ∧
    (∀ (g : Target) (u : State), s.fnOn fn = true → (s.funcs[fn]).hena = true → s.hostAsks fn = false → 0 < n → dva % 64 + n ≤ 64 →
      s.hostAccess fn .load dva = (.ok g, u) →
      NoLineErrors u → rangeOf (64 * (g.pa / 64)) = .hbm → g.pa % 64 = dva % 64 → (u.lineMeta (g.pa / 64)).poison = false →
      ∃ t, exec (.hostRead fn off n) s = .next t ∧ SameMemory u t ∧
        t.outbox = u.outbox ++ [.readReply fn true (Memory.bytes u.mem g.pa n)]) ∧
    (∀ r l, (s.funcs[fn]).errs = r :: l →
      let f := s.funcs[fn]
      let at_ := Config.hostBase + f.eqbase.toNat * 4096 + f.eqtail.toNat % 2 ^ f.eqlog2.toNat * 64
      (6 ≤ f.eqlog2.toNat → (f.eqtail - f.eqhead).toNat ≠ 2 ^ f.eqlog2.toNat → f.lost = false → rangeOf at_ = .host → s.holds = [] →
        ∃ t k d, exec (.errorRecordDeliver fn) s = .next t ∧ t.arrays = s.arrays ∧
          t.outbox = s.outbox ++ k ++ [.ask s.askNo at_ (.write (BitVec.allOnes 64) d) true 0, .msix fn 0] ∧
          t.funcs[fn] = { f with errs := l, eqtail := f.eqtail + 1 } ∧
          ∀ p, Memory.read t.mem p = if at_ ≤ p ∧ p < at_ + 64 then r.bytes.getD (p - at_) 0 else Memory.read s.mem p) ∧
      ((f.eqtail - f.eqhead).toNat = 2 ^ f.eqlog2.toNat →
        ∃ t, exec (.errorRecordDeliver fn) s = .next t ∧ { t with funcs := s.funcs } = s ∧ t.funcs[fn] = { f with errs := l, lost := true })) ∧
    (NoLineErrors s → ∀ l, rangeOf (64 * l) = .hbm →
      ((s.lineMeta l).l2 = .clean → s.dataUnit l = none → ∃ t, exec (.uncorrectableRead l 0) s = .next t ∧ ArraysStand s t ∧ t.errSeq = s.errSeq ∧
        (t.lineMeta l).errL2 = 0 ∧ (t.lineMeta l).poison = (s.lineMeta l).poison) ∧
      (s.mendable l = false → ∃ t, exec (.uncorrectableRead l 2) s = .next t ∧ ArraysStand s t ∧ (t.lineMeta l).poison = true ∧
        Reports s t 0x0010 (·.addr = 64 * l)) ∧
      (∀ w g m p, s.dataUnit l = some (w, g, m, p) → g.stripeLost (p / 65536) 1 = false → s.mends = [] →
        ∃ t q, exec (.uncorrectableRead l 2) s = .next t ∧ ArraysStand s t ∧ t.errSeq = s.errSeq ∧ t.mends = [q] ∧
          (t.lineMeta l).poison = (s.lineMeta l).poison ∧ q.line = l ∧ q.use = .own 3 ∧ q.pgid = g.pgid ∧ q.member = m ∧ q.off = p ∧ q.step = 0) ∧
      ((s.lineMeta l).l2 = .dirty → (s.lineMeta l).parity = false → s.retPages.length < 1024 →
        ∃ t, exec (.dirtyLineError l 0) s = .next t ∧ SameMemory s t ∧ (t.lineMeta l).poison = true ∧ t.pageRetired (64 * l) = true ∧
          ∀ tm, s.teams = [tm] → tm.asid = (s.lineMeta l).owner → ∃ u, t.teams = [u] ∧ u.dead = true) ∧
      ((s.lineMeta l).l2 = .dirty → (s.lineMeta l).parity = false → ∀ tm, s.teams = [tm] → tm.sec = s.secureAt (64 * l) →
        tm.tasks.any (fun k => !k.ended) = true →
        ∃ t u, exec (.dirtyLineError l 2) s = .next t ∧ SameMemory s t ∧ t.teams = [u] ∧ u.dead = true)) ∧
    (s.usable a = true → (∀ c, (s.ctxOf a c).run = .free) → (s.arr a).passAc + 1750000000 ≤ s.now →
      Instr.selfTest a (s.testPasses a) ∈ s.packageSteps ∧
      ((∀ (ty : BitVec 2) (e : Nat), Config.defect a.val ty.toNat e s.now = 0) → s.testPasses a = true) ∧
      (∃ t, exec (.selfTest a true) s = .next t ∧ OnlyArray s t a ∧
        t.arr a = { s.arr a with passStamp := s.topStamp, passAc := s.now, sampler := 0, takers := (t.arr a).takers }) ∧
      (∃ t, exec (.selfTest a false) s = .next t ∧ SameMemory s t ∧ t.retArrays.getLsbD a.val = true ∧
        ∃ e ∈ t.funcs[(0 : Fin 8)].errs, e.reason = 0x0006 ∧ e.unit_ = a.val ∧ e.lo = (s.arr a).passStamp ∧ e.hi = (s.arr a).relStamp)) ∧
    (∀ l asid, (s.lineMeta l).l2 = .invalid →
      let m := (s.fillL2 l asid).lineMeta l
      m.l2 ≠ .invalid → m.l2way < 16 ∧ (homeSlice l, l2Set l, m.l2way) ∉ s.quarL2)

/-! Faults, containment and nodes (R149, R150, R225 to R228, R334 to R347). -/

/-- R227, R334, R335, R337, R338, R343, R344: TRAP is the fatal fault 0x1C once its slot is alone. The lowest-numbered
slot with a fatal fault decides. A fatal fault stops its context exact at the bundle, discards what is not
published, the log's tail being its published tail again, writes the record of reason 0x0001 and ends the team; a stop that was asked for writes none. A page that
is not present leaves the context as it is, with a record of reason 0x0024. A termination notice ends the team's
tasks here, a relaunch notice asks them to stop for a relaunch where enough arrays are left, and a suspect notice is
a record of reason 0x0009. -/
def Obligations.FaultsStopContexts : Prop :=
  ∀ (s : State) (a : ArrId) (c : CtxId) (k : BitVec 16) (team pkg arr lo hi : Nat),
    let x := s.ctxOf a c
    let stopped := fun (t : State) (code : Nat) => SameMemory s t ∧ (t.ctxOf a c).run = .stopped code ∧ (t.ctxOf a c).buf = [] ∧
      (t.ctxOf a c).g = x.g ∧ (t.ctxOf a c).flags = x.flags ∧ (t.ctxOf a c).pc = x.pc ∧ (t.ctxOf a c).residue = x.residue ∧
      ∀ r, s.ring? x.ring = some r → (∀ y, r.release = some y → y.step < 4) →
        ∃ r', t.ring? x.ring = some r' ∧ r'.tail = r.pub ∧ r'.pub = r.pub ∧ r'.fold = r.fold ∧ r'.release = none
    (s.alone = true → Faults s (exec (.trap k) s) 0x1C) ∧ (s.alone = false → Waits s (exec (.trap k) s)) ∧
    (∀ l slot code, fatalOf l = some (slot, code) → (slot, code) ∈ l ∧ code ≠ 1 ∧ ∀ e ∈ l, e.2 ≠ 1 → slot ≤ e.1) ∧
    (x.run = .active →
      (∀ slot code o, fatalOf x.faults = some (slot, code) → x.slotAt slot = some o →
        ∃ t, exec (.contextFatalFault a c) s = .next t ∧ stopped t code ∧
          (Reports s t 0x0001 fun e => e.fault = code ∧ e.unit_ = a.val ∧ e.team = x.team.toNat ∧ e.node = x.node.toNat ∧
            e.flags = BitVec.ofNat 8 (c.val + 4 * slot) ∧
            ((∀ m, o.ins ≠ .trap m) → e.detail = o.pc) ∧ (∀ m, o.ins = .trap m → code = 0x1C → e.detail = m.toNat ∧ e.hi = o.pc)) ∧
          ∀ tm, s.team? x.team.toNat = some tm → ∃ u, t.team? x.team.toNat = some u ∧ u.dead = true) ∧
      (∀ code, fatalOf x.faults = none → x.ask = some code →
        ∃ t, exec (.contextFatalFault a c) s = .next t ∧ stopped t code ∧
          ((code = 0x21 ∨ code = 0x22) → t.errSeq = s.errSeq ∧ t.funcs = s.funcs) ∧
          (¬(code = 0x21 ∨ code = 0x22) → Reports s t 0x0001 fun e => e.fault = code ∧ e.detail = x.pc)) ∧
      (x.faults ≠ [] → ∃ t, exec (.pageRequestFault a c) s = .next t ∧ SameMemory s t ∧ t.teams = s.teams ∧
        t.ctxOf a c = { x with faults := [] } ∧ (∀ b d, ¬(b = a ∧ d = c) → t.ctxOf b d = s.ctxOf b d) ∧
        Reports s t 0x0024 fun e => e.addr = x.pageWait.getD 0 ∧ e.fault = 1 ∧ e.detail = x.pc)) ∧
    (∀ tm kk, s.team? team = some tm → tm.dead = false → tm.tasks = [kk] → kk.placed = true →
      (∃ t u, exec (.terminationNoticeReceive team) s = .next t ∧ SameMemory s t ∧ t.funcs = s.funcs ∧ t.team? team = some u ∧ u.dead = true ∧
        (t.ctxOf kk.arr kk.ctx).ask = some 0x21 ∧ (t.ctxOf kk.arr kk.ctx).g = (s.ctxOf kk.arr kk.ctx).g) ∧
      (tm.relaunch = false → s.canHold tm.ntasks tm.chain = true →
        ∃ t u, exec (.relaunchNoticeReceive team) s = .next t ∧ SameMemory s t ∧ t.team? team = some u ∧ u.relaunch = true ∧ u.dead = false ∧
          (t.ctxOf kk.arr kk.ctx).ask = some 0x22 ∧ Reports s t 0x0007 fun e => e.team = team)) ∧
    ∃ t, exec (.suspectNoticeReceive pkg arr lo hi) s = .next t ∧ ArraysStand s t ∧ t.teams = s.teams ∧
      Reports s t 0x0009 fun e => e.lo = lo ∧ e.hi = hi ∧ e.detail = pkg ∧ e.unit_ = arr

/-- R80, R339, R340, R345: a detected data error rolls its context back to the snapshot of its segment and runs it
again, or, where a forced publication bars the way, is the fatal fault 0x1D; the first rerun ends in a second one,
and two equal signatures in a record of reason 0x0003, two different ones, or a further error in either run, in the
retirement of the array and a relaunch; poison is rerun once, without a signature, and consumed again is the fatal
fault 0x13; another error in that one run begins the two runs of R340 (the model's choice, log 82). -/
def Obligations.DataErrorsRerunSegments : Prop :=
  ∀ (s : State) (a : ArrId) (c : CtxId) (n : Snapshot),
    let x := s.ctxOf a c
    let rolled := fun (o : Out) (r : Rerun) => ∃ t, o = .next t ∧ SameMemory s t ∧ t.errSeq = s.errSeq ∧
      (t.ctxOf a c).run = .active ∧ (t.ctxOf a c).rerun = some r ∧ (t.ctxOf a c).dataErr = none ∧ (t.ctxOf a c).residue = [] ∧
      (t.ctxOf a c).buf = [] ∧ (t.ctxOf a c).pc = n.pc ∧ (t.ctxOf a c).g = n.g ∧ (t.ctxOf a c).flags = n.flags ∧ (t.ctxOf a c).sp = n.sp ∧
      (t.ctxOf a c).fd = n.fd ∧ (t.ctxOf a c).cd = n.cd ∧ (t.ctxOf a c).loops = n.loops ∧ (t.ctxOf a c).rets = n.rets ∧
      (t.ctxOf a c).mloop = n.mloop ∧ (t.ctxOf a c).fpflags = x.fpflags ∧ (t.ctxOf a c).bundles = x.bundles ∧
      ∀ b d, ¬(b = a ∧ d = c) → (t.ctxOf b d).g = (s.ctxOf b d).g
    let retires := fun (o : Out) => ∃ t, o = .next t ∧ SameMemory s t ∧ (t.ctxOf a c).run = .stopped 0x22 ∧
      t.retArrays.getLsbD a.val = true
    x.run = .active → x.snap = some n →
    (∀ reason seg, x.dataErr = some (reason, seg) →
      (x.segBase ≤ seg → x.rerun = none → x.barrier ≤ n.relSeq →
        rolled (exec (.dataErrorTake a c) s) ⟨if reason = 0x0013 then 2 else 0, none, x.seg + 1⟩) ∧
      (x.segBase ≤ seg → x.rerun = none → n.relSeq < x.barrier →
        ∃ t, exec (.dataErrorTake a c) s = .next t ∧ (t.ctxOf a c).run = .stopped 0x1D ∧ Reports s t 0x0001 fun e => e.fault = 0x1D) ∧
      (∀ r, x.segBase ≤ seg → x.rerun = some r →
        (reason = 0x0013 → r.run = 2 → ∃ t, exec (.dataErrorTake a c) s = .next t ∧ (t.ctxOf a c).run = .stopped 0x13 ∧
          Reports s t 0x0001 fun e => e.fault = 0x13) ∧
        (reason ≠ 0x0013 → r.run = 2 → x.barrier ≤ n.relSeq → rolled (exec (.dataErrorTake a c) s) ⟨0, none, x.seg + 1⟩) ∧
        (r.run ≠ 2 → retires (exec (.dataErrorTake a c) s))) ∧
      (seg < x.segBase → ∃ t, exec (.dataErrorTake a c) s = .next t ∧ (t.ctxOf a c).run = .stopped 0x22)) ∧
    (∀ r, x.rerun = some r → x.dataErr = none →
      (r.run = 2 → exec (.segmentEndSignature a c) s = .next (s.modCtx a c fun y => { y with rerun := none })) ∧
      (r.run ≠ 2 → r.sigA = none → x.barrier ≤ n.relSeq → rolled (exec (.segmentEndSignature a c) s) ⟨1, some x.signature, r.first⟩) ∧
      (r.run ≠ 2 → r.sigA = some x.signature → ∃ t, exec (.segmentEndSignature a c) s = .next t ∧ SameMemory s t ∧
        t.ctxOf a c = { x with rerun := none } ∧ Reports s t 0x0003 fun e => e.unit_ = a.val) ∧
      (∀ g, r.run ≠ 2 → r.sigA = some g → g ≠ x.signature → retires (exec (.segmentEndSignature a c) s)))

/-- R149, R150, R225, R226, R228, R310, R332: CKPT takes its snapshot and starts its release once all older accesses have
performed and every owed value has arrived, and at its completion a new segment begins from that snapshot; NODE also
arrives at the team barrier, writes the node record behind it, all 128 bytes, and is then passed, or, where a request waits and
nothing is left in the queues, parks its task, progress being counted in either case; END frees its context, whose registers
stand, and discards its loop state and its return stack. -/
def Obligations.NodesCheckpointsAndEnds : Prop :=
  ∀ (s : State) (idx : BitVec 16) (r : Ring), s.ring? s.me.ring = some r →
    let a := s.act.arr
    let c := s.act.ctx
    let starts := fun (o : Out) (ckpt node : Bool) (p : State → Prop) => Proceeds s o 1 fun t => p t ∧ ∃ q, t.ring? s.me.ring = some q ∧
      q = { r with release := some ⟨1, 4, ckpt, false, node, 0, s.me.mseq⟩ }
    let waits := fun (i : Instr) => Waits s (exec i s)
    let rel := r.pub - 1
    (s.phase = 0 → s.mayRelease = true → s.me.rerun = none → s.me.dataErr = none →
      (s.me.sb = 0 → s.me.dv = 0 → s.me.delayed = [] →
        starts (exec .ckpt s) true false fun t => t.me.taken = some (s.me.snapshot 0)) ∧
      starts (exec (.node idx) s) false true (fun _ => True) ∧
      ((s.arr a).cQuiet c = true → s.copiesOf a c = [] → starts (exec .endt s) false false fun _ => True)) ∧
    (s.phase = 0 → s.mayRelease = false → waits .ckpt ∧ waits (.node idx) ∧ waits .endt) ∧
    (s.phase = 1 → r.release.isSome = true → waits .ckpt ∧ waits (.node idx) ∧ waits .endt) ∧
    (s.phase = 1 → r.release = none →
      Issues s (exec .ckpt s) (s.me.beginAt { s.me.taken.getD (s.me.snapshot rel) with relSeq := rel }) ∧
      (s.me.arrived = [] → s.me.skip = 0 → Proceeds s (exec (.node idx) s) 2 fun t =>
        ∃ g, t.me.arrived = [(7, 0, g)] ∧ t.me.arrivals = s.me.arrivals + 1) ∧
      (s.queuesEmpty = false → waits .endt) ∧
      (NoLineErrors s → s.queuesEmpty = true → ∃ t, exec .endt s = .next t ∧ (t.ctxOf a c).run = .free ∧
        (let x := t.ctxOf a c
         x.g = s.me.g ∧ x.flags = s.me.flags ∧ x.sp = s.me.sp ∧ x.q = s.me.q ∧ x.fd = s.me.fd ∧ x.cd = s.me.cd ∧ x.iv = s.me.iv ∧
           x.th = s.me.th ∧ x.kat = s.me.kat ∧ x.chk = s.me.chk ∧ x.rm = s.me.rm ∧ x.fpflags = s.me.fpflags ∧ x.seed = s.me.seed ∧
           x.ovac = s.me.ovac ∧ x.node = s.me.node ∧ x.rings = s.me.rings ∧ x.loops = [] ∧ x.rets = [] ∧ x.mloop = none) ∧
        (∀ b d, ¬(b = a ∧ d = c) → (t.ctxOf b d).g = (s.ctxOf b d).g) ∧
        ∀ tm k, s.team? s.me.team.toNat = some tm → tm.tasks = [k] → k.rank = s.me.rank.toNat →
          ∃ u k', t.team? s.me.team.toNat = some u ∧ u.tasks = [k'] ∧ k'.ended = true ∧ k'.placed = false)) ∧
    (s.phase = 2 → s.me.arrived = [] → s.me.sb = 0 → s.me.dv = 0 → s.me.delayed = [] → NoLineErrors s → s.holds = [] →
      ∀ pa, s.nodeAddr s.me = some pa → pa % 128 = 0 → rangeOf pa = .hbm → rangeOf (pa + 64) = .hbm →
      (s.me.sec = true ∨ s.secureAt pa = false ∧ s.secureAt (pa + 64) = false) →
      ∃ t, exec (.node idx) s = .next t ∧ t.me.residue = modWhere (fun o : SlotOp => o.slot == s.act.slot) (fun o => { o with phase := 3 }) s.me.residue ∧
        valueAt t pa 8 = ((s.me.pc + 1) % 2 ^ 32 + idx.toNat * 2 ^ 32 + 2 ^ 48 +
          (s.tokens a c).toNat / 2 % 128 * 2 ^ 56) % 2 ^ 64 ∧
        (∀ i : Fin 7, valueAt t (pa + 8 * (i.val + 1)) 8 = (s.me.gv (BitVec.ofNat 5 (i.val + 1))).toNat) ∧
        valueAt t (pa + 64) 2 = s.me.flags.toNat ∧ valueAt t (pa + 66) 6 = 0 ∧ valueAt t (pa + 72) 8 = s.me.bundles.toNat ∧
        valueAt t (pa + 80) 8 = s.me.stamps % 2 ^ 64 ∧ valueAt t (pa + 88) 8 = r.tail % 2 ^ 64 ∧
        valueAt t (pa + 96) 8 = Sparse.get 0 r.stamps (r.pub - 1) % 2 ^ 64 ∧ valueAt t (pa + 104) 24 = 0 ∧
        (∀ q, ¬(pa ≤ q ∧ q < pa + 128) → Memory.read t.mem q = Memory.read s.mem q) ∧ SameRegs s.me t.me) ∧
    (s.phase = 3 → ∀ tm, s.team? s.me.team.toNat = some tm →
      (tm.request ≠ none → s.queuesEmpty = false → waits (.node idx)) ∧
      (tm.request ≠ none → s.queuesEmpty = true →
        ∃ t, exec (.node idx) s = .next t ∧ SameMemory s t ∧ t.me.run = .parked ∧ t.me.g = s.me.g ∧ t.me.residue = s.me.residue ∧
          ∀ h : s.me.queue < 64, (t.queue s.me.queue).prog = s.queues[s.me.queue].prog + 1) ∧
      (tm.request = none → ∃ t, exec (.node idx) s = .next t ∧ SameMemory s t ∧ Left s t ∧ t.me.node = idx ∧ t.me.nodeSeg = s.me.seg + 1 ∧
        t.me.seg = s.me.seg + 1 ∧ t.me.g = s.me.g ∧ (∃ n, t.me.snap = some n ∧ n.pc = s.me.pc + 1 ∧ n.g = s.me.g ∧ n.relSeq = rel) ∧
        (∀ h : s.me.queue < 64, (t.queue s.me.queue).prog = s.queues[s.me.queue].prog + 1) ∧
        ∀ b d, ¬(b = a ∧ d = c) → t.ctxOf b d = s.ctxOf b d))

/-! Survivable memory (R105 to R120). -/

/-- R105, R111, R116: heartbeats go to every other member, every 250 us; one that arrives is noted, but a lost member that is not
being rebuilt is not heard; 2 ms without one make a member lost where no route is left, whom every other member is told of
and it too, while the partners of double parity exchange what they hold of it, a warning of reason 0x0033 where one is, and
isolation where nobody was heard. A loss notice naming this package isolates it too, and one from a lost member is discarded: the group is forgotten, its windows close, and
contexts with records pending for it are asked to take fault 0x20. The commands register, leave, declare and
rebuild; every one refuses a function other than 0. -/
def Obligations.GroupsWatchTheirMembers : Prop :=
  ∀ (s : State) (g : Group) (fn : FnId) (pgid m n q k target base : Nat) (members : List Nat),
    let grp := fun (t : State) (p : Group → Prop) => ∃ h, t.group? pgid = some h ∧ p h
    let isolated := fun (t : State) => SameMemory s t ∧ t.group? pgid = none ∧ (∀ i : Fin 16, (t.pw[i]).ena = true → (t.pw[i]).pgid.toNat ≠ pgid) ∧
      (∀ a c, (s.ctxOf a c).run = .active → (s.ctxOf a c).ask = none → s.pendingIn pgid (s.ctxOf a c) = true → (t.ctxOf a c).ask = some 0x20) ∧
      ∀ a c, (t.ctxOf a c).g = (s.ctxOf a c).g
    let bare : Prop := s.rings = [] ∧ s.series = [] ∧ s.folds = [] ∧ s.teams = [] ∧ s.asks = [] ∧ s.mends = [] ∧ s.redirects = [] ∧
      g.rebuild = none ∧ m < g.n ∧ g.members.length = g.n ∧ g.members.Nodup ∧ g.member m ≠ s.pkgNo
    let silent := fun (x : Nat) => x ∈ g.lost ∧ ∀ y b p, g.rebuild ≠ some (x, y, b, p)
    let told := (g.partners m).map fun i => Output.settled (s.redirect (g.member i)) pgid m
    let loses := fun (t : State) => SameMemory s t ∧ (∀ a c, t.ctxOf a c = s.ctxOf a c) ∧
      (grp t fun h => h = { g with
        lost := g.lost ++ [m], epoch := g.epoch + 1
        awaits := (g.awaits.filter fun e => e.2 != m) ++ (g.partners m).map fun i => (m, i) }) ∧
      (∀ i : Fin 16, (s.pw[i]).ena = true → (s.pw[i]).pgid.toNat = pgid → (t.pw[i]).degr = true)
    (s.groups = [g] → g.pgid = pgid → ∃ t, exec .heartbeatSend s = .next t ∧ ArraysStand s t ∧
      t.outbox = s.outbox ++ ((List.range g.n).filter fun i => i != g.index).map (fun i => .heartbeat (s.redirect (g.members.getD i 512)) pgid) ∧
      t.agenda = insertTimed ⟨2 * (s.now + 437500), .heartbeatSend⟩ s.agenda) ∧
    (s.group? pgid = some g → m ≠ g.index →
      (¬silent m → ∃ t, exec (.heartbeatReceive pgid m) s = .next t ∧ { t with groups := s.groups, agenda := s.agenda } = s ∧
        (grp t fun h => h.heardAt m = s.now ∧ (∀ i, i ≠ m → h.heardAt i = g.heardAt i) ∧ h = { g with heard := h.heard }) ∧
        t.agenda = insertTimed ⟨2 * (s.now + 3500000), .heartbeatTimeout pgid m⟩ s.agenda) ∧
      (silent m → exec (.heartbeatReceive pgid m) s = .next s ∧ exec (.heartbeatTimeout pgid m) s = .next s) ∧
      (¬silent m → g.heardAt m + 3500000 ≤ s.now →
        ((∀ i < g.n, i ≠ g.index → g.heardAt i + 3500000 ≤ s.now) → ∃ t, exec (.heartbeatTimeout pgid m) s = .next t ∧ isolated t) ∧
        (∀ i < g.n, i ≠ g.index → s.now < g.heardAt i + 3500000 →
          (s.unreachable (s.redirect (g.member m)) = true → m ∉ g.lost → bare → ∃ t, exec (.heartbeatTimeout pgid m) s = .next t ∧ loses t ∧
            Reports s t 0x0032 (fun e => e.detail = m ∧ e.addr = pgid) ∧
            t.outbox = s.outbox ++ (g.peers.map fun i => .lossNotice (g.member i) pgid m) ++ told) ∧
          (s.unreachable (s.redirect (g.member m)) = false → ∃ t, exec (.heartbeatTimeout pgid m) s = .next t ∧ ArraysStand s t ∧ t.groups = s.groups ∧
            Reports s t 0x0033 fun e => e.detail = m ∧ e.addr = pgid))) ∧
      (silent k → exec (.lossNoticeReceive pgid ⟨m, k⟩) s = .next s) ∧
      (m ∉ g.lost → ¬silent k → bare → ∃ t, exec (.lossNoticeReceive pgid ⟨m, k⟩) s = .next t ∧ loses t ∧ t.outbox = s.outbox ++ told) ∧
      (¬silent k → ∃ t, exec (.lossNoticeReceive pgid ⟨g.index, k⟩) s = .next t ∧ isolated t ∧
        ∀ w, s.groupWindow pgid = some w → (w.base.toNat, w.limit.toNat) ∈ t.isolated) ∧
      (m ∉ g.lost → bare → ∃ t, exec (.groupDeclareLost 0 pgid m) s = .next t ∧ loses t ∧ Answers s t 0 0 []) ∧
      (g.index < g.n → ∃ t, exec (.groupDeclareLost 0 pgid g.index) s = .next t ∧ isolated t ∧ Answers s t 0 0 []) ∧
      (g.leaving = none → ∃ t, exec (.groupLeave 0 pgid) s = .next t ∧ { t with groups := s.groups } = s ∧
        grp t fun h => h = { g with leaving := some (0, s.topStamp) }) ∧
      (m < g.n → m ∈ g.lost → g.rebuild = none → target < 512 → (target = s.pkgNo → (base + g.k) * 65536 ≤ s.visible) →
        (target = s.pkgNo → s.cfg.fnSec.getLsbD 0 = true ∨ s.secureIn (base * 65536) (g.k * 65536) = false) →
        ∃ t, exec (.groupRebuild 0 pgid m target base) s = .next t ∧ ArraysStand s t ∧ Answers s t 0 0 [] ∧
          (grp t fun h => h = { g with rebuild := some (m, target, base, 0), lines := 0 }) ∧ ⟨g.member m, target, pgid, m, base⟩ ∈ t.redirects) ∧
      (g.rebuild ≠ none → OnlyAnswers s (exec (.groupRebuild 0 pgid m target base) s) 0 3 [])) ∧
    (s.group? pgid = none →
      OnlyAnswers s (exec (.groupLeave 0 pgid) s) 0 3 [] ∧ OnlyAnswers s (exec (.groupDeclareLost 0 pgid m) s) 0 3 [] ∧
      OnlyAnswers s (exec (.groupRebuild 0 pgid m target base) s) 0 3 [] ∧
      (4 ≤ n → n ≤ 16 → q ≤ 1 → 0 < k → pgid < 65536 → members.length = n → (∀ x ∈ members, x < 512) →
        ∃ t h, exec (.groupRegister 0 pgid n q k members) s = .next t ∧ ArraysStand s t ∧ Answers s t 0 0 [] ∧ t.groups = s.groups ++ [h] ∧
          h.pgid = pgid ∧ h.n = n ∧ h.q = q ∧ h.k = k ∧ h.members = members ∧ h.lost = [] ∧ h.epoch = 0 ∧ h.rebuild = none)) ∧
    (¬(4 ≤ n ∧ n ≤ 16) → OnlyAnswers s (exec (.groupRegister 0 pgid n q k members) s) 0 3 []) ∧
    (fn ≠ 0 → OnlyAnswers s (exec (.groupRegister fn pgid n q k members) s) fn 4 [] ∧ OnlyAnswers s (exec (.groupLeave fn pgid) s) fn 4 [] ∧
      OnlyAnswers s (exec (.groupDeclareLost fn pgid m) s) fn 4 [] ∧ OnlyAnswers s (exec (.groupRebuild fn pgid m target base) s) fn 4 [])

/-- R107, R113, R116: with P the XOR of a stripe's data lines and Q the XOR of each scaled by its member's coefficient, every unit
of the stripe follows from the lines that were read: a missing data line from P, from Q where P is not read, two from both;
and a parity line from the data lines. -/
def Obligations.ParityRecoversLostLines : Prop :=
  ∀ (g : Group) (st : Nat) (got : List (Nat × LineData)) (d : Nat → LineData),
    let data := (List.range g.n).filter fun m => !(g.parity st).contains m
    let missing := data.filter fun m => !got.any fun e => e.1 == m
    let p := data.foldl (fun v m => v ^^^ d m) 0
    let q := data.foldl (fun v m => v ^^^ gfLine m (d m)) 0
    let hasP := ∃ v, (st % g.n, v) ∈ got
    let hasQ := g.q = 1 ∧ ∃ v, ((st + 1) % g.n, v) ∈ got
    4 ≤ g.n → g.n ≤ 16 → (got.map (·.1)).Nodup →
    (∀ e ∈ got, e.1 ∈ data ∧ e.2 = d e.1 ∨ e.1 = st % g.n ∧ e.2 = p ∨ g.q = 1 ∧ e.1 = (st + 1) % g.n ∧ e.2 = q) →
    (missing = [] ∨ missing.length = 1 ∧ (hasP ∨ hasQ) ∨ missing.length = 2 ∧ hasP ∧ hasQ) →
    (∀ m ∈ data, unitValue g st got m = some (d m)) ∧ unitValue g st got (st % g.n) = some p ∧
      (g.q = 1 → unitValue g st got ((st + 1) % g.n) = some q)

/-- R53, R54, R108, R113, R114, R116, R118, R119, R120: a delta of the next number is added to the parity line and acknowledged,
one ahead of a gap is kept, one seen before is only acknowledged, one for a locked parity line waits, and one that a lost member
sends itself is discarded; the last holder's acknowledgement completes a fold. A reconstruction begins at the reconstructor; it
locks the parity lines that it reads, then reads the stripe's data lines at their homes, and its value follows from what it
has read. A line read for a lost member is then here as a clean copy; a line unreadable here is written back with its value and a
record of reason 0x0011; a line of the member that is rebuilt here stands in its region, a parity line with its mark, and the
stripe goes on with the next line; a moved line stands at its new slot. Where there is no value the line is poisoned. A rebuild
passes line by line and stripe by stripe; a channel past its limit is retired line by line, and a record with the poisoned slot
ranges ends it. At every point no two lines share a slot and none stands in a retired channel (R52, R53). -/
def Obligations.ParityFoldsAndRetirement : Prop :=
  ∀ (s : State) (g : Group) (w : ProtWindow) (pgid src slice rot seq offset home line channel ce ue : Nat) (delta : LineData),
    let l := (w.base.toNat * 65536 + offset) / 64
    let recv := Instr.parityDeltaReceive pgid src slice rot seq offset ⟨delta, false⟩
    let begins := fun (o : Out) (k : Nat) (use : MendUse) (i m off : Nat) => ∃ t q, o = .next t ∧
      { t with mends := s.mends, mendNo := s.mendNo } = s ∧ t.mends = s.mends ++ [q] ∧ q.line = k ∧ q.use = use ∧ q.pgid = i ∧
      q.member = m ∧ q.off = off ∧ q.step = 0 ∧ q.locked = [] ∧ q.got = [] ∧ q.bad = []
    NoStoreErrors s →
    (s.group? pgid = some g → s.groupWindow pgid = some w → s.memberOf g src = some home → s.lostSender g src = false →
      (s.parityLocked w g offset = true → ∃ t, exec recv s = .next t ∧ { t with agenda := s.agenda } = s ∧
        (⟨2 * (s.now + 1), recv⟩ : Timed) ∈ t.agenda) ∧
      (s.parityLocked w g offset = false →
        ((s.series? pgid src slice rot seq).applied seq = true →
          exec recv s = .next { s with outbox := s.outbox ++ [.deltaAck src pgid slice rot seq] }) ∧
        (s.series = [] → g.epoch = 0 → 0 < seq → ∃ t, exec recv s = .next t ∧ { t with series := s.series } = s ∧
          t.series = [⟨pgid, src, slice, rot, 0, [(seq, offset, delta)], [], 0, []⟩]) ∧
        (s.series = [] → seq = 0 → g.q = 0 → g.lost = [] → g.gone = [] → offset / 65536 % g.n = g.index → rangeOf (64 * l) = .hbm →
          ∃ t k, exec recv s = .next t ∧
            LinePut s t l (BitVec.allOnes 64) (s.lineData l ^^^ delta) ∧ (t.lineMeta l).parity = true ∧
            t.outbox = s.outbox ++ k ++ [.deltaAck (s.redirect (g.member home)) g.pgid slice rot 0] ∧
            t.series = [⟨pgid, src, slice, rot, 1, [], [(0, offset, delta)], 0, []⟩]))) ∧
    (s.group? pgid = some g → s.groupWindow pgid = some w → s.memberOf g src = some home → s.lostSender g src = true →
      exec recv s = .next s) ∧
    (∀ f m, s.folds = [f] → f.peer = false → f.waits = false → f.pgid = pgid → f.slice = slice → f.rot = rot → f.fseq = seq →
      s.redirects = [] → s.group? pgid = some g → g.member m = src →
      (f.holders = [m] → (f.home = true → rangeOf (64 * f.line) = .hbm) →
        ∃ t, exec (.parityAckReceive ⟨pgid, src⟩ slice rot seq) s = .next t ∧ t.folds = [] ∧
        (f.home = true → LinePut s t f.line f.rcd.mask f.rcd.data ∧ (t.lineMeta f.line).owner = f.asid) ∧ (f.home = false → SameMemory s t) ∧
        ∀ p tag, f.src = some (p, tag) → ∃ k, t.outbox = s.outbox ++ k ++ [.recordAck p tag false]) ∧
      (∀ y, f.holders = [m, y] → g.member y ≠ src →
        ∃ t, exec (.parityAckReceive ⟨pgid, src⟩ slice rot seq) s = .next t ∧ { t with folds := s.folds } = s ∧ t.folds = [{ f with holders := [y] }])) ∧
    (∀ m st, s.lostAt (64 * line) = some (g, m, st) → g.reconstructs st = true → m ∉ g.parity st → g.stripeLost st 0 = false →
      s.copyHere line = false → (∀ e ∈ s.mends, e.line ≠ line) →
      begins (exec (.degradedRead line) s) line .read g.pgid m (s.lostOffset g m (64 * line))) ∧
    (∀ m : Mend, s.mends = [m] →
      let t := s.runMend w g m
      let ps := m.parities g
      (m.step = 0 → g.exchanging m.stripe = false → m.hopeless g = false → ArraysStand s t ∧
        t.mends = [{ m with step := 1, locked := ps, owed := ps.filter fun h => (s.heldUnit w g h m.off).isNone }] ∧
        ∀ h ∈ ps, (∀ k, s.heldUnit w g h m.off = some k → (k, s.pkgNo) ∈ t.locked) ∧
          (s.heldUnit w g h m.off = none → .lock (s.redirect (g.member h)) g.pgid h m.off true ∈ t.outbox)) ∧
      (m.step = 0 → g.exchanging m.stripe = false → m.hopeless g = true → t = s.endMend w g m none) ∧
      (m.step = 1 → m.owed ≠ [] → t = s) ∧
      (m.step = 1 → m.owed = [] → ArraysStand s t ∧ t.mends = [{ m with step := 2, owed := m.sources g }] ∧
        ∀ k ∈ m.sources g, s.heldUnit w g k m.off = none →
          ∃ a ∈ t.asks, a.who = .mend m.id k ∧ a.pa = 64 * State.unitLine w g k m.off ∧ a.op = .read) ∧
      (m.step = 3 → m.owed = [] → (∀ h ∈ m.locked, h ∉ m.bad) → (∀ tag, m.use ≠ .fold tag) →
        t = s.endMend w g m (unitValue g m.stripe m.got m.member))) ∧
    (∀ (m : Mend) (v : Option LineData), m.locked = [] →
      let t := s.endMend w g m v
      let puts := ∀ d, v = some d → LinePut s t m.line (BitVec.allOnes 64) d ∧ (t.lineMeta m.line).poison = false
      let poisons := v = none → (t.lineMeta m.line).poison = true ∧ (m.use ≠ .read → SameMemory s t)
      (∀ b c, (t.ctxOf b c).g = (s.ctxOf b c).g) ∧
      (m.use = .read → puts ∧ poisons) ∧
      (∀ k, m.use = .own k → rangeOf (64 * m.line) = .hbm → puts ∧ poisons ∧
        Reports s t (if v.isSome then 0x0011 else 0x0010) (·.addr = 64 * m.line)) ∧
      (m.use = .unit → rangeOf (64 * m.line) = .hbm → puts ∧ poisons ∧
        (v.isSome = true → (t.lineMeta m.line).parity = (g.parity m.stripe).contains m.member) ∧
        ∀ h, s.group? m.pgid = some h → t.group? m.pgid = some { h with lines := h.lines + 1 }) ∧
      (∀ r, m.use = .moved → s.retChan = some r → puts ∧ poisons ∧
        t.retChan = some { r with slot := r.slot + 1, poisoned := if v.isNone then r.poisoned ++ [r.slot] else r.poisoned } ∧
        (homePlace m.line = (r.channel, r.slot) → t.place m.line = rehome r.channel r.slot ∧
          (s.retired ≠ some r.channel → s.place m.line = (r.channel, r.slot))))) ∧
    (∀ m target base p, s.group? pgid = some g → s.groupWindow pgid = some w → g.rebuild = some (m, target, base, p) →
      (target = s.pkgNo → g.lines < 1024 → begins (exec (.rebuildStripe pgid) s) ((base * 65536 + (p * 65536 + 64 * g.lines)) / 64) .unit
        pgid m (p * 65536 + 64 * g.lines)) ∧
      ((target ≠ s.pkgNo ∨ 1024 ≤ g.lines) → p + 1 < g.k → ∃ t h, exec (.rebuildStripe pgid) s = .next t ∧ { t with groups := s.groups } = s ∧
        t.group? pgid = some h ∧ h = { g with rebuild := some (m, target, base, p + 1), lines := 0 }) ∧
      ((target ≠ s.pkgNo ∨ 1024 ≤ g.lines) → g.k ≤ p + 1 → ∃ t h, exec (.rebuildStripe pgid) s = .next t ∧ ArraysStand s t ∧
        t.group? pgid = some h ∧ h = { g with rebuild := none, lost := g.lost.filter (· != m), lines := 0 } ∧
        (h.lost = [] → ∀ i : Fin 16, (s.pw[i]).ena = true → (s.pw[i]).pgid.toNat = pgid → (t.pw[i]).degr = false))) ∧
    (ce < s.cfg.ceLimit → ∃ t, exec (.scrubCountSample channel ce 0) s = .next t ∧ ArraysStand s t ∧ t.retChan = s.retChan ∧ t.retired = s.retired ∧
      t.errSeq = s.errSeq ∧ Sparse.get 0 t.ceRun channel = 0) ∧
    (s.cfg.ceLimit ≤ ce → s.cfg.ceRuns ≤ Sparse.get 0 s.ceRun channel + 1 → channel < Config.channels →
      (s.retired = none → s.retChan = none → s.cfg.retireEna = true →
        ∃ t, exec (.scrubCountSample channel ce ue) s = .next t ∧ ArraysStand s t ∧ t.retChan = some ⟨channel, 0, []⟩) ∧
      (∀ y, s.retired = some y → y ≠ channel → s.retChan = none →
        ∃ t, exec (.scrubCountSample channel ce ue) s = .next t ∧ ArraysStand s t ∧ t.retChan = none ∧ Reports s t 0x0015 (·.unit_ = channel))) ∧
    (∀ r, s.retChan = some r →
      (Config.homeSlots ≤ r.slot → ∃ t, exec .channelRetire s = .next t ∧ ArraysStand s t ∧ t.retired = some r.channel ∧ t.retChan = none ∧
        Reports s t 0x0035 fun e => e.unit_ = r.channel ∧ e.detail = r.poisoned.length ∧
          e.list = (runsOf r.poisoned).flatMap fun x => [x.1, x.2]) ∧
      (r.slot < Config.homeSlots →
        let k := lineAt r.channel r.slot
        let y := s.lineMeta k
        let bad := y.l2 ≠ .dirty ∧ y.tarn ≠ .dirty
        (∀ v h m off, bad → s.unitOf k = some (v, h, m, off) → m ∉ h.lostIn (off / 65536) → begins (exec .channelRetire s) k .moved h.pgid m off) ∧
        (s.unitOf k = none ∨ ¬bad →
          ∃ t, exec .channelRetire s = .next t ∧ ArraysStand s t ∧
            (bad → (t.lineMeta k).poison = true ∧ t.retChan = some { r with slot := r.slot + 1, poisoned := r.poisoned ++ [r.slot] }) ∧
            (¬bad → (t.lineMeta k).poison = y.poison ∧ t.retChan = some { r with slot := r.slot + 1 }) ∧
            (r.channel < 768 → t.place k = rehome r.channel r.slot)))) ∧
    (s.retired = none ∨ s.retChan = none → ∀ k m : Nat, k < Config.channels * Config.homeSlots → m < Config.channels * Config.homeSlots →
      (s.place k).1 < Config.channels ∧ (s.place k).2 < Config.channelSlots ∧ s.retired ≠ some (s.place k).1 ∧
      (s.place k = s.place m → k = m))

/-! Delotte links, packages, power and reset (R30, R364 to R374). -/

/-- R364 to R366, R369, R371, R375: a flit has 256 bytes, closed by the CRC-64 over the others; a new data flit carries the
port's SEQ and E and is kept, and a port takes one only below its window; a flit is accepted in order, a duplicate only
dropped, any other discarded with one NAK, until 1 us later; an acknowledgement frees what lies below it; a NAK and 2 us
without progress replay from the oldest flit that is left, with a record of reason 0x0060; more than 64 symbol errors of a
lane in 1 ms are over its limit, and the lane goes to the spare, or the port is down where there is none; training takes the
higher common version, under 1.1 the window that the peer advertises, and advertises one of its own, of 64 to 4,096 flits;
which is the model's choice (Config.linkWindow, log 124). R56, R58, R59: a die's crossbar grants in an ac one packet at
most for each egress and each ingress, each with a free entry of its class; an egress takes the highest rank, a packet of age
255 before all others, and of equal ranks the input granted least recently; what stays waits as it was, or one ac older. -/
def Obligations.LinksDeliverInOrder : Prop :=
  ∀ (s : State) (p : PortId) (f : Flit) (e : BitVec 16) (lane n item major minor window : Nat),
    let x := s.ports[p]
    let recent := (x.errs ++ [(lane, s.now, n)]).filter fun (y : Nat × Nat × Nat) => decide (s.now < y.2.1 + 1750000)
    let errors := ((recent.filter fun y => y.1 == lane).map (·.2.2)).sum
    let below := fun (e : BitVec 16) (h : Flit) => decide (0 < (e - h.seq).toNat ∧ (e - h.seq).toNat ≤ 32768)
    let sets := fun (o : Out) (r : Port → Prop) => ∃ t, o = .next t ∧ ArraysStand s t ∧ (∀ i : Fin 16, i ≠ p → t.ports[i] = s.ports[i]) ∧ r t.ports[p]
    let only := fun (o : Out) (y : Port) => ∃ t, o = .next t ∧ { t with ports := s.ports } = s ∧ (∀ i : Fin 16, i ≠ p → t.ports[i] = s.ports[i]) ∧
      t.ports[p] = y
    let replays := fun (o : Out) (l : List Flit) => ∃ t, o = .next t ∧ ArraysStand s t ∧ (t.ports[p]).replaying = some 0 ∧ (t.ports[p]).replay = l ∧
      (t.ports[p]).lastAck = s.now ∧ (t.ports[p]).rxE = x.rxE ∧ (Reports s t 0x0060 fun r => r.unit_ = p.val) ∧
      (⟨2 * (s.now + 3500), .replayTimeout p⟩ : Timed) ∈ t.agenda
    (f.body.length = 248 ∧ f.bytes = f.body ++ natToBytes 8 f.crc.toNat ∧ (f.crcOk = true ↔ crc64 f.body = f.crc)) ∧
    (x.free = true → x.up = true ∧ x.repairing = false ∧ x.replaying = none ∧ x.replay.length < x.window ∧ x.replay.length < 4096) ∧
    (∃ g : Flit, let t := s.sendFlit p item
      (t.ports[p]).replay = x.replay ++ [g] ∧ (t.ports[p]).txSeq = x.txSeq + 1 ∧ (t.ports[p]).rxE = x.rxE ∧ t.outbox = s.outbox ++ [.flit p g] ∧
      g.typ = 1 ∧ g.seq = x.txSeq ∧ g.ack = x.rxE ∧ g.pad = 0 ∧ g.len.toNat ≤ 30 ∧ g.crcOk = true) ∧
    (x.up = true → x.repairing = false → x.replay = [] →
      (f.crcOk = true → f.seq = x.rxE → only (exec (.dataFlitReceive p f) s) { x with rxE := x.rxE + 1, nakHold := none }) ∧
      (f.crcOk = true → below x.rxE f = true → only (exec (.dataFlitReceive p f) s) x) ∧
      ((f.crcOk = false ∨ (f.seq ≠ x.rxE ∧ below x.rxE f = false)) →
        (x.nakHold.isSome = true → only (exec (.dataFlitReceive p f) s) x) ∧
        (x.nakHold = none → ∃ t, exec (.dataFlitReceive p f) s = .next t ∧ ArraysStand s t ∧ t.outbox = s.outbox ++ [.flit p (Flit.made 2 0 x.rxE [])] ∧
          t.ports[p] = { x with nakHold := some (s.now + 1750), acked := x.rxE } ∧ t.agenda = insertTimed ⟨2 * (s.now + 1750), .nakHoldoffExpire p⟩ s.agenda))) ∧
    (x.up = false → exec (.dataFlitReceive p f) s = .next s) ∧
    sets (exec (.flitAckReceive p e) s) (fun y => y.replay = x.replay.dropWhile (below e) ∧ y.rxE = x.rxE ∧ y.txSeq = x.txSeq ∧ y.up = x.up) ∧
    (x.up = true → x.repairing = false →
      (x.replay.dropWhile (below e) ≠ [] → replays (exec (.nakReceive p e) s) (x.replay.dropWhile (below e))) ∧
      (x.replay ≠ [] → x.lastAck + 3500 ≤ s.now → replays (exec (.replayTimeout p) s) x.replay)) ∧
    (x.replay.dropWhile (below e) = [] → sets (exec (.nakReceive p e) s) fun y => y.replay = []) ∧
    (s.now < x.lastAck + 3500 → exec (.replayTimeout p) s = .next s) ∧
    (∀ u, x.nakHold = some u → only (exec (.nakHoldoffExpire p) s) (if u ≤ s.now then { x with nakHold := none } else x)) ∧
    (errors ≤ 64 → only (s.symbolErrors p lane n) { x with errs := recent }) ∧
    (x.up = true → lane ≤ 8 → x.repairing = false →
      (64 < errors → x.spare = false →
        only (s.symbolErrors p lane n) { x with repairing := true, replaying := none, errs := recent.filter fun y => y.1 != lane }) ∧
      (x.spare = false → only (exec (.laneErrorLimit p lane) s) { x with repairing := true, replaying := none }) ∧
      (x.spare = true → ∃ t, exec (.laneErrorLimit p lane) s = .next t ∧ ArraysStand s t ∧ (t.ports[p]).up = false ∧
        Reports s t 0x0062 fun r => r.unit_ = p.val)) ∧
    (x.repairing = true →
      (∃ t, exec (.laneRetrainComplete p true e) s = .next t ∧ ArraysStand s t ∧ (t.ports[p]).repairing = false ∧ (t.ports[p]).spare = true ∧
        (t.ports[p]).replay = x.replay.dropWhile (below e) ∧ (t.ports[p]).replaying = (if x.replay.dropWhile (below e) = [] then none else some 0) ∧
        (Reports s t 0x0061 fun r => r.unit_ = p.val) ∧ t.outbox = s.outbox ++ [.flit p (Flit.made 3 0 x.rxE [])]) ∧
      (∃ t, exec (.laneRetrainComplete p false e) s = .next t ∧ ArraysStand s t ∧ (t.ports[p]).up = false ∧ Reports s t 0x0062 fun r => r.unit_ = p.val)) ∧
    (x.repairing = false → ∀ ok, exec (.laneRetrainComplete p ok e) s = .next s) ∧
    (major = 1 → ∃ t, exec (.linkTrain p major minor window) s = .next t ∧ ArraysStand s t ∧ (∀ i : Fin 16, i ≠ p → t.ports[i] = s.ports[i]) ∧
      t.ports[p] = { x with
        up := true, minor := min minor 1, quiesced := false, peerQuiet := false, repairing := false
        replaying := if x.replay = [] then none else some 0, lastAck := s.now
        window := if minor = 0 then 512 else max 64 (min 4096 window) } ∧
      ∃ w, t.outbox = s.outbox ++ (if minor = 0 then [] else [.advertise p w]) ∧ 64 ≤ w ∧ w ≤ 4096) ∧
    (major ≠ 1 → ∃ t, exec (.linkTrain p major minor window) s = .next t ∧ ArraysStand s t ∧ (t.ports[p]).up = false ∧
      Reports s t 0x0063 fun r => r.unit_ = p.val) ∧
    only (exec (.quiesceFlitReceive p) s) { x with peerQuiet := true } ∧
    (∀ (z : Xbar) (d : Fin 4), let (z', taken) := z.arbitrate d
      (∀ k ∈ taken, k ∈ z.queue ∧ z.free d k = true) ∧
      (∀ k ∈ taken, ∀ m ∈ taken, (k.egress = m.egress ∨ k.ingress = m.ingress) → k = m) ∧
      ∀ k ∈ z'.queue, (∀ m ∈ taken, m.id ≠ k.id) ∧
        ∃ m ∈ z.queue, k = { m with age := k.age } ∧ (k.age = m.age ∨ k.age = min 255 (m.age + 1))) ∧
    ∀ (order : List Nat) (l : List Packet) (k : Packet), egressWinner order l = some k → k ∈ l ∧ ∀ m ∈ l,
      let rank := fun (i : Packet) => if i.age = 255 then 16 else i.prio
      rank m ≤ rank k ∧ (rank m = rank k → lrgPlace order k.ingress ≤ lrgPlace order m.ingress)

/-- R15, R17, R23, R30, R97, R106, R113, R114, R195, R293, R302, R303, R372: the next chunk of a package is checked here, written
at its home and acknowledged, or acknowledged with the code of its refusal; one for an array store is acknowledged when its last
word is placed; one applied already is only acknowledged, one ahead of its turn or for a rank that is not placed left alone; an
acknowledgement frees what it covers and tells the copies that sent it; a peer's load, store, atomic and MON are checked here,
served at home and answered, and one that may not be is an abort with its record; a read of a data line waits while a fold holds it,
and one of a lost member's line is served by its reconstructor alone. -/
def Obligations.PeersAreServed : Prop :=
  ∀ (s : State) (src seq addr size code rank : Nat) (op : BitVec 6) (a b : Word) (sec : Bool) (asid : BitVec 16) (runs : List (Nat × List Byte))
    (r : BitVec 2),
    let c := s.chunksTo src
    let l := addr / 64
    let parts := runs.flatMap runLines
    let takes := fun (r : BitVec 2) => exec (.chunkReceive ⟨⟨sec, asid⟩, src⟩ seq rank r runs) s
    let answers := fun (t : State) (code : Nat) (v : Nat) => ∃ k, t.outbox = s.outbox ++ k ++ [.peerReply src code (BitVec.ofNat 512 v)]
    let ok := if (s.lineMeta l).poison then 0x13 else 0
    let old := valueAt s addr size
    let req := fun (op : BitVec 6) => exec (.peerPackageRequest src op addr size a b ⟨sec, asid⟩) s
    let aborts := fun (code reason : Nat) => ∃ t, req op = .next t ∧ ArraysStand s t ∧ Reports s t reason (·.addr = addr) ∧ answers t code 0
    let retries := fun (t : State) => (⟨2 * (s.now + 1), .peerPackageRequest src op addr size a b ⟨sec, asid⟩⟩ : Timed) ∈ t.agenda
    let fits := 0 < size ∧ addr % 64 + size ≤ 64
    (seq ≤ c.applied → takes r = .next { s with outbox := s.outbox ++ [.chunkAck src seq 0] }) ∧
    (c.applied < seq → (seq ≠ c.applied + 1 ∨ s.chunkWaits src rank r.toNat = true) → takes r = .next s) ∧
    (seq = c.applied + 1 → s.chunkWaits src rank r.toNat = false →
      (r = 0 → NoLineErrors s → s.atbrEna = false ∨ parts.length ≤ 1 →
        (runs.Pairwise fun x y => x.1 + x.2.length ≤ y.1 ∨ y.1 + y.2.length ≤ x.1) →
        (∀ x ∈ parts, rangeOf x.1 = .hbm ∧ s.inbound x.1 sec true = .ok x.1) →
        ∃ t k, takes r = .next t ∧ (t.chunksTo src).applied = seq ∧ t.outbox = s.outbox ++ k ++ [.chunkAck src seq 0] ∧
          (∀ x ∈ runs, ∀ i < x.2.length, Memory.read t.mem (x.1 + i) = x.2.getD i 0) ∧
          ∀ p, (∀ x ∈ runs, ¬(x.1 ≤ p ∧ p < x.1 + x.2.length)) → Memory.read t.mem p = Memory.read s.mem p) ∧
      (∀ x k e reason, parts = x :: k → s.inbound x.1 sec true = .error (e, reason) → r ≠ 3 → reason ≠ 0 →
        ∃ t, takes r = .next t ∧ ArraysStand s t ∧ (t.chunksTo src).applied = seq ∧ Reports s t reason (·.addr = x.1) ∧
          t.outbox = s.outbox ++ [.chunkAck src seq e]) ∧
      (r = 3 → s.chunkAsOk rank runs = false →
        ∃ t, takes r = .next t ∧ ArraysStand s t ∧ (t.chunksTo src).applied = seq ∧ t.outbox = s.outbox ++ [.chunkAck src seq 0x10]) ∧
      (∀ y, r = 3 → s.chunkAsOk rank runs = true → (∃ x ∈ runs, x.2 ≠ []) → s.rankHere (rank / 16384) (rank % 16384) = some y →
        ∃ t ms, takes r = .next t ∧ SameMemory s t ∧ t.outbox = s.outbox ∧ (t.chunksTo src).applied = c.applied ∧
          (t.arr y).net.length = (s.arr y).net.length + ms.length ∧
          ((t.arr y).net.drop (s.arr y).net.length).map (fun m => { m with posted := false }) = ms ∧
          (ms.map fun (m : NetMsg) => (m.word, m.data, m.mask)) = (runs.flatMap fun x => runWords x.1 x.2).map (fun w =>
            (w.1 / 32, BitVec.ofNat 256 (bytesToNat w.2 * 2 ^ (8 * (w.1 % 32))), BitVec.ofNat 32 ((2 ^ w.2.length - 1) * 2 ^ (w.1 % 32)))) ∧
          (∀ m ∈ ms.dropLast, m.chunk = none) ∧ ms.getLast?.map (·.chunk) = some (some (src, seq)))) ∧
    (∀ m : NetMsg, m.copy = none → m.chunk = some (src, seq) →
      ((s.wordPlaced m).chunksTo src).applied = seq ∧ (s.wordPlaced m).outbox = s.outbox ++ [.chunkAck src seq 0]) ∧
    (∃ t, exec (.chunkAckReceive src ⟨seq, code⟩) s = .next t ∧ { t with chunks := s.chunks, arrays := s.arrays, bces := s.bces } = s ∧
      (t.chunksTo src).ackOut = max c.ackOut seq ∧ (t.chunksTo src).applied = c.applied ∧
      ((t.chunksTo src).unacked = c.unacked.filter fun u => decide (seq < u.seq)) ∧ (∀ x y, t.ctxOf x y = s.ctxOf x y) ∧
      ∀ x, (t.arr x).near = (s.arr x).near.map (·.acked src seq code)) ∧
    (¬fits → aborts 0x14 0x0021) ∧
    (s.lostAt addr = none → (s.localLine l = none → aborts 0x14 0x0021) ∧
      (∀ k, s.localLine l = some k → s.parityLine k = true ∨ s.privateAt (64 * k + addr % 64) = true → aborts 0x14 0x0021)) ∧
    (∀ g m st, s.lostAt addr = some (g, m, st) → rangeOf addr = .peer → fits →
      ((g.parity st).contains m = true → aborts 0x14 0x0021) ∧
      ((g.parity st).contains m = false →
        (g.stripeLost st 0 = true → aborts 0x1F 0x0034) ∧
        (g.stripeLost st 0 = false →
          (requestWrites op = true ∨ g.reconstructs st = false → aborts 0x14 0x0021) ∧
          (requestWrites op = false → g.reconstructs st = true → s.requestWaits l op = true → ∃ t, req op = .next t ∧ retries t)))) ∧
    (NoLineErrors s → fits → rangeOf (64 * l) = .hbm → s.parityLine l = false → s.privateAt addr = false →
      (∀ e reason, s.physFault addr sec .sync = some (e, reason) → aborts e reason) ∧
      (s.physFault addr sec .sync = none →
        (s.sealedAt addr = true → requestWrites op = true → aborts 0x06 0x0022) ∧
        (requestWrites op = false → (s.dataUnit l).isSome = true → s.lineHeld l = true →
          ∃ t, req op = .next t ∧ SameMemory s t ∧ t.outbox = s.outbox ∧ retries t) ∧
        (s.sealedAt addr = false → size ≤ 8 →
          (∃ t, req 0x03 = .next t ∧ MemoryPut s t addr size a.toNat ∧ answers t 0 0) ∧
          (∃ t, req 0x10 = .next t ∧ MemoryPut s t addr size ((old + a.toNat) % 2 ^ (8 * size)) ∧ answers t ok old) ∧
          (∃ t, req 0x1A = .next t ∧
            MemoryPut s t addr size (if old = b.toNat % 2 ^ (8 * size) then a.toNat else old) ∧ answers t ok old) ∧
          (0x10 ≤ op.toNat → op.toNat ≤ 0x1A →
            ∃ t, req op = .next t ∧ MemoryPut s t addr size (atomicNew op.toNat (8 * size) old a.toNat b.toNat) ∧ answers t ok old)) ∧
        (s.lineHeld l = false →
          (size ≤ 8 → ∃ t, req 0x1C = .next t ∧ SameMemory s t ∧ answers t ok old ∧ (src, addr, size, BitVec.ofNat 64 old) ∈ t.peerWatch) ∧
          (op ≠ 0x1C → requestWrites op = false → ∃ t, req op = .next t ∧ SameMemory s t ∧ answers t ok old))))

/-- R367, R370 to R374: Quiet is entered 100 us after the last array was busy and left at once; SUSPEND and RESUME need a
management queue and a report page, stop the teams and place them again, RESUME sending again the chunks that are not
acknowledged; a suspend waits for the placed teams, for what is to be folded and, with POD, for the peers' quiesce flits, and ends
with the retain image in the retain area, whose layout is the model's choice (log 75); in Retain an enabled function's reads
are answered; the wake block leaves it with the logs, queues and counters of the retain image, the links down until they train,
where firmware and record verify, and otherwise leaves the package in reset with the status of what failed, the exit being
answered with status 5 (the model's choice: log 75); reset clears every cache and counter and leaves memory. -/
def Obligations.PowerStatesAndReset : Prop :=
  ∀ (s : State) (q : QueueId) (card : List Byte) (fn : FnId) (off : Nat) (k : List Input),
    let x := s.queue q.val
    let seq := cardNat card 0 8
    let boots := s.boots + 1
    let refuses := fun (i : Instr) (code : Nat) => ∃ t, exec i s = .next t ∧ Refuses s t q seq code
    let failed := fun (t : State) (status : Word) => t.pstate = 0 ∧ t.ready = false ∧ t.bootStatus = status ∧ t.arrays = State.reset.arrays ∧
      t.rings = State.reset.rings ∧ t.teams = [] ∧ t.retain = none
    let woken := fun (t : State) (r : Retain) => SameMemory s t ∧ t.boots = boots ∧
      (Config.firmwareOk boots = false → failed t 0x70) ∧
      (Config.firmwareOk boots = true → Config.recordOk boots = false → failed t 0x71) ∧
      (Config.firmwareOk boots = true → Config.recordOk boots = true → t.pstate = 0 ∧ t.ready = true ∧ t.bootStatus = 0 ∧ t.cycle = r.cycle ∧
        t.winNo = r.winNo ∧ t.queues = r.queues ∧ t.retPages = r.retPages ∧ t.images = [] ∧ t.sealed = [] ∧ t.watchTab = [] ∧
        (t.rings = r.rings.map fun g => { g with seen := ((r.acquired.find? fun e => e.1 == g.id).map (·.2)).getD [] }) ∧
        t.chunks = r.chunks ∧
        (∀ p : PortId, (t.ports[p]).up = false ∧ (t.ports[p]).txSeq = (r.ports[p]).txSeq ∧ (t.ports[p]).rxE = (r.ports[p]).rxE ∧
          (t.ports[p]).replay = (r.ports[p]).replay) ∧
        (Config.hostNarrow boots = false → t.errSeq = r.errSeq) ∧
        (∀ a c, t.ctxOf a c = {}) ∧ ∀ a, (t.arr a).tc = [] ∧ (t.arr a).vc = [] ∧ (t.arr a).near = (s.arr a).near)
    (s.pstate = 0 → s.ready = true → s.susp = none → s.busyAc + 175000 ≤ s.now → exec .quietEntry s = .next { s with pstate := 1 }) ∧
    (s.now < s.busyAc + 175000 → exec .quietEntry s = .next s) ∧
    (s.pstate = 1 → exec .quietExit s = .next { s with pstate := 0, busyAc := s.now }) ∧
    (s.pstate ≠ 1 → exec .quietExit s = .next s) ∧
    (x.mgmt = false → refuses (.suspend q card) 0x04 ∧ refuses (.resume q card) 0x04) ∧
    (x.mgmt = true → s.reportAt x (cardNat card 16 8) = none → refuses (.suspend q card) 0x05 ∧ refuses (.resume q card) 0x05) ∧
    (∀ rs pa, x.mgmt = true → cardRegions card = some rs → s.reportAt x (cardNat card 16 8) = some pa →
      (∃ t y, exec (.suspend q card) s = .next t ∧ ArraysStand s t ∧ t.pstate = 3 ∧ t.jobNo = s.jobNo + 1 ∧ t.susp = some y ∧ y.queue = q ∧ y.seq = seq ∧
        y.report = cardNat card 16 8 ∧ y.step = 2 ∧ y.resuming = false ∧ y.job = t.jobNo ∧
        ∀ tm, s.teams = [tm] → tm.placed = true → tm.request = none → t.teams = [{ tm with request := some none }]) ∧
      ((∀ tm ∈ s.teams, tm.waits = true → s.image? tm.image ≠ none) →
        ∃ t y, exec (.resume q card) s = .next t ∧ Admits s t q card ∧ t.susp = some y ∧ y.queue = q ∧ y.seq = seq ∧ y.step = 6 ∧ y.resuming = true ∧
          y.job = t.jobNo ∧ ∀ c ∈ s.chunks, ∀ m ∈ c.unacked, Output.chunk c.peer m ∈ t.outbox)) ∧
    (∀ y, s.susp = some y → y.resuming = false →
      (y.step = 2 → (∃ tm ∈ s.teams, tm.placed = true) → s.suspendTick = s) ∧
      (y.step = 3 → s.allFolded = false → s.suspendTick = s) ∧
      (y.step = 6 → y.pod = true → (∃ p : PortId, (s.ports[p]).up = true ∧ (s.ports[p]).peerQuiet = false) → s.suspendTick = s)) ∧
    (∀ y, ∃ r, let t := s.enterRetain y
      t.pstate = 2 ∧ t.ready = false ∧ t.retain = some r ∧ r.cycle = t.cycle ∧ r.winNo = t.winNo ∧ r.errSeq = t.errSeq ∧ r.queues = t.queues ∧
        r.chunks = t.chunks ∧ (r.rings.map fun g => (g.id, g.tail, g.pub, g.fold)) = (t.rings.map fun g => (g.id, g.tail, g.pub, g.fold)) ∧
        (r.acquired = t.rings.map fun g => (g.id, g.seen)) ∧ (r.images = t.images.map fun m => (m.id, m.measure)) ∧
        ∀ i < r.bytes.length, i < 2 ^ 26 → Memory.read t.mem (t.visible + 4096 + i) = r.bytes.getD i 0) ∧
    (s.pstate = 2 → s.urgent = [] → s.inputs = .bar0Read fn off :: k → s.fnOn fn = true →
      ∃ t, step s = .next t ∧ t.inputs = k ∧ t.pstate = 2 ∧ t.outbox = s.outbox ++ [.readReply fn true (natToBytes 8 (s.barRead fn off).toNat)]) ∧
    (∀ r, s.pstate = 2 → s.retain = some r →
      (∃ t, exec .retainWakeDoorbell s = .next t ∧ woken t r) ∧
      (fn = 0 → ∃ t, exec (.powerRetainExit fn) s = .next t ∧ woken t r ∧ Answers s t fn (if t.ready then 0 else 5) [])) ∧
    (s.pstate ≠ 2 → exec .retainWakeDoorbell s = .next s ∧ (fn = 0 → OnlyAnswers s (exec (.powerRetainExit fn) s) fn 3 [])) ∧
    (fn ≠ 0 → OnlyAnswers s (exec (.powerRetainExit fn) s) fn 4 []) ∧
    ∃ t, exec .packageReset s = .next t ∧ SameMemory s t ∧ t.cfg = s.cfg ∧ t.pkgNo = s.pkgNo ∧ t.arrays = State.reset.arrays ∧
      t.queues = State.reset.queues ∧ t.teams = [] ∧ t.jobs = [] ∧ t.images = [] ∧ t.rings = State.reset.rings ∧ t.cycle = 0 ∧ t.winNo = State.reset.winNo ∧
      t.boots = boots ∧ (Config.hostNarrow boots = false → t.errSeq = 1) ∧
      t.bootStatus = (if Config.firmwareOk boots = false then 0x70 else if Config.recordOk boots = false then 0x71 else 0) ∧
      (t.ready = true ↔ t.bootStatus = 0) ∧ ∀ l, (t.lineMeta l).l2 = .invalid ∧ (t.lineMeta l).tarn = .invalid

/-! Translation (R14, R21 to R23, R121 to R126, R195). -/

/-- R14, R21 to R23, R30, R121 to R126, R195: a walk checks the root's TYPE and SEC, then each entry's form on the way down, the
leaf's kind against its page, and self-peer, and the first check that fails gives the code; with translation off nothing is
present; a non-secure walk stops at a secure table address with the world fault, its record being 0x0022; a walker reads
one entry at its home at a time. The array's cache answers first, then the die's, else a walk begins. An access then checks W, for a
fetch X, what the kind permits, the owner rank, the physical address and sealed pages. That a root table which leads the read outside
backed HBM is malformed is the model's choice (log 116). -/
def Obligations.TranslationsAreChecked : Prop :=
  ∀ (s u : State) (who : Seeker) (asid : BitVec 16) (sec big : Bool) (dva : Nat) (e : BitVec 64) (w : TableWalk) (rank : Option Nat) (use : Use) (k : Kind),
    let ent := fun (p : Nat) => BitVec.ofNat 64 (valueAt s p 8)
    let typ := fun (e : BitVec 64) => e.toNat % 4
    let base := fun (e : BitVec 64) => e.toNat / 2 ^ 16 % 2 ^ 36 * 65536
    let seen := fun (p : Nat) => sec = true ∨ s.secureAt p = false
    let backed := fun (e : BitVec 64) => base e + 65536 ≤ s.visible
    let at_ := s.atbrBase.toNat * 65536 + 8 * asid.toNat
    let rootOk := fun (e : BitVec 64) => e.toNat / 8 % 2 ^ 13 = 0 ∧ e.toNat / 2 ^ 52 = 0 ∧ backed e
    let ptr := fun (e : BitVec 64) => typ e = 1 ∧ e.toNat / 4 % 2 ^ 14 = 0 ∧ e.toNat / 2 ^ 52 = 0 ∧ backed e
    let lf := fun (big : Bool) (e : BitVec 64) => typ e = 2 ∧ e.toNat / 2 ^ 8 % 2 ^ 6 = 0 ∧ (big = true → base e % 2 ^ 29 = 0) ∧
      (e.toNat / 4 % 8 = 3 ∨ (e.toNat / 2 ^ 14 % 4 = 0 ∧ e.toNat / 2 ^ 52 = 0))
    let bad := fun (code : Nat) => s.walk asid sec dva = .error code
    let found := fun (big : Bool) (e : BitVec 64) =>
      (s.kindFits e big = false → bad 0x03) ∧
      (s.kindFits e big = true →
        (rangeOf (base e) = .peer → peerOf (base e) = s.pkgNo → bad 0x04) ∧
        (¬(rangeOf (base e) = .peer ∧ peerOf (base e) = s.pkgNo) → s.walk asid sec dva = .ok (e, big)))
    let p1 := base (ent at_) + 8 * (dva / 2 ^ 42 % 8192)
    let p2 := base (ent p1) + 8 * (dva / 2 ^ 29 % 8192)
    let p3 := base (ent p2) + 8 * (dva / 65536 % 8192)
    let rd := if w.level = 0 then s.atbrBase.toNat * 65536 + 8 * w.asid.toNat else w.base + 8 * dvaIndex w.dva w.level
    let was := if w.level = 0 then s.readRoot w.sec (ent rd) else s.readEntry w.level (ent rd)
    let faulted := fun (t : State) (code : Nat) => ∃ v ∈ t.walks, v.who = w.who ∧ v.asid = w.asid ∧ v.sec = w.sec ∧ v.dva = w.dva ∧ v.fault = some code
    let pa := u.movedPa (base e + dva % (if big then 2 ^ 29 else 65536))
    let refused := fun (code : Nat) => (s.access who asid sec rank use dva).1 = .error code
    (s.atbrEna = false → bad 0x01 ∧ s.leafFor who asid sec dva = (.error 0x01, s) ∧ refused 0x01) ∧
    (s.atbrEna = true →
      (s.visible < at_ + 8 → bad 0x05) ∧
      (at_ + 8 ≤ s.visible →
        (¬seen at_ → bad 0x06) ∧
        (seen at_ →
          (typ (ent at_) = 0 → bad 0x01) ∧
          (2 ≤ typ (ent at_) → bad 0x05) ∧
          (typ (ent at_) = 1 →
            ((ent at_).getLsbD 2 ≠ sec → bad 0x06) ∧
            ((ent at_).getLsbD 2 = sec → ¬rootOk (ent at_) → bad 0x05) ∧
            ((ent at_).getLsbD 2 = sec → rootOk (ent at_) →
              (¬seen p1 → bad 0x06) ∧
              (seen p1 →
                (typ (ent p1) = 0 → bad 0x01) ∧
                (typ (ent p1) ≠ 0 → ¬ptr (ent p1) → bad 0x05) ∧
                (ptr (ent p1) →
                  (¬seen p2 → bad 0x06) ∧
                  (seen p2 →
                    (typ (ent p2) = 0 → bad 0x01) ∧
                    (typ (ent p2) ≠ 0 → ¬ptr (ent p2) → ¬lf true (ent p2) → bad 0x05) ∧
                    (lf true (ent p2) → found true (ent p2)) ∧
                    (ptr (ent p2) →
                      (¬seen p3 → bad 0x06) ∧
                      (seen p3 →
                        (typ (ent p3) = 0 → bad 0x01) ∧
                        (typ (ent p3) ≠ 0 → ¬lf false (ent p3) → bad 0x05) ∧
                        (lf false (ent p3) → found false (ent p3))))))))))) ∧
      (∀ a c t, who = .ctx a c → ((s.arr a).tc.find? fun v => v.hits asid sec dva) = some t →
        (s.leafFor who asid sec dva).1 = .ok (t.leaf, t.big)) ∧
      ((∀ a, who.array = some a → ∀ v ∈ (s.arr a).tc, v.hits asid sec dva = false) →
        (∀ t, (s.dieTc[who.die].find? fun v => v.hits asid sec dva) = some t → (s.leafFor who asid sec dva).1 = .ok (t.leaf, t.big)) ∧
        ((∀ v ∈ s.dieTc[who.die], v.hits asid sec dva = false) → s.walkOf who asid sec dva = none →
          (s.leafFor who asid sec dva).1 = .error fWalking ∧
          ((∀ n, (s.walks.filter fun v => v.walker == n && v.fault.isNone).length < 64) →
            ∃ v, (s.leafFor who asid sec dva).2 = { s with walks := s.walks ++ [v] } ∧ v.who = who ∧ v.asid = asid ∧ v.sec = sec ∧ v.dva = dva ∧
              v.level = 0 ∧ v.fault = none)))) ∧
    (w ∈ s.walks → w.stale = false → rd + 8 ≤ s.visible →
      (w.sec = false → s.secureAt rd = true → faulted (s.walkNext w) 0x06 ∧ Reports s (s.walkNext w) 0x0022 (·.addr = rd)) ∧
      (w.sec = true ∨ s.secureAt rd = false → s.pageRetired rd = false → NoPoison s → rd % 8 = 0 → rangeOf rd = .hbm →
        (∀ code, was = .bad code → faulted (s.walkNext w) code) ∧
        (∀ b, was = .table b → ∃ v ∈ (s.walkNext w).walks, v = { w with level := w.level + 1, base := b }) ∧
        (∀ l, was = .leaf l →
          (∀ code, s.leafCheck l (w.level == 2) = .error code → faulted (s.walkNext w) code) ∧
          (∀ x, s.leafCheck l (w.level == 2) = .ok x → (s.walkNext w).walks = s.walks.erase w)))) ∧
    (s.leafFor who asid sec dva = (.ok (e, big), u) → kindOf (e.toNat / 4 % 8) = some k →
      (use.writes = true → e.getLsbD 5 = false → refused 0x02) ∧
      (use = .fetch → e.getLsbD 6 = false → refused 0x02) ∧
      ((use.writes = true → e.getLsbD 5 = true) → (use = .fetch → e.getLsbD 6 = true) →
        (useOk use k = false → refused 0x15) ∧
        (useOk use k = true →
          (k = .owned → rank ≠ some (leafRank e) → refused 0x07) ∧
          ((k = .owned → rank = some (leafRank e)) →
            (∀ code reason, u.physFault pa sec k = some (code, reason) → refused (use.abortCode code) ∧
              (reason ≠ 0 → Reports u (s.access who asid sec rank use dva).2 reason (·.addr = pa))) ∧
            (u.physFault pa sec k = none →
              (use.writes = true → u.sealedAt pa = true → refused (use.abortCode 0x06)) ∧
              ((use.writes = true → u.sealedAt pa = false) →
                s.access who asid sec rank use dva = (.ok ⟨pa, k, e.getLsbD 7⟩, u)))))))
end

