-- ==== Sys2Proof/Laws/Encoding.lean ====
section
/-! SUPPORT. The fields of a packed slot word: what each format of R184 to R192 puts where, read back field by field. -/

namespace Sys2Proof

/-- A field above the low part of an append is a field of its high part. -/
theorem ex_hi {n m : Nat} (x : BitVec n) (y : BitVec m) (lo k : Nat) (h : m ≤ lo) :
    BitVec.extractLsb' lo k (x ++ y) = x.extractLsb' (lo - m) k := by
  ext i hi
  simp only [BitVec.getElem_extractLsb', BitVec.getLsbD_append]
  have : ¬(lo + i < m) := by omega
  simp only [this]
  have e : lo + i - m = lo - m + i := by omega
  simp [e]

/-- A field inside the low part of an append is a field of it. -/
theorem ex_lo {n m : Nat} (x : BitVec n) (y : BitVec m) (lo k : Nat) (h : lo + k ≤ m) :
    BitVec.extractLsb' lo k (x ++ y) = y.extractLsb' lo k := by
  ext i hi
  simp only [BitVec.getElem_extractLsb', BitVec.getLsbD_append]
  have : lo + i < m := by omega
  simp [this]

theorem bit_eq (w : BitVec 32) (i : Nat) : bit w i = (fld w i 1 == 1#1) := by
  have h : bit w i = (fld w i 1).getLsbD 0 := by simp [bit, fld]
  rw [h]
  generalize fld w i 1 = x
  revert x
  decide

theorem bit1_eq (b : Bool) : (bit1 b == 1#1) = b := by cases b <;> rfl

/-! One lemma a format. -/

theorem fields_packR (d a b : Reg) (f : BitVec 11) :
    fld (packR d a b f) 26 6 = 1#6 ∧ fld (packR d a b f) 21 5 = d ∧ fld (packR d a b f) 16 5 = a ∧
      fld (packR d a b f) 11 5 = b ∧ fld (packR d a b f) 0 11 = f := by
  unfold fld packR
  refine ⟨?_, ?_, ?_, ?_, ?_⟩ <;> repeat (first | rw [ex_hi _ _ _ _ (by decide)] | rw [ex_lo _ _ _ _ (by decide)])
  all_goals simp

theorem fields_packI (op : BitVec 6) (d a : Reg) (m : BitVec 16) :
    fld (packI op d a m) 26 6 = op ∧ fld (packI op d a m) 21 5 = d ∧ fld (packI op d a m) 16 5 = a ∧
      fld (packI op d a m) 0 16 = m := by
  unfold fld packI
  refine ⟨?_, ?_, ?_, ?_⟩ <;> repeat (first | rw [ex_hi _ _ _ _ (by decide)] | rw [ex_lo _ _ _ _ (by decide)])
  all_goals simp

theorem fields_packJ (op : BitVec 6) (o : BitVec 26) : fld (packJ op o) 26 6 = op ∧ fld (packJ op o) 0 26 = o := by
  unfold fld packJ
  refine ⟨?_, ?_⟩ <;> repeat (first | rw [ex_hi _ _ _ _ (by decide)] | rw [ex_lo _ _ _ _ (by decide)])
  all_goals simp

theorem fields_packC (op : BitVec 6) (d a b : Opnd) (sp : SelNo) (ty : BitVec 2) :
    fld (packC op d a b sp ty) 26 6 = op ∧ fld (packC op d a b sp ty) 19 7 = d ∧ fld (packC op d a b sp ty) 12 7 = a ∧
      fld (packC op d a b sp ty) 5 7 = b ∧ fld (packC op d a b sp ty) 2 3 = sp ∧ fld (packC op d a b sp ty) 0 2 = ty := by
  unfold fld packC
  refine ⟨?_, ?_, ?_, ?_, ?_, ?_⟩ <;> repeat (first | rw [ex_hi _ _ _ _ (by decide)] | rw [ex_lo _ _ _ _ (by decide)])
  all_goals simp

theorem fields_packF (op : BitVec 6) (fd cd : BitVec 3) (ft : BitVec 2) (ct pt : Bool) (aux : BitVec 4) (iv : BitVec 2) :
    let w := packF op fd cd ft ct pt aux iv
    fld w 26 6 = op ∧ fld w 23 3 = fd ∧ fld w 20 3 = cd ∧ fld w 18 2 = ft ∧ fld w 17 1 = bit1 ct ∧ fld w 16 1 = bit1 pt ∧
      fld w 12 4 = aux ∧ fld w 10 2 = iv ∧ fld w 0 10 = 0 := by
  unfold fld packF
  refine ⟨?_, ?_, ?_, ?_, ?_, ?_, ?_, ?_, ?_⟩ <;>
    repeat (first | rw [ex_hi _ _ _ _ (by decide)] | rw [ex_lo _ _ _ _ (by decide)])
  all_goals simp

theorem fields_packD (op : BitVec 6) (x : BitVec 3) (ct : Bool) (a b : Reg) (m : BitVec 12) :
    let w := packD op x ct a b m
    fld w 26 6 = op ∧ fld w 23 3 = x ∧ fld w 22 1 = bit1 ct ∧ fld w 17 5 = a ∧ fld w 12 5 = b ∧ fld w 0 12 = m := by
  unfold fld packD
  refine ⟨?_, ?_, ?_, ?_, ?_, ?_⟩ <;> repeat (first | rw [ex_hi _ _ _ _ (by decide)] | rw [ex_lo _ _ _ _ (by decide)])
  all_goals simp

theorem fields_packMM (op : BitVec 6) (d a : Reg) (sz cls : BitVec 2) (disp : BitVec 12) :
    let w := packMM op d a sz cls disp
    fld w 26 6 = op ∧ fld w 21 5 = d ∧ fld w 16 5 = a ∧ fld w 14 2 = sz ∧ fld w 12 2 = cls ∧ fld w 0 12 = disp := by
  unfold fld packMM
  refine ⟨?_, ?_, ?_, ?_, ?_, ?_⟩ <;> repeat (first | rw [ex_hi _ _ _ _ (by decide)] | rw [ex_lo _ _ _ _ (by decide)])
  all_goals simp

theorem fields_packMA (op : BitVec 6) (d a b : Reg) (sz o : BitVec 2) (sc : BitVec 3) :
    let w := packMA op d a b sz o sc
    fld w 26 6 = op ∧ fld w 21 5 = d ∧ fld w 16 5 = a ∧ fld w 11 5 = b ∧ fld w 9 2 = sz ∧ fld w 7 2 = o ∧ fld w 4 3 = sc ∧
      fld w 0 4 = 0 := by
  unfold fld packMA
  refine ⟨?_, ?_, ?_, ?_, ?_, ?_, ?_, ?_⟩ <;>
    repeat (first | rw [ex_hi _ _ _ _ (by decide)] | rw [ex_lo _ _ _ _ (by decide)])
  all_goals simp

theorem fields_packMO (op : BitVec 6) (a : Reg) (sc : BitVec 3) :
    let w := packMO op a sc
    fld w 26 6 = op ∧ fld w 21 5 = 0 ∧ fld w 16 5 = a ∧ fld w 7 9 = 0 ∧ fld w 4 3 = sc ∧ fld w 0 4 = 0 := by
  unfold fld packMO
  refine ⟨?_, ?_, ?_, ?_, ?_, ?_⟩ <;> repeat (first | rw [ex_hi _ _ _ _ (by decide)] | rw [ex_lo _ _ _ _ (by decide)])
  all_goals simp

theorem fields_packMC (op : BitVec 6) (d a b : Reg) (th : BitVec 4) (opt : BitVec 3) :
    let w := packMC op d a b th opt
    fld w 26 6 = op ∧ fld w 21 5 = d ∧ fld w 16 5 = a ∧ fld w 11 5 = b ∧ fld w 7 4 = th ∧ fld w 4 3 = opt ∧
      fld w 0 4 = 0 := by
  unfold fld packMC
  refine ⟨?_, ?_, ?_, ?_, ?_, ?_, ?_⟩ <;>
    repeat (first | rw [ex_hi _ _ _ _ (by decide)] | rw [ex_lo _ _ _ _ (by decide)])
  all_goals simp

theorem fields_packMB (op : BitVec 6) (id : BitVec 4) (sc : BitVec 3) :
    let w := packMB op id sc
    fld w 26 6 = op ∧ fld w 11 15 = 0 ∧ fld w 7 4 = id ∧ fld w 4 3 = sc ∧ fld w 0 4 = 0 := by
  unfold fld packMB
  refine ⟨?_, ?_, ?_, ?_, ?_⟩ <;> repeat (first | rw [ex_hi _ _ _ _ (by decide)] | rw [ex_lo _ _ _ _ (by decide)])
  all_goals simp

end Sys2Proof
end

