-- ==== Sys2Proof/Laws/Memory.lean ====
section
/-! SUPPORT. The laws of sparse data and of memory: the canonical form is kept, a written key reads what was written, every
other key stands. -/

namespace Sys2Proof.Machine

theorem Sparse.risingFrom_mono {α : Type} {a b : Nat} (h : a ≤ b) :
    ∀ {m : Sparse α}, Sparse.risingFrom b m = true → Sparse.risingFrom a m = true
  | [], _ => rfl
  | (j, _) :: t, k => by
    simp only [Sparse.risingFrom, Bool.and_eq_true, decide_eq_true_eq] at k ⊢
    exact ⟨Nat.le_trans h k.1, k.2⟩

theorem Sparse.risingFrom_erase {α : Type} (k : Nat) :
    ∀ {m : Sparse α} {a : Nat}, Sparse.risingFrom a m = true → Sparse.risingFrom a (Sparse.erase k m) = true
  | [], _, _ => rfl
  | (j, w) :: t, a, h => by
    simp only [Sparse.risingFrom, Bool.and_eq_true, decide_eq_true_eq] at h
    unfold Sparse.erase
    split
    · exact Sparse.risingFrom_mono (Nat.le_succ_of_le h.1) (Sparse.risingFrom_erase k h.2)
    · simp only [Sparse.risingFrom, Bool.and_eq_true, decide_eq_true_eq]
      exact ⟨h.1, Sparse.risingFrom_erase k h.2⟩

/-- Where the key is not listed, placing it keeps the keys rising. -/
theorem Sparse.risingFrom_insert {α : Type} (k : Nat) (v : α) :
    ∀ {m : Sparse α} {a : Nat}, a ≤ k → Sparse.risingFrom a m = true → (∀ e ∈ m, e.1 ≠ k) →
      Sparse.risingFrom a (Sparse.insert k v m) = true
  | [], a, h, _, _ => by simpa [Sparse.insert, Sparse.risingFrom] using h
  | (j, w) :: t, a, h, hr, hn => by
    simp only [Sparse.risingFrom, Bool.and_eq_true, decide_eq_true_eq] at hr
    unfold Sparse.insert
    split
    · simp only [Sparse.risingFrom, Bool.and_eq_true, decide_eq_true_eq]
      exact ⟨h, by omega, hr.2⟩
    · simp only [Sparse.risingFrom, Bool.and_eq_true, decide_eq_true_eq]
      have : j ≠ k := hn (j, w) (by simp)
      exact ⟨hr.1, Sparse.risingFrom_insert k v (by omega) hr.2 fun e he => hn e (by simp [he])⟩

theorem Sparse.mem_erase {α : Type} (k : Nat) :
    ∀ {m : Sparse α} {e : Nat × α}, e ∈ Sparse.erase k m → e ∈ m ∧ e.1 ≠ k
  | [], _, h => by simp [Sparse.erase] at h
  | (j, w) :: t, e, h => by
    unfold Sparse.erase at h
    split at h
    · exact ⟨List.mem_cons_of_mem _ (Sparse.mem_erase k h).1, (Sparse.mem_erase k h).2⟩
    · rcases List.mem_cons.mp h with rfl | h
      · exact ⟨by simp, ‹_›⟩
      · exact ⟨List.mem_cons_of_mem _ (Sparse.mem_erase k h).1, (Sparse.mem_erase k h).2⟩

theorem Sparse.mem_insert {α : Type} (k : Nat) (v : α) :
    ∀ {m : Sparse α} {e : Nat × α}, e ∈ Sparse.insert k v m → e = (k, v) ∨ e ∈ m
  | [], _, h => by simpa [Sparse.insert] using h
  | (j, w) :: t, e, h => by
    unfold Sparse.insert at h
    split at h
    · rcases List.mem_cons.mp h with h | h
      · exact .inl h
      · exact .inr h
    · rcases List.mem_cons.mp h with rfl | h
      · exact .inr (by simp)
      · exact (Sparse.mem_insert k v h).imp_right (List.mem_cons_of_mem _)

/-- Writing a key keeps the canonical form. -/
theorem Sparse.set_wf {α : Type} [DecidableEq α] {d : α} {m : Sparse α} (k : Nat) (v : α) (h : Sparse.wf d m = true) :
    Sparse.wf d (Sparse.set d m k v) = true := by
  simp only [Sparse.wf, Bool.and_eq_true, List.all_eq_true, decide_eq_true_eq] at h ⊢
  unfold Sparse.set
  split
  · exact ⟨Sparse.risingFrom_erase k h.1, fun e he => h.2 e (Sparse.mem_erase k he).1⟩
  · refine ⟨Sparse.risingFrom_insert k v (Nat.zero_le _) (Sparse.risingFrom_erase k h.1)
      fun e he => (Sparse.mem_erase k he).2, fun e he => ?_⟩
    rcases Sparse.mem_insert k v he with rfl | he
    · assumption
    · exact h.2 e (Sparse.mem_erase k he).1

theorem Sparse.get_erase {α : Type} (d : α) (k i : Nat) :
    ∀ m : Sparse α, Sparse.get d (Sparse.erase k m) i = if i = k then d else Sparse.get d m i
  | [] => by simp [Sparse.erase, Sparse.get]
  | (j, w) :: t => by
    have ih := Sparse.get_erase d k i t
    unfold Sparse.erase
    split
    · rw [ih]; simp only [Sparse.get]; grind
    · simp only [Sparse.get]; grind

theorem Sparse.get_of_rising {α : Type} (d : α) (i : Nat) :
    ∀ {m : Sparse α} {a : Nat}, i < a → Sparse.risingFrom a m = true → Sparse.get d m i = d
  | [], _, _, _ => rfl
  | (j, w) :: t, a, h, hr => by
    simp only [Sparse.risingFrom, Bool.and_eq_true, decide_eq_true_eq] at hr
    unfold Sparse.get
    split
    · omega
    · exact Sparse.get_of_rising d i (by omega) hr.2

theorem Sparse.get_insert {α : Type} (d : α) (k i : Nat) (v : α) :
    ∀ m : Sparse α, (∀ e ∈ m, e.1 ≠ k) →
      Sparse.get d (Sparse.insert k v m) i = if i = k then v else Sparse.get d m i
  | [], _ => by simp only [Sparse.insert, Sparse.get]; grind
  | (j, w) :: t, h => by
    have ih := Sparse.get_insert d k i v t fun e he => h e (by simp [he])
    have : j ≠ k := h (j, w) (by simp)
    unfold Sparse.insert
    split <;> simp only [Sparse.get] <;> grind

/-- A written key reads what was written; every other key stands. -/
theorem Sparse.get_set {α : Type} [DecidableEq α] (d : α) (m : Sparse α) (k i : Nat) (v : α) :
    Sparse.get d (Sparse.set d m k v) i = if i = k then v else Sparse.get d m i := by
  unfold Sparse.set
  split
  · rw [Sparse.get_erase]; grind
  · rw [Sparse.get_insert d k i v _ fun e he => (Sparse.mem_erase k he).2, Sparse.get_erase]; grind

@[simp] theorem Sparse.get_set_self {α : Type} [DecidableEq α] (d : α) (m : Sparse α) (k : Nat) (v : α) :
    Sparse.get d (Sparse.set d m k v) k = v := by simp [Sparse.get_set]

theorem Sparse.get_set_ne {α : Type} [DecidableEq α] (d : α) (m : Sparse α) {k i : Nat} (v : α) (h : i ≠ k) :
    Sparse.get d (Sparse.set d m k v) i = Sparse.get d m i := by simp [Sparse.get_set, h]

/-! Memory. -/

theorem Memory.write_wf {m : Memory} (a : Nat) (b : Byte) (h : m.wf = true) : (m.write a b).wf = true :=
  Sparse.set_wf a b h

theorem Memory.store_wf : ∀ (bs : List Byte) {m : Memory} (a : Nat), m.wf = true → (m.store a bs).wf = true
  | [], _, _, h => h
  | b :: bs, _, a, h => Memory.store_wf bs (a + 1) (Memory.write_wf a b h)

theorem Memory.storeMask_wf (mask : Nat) :
    ∀ (bs : List Byte) {m : Memory} (a i : Nat), m.wf = true → (m.storeMask a mask bs i).wf = true
  | [], _, _, _, h => h
  | b :: bs, m, a, i, h => by
    unfold Memory.storeMask
    split
    · exact Memory.storeMask_wf mask bs a (i + 1) (Memory.write_wf _ b h)
    · exact Memory.storeMask_wf mask bs a (i + 1) h

theorem Memory.read_write (m : Memory) (a p : Nat) (b : Byte) :
    (m.write a b).read p = if p = a then b else m.read p := Sparse.get_set _ _ _ _ _

theorem Memory.read_store :
    ∀ (bs : List Byte) (m : Memory) (a p : Nat),
      (m.store a bs).read p = if a ≤ p ∧ p < a + bs.length then bs.getD (p - a) 0 else m.read p
  | [], m, a, p => by simp only [Memory.store, List.length_nil]; rw [if_neg (by omega)]
  | b :: bs, m, a, p => by
    rw [Memory.store, Memory.read_store bs, Memory.read_write]
    by_cases h : p = a
    · subst h
      rw [if_neg (by omega)]
      simp
    · by_cases k : a < p ∧ p < a + (b :: bs).length
      · rw [if_pos (by simp at k; omega), if_pos (by omega)]
        obtain ⟨n, rfl⟩ : ∃ n, p = a + (n + 1) := ⟨p - a - 1, by omega⟩
        have : a + (n + 1) - (a + 1) = n := by omega
        have : a + (n + 1) - a = n + 1 := by omega
        simp_all
      · have : ¬(a ≤ p ∧ p < a + (b :: bs).length) := by omega
        rw [if_neg this, if_neg (by simp at this ⊢; omega), if_neg h]

/-- Nothing outside the stored bytes is written. -/
theorem Memory.read_store_out (bs : List Byte) (m : Memory) {a p : Nat} (h : ¬(a ≤ p ∧ p < a + bs.length)) :
    (m.store a bs).read p = m.read p := by rw [Memory.read_store, if_neg h]

/-- A masked store writes the bytes named, and no other. -/
theorem Memory.read_storeMask (mask : Nat) :
    ∀ (bs : List Byte) (m : Memory) (a i p : Nat),
      (m.storeMask a mask bs i).read p =
        if a + i ≤ p ∧ p < a + i + bs.length ∧ mask.testBit (p - a) = true then bs.getD (p - a - i) 0 else m.read p
  | [], m, a, i, p => by simp only [Memory.storeMask, List.length_nil]; rw [if_neg (by omega)]
  | b :: bs, m, a, i, p => by
    rw [Memory.storeMask, Memory.read_storeMask mask bs]
    have hl : (b :: bs).length = bs.length + 1 := rfl
    by_cases h : p = a + i
    · subst h
      have : a + i - a = i := by omega
      rw [if_neg (by omega), this]
      by_cases t : mask.testBit i = true
      · simp [t, Memory.read_write]
      · simp [t]
    · have hm : (if mask.testBit i = true then Memory.write m (a + i) b else m).read p = m.read p := by
        split <;> simp [Memory.read_write, h]
      rw [hm]
      by_cases k : a + i < p ∧ p < a + i + (b :: bs).length ∧ mask.testBit (p - a) = true
      · rw [if_pos ⟨by omega, by omega, k.2.2⟩, if_pos ⟨by omega, k.2⟩]
        obtain ⟨n, rfl⟩ : ∃ n, p = a + i + (n + 1) := ⟨p - a - i - 1, by omega⟩
        have e1 : a + i + (n + 1) - a - (i + 1) = n := by omega
        have e2 : a + i + (n + 1) - a - i = n + 1 := by omega
        rw [e1, e2]; rfl
      · rw [if_neg fun x => k ⟨by omega, by omega, x.2.2⟩, if_neg fun x => k ⟨by omega, x.2⟩]

@[simp] theorem Memory.length_bytes (m : Memory) : ∀ (a n : Nat), (m.bytes a n).length = n
  | _, 0 => rfl
  | a, n + 1 => by simp [Memory.bytes, Memory.length_bytes m (a + 1) n]

/-- Bytes are read one by one. -/
theorem Memory.bytes_congr {m n : Memory} : ∀ (a k : Nat), (∀ i < k, m.read (a + i) = n.read (a + i)) →
    m.bytes a k = n.bytes a k
  | _, 0, _ => rfl
  | a, k + 1, h => by
    rw [Memory.bytes, Memory.bytes, show m.read a = n.read a from h 0 (by omega), Memory.bytes_congr (a + 1) k]
    intro i hi
    have := h (i + 1) (by omega)
    rwa [show a + 1 + i = a + (i + 1) by omega]

end Sys2Proof.Machine
end

