-- ==== Sys2Proof/Laws/State.lean ====
section
/-! SUPPORT. One lemma per field of State per update, true by definition, so that no proof unfolds a record
update; and what the accessors of arrays and contexts answer after an update. -/

namespace Sys2Proof.Machine

/-! `modArr` -/

@[simp] theorem State.modArr_mem (s : State) (a : ArrId) (f : Arr → Arr) : (s.modArr a f).mem = s.mem := rfl
@[simp] theorem State.modArr_cycle (s : State) (a : ArrId) (f : Arr → Arr) : (s.modArr a f).cycle = s.cycle := rfl
@[simp] theorem State.modArr_act (s : State) (a : ArrId) (f : Arr → Arr) : (s.modArr a f).act = s.act := rfl
@[simp] theorem State.modArr_cfg (s : State) (a : ArrId) (f : Arr → Arr) : (s.modArr a f).cfg = s.cfg := rfl
@[simp] theorem State.modArr_pkgNo (s : State) (a : ArrId) (f : Arr → Arr) : (s.modArr a f).pkgNo = s.pkgNo := rfl
@[simp] theorem State.modArr_draws (s : State) (a : ArrId) (f : Arr → Arr) : (s.modArr a f).draws = s.draws := rfl
@[simp] theorem State.modArr_agenda (s : State) (a : ArrId) (f : Arr → Arr) : (s.modArr a f).agenda = s.agenda := rfl
@[simp] theorem State.modArr_urgent (s : State) (a : ArrId) (f : Arr → Arr) : (s.modArr a f).urgent = s.urgent := rfl
@[simp] theorem State.modArr_inputs (s : State) (a : ArrId) (f : Arr → Arr) : (s.modArr a f).inputs = s.inputs := rfl
@[simp] theorem State.modArr_outbox (s : State) (a : ArrId) (f : Arr → Arr) : (s.modArr a f).outbox = s.outbox := rfl
@[simp] theorem State.modArr_lines (s : State) (a : ArrId) (f : Arr → Arr) : (s.modArr a f).lines = s.lines := rfl
@[simp] theorem State.modArr_rings (s : State) (a : ArrId) (f : Arr → Arr) : (s.modArr a f).rings = s.rings := rfl
@[simp] theorem State.modArr_teams (s : State) (a : ArrId) (f : Arr → Arr) : (s.modArr a f).teams = s.teams := rfl
@[simp] theorem State.modArr_jobs (s : State) (a : ArrId) (f : Arr → Arr) : (s.modArr a f).jobs = s.jobs := rfl
@[simp] theorem State.modArr_queues (s : State) (a : ArrId) (f : Arr → Arr) : (s.modArr a f).queues = s.queues := rfl
@[simp] theorem State.modArr_funcs (s : State) (a : ArrId) (f : Arr → Arr) : (s.modArr a f).funcs = s.funcs := rfl
@[simp] theorem State.modArr_images (s : State) (a : ArrId) (f : Arr → Arr) : (s.modArr a f).images = s.images := rfl
@[simp] theorem State.modArr_segs (s : State) (a : ArrId) (f : Arr → Arr) : (s.modArr a f).segs = s.segs := rfl
@[simp] theorem State.modArr_folds (s : State) (a : ArrId) (f : Arr → Arr) : (s.modArr a f).folds = s.folds := rfl
@[simp] theorem State.modArr_anns (s : State) (a : ArrId) (f : Arr → Arr) : (s.modArr a f).anns = s.anns := rfl
@[simp] theorem State.modArr_winNo (s : State) (a : ArrId) (f : Arr → Arr) : (s.modArr a f).winNo = s.winNo := rfl
@[simp] theorem State.modArr_watchTab (s : State) (a : ArrId) (f : Arr → Arr) : (s.modArr a f).watchTab = s.watchTab := rfl
@[simp] theorem State.modArr_barriers (s : State) (a : ArrId) (f : Arr → Arr) : (s.modArr a f).barriers = s.barriers := rfl
@[simp] theorem State.modArr_groups (s : State) (a : ArrId) (f : Arr → Arr) : (s.modArr a f).groups = s.groups := rfl
@[simp] theorem State.modArr_ports (s : State) (a : ArrId) (f : Arr → Arr) : (s.modArr a f).ports = s.ports := rfl
@[simp] theorem State.modArr_part (s : State) (a : ArrId) (f : Arr → Arr) : (s.modArr a f).part = s.part := rfl
@[simp] theorem State.modArr_topStamp (s : State) (a : ArrId) (f : Arr → Arr) : (s.modArr a f).topStamp = s.topStamp := rfl
@[simp] theorem State.modArr_holds (s : State) (a : ArrId) (f : Arr → Arr) : (s.modArr a f).holds = s.holds := rfl
@[simp] theorem State.modArr_forwards (s : State) (a : ArrId) (f : Arr → Arr) : (s.modArr a f).forwards = s.forwards := rfl
@[simp] theorem State.modArr_peerRecs (s : State) (a : ArrId) (f : Arr → Arr) : (s.modArr a f).peerRecs = s.peerRecs := rfl
@[simp] theorem State.modArr_dieTc (s : State) (a : ArrId) (f : Arr → Arr) : (s.modArr a f).dieTc = s.dieTc := rfl
@[simp] theorem State.modArr_walks (s : State) (a : ArrId) (f : Arr → Arr) : (s.modArr a f).walks = s.walks := rfl
@[simp] theorem State.modArr_mends (s : State) (a : ArrId) (f : Arr → Arr) : (s.modArr a f).mends = s.mends := rfl
@[simp] theorem State.modArr_mendNo (s : State) (a : ArrId) (f : Arr → Arr) : (s.modArr a f).mendNo = s.mendNo := rfl
@[simp] theorem State.modArr_locked (s : State) (a : ArrId) (f : Arr → Arr) : (s.modArr a f).locked = s.locked := rfl
@[simp] theorem State.modArr_asks (s : State) (a : ArrId) (f : Arr → Arr) : (s.modArr a f).asks = s.asks := rfl
@[simp] theorem State.modArr_askNo (s : State) (a : ArrId) (f : Arr → Arr) : (s.modArr a f).askNo = s.askNo := rfl
@[simp] theorem State.modArr_redirects (s : State) (a : ArrId) (f : Arr → Arr) : (s.modArr a f).redirects = s.redirects := rfl
@[simp] theorem State.modArr_isolated (s : State) (a : ArrId) (f : Arr → Arr) : (s.modArr a f).isolated = s.isolated := rfl
@[simp] theorem State.modArr_ceCount (s : State) (a : ArrId) (f : Arr → Arr) : (s.modArr a f).ceCount = s.ceCount := rfl
@[simp] theorem State.modArr_chunks (s : State) (a : ArrId) (f : Arr → Arr) : (s.modArr a f).chunks = s.chunks := rfl
@[simp] theorem State.modArr_bces (s : State) (a : ArrId) (f : Arr → Arr) : (s.modArr a f).bces = s.bces := rfl
@[simp] theorem State.modArr_pw (s : State) (a : ArrId) (f : Arr → Arr) : (s.modArr a f).pw = s.pw := rfl
@[simp] theorem State.modArr_epoch (s : State) (a : ArrId) (f : Arr → Arr) : (s.modArr a f).epoch = s.epoch := rfl
@[simp] theorem State.modArr_errSeq (s : State) (a : ArrId) (f : Arr → Arr) : (s.modArr a f).errSeq = s.errSeq := rfl
@[simp] theorem State.modArr_susp (s : State) (a : ArrId) (f : Arr → Arr) : (s.modArr a f).susp = s.susp := rfl

/-! `modCtx` -/

@[simp] theorem State.modCtx_mem (s : State) (a : ArrId) (c : CtxId) (f : Ctx → Ctx) : (s.modCtx a c f).mem = s.mem := rfl
@[simp] theorem State.modCtx_cycle (s : State) (a : ArrId) (c : CtxId) (f : Ctx → Ctx) : (s.modCtx a c f).cycle = s.cycle := rfl
@[simp] theorem State.modCtx_act (s : State) (a : ArrId) (c : CtxId) (f : Ctx → Ctx) : (s.modCtx a c f).act = s.act := rfl
@[simp] theorem State.modCtx_cfg (s : State) (a : ArrId) (c : CtxId) (f : Ctx → Ctx) : (s.modCtx a c f).cfg = s.cfg := rfl
@[simp] theorem State.modCtx_pkgNo (s : State) (a : ArrId) (c : CtxId) (f : Ctx → Ctx) : (s.modCtx a c f).pkgNo = s.pkgNo := rfl
@[simp] theorem State.modCtx_draws (s : State) (a : ArrId) (c : CtxId) (f : Ctx → Ctx) : (s.modCtx a c f).draws = s.draws := rfl
@[simp] theorem State.modCtx_agenda (s : State) (a : ArrId) (c : CtxId) (f : Ctx → Ctx) : (s.modCtx a c f).agenda = s.agenda := rfl
@[simp] theorem State.modCtx_urgent (s : State) (a : ArrId) (c : CtxId) (f : Ctx → Ctx) : (s.modCtx a c f).urgent = s.urgent := rfl
@[simp] theorem State.modCtx_inputs (s : State) (a : ArrId) (c : CtxId) (f : Ctx → Ctx) : (s.modCtx a c f).inputs = s.inputs := rfl
@[simp] theorem State.modCtx_outbox (s : State) (a : ArrId) (c : CtxId) (f : Ctx → Ctx) : (s.modCtx a c f).outbox = s.outbox := rfl
@[simp] theorem State.modCtx_lines (s : State) (a : ArrId) (c : CtxId) (f : Ctx → Ctx) : (s.modCtx a c f).lines = s.lines := rfl
@[simp] theorem State.modCtx_rings (s : State) (a : ArrId) (c : CtxId) (f : Ctx → Ctx) : (s.modCtx a c f).rings = s.rings := rfl
@[simp] theorem State.modCtx_teams (s : State) (a : ArrId) (c : CtxId) (f : Ctx → Ctx) : (s.modCtx a c f).teams = s.teams := rfl
@[simp] theorem State.modCtx_jobs (s : State) (a : ArrId) (c : CtxId) (f : Ctx → Ctx) : (s.modCtx a c f).jobs = s.jobs := rfl
@[simp] theorem State.modCtx_queues (s : State) (a : ArrId) (c : CtxId) (f : Ctx → Ctx) : (s.modCtx a c f).queues = s.queues := rfl
@[simp] theorem State.modCtx_funcs (s : State) (a : ArrId) (c : CtxId) (f : Ctx → Ctx) : (s.modCtx a c f).funcs = s.funcs := rfl
@[simp] theorem State.modCtx_images (s : State) (a : ArrId) (c : CtxId) (f : Ctx → Ctx) : (s.modCtx a c f).images = s.images := rfl
@[simp] theorem State.modCtx_segs (s : State) (a : ArrId) (c : CtxId) (f : Ctx → Ctx) : (s.modCtx a c f).segs = s.segs := rfl
@[simp] theorem State.modCtx_folds (s : State) (a : ArrId) (c : CtxId) (f : Ctx → Ctx) : (s.modCtx a c f).folds = s.folds := rfl
@[simp] theorem State.modCtx_anns (s : State) (a : ArrId) (c : CtxId) (f : Ctx → Ctx) : (s.modCtx a c f).anns = s.anns := rfl
@[simp] theorem State.modCtx_winNo (s : State) (a : ArrId) (c : CtxId) (f : Ctx → Ctx) : (s.modCtx a c f).winNo = s.winNo := rfl
@[simp] theorem State.modCtx_watchTab (s : State) (a : ArrId) (c : CtxId) (f : Ctx → Ctx) : (s.modCtx a c f).watchTab = s.watchTab := rfl
@[simp] theorem State.modCtx_barriers (s : State) (a : ArrId) (c : CtxId) (f : Ctx → Ctx) : (s.modCtx a c f).barriers = s.barriers := rfl
@[simp] theorem State.modCtx_groups (s : State) (a : ArrId) (c : CtxId) (f : Ctx → Ctx) : (s.modCtx a c f).groups = s.groups := rfl
@[simp] theorem State.modCtx_ports (s : State) (a : ArrId) (c : CtxId) (f : Ctx → Ctx) : (s.modCtx a c f).ports = s.ports := rfl
@[simp] theorem State.modCtx_part (s : State) (a : ArrId) (c : CtxId) (f : Ctx → Ctx) : (s.modCtx a c f).part = s.part := rfl
@[simp] theorem State.modCtx_topStamp (s : State) (a : ArrId) (c : CtxId) (f : Ctx → Ctx) : (s.modCtx a c f).topStamp = s.topStamp := rfl
@[simp] theorem State.modCtx_holds (s : State) (a : ArrId) (c : CtxId) (f : Ctx → Ctx) : (s.modCtx a c f).holds = s.holds := rfl
@[simp] theorem State.modCtx_forwards (s : State) (a : ArrId) (c : CtxId) (f : Ctx → Ctx) : (s.modCtx a c f).forwards = s.forwards := rfl
@[simp] theorem State.modCtx_peerRecs (s : State) (a : ArrId) (c : CtxId) (f : Ctx → Ctx) : (s.modCtx a c f).peerRecs = s.peerRecs := rfl
@[simp] theorem State.modCtx_dieTc (s : State) (a : ArrId) (c : CtxId) (f : Ctx → Ctx) : (s.modCtx a c f).dieTc = s.dieTc := rfl
@[simp] theorem State.modCtx_walks (s : State) (a : ArrId) (c : CtxId) (f : Ctx → Ctx) : (s.modCtx a c f).walks = s.walks := rfl
@[simp] theorem State.modCtx_mends (s : State) (a : ArrId) (c : CtxId) (f : Ctx → Ctx) : (s.modCtx a c f).mends = s.mends := rfl
@[simp] theorem State.modCtx_mendNo (s : State) (a : ArrId) (c : CtxId) (f : Ctx → Ctx) : (s.modCtx a c f).mendNo = s.mendNo := rfl
@[simp] theorem State.modCtx_locked (s : State) (a : ArrId) (c : CtxId) (f : Ctx → Ctx) : (s.modCtx a c f).locked = s.locked := rfl
@[simp] theorem State.modCtx_asks (s : State) (a : ArrId) (c : CtxId) (f : Ctx → Ctx) : (s.modCtx a c f).asks = s.asks := rfl
@[simp] theorem State.modCtx_askNo (s : State) (a : ArrId) (c : CtxId) (f : Ctx → Ctx) : (s.modCtx a c f).askNo = s.askNo := rfl
@[simp] theorem State.modCtx_redirects (s : State) (a : ArrId) (c : CtxId) (f : Ctx → Ctx) : (s.modCtx a c f).redirects = s.redirects := rfl
@[simp] theorem State.modCtx_isolated (s : State) (a : ArrId) (c : CtxId) (f : Ctx → Ctx) : (s.modCtx a c f).isolated = s.isolated := rfl
@[simp] theorem State.modCtx_ceCount (s : State) (a : ArrId) (c : CtxId) (f : Ctx → Ctx) : (s.modCtx a c f).ceCount = s.ceCount := rfl
@[simp] theorem State.modCtx_chunks (s : State) (a : ArrId) (c : CtxId) (f : Ctx → Ctx) : (s.modCtx a c f).chunks = s.chunks := rfl
@[simp] theorem State.modCtx_bces (s : State) (a : ArrId) (c : CtxId) (f : Ctx → Ctx) : (s.modCtx a c f).bces = s.bces := rfl
@[simp] theorem State.modCtx_pw (s : State) (a : ArrId) (c : CtxId) (f : Ctx → Ctx) : (s.modCtx a c f).pw = s.pw := rfl
@[simp] theorem State.modCtx_epoch (s : State) (a : ArrId) (c : CtxId) (f : Ctx → Ctx) : (s.modCtx a c f).epoch = s.epoch := rfl
@[simp] theorem State.modCtx_errSeq (s : State) (a : ArrId) (c : CtxId) (f : Ctx → Ctx) : (s.modCtx a c f).errSeq = s.errSeq := rfl
@[simp] theorem State.modCtx_susp (s : State) (a : ArrId) (c : CtxId) (f : Ctx → Ctx) : (s.modCtx a c f).susp = s.susp := rfl

/-! `modMe` -/

@[simp] theorem State.modMe_mem (s : State) (f : Ctx → Ctx) : (s.modMe f).mem = s.mem := rfl
@[simp] theorem State.modMe_cycle (s : State) (f : Ctx → Ctx) : (s.modMe f).cycle = s.cycle := rfl
@[simp] theorem State.modMe_act (s : State) (f : Ctx → Ctx) : (s.modMe f).act = s.act := rfl
@[simp] theorem State.modMe_cfg (s : State) (f : Ctx → Ctx) : (s.modMe f).cfg = s.cfg := rfl
@[simp] theorem State.modMe_pkgNo (s : State) (f : Ctx → Ctx) : (s.modMe f).pkgNo = s.pkgNo := rfl
@[simp] theorem State.modMe_draws (s : State) (f : Ctx → Ctx) : (s.modMe f).draws = s.draws := rfl
@[simp] theorem State.modMe_agenda (s : State) (f : Ctx → Ctx) : (s.modMe f).agenda = s.agenda := rfl
@[simp] theorem State.modMe_urgent (s : State) (f : Ctx → Ctx) : (s.modMe f).urgent = s.urgent := rfl
@[simp] theorem State.modMe_inputs (s : State) (f : Ctx → Ctx) : (s.modMe f).inputs = s.inputs := rfl
@[simp] theorem State.modMe_outbox (s : State) (f : Ctx → Ctx) : (s.modMe f).outbox = s.outbox := rfl
@[simp] theorem State.modMe_lines (s : State) (f : Ctx → Ctx) : (s.modMe f).lines = s.lines := rfl
@[simp] theorem State.modMe_rings (s : State) (f : Ctx → Ctx) : (s.modMe f).rings = s.rings := rfl
@[simp] theorem State.modMe_teams (s : State) (f : Ctx → Ctx) : (s.modMe f).teams = s.teams := rfl
@[simp] theorem State.modMe_jobs (s : State) (f : Ctx → Ctx) : (s.modMe f).jobs = s.jobs := rfl
@[simp] theorem State.modMe_queues (s : State) (f : Ctx → Ctx) : (s.modMe f).queues = s.queues := rfl
@[simp] theorem State.modMe_funcs (s : State) (f : Ctx → Ctx) : (s.modMe f).funcs = s.funcs := rfl
@[simp] theorem State.modMe_images (s : State) (f : Ctx → Ctx) : (s.modMe f).images = s.images := rfl
@[simp] theorem State.modMe_segs (s : State) (f : Ctx → Ctx) : (s.modMe f).segs = s.segs := rfl
@[simp] theorem State.modMe_folds (s : State) (f : Ctx → Ctx) : (s.modMe f).folds = s.folds := rfl
@[simp] theorem State.modMe_anns (s : State) (f : Ctx → Ctx) : (s.modMe f).anns = s.anns := rfl
@[simp] theorem State.modMe_winNo (s : State) (f : Ctx → Ctx) : (s.modMe f).winNo = s.winNo := rfl
@[simp] theorem State.modMe_watchTab (s : State) (f : Ctx → Ctx) : (s.modMe f).watchTab = s.watchTab := rfl
@[simp] theorem State.modMe_barriers (s : State) (f : Ctx → Ctx) : (s.modMe f).barriers = s.barriers := rfl
@[simp] theorem State.modMe_groups (s : State) (f : Ctx → Ctx) : (s.modMe f).groups = s.groups := rfl
@[simp] theorem State.modMe_ports (s : State) (f : Ctx → Ctx) : (s.modMe f).ports = s.ports := rfl
@[simp] theorem State.modMe_part (s : State) (f : Ctx → Ctx) : (s.modMe f).part = s.part := rfl
@[simp] theorem State.modMe_topStamp (s : State) (f : Ctx → Ctx) : (s.modMe f).topStamp = s.topStamp := rfl
@[simp] theorem State.modMe_holds (s : State) (f : Ctx → Ctx) : (s.modMe f).holds = s.holds := rfl
@[simp] theorem State.modMe_forwards (s : State) (f : Ctx → Ctx) : (s.modMe f).forwards = s.forwards := rfl
@[simp] theorem State.modMe_peerRecs (s : State) (f : Ctx → Ctx) : (s.modMe f).peerRecs = s.peerRecs := rfl
@[simp] theorem State.modMe_dieTc (s : State) (f : Ctx → Ctx) : (s.modMe f).dieTc = s.dieTc := rfl
@[simp] theorem State.modMe_walks (s : State) (f : Ctx → Ctx) : (s.modMe f).walks = s.walks := rfl
@[simp] theorem State.modMe_mends (s : State) (f : Ctx → Ctx) : (s.modMe f).mends = s.mends := rfl
@[simp] theorem State.modMe_mendNo (s : State) (f : Ctx → Ctx) : (s.modMe f).mendNo = s.mendNo := rfl
@[simp] theorem State.modMe_locked (s : State) (f : Ctx → Ctx) : (s.modMe f).locked = s.locked := rfl
@[simp] theorem State.modMe_asks (s : State) (f : Ctx → Ctx) : (s.modMe f).asks = s.asks := rfl
@[simp] theorem State.modMe_askNo (s : State) (f : Ctx → Ctx) : (s.modMe f).askNo = s.askNo := rfl
@[simp] theorem State.modMe_redirects (s : State) (f : Ctx → Ctx) : (s.modMe f).redirects = s.redirects := rfl
@[simp] theorem State.modMe_isolated (s : State) (f : Ctx → Ctx) : (s.modMe f).isolated = s.isolated := rfl
@[simp] theorem State.modMe_ceCount (s : State) (f : Ctx → Ctx) : (s.modMe f).ceCount = s.ceCount := rfl
@[simp] theorem State.modMe_chunks (s : State) (f : Ctx → Ctx) : (s.modMe f).chunks = s.chunks := rfl
@[simp] theorem State.modMe_bces (s : State) (f : Ctx → Ctx) : (s.modMe f).bces = s.bces := rfl
@[simp] theorem State.modMe_pw (s : State) (f : Ctx → Ctx) : (s.modMe f).pw = s.pw := rfl
@[simp] theorem State.modMe_epoch (s : State) (f : Ctx → Ctx) : (s.modMe f).epoch = s.epoch := rfl
@[simp] theorem State.modMe_errSeq (s : State) (f : Ctx → Ctx) : (s.modMe f).errSeq = s.errSeq := rfl
@[simp] theorem State.modMe_susp (s : State) (f : Ctx → Ctx) : (s.modMe f).susp = s.susp := rfl

/-! `modFunc` -/

@[simp] theorem State.modFunc_mem (s : State) (n : FnId) (f : Func → Func) : (s.modFunc n f).mem = s.mem := rfl
@[simp] theorem State.modFunc_cycle (s : State) (n : FnId) (f : Func → Func) : (s.modFunc n f).cycle = s.cycle := rfl
@[simp] theorem State.modFunc_act (s : State) (n : FnId) (f : Func → Func) : (s.modFunc n f).act = s.act := rfl
@[simp] theorem State.modFunc_cfg (s : State) (n : FnId) (f : Func → Func) : (s.modFunc n f).cfg = s.cfg := rfl
@[simp] theorem State.modFunc_pkgNo (s : State) (n : FnId) (f : Func → Func) : (s.modFunc n f).pkgNo = s.pkgNo := rfl
@[simp] theorem State.modFunc_draws (s : State) (n : FnId) (f : Func → Func) : (s.modFunc n f).draws = s.draws := rfl
@[simp] theorem State.modFunc_arrays (s : State) (n : FnId) (f : Func → Func) : (s.modFunc n f).arrays = s.arrays := rfl
@[simp] theorem State.modFunc_agenda (s : State) (n : FnId) (f : Func → Func) : (s.modFunc n f).agenda = s.agenda := rfl
@[simp] theorem State.modFunc_urgent (s : State) (n : FnId) (f : Func → Func) : (s.modFunc n f).urgent = s.urgent := rfl
@[simp] theorem State.modFunc_inputs (s : State) (n : FnId) (f : Func → Func) : (s.modFunc n f).inputs = s.inputs := rfl
@[simp] theorem State.modFunc_outbox (s : State) (n : FnId) (f : Func → Func) : (s.modFunc n f).outbox = s.outbox := rfl
@[simp] theorem State.modFunc_lines (s : State) (n : FnId) (f : Func → Func) : (s.modFunc n f).lines = s.lines := rfl
@[simp] theorem State.modFunc_rings (s : State) (n : FnId) (f : Func → Func) : (s.modFunc n f).rings = s.rings := rfl
@[simp] theorem State.modFunc_teams (s : State) (n : FnId) (f : Func → Func) : (s.modFunc n f).teams = s.teams := rfl
@[simp] theorem State.modFunc_jobs (s : State) (n : FnId) (f : Func → Func) : (s.modFunc n f).jobs = s.jobs := rfl
@[simp] theorem State.modFunc_queues (s : State) (n : FnId) (f : Func → Func) : (s.modFunc n f).queues = s.queues := rfl
@[simp] theorem State.modFunc_images (s : State) (n : FnId) (f : Func → Func) : (s.modFunc n f).images = s.images := rfl
@[simp] theorem State.modFunc_segs (s : State) (n : FnId) (f : Func → Func) : (s.modFunc n f).segs = s.segs := rfl
@[simp] theorem State.modFunc_folds (s : State) (n : FnId) (f : Func → Func) : (s.modFunc n f).folds = s.folds := rfl
@[simp] theorem State.modFunc_anns (s : State) (n : FnId) (f : Func → Func) : (s.modFunc n f).anns = s.anns := rfl
@[simp] theorem State.modFunc_winNo (s : State) (n : FnId) (f : Func → Func) : (s.modFunc n f).winNo = s.winNo := rfl
@[simp] theorem State.modFunc_watchTab (s : State) (n : FnId) (f : Func → Func) : (s.modFunc n f).watchTab = s.watchTab := rfl
@[simp] theorem State.modFunc_barriers (s : State) (n : FnId) (f : Func → Func) : (s.modFunc n f).barriers = s.barriers := rfl
@[simp] theorem State.modFunc_groups (s : State) (n : FnId) (f : Func → Func) : (s.modFunc n f).groups = s.groups := rfl
@[simp] theorem State.modFunc_ports (s : State) (n : FnId) (f : Func → Func) : (s.modFunc n f).ports = s.ports := rfl
@[simp] theorem State.modFunc_part (s : State) (n : FnId) (f : Func → Func) : (s.modFunc n f).part = s.part := rfl
@[simp] theorem State.modFunc_topStamp (s : State) (n : FnId) (f : Func → Func) : (s.modFunc n f).topStamp = s.topStamp := rfl
@[simp] theorem State.modFunc_holds (s : State) (n : FnId) (f : Func → Func) : (s.modFunc n f).holds = s.holds := rfl
@[simp] theorem State.modFunc_forwards (s : State) (n : FnId) (f : Func → Func) : (s.modFunc n f).forwards = s.forwards := rfl
@[simp] theorem State.modFunc_peerRecs (s : State) (n : FnId) (f : Func → Func) : (s.modFunc n f).peerRecs = s.peerRecs := rfl
@[simp] theorem State.modFunc_dieTc (s : State) (n : FnId) (f : Func → Func) : (s.modFunc n f).dieTc = s.dieTc := rfl
@[simp] theorem State.modFunc_walks (s : State) (n : FnId) (f : Func → Func) : (s.modFunc n f).walks = s.walks := rfl
@[simp] theorem State.modFunc_mends (s : State) (n : FnId) (f : Func → Func) : (s.modFunc n f).mends = s.mends := rfl
@[simp] theorem State.modFunc_mendNo (s : State) (n : FnId) (f : Func → Func) : (s.modFunc n f).mendNo = s.mendNo := rfl
@[simp] theorem State.modFunc_locked (s : State) (n : FnId) (f : Func → Func) : (s.modFunc n f).locked = s.locked := rfl
@[simp] theorem State.modFunc_asks (s : State) (n : FnId) (f : Func → Func) : (s.modFunc n f).asks = s.asks := rfl
@[simp] theorem State.modFunc_askNo (s : State) (n : FnId) (f : Func → Func) : (s.modFunc n f).askNo = s.askNo := rfl
@[simp] theorem State.modFunc_redirects (s : State) (n : FnId) (f : Func → Func) : (s.modFunc n f).redirects = s.redirects := rfl
@[simp] theorem State.modFunc_isolated (s : State) (n : FnId) (f : Func → Func) : (s.modFunc n f).isolated = s.isolated := rfl
@[simp] theorem State.modFunc_ceCount (s : State) (n : FnId) (f : Func → Func) : (s.modFunc n f).ceCount = s.ceCount := rfl
@[simp] theorem State.modFunc_chunks (s : State) (n : FnId) (f : Func → Func) : (s.modFunc n f).chunks = s.chunks := rfl
@[simp] theorem State.modFunc_bces (s : State) (n : FnId) (f : Func → Func) : (s.modFunc n f).bces = s.bces := rfl
@[simp] theorem State.modFunc_pw (s : State) (n : FnId) (f : Func → Func) : (s.modFunc n f).pw = s.pw := rfl
@[simp] theorem State.modFunc_epoch (s : State) (n : FnId) (f : Func → Func) : (s.modFunc n f).epoch = s.epoch := rfl
@[simp] theorem State.modFunc_errSeq (s : State) (n : FnId) (f : Func → Func) : (s.modFunc n f).errSeq = s.errSeq := rfl
@[simp] theorem State.modFunc_susp (s : State) (n : FnId) (f : Func → Func) : (s.modFunc n f).susp = s.susp := rfl

/-! `modPort` -/

@[simp] theorem State.modPort_mem (s : State) (p : PortId) (f : Port → Port) : (s.modPort p f).mem = s.mem := rfl
@[simp] theorem State.modPort_cycle (s : State) (p : PortId) (f : Port → Port) : (s.modPort p f).cycle = s.cycle := rfl
@[simp] theorem State.modPort_act (s : State) (p : PortId) (f : Port → Port) : (s.modPort p f).act = s.act := rfl
@[simp] theorem State.modPort_cfg (s : State) (p : PortId) (f : Port → Port) : (s.modPort p f).cfg = s.cfg := rfl
@[simp] theorem State.modPort_pkgNo (s : State) (p : PortId) (f : Port → Port) : (s.modPort p f).pkgNo = s.pkgNo := rfl
@[simp] theorem State.modPort_draws (s : State) (p : PortId) (f : Port → Port) : (s.modPort p f).draws = s.draws := rfl
@[simp] theorem State.modPort_arrays (s : State) (p : PortId) (f : Port → Port) : (s.modPort p f).arrays = s.arrays := rfl
@[simp] theorem State.modPort_agenda (s : State) (p : PortId) (f : Port → Port) : (s.modPort p f).agenda = s.agenda := rfl
@[simp] theorem State.modPort_urgent (s : State) (p : PortId) (f : Port → Port) : (s.modPort p f).urgent = s.urgent := rfl
@[simp] theorem State.modPort_inputs (s : State) (p : PortId) (f : Port → Port) : (s.modPort p f).inputs = s.inputs := rfl
@[simp] theorem State.modPort_outbox (s : State) (p : PortId) (f : Port → Port) : (s.modPort p f).outbox = s.outbox := rfl
@[simp] theorem State.modPort_lines (s : State) (p : PortId) (f : Port → Port) : (s.modPort p f).lines = s.lines := rfl
@[simp] theorem State.modPort_rings (s : State) (p : PortId) (f : Port → Port) : (s.modPort p f).rings = s.rings := rfl
@[simp] theorem State.modPort_teams (s : State) (p : PortId) (f : Port → Port) : (s.modPort p f).teams = s.teams := rfl
@[simp] theorem State.modPort_jobs (s : State) (p : PortId) (f : Port → Port) : (s.modPort p f).jobs = s.jobs := rfl
@[simp] theorem State.modPort_queues (s : State) (p : PortId) (f : Port → Port) : (s.modPort p f).queues = s.queues := rfl
@[simp] theorem State.modPort_funcs (s : State) (p : PortId) (f : Port → Port) : (s.modPort p f).funcs = s.funcs := rfl
@[simp] theorem State.modPort_images (s : State) (p : PortId) (f : Port → Port) : (s.modPort p f).images = s.images := rfl
@[simp] theorem State.modPort_segs (s : State) (p : PortId) (f : Port → Port) : (s.modPort p f).segs = s.segs := rfl
@[simp] theorem State.modPort_folds (s : State) (p : PortId) (f : Port → Port) : (s.modPort p f).folds = s.folds := rfl
@[simp] theorem State.modPort_anns (s : State) (p : PortId) (f : Port → Port) : (s.modPort p f).anns = s.anns := rfl
@[simp] theorem State.modPort_winNo (s : State) (p : PortId) (f : Port → Port) : (s.modPort p f).winNo = s.winNo := rfl
@[simp] theorem State.modPort_watchTab (s : State) (p : PortId) (f : Port → Port) : (s.modPort p f).watchTab = s.watchTab := rfl
@[simp] theorem State.modPort_barriers (s : State) (p : PortId) (f : Port → Port) : (s.modPort p f).barriers = s.barriers := rfl
@[simp] theorem State.modPort_groups (s : State) (p : PortId) (f : Port → Port) : (s.modPort p f).groups = s.groups := rfl
@[simp] theorem State.modPort_part (s : State) (p : PortId) (f : Port → Port) : (s.modPort p f).part = s.part := rfl
@[simp] theorem State.modPort_topStamp (s : State) (p : PortId) (f : Port → Port) : (s.modPort p f).topStamp = s.topStamp := rfl
@[simp] theorem State.modPort_holds (s : State) (p : PortId) (f : Port → Port) : (s.modPort p f).holds = s.holds := rfl
@[simp] theorem State.modPort_forwards (s : State) (p : PortId) (f : Port → Port) : (s.modPort p f).forwards = s.forwards := rfl
@[simp] theorem State.modPort_peerRecs (s : State) (p : PortId) (f : Port → Port) : (s.modPort p f).peerRecs = s.peerRecs := rfl
@[simp] theorem State.modPort_dieTc (s : State) (p : PortId) (f : Port → Port) : (s.modPort p f).dieTc = s.dieTc := rfl
@[simp] theorem State.modPort_walks (s : State) (p : PortId) (f : Port → Port) : (s.modPort p f).walks = s.walks := rfl
@[simp] theorem State.modPort_mends (s : State) (p : PortId) (f : Port → Port) : (s.modPort p f).mends = s.mends := rfl
@[simp] theorem State.modPort_mendNo (s : State) (p : PortId) (f : Port → Port) : (s.modPort p f).mendNo = s.mendNo := rfl
@[simp] theorem State.modPort_locked (s : State) (p : PortId) (f : Port → Port) : (s.modPort p f).locked = s.locked := rfl
@[simp] theorem State.modPort_asks (s : State) (p : PortId) (f : Port → Port) : (s.modPort p f).asks = s.asks := rfl
@[simp] theorem State.modPort_askNo (s : State) (p : PortId) (f : Port → Port) : (s.modPort p f).askNo = s.askNo := rfl
@[simp] theorem State.modPort_redirects (s : State) (p : PortId) (f : Port → Port) : (s.modPort p f).redirects = s.redirects := rfl
@[simp] theorem State.modPort_isolated (s : State) (p : PortId) (f : Port → Port) : (s.modPort p f).isolated = s.isolated := rfl
@[simp] theorem State.modPort_ceCount (s : State) (p : PortId) (f : Port → Port) : (s.modPort p f).ceCount = s.ceCount := rfl
@[simp] theorem State.modPort_chunks (s : State) (p : PortId) (f : Port → Port) : (s.modPort p f).chunks = s.chunks := rfl
@[simp] theorem State.modPort_bces (s : State) (p : PortId) (f : Port → Port) : (s.modPort p f).bces = s.bces := rfl
@[simp] theorem State.modPort_pw (s : State) (p : PortId) (f : Port → Port) : (s.modPort p f).pw = s.pw := rfl
@[simp] theorem State.modPort_epoch (s : State) (p : PortId) (f : Port → Port) : (s.modPort p f).epoch = s.epoch := rfl
@[simp] theorem State.modPort_errSeq (s : State) (p : PortId) (f : Port → Port) : (s.modPort p f).errSeq = s.errSeq := rfl
@[simp] theorem State.modPort_susp (s : State) (p : PortId) (f : Port → Port) : (s.modPort p f).susp = s.susp := rfl

/-! `modRing` -/

@[simp] theorem State.modRing_mem (s : State) (i : Nat) (f : Ring → Ring) : (s.modRing i f).mem = s.mem := rfl
@[simp] theorem State.modRing_cycle (s : State) (i : Nat) (f : Ring → Ring) : (s.modRing i f).cycle = s.cycle := rfl
@[simp] theorem State.modRing_act (s : State) (i : Nat) (f : Ring → Ring) : (s.modRing i f).act = s.act := rfl
@[simp] theorem State.modRing_cfg (s : State) (i : Nat) (f : Ring → Ring) : (s.modRing i f).cfg = s.cfg := rfl
@[simp] theorem State.modRing_pkgNo (s : State) (i : Nat) (f : Ring → Ring) : (s.modRing i f).pkgNo = s.pkgNo := rfl
@[simp] theorem State.modRing_draws (s : State) (i : Nat) (f : Ring → Ring) : (s.modRing i f).draws = s.draws := rfl
@[simp] theorem State.modRing_arrays (s : State) (i : Nat) (f : Ring → Ring) : (s.modRing i f).arrays = s.arrays := rfl
@[simp] theorem State.modRing_agenda (s : State) (i : Nat) (f : Ring → Ring) : (s.modRing i f).agenda = s.agenda := rfl
@[simp] theorem State.modRing_urgent (s : State) (i : Nat) (f : Ring → Ring) : (s.modRing i f).urgent = s.urgent := rfl
@[simp] theorem State.modRing_inputs (s : State) (i : Nat) (f : Ring → Ring) : (s.modRing i f).inputs = s.inputs := rfl
@[simp] theorem State.modRing_outbox (s : State) (i : Nat) (f : Ring → Ring) : (s.modRing i f).outbox = s.outbox := rfl
@[simp] theorem State.modRing_lines (s : State) (i : Nat) (f : Ring → Ring) : (s.modRing i f).lines = s.lines := rfl
@[simp] theorem State.modRing_teams (s : State) (i : Nat) (f : Ring → Ring) : (s.modRing i f).teams = s.teams := rfl
@[simp] theorem State.modRing_jobs (s : State) (i : Nat) (f : Ring → Ring) : (s.modRing i f).jobs = s.jobs := rfl
@[simp] theorem State.modRing_queues (s : State) (i : Nat) (f : Ring → Ring) : (s.modRing i f).queues = s.queues := rfl
@[simp] theorem State.modRing_funcs (s : State) (i : Nat) (f : Ring → Ring) : (s.modRing i f).funcs = s.funcs := rfl
@[simp] theorem State.modRing_images (s : State) (i : Nat) (f : Ring → Ring) : (s.modRing i f).images = s.images := rfl
@[simp] theorem State.modRing_segs (s : State) (i : Nat) (f : Ring → Ring) : (s.modRing i f).segs = s.segs := rfl
@[simp] theorem State.modRing_folds (s : State) (i : Nat) (f : Ring → Ring) : (s.modRing i f).folds = s.folds := rfl
@[simp] theorem State.modRing_anns (s : State) (i : Nat) (f : Ring → Ring) : (s.modRing i f).anns = s.anns := rfl
@[simp] theorem State.modRing_winNo (s : State) (i : Nat) (f : Ring → Ring) : (s.modRing i f).winNo = s.winNo := rfl
@[simp] theorem State.modRing_watchTab (s : State) (i : Nat) (f : Ring → Ring) : (s.modRing i f).watchTab = s.watchTab := rfl
@[simp] theorem State.modRing_barriers (s : State) (i : Nat) (f : Ring → Ring) : (s.modRing i f).barriers = s.barriers := rfl
@[simp] theorem State.modRing_groups (s : State) (i : Nat) (f : Ring → Ring) : (s.modRing i f).groups = s.groups := rfl
@[simp] theorem State.modRing_ports (s : State) (i : Nat) (f : Ring → Ring) : (s.modRing i f).ports = s.ports := rfl
@[simp] theorem State.modRing_part (s : State) (i : Nat) (f : Ring → Ring) : (s.modRing i f).part = s.part := rfl
@[simp] theorem State.modRing_topStamp (s : State) (i : Nat) (f : Ring → Ring) : (s.modRing i f).topStamp = s.topStamp := rfl
@[simp] theorem State.modRing_holds (s : State) (i : Nat) (f : Ring → Ring) : (s.modRing i f).holds = s.holds := rfl
@[simp] theorem State.modRing_forwards (s : State) (i : Nat) (f : Ring → Ring) : (s.modRing i f).forwards = s.forwards := rfl
@[simp] theorem State.modRing_peerRecs (s : State) (i : Nat) (f : Ring → Ring) : (s.modRing i f).peerRecs = s.peerRecs := rfl
@[simp] theorem State.modRing_dieTc (s : State) (i : Nat) (f : Ring → Ring) : (s.modRing i f).dieTc = s.dieTc := rfl
@[simp] theorem State.modRing_walks (s : State) (i : Nat) (f : Ring → Ring) : (s.modRing i f).walks = s.walks := rfl
@[simp] theorem State.modRing_mends (s : State) (i : Nat) (f : Ring → Ring) : (s.modRing i f).mends = s.mends := rfl
@[simp] theorem State.modRing_mendNo (s : State) (i : Nat) (f : Ring → Ring) : (s.modRing i f).mendNo = s.mendNo := rfl
@[simp] theorem State.modRing_locked (s : State) (i : Nat) (f : Ring → Ring) : (s.modRing i f).locked = s.locked := rfl
@[simp] theorem State.modRing_asks (s : State) (i : Nat) (f : Ring → Ring) : (s.modRing i f).asks = s.asks := rfl
@[simp] theorem State.modRing_askNo (s : State) (i : Nat) (f : Ring → Ring) : (s.modRing i f).askNo = s.askNo := rfl
@[simp] theorem State.modRing_redirects (s : State) (i : Nat) (f : Ring → Ring) : (s.modRing i f).redirects = s.redirects := rfl
@[simp] theorem State.modRing_isolated (s : State) (i : Nat) (f : Ring → Ring) : (s.modRing i f).isolated = s.isolated := rfl
@[simp] theorem State.modRing_ceCount (s : State) (i : Nat) (f : Ring → Ring) : (s.modRing i f).ceCount = s.ceCount := rfl
@[simp] theorem State.modRing_chunks (s : State) (i : Nat) (f : Ring → Ring) : (s.modRing i f).chunks = s.chunks := rfl
@[simp] theorem State.modRing_bces (s : State) (i : Nat) (f : Ring → Ring) : (s.modRing i f).bces = s.bces := rfl
@[simp] theorem State.modRing_pw (s : State) (i : Nat) (f : Ring → Ring) : (s.modRing i f).pw = s.pw := rfl
@[simp] theorem State.modRing_epoch (s : State) (i : Nat) (f : Ring → Ring) : (s.modRing i f).epoch = s.epoch := rfl
@[simp] theorem State.modRing_errSeq (s : State) (i : Nat) (f : Ring → Ring) : (s.modRing i f).errSeq = s.errSeq := rfl
@[simp] theorem State.modRing_susp (s : State) (i : Nat) (f : Ring → Ring) : (s.modRing i f).susp = s.susp := rfl

/-! `modTeam` -/

@[simp] theorem State.modTeam_mem (s : State) (i : Nat) (f : Team → Team) : (s.modTeam i f).mem = s.mem := rfl
@[simp] theorem State.modTeam_cycle (s : State) (i : Nat) (f : Team → Team) : (s.modTeam i f).cycle = s.cycle := rfl
@[simp] theorem State.modTeam_act (s : State) (i : Nat) (f : Team → Team) : (s.modTeam i f).act = s.act := rfl
@[simp] theorem State.modTeam_cfg (s : State) (i : Nat) (f : Team → Team) : (s.modTeam i f).cfg = s.cfg := rfl
@[simp] theorem State.modTeam_pkgNo (s : State) (i : Nat) (f : Team → Team) : (s.modTeam i f).pkgNo = s.pkgNo := rfl
@[simp] theorem State.modTeam_draws (s : State) (i : Nat) (f : Team → Team) : (s.modTeam i f).draws = s.draws := rfl
@[simp] theorem State.modTeam_arrays (s : State) (i : Nat) (f : Team → Team) : (s.modTeam i f).arrays = s.arrays := rfl
@[simp] theorem State.modTeam_agenda (s : State) (i : Nat) (f : Team → Team) : (s.modTeam i f).agenda = s.agenda := rfl
@[simp] theorem State.modTeam_urgent (s : State) (i : Nat) (f : Team → Team) : (s.modTeam i f).urgent = s.urgent := rfl
@[simp] theorem State.modTeam_inputs (s : State) (i : Nat) (f : Team → Team) : (s.modTeam i f).inputs = s.inputs := rfl
@[simp] theorem State.modTeam_outbox (s : State) (i : Nat) (f : Team → Team) : (s.modTeam i f).outbox = s.outbox := rfl
@[simp] theorem State.modTeam_lines (s : State) (i : Nat) (f : Team → Team) : (s.modTeam i f).lines = s.lines := rfl
@[simp] theorem State.modTeam_rings (s : State) (i : Nat) (f : Team → Team) : (s.modTeam i f).rings = s.rings := rfl
@[simp] theorem State.modTeam_jobs (s : State) (i : Nat) (f : Team → Team) : (s.modTeam i f).jobs = s.jobs := rfl
@[simp] theorem State.modTeam_queues (s : State) (i : Nat) (f : Team → Team) : (s.modTeam i f).queues = s.queues := rfl
@[simp] theorem State.modTeam_funcs (s : State) (i : Nat) (f : Team → Team) : (s.modTeam i f).funcs = s.funcs := rfl
@[simp] theorem State.modTeam_images (s : State) (i : Nat) (f : Team → Team) : (s.modTeam i f).images = s.images := rfl
@[simp] theorem State.modTeam_segs (s : State) (i : Nat) (f : Team → Team) : (s.modTeam i f).segs = s.segs := rfl
@[simp] theorem State.modTeam_folds (s : State) (i : Nat) (f : Team → Team) : (s.modTeam i f).folds = s.folds := rfl
@[simp] theorem State.modTeam_anns (s : State) (i : Nat) (f : Team → Team) : (s.modTeam i f).anns = s.anns := rfl
@[simp] theorem State.modTeam_winNo (s : State) (i : Nat) (f : Team → Team) : (s.modTeam i f).winNo = s.winNo := rfl
@[simp] theorem State.modTeam_watchTab (s : State) (i : Nat) (f : Team → Team) : (s.modTeam i f).watchTab = s.watchTab := rfl
@[simp] theorem State.modTeam_barriers (s : State) (i : Nat) (f : Team → Team) : (s.modTeam i f).barriers = s.barriers := rfl
@[simp] theorem State.modTeam_groups (s : State) (i : Nat) (f : Team → Team) : (s.modTeam i f).groups = s.groups := rfl
@[simp] theorem State.modTeam_ports (s : State) (i : Nat) (f : Team → Team) : (s.modTeam i f).ports = s.ports := rfl
@[simp] theorem State.modTeam_part (s : State) (i : Nat) (f : Team → Team) : (s.modTeam i f).part = s.part := rfl
@[simp] theorem State.modTeam_topStamp (s : State) (i : Nat) (f : Team → Team) : (s.modTeam i f).topStamp = s.topStamp := rfl
@[simp] theorem State.modTeam_holds (s : State) (i : Nat) (f : Team → Team) : (s.modTeam i f).holds = s.holds := rfl
@[simp] theorem State.modTeam_forwards (s : State) (i : Nat) (f : Team → Team) : (s.modTeam i f).forwards = s.forwards := rfl
@[simp] theorem State.modTeam_peerRecs (s : State) (i : Nat) (f : Team → Team) : (s.modTeam i f).peerRecs = s.peerRecs := rfl
@[simp] theorem State.modTeam_dieTc (s : State) (i : Nat) (f : Team → Team) : (s.modTeam i f).dieTc = s.dieTc := rfl
@[simp] theorem State.modTeam_walks (s : State) (i : Nat) (f : Team → Team) : (s.modTeam i f).walks = s.walks := rfl
@[simp] theorem State.modTeam_mends (s : State) (i : Nat) (f : Team → Team) : (s.modTeam i f).mends = s.mends := rfl
@[simp] theorem State.modTeam_mendNo (s : State) (i : Nat) (f : Team → Team) : (s.modTeam i f).mendNo = s.mendNo := rfl
@[simp] theorem State.modTeam_locked (s : State) (i : Nat) (f : Team → Team) : (s.modTeam i f).locked = s.locked := rfl
@[simp] theorem State.modTeam_asks (s : State) (i : Nat) (f : Team → Team) : (s.modTeam i f).asks = s.asks := rfl
@[simp] theorem State.modTeam_askNo (s : State) (i : Nat) (f : Team → Team) : (s.modTeam i f).askNo = s.askNo := rfl
@[simp] theorem State.modTeam_redirects (s : State) (i : Nat) (f : Team → Team) : (s.modTeam i f).redirects = s.redirects := rfl
@[simp] theorem State.modTeam_isolated (s : State) (i : Nat) (f : Team → Team) : (s.modTeam i f).isolated = s.isolated := rfl
@[simp] theorem State.modTeam_ceCount (s : State) (i : Nat) (f : Team → Team) : (s.modTeam i f).ceCount = s.ceCount := rfl
@[simp] theorem State.modTeam_chunks (s : State) (i : Nat) (f : Team → Team) : (s.modTeam i f).chunks = s.chunks := rfl
@[simp] theorem State.modTeam_bces (s : State) (i : Nat) (f : Team → Team) : (s.modTeam i f).bces = s.bces := rfl
@[simp] theorem State.modTeam_pw (s : State) (i : Nat) (f : Team → Team) : (s.modTeam i f).pw = s.pw := rfl
@[simp] theorem State.modTeam_epoch (s : State) (i : Nat) (f : Team → Team) : (s.modTeam i f).epoch = s.epoch := rfl
@[simp] theorem State.modTeam_errSeq (s : State) (i : Nat) (f : Team → Team) : (s.modTeam i f).errSeq = s.errSeq := rfl
@[simp] theorem State.modTeam_susp (s : State) (i : Nat) (f : Team → Team) : (s.modTeam i f).susp = s.susp := rfl

/-! `modJob` -/

@[simp] theorem State.modJob_mem (s : State) (i : Nat) (f : Job → Job) : (s.modJob i f).mem = s.mem := rfl
@[simp] theorem State.modJob_cycle (s : State) (i : Nat) (f : Job → Job) : (s.modJob i f).cycle = s.cycle := rfl
@[simp] theorem State.modJob_act (s : State) (i : Nat) (f : Job → Job) : (s.modJob i f).act = s.act := rfl
@[simp] theorem State.modJob_cfg (s : State) (i : Nat) (f : Job → Job) : (s.modJob i f).cfg = s.cfg := rfl
@[simp] theorem State.modJob_pkgNo (s : State) (i : Nat) (f : Job → Job) : (s.modJob i f).pkgNo = s.pkgNo := rfl
@[simp] theorem State.modJob_draws (s : State) (i : Nat) (f : Job → Job) : (s.modJob i f).draws = s.draws := rfl
@[simp] theorem State.modJob_arrays (s : State) (i : Nat) (f : Job → Job) : (s.modJob i f).arrays = s.arrays := rfl
@[simp] theorem State.modJob_agenda (s : State) (i : Nat) (f : Job → Job) : (s.modJob i f).agenda = s.agenda := rfl
@[simp] theorem State.modJob_urgent (s : State) (i : Nat) (f : Job → Job) : (s.modJob i f).urgent = s.urgent := rfl
@[simp] theorem State.modJob_inputs (s : State) (i : Nat) (f : Job → Job) : (s.modJob i f).inputs = s.inputs := rfl
@[simp] theorem State.modJob_outbox (s : State) (i : Nat) (f : Job → Job) : (s.modJob i f).outbox = s.outbox := rfl
@[simp] theorem State.modJob_lines (s : State) (i : Nat) (f : Job → Job) : (s.modJob i f).lines = s.lines := rfl
@[simp] theorem State.modJob_rings (s : State) (i : Nat) (f : Job → Job) : (s.modJob i f).rings = s.rings := rfl
@[simp] theorem State.modJob_teams (s : State) (i : Nat) (f : Job → Job) : (s.modJob i f).teams = s.teams := rfl
@[simp] theorem State.modJob_queues (s : State) (i : Nat) (f : Job → Job) : (s.modJob i f).queues = s.queues := rfl
@[simp] theorem State.modJob_funcs (s : State) (i : Nat) (f : Job → Job) : (s.modJob i f).funcs = s.funcs := rfl
@[simp] theorem State.modJob_images (s : State) (i : Nat) (f : Job → Job) : (s.modJob i f).images = s.images := rfl
@[simp] theorem State.modJob_segs (s : State) (i : Nat) (f : Job → Job) : (s.modJob i f).segs = s.segs := rfl
@[simp] theorem State.modJob_folds (s : State) (i : Nat) (f : Job → Job) : (s.modJob i f).folds = s.folds := rfl
@[simp] theorem State.modJob_anns (s : State) (i : Nat) (f : Job → Job) : (s.modJob i f).anns = s.anns := rfl
@[simp] theorem State.modJob_winNo (s : State) (i : Nat) (f : Job → Job) : (s.modJob i f).winNo = s.winNo := rfl
@[simp] theorem State.modJob_watchTab (s : State) (i : Nat) (f : Job → Job) : (s.modJob i f).watchTab = s.watchTab := rfl
@[simp] theorem State.modJob_barriers (s : State) (i : Nat) (f : Job → Job) : (s.modJob i f).barriers = s.barriers := rfl
@[simp] theorem State.modJob_groups (s : State) (i : Nat) (f : Job → Job) : (s.modJob i f).groups = s.groups := rfl
@[simp] theorem State.modJob_ports (s : State) (i : Nat) (f : Job → Job) : (s.modJob i f).ports = s.ports := rfl
@[simp] theorem State.modJob_part (s : State) (i : Nat) (f : Job → Job) : (s.modJob i f).part = s.part := rfl
@[simp] theorem State.modJob_topStamp (s : State) (i : Nat) (f : Job → Job) : (s.modJob i f).topStamp = s.topStamp := rfl
@[simp] theorem State.modJob_holds (s : State) (i : Nat) (f : Job → Job) : (s.modJob i f).holds = s.holds := rfl
@[simp] theorem State.modJob_forwards (s : State) (i : Nat) (f : Job → Job) : (s.modJob i f).forwards = s.forwards := rfl
@[simp] theorem State.modJob_peerRecs (s : State) (i : Nat) (f : Job → Job) : (s.modJob i f).peerRecs = s.peerRecs := rfl
@[simp] theorem State.modJob_dieTc (s : State) (i : Nat) (f : Job → Job) : (s.modJob i f).dieTc = s.dieTc := rfl
@[simp] theorem State.modJob_walks (s : State) (i : Nat) (f : Job → Job) : (s.modJob i f).walks = s.walks := rfl
@[simp] theorem State.modJob_mends (s : State) (i : Nat) (f : Job → Job) : (s.modJob i f).mends = s.mends := rfl
@[simp] theorem State.modJob_mendNo (s : State) (i : Nat) (f : Job → Job) : (s.modJob i f).mendNo = s.mendNo := rfl
@[simp] theorem State.modJob_locked (s : State) (i : Nat) (f : Job → Job) : (s.modJob i f).locked = s.locked := rfl
@[simp] theorem State.modJob_asks (s : State) (i : Nat) (f : Job → Job) : (s.modJob i f).asks = s.asks := rfl
@[simp] theorem State.modJob_askNo (s : State) (i : Nat) (f : Job → Job) : (s.modJob i f).askNo = s.askNo := rfl
@[simp] theorem State.modJob_redirects (s : State) (i : Nat) (f : Job → Job) : (s.modJob i f).redirects = s.redirects := rfl
@[simp] theorem State.modJob_isolated (s : State) (i : Nat) (f : Job → Job) : (s.modJob i f).isolated = s.isolated := rfl
@[simp] theorem State.modJob_ceCount (s : State) (i : Nat) (f : Job → Job) : (s.modJob i f).ceCount = s.ceCount := rfl
@[simp] theorem State.modJob_chunks (s : State) (i : Nat) (f : Job → Job) : (s.modJob i f).chunks = s.chunks := rfl
@[simp] theorem State.modJob_bces (s : State) (i : Nat) (f : Job → Job) : (s.modJob i f).bces = s.bces := rfl
@[simp] theorem State.modJob_pw (s : State) (i : Nat) (f : Job → Job) : (s.modJob i f).pw = s.pw := rfl
@[simp] theorem State.modJob_epoch (s : State) (i : Nat) (f : Job → Job) : (s.modJob i f).epoch = s.epoch := rfl
@[simp] theorem State.modJob_errSeq (s : State) (i : Nat) (f : Job → Job) : (s.modJob i f).errSeq = s.errSeq := rfl
@[simp] theorem State.modJob_susp (s : State) (i : Nat) (f : Job → Job) : (s.modJob i f).susp = s.susp := rfl

/-! `atAc` -/

@[simp] theorem State.atAc_mem (s : State) (t : Nat) (i : Instr) : (s.atAc t i).mem = s.mem := rfl
@[simp] theorem State.atAc_cycle (s : State) (t : Nat) (i : Instr) : (s.atAc t i).cycle = s.cycle := rfl
@[simp] theorem State.atAc_act (s : State) (t : Nat) (i : Instr) : (s.atAc t i).act = s.act := rfl
@[simp] theorem State.atAc_cfg (s : State) (t : Nat) (i : Instr) : (s.atAc t i).cfg = s.cfg := rfl
@[simp] theorem State.atAc_pkgNo (s : State) (t : Nat) (i : Instr) : (s.atAc t i).pkgNo = s.pkgNo := rfl
@[simp] theorem State.atAc_draws (s : State) (t : Nat) (i : Instr) : (s.atAc t i).draws = s.draws := rfl
@[simp] theorem State.atAc_arrays (s : State) (t : Nat) (i : Instr) : (s.atAc t i).arrays = s.arrays := rfl
@[simp] theorem State.atAc_urgent (s : State) (t : Nat) (i : Instr) : (s.atAc t i).urgent = s.urgent := rfl
@[simp] theorem State.atAc_inputs (s : State) (t : Nat) (i : Instr) : (s.atAc t i).inputs = s.inputs := rfl
@[simp] theorem State.atAc_outbox (s : State) (t : Nat) (i : Instr) : (s.atAc t i).outbox = s.outbox := rfl
@[simp] theorem State.atAc_lines (s : State) (t : Nat) (i : Instr) : (s.atAc t i).lines = s.lines := rfl
@[simp] theorem State.atAc_rings (s : State) (t : Nat) (i : Instr) : (s.atAc t i).rings = s.rings := rfl
@[simp] theorem State.atAc_teams (s : State) (t : Nat) (i : Instr) : (s.atAc t i).teams = s.teams := rfl
@[simp] theorem State.atAc_jobs (s : State) (t : Nat) (i : Instr) : (s.atAc t i).jobs = s.jobs := rfl
@[simp] theorem State.atAc_queues (s : State) (t : Nat) (i : Instr) : (s.atAc t i).queues = s.queues := rfl
@[simp] theorem State.atAc_funcs (s : State) (t : Nat) (i : Instr) : (s.atAc t i).funcs = s.funcs := rfl
@[simp] theorem State.atAc_images (s : State) (t : Nat) (i : Instr) : (s.atAc t i).images = s.images := rfl
@[simp] theorem State.atAc_segs (s : State) (t : Nat) (i : Instr) : (s.atAc t i).segs = s.segs := rfl
@[simp] theorem State.atAc_folds (s : State) (t : Nat) (i : Instr) : (s.atAc t i).folds = s.folds := rfl
@[simp] theorem State.atAc_anns (s : State) (t : Nat) (i : Instr) : (s.atAc t i).anns = s.anns := rfl
@[simp] theorem State.atAc_winNo (s : State) (t : Nat) (i : Instr) : (s.atAc t i).winNo = s.winNo := rfl
@[simp] theorem State.atAc_watchTab (s : State) (t : Nat) (i : Instr) : (s.atAc t i).watchTab = s.watchTab := rfl
@[simp] theorem State.atAc_barriers (s : State) (t : Nat) (i : Instr) : (s.atAc t i).barriers = s.barriers := rfl
@[simp] theorem State.atAc_groups (s : State) (t : Nat) (i : Instr) : (s.atAc t i).groups = s.groups := rfl
@[simp] theorem State.atAc_ports (s : State) (t : Nat) (i : Instr) : (s.atAc t i).ports = s.ports := rfl
@[simp] theorem State.atAc_part (s : State) (t : Nat) (i : Instr) : (s.atAc t i).part = s.part := rfl
@[simp] theorem State.atAc_topStamp (s : State) (t : Nat) (i : Instr) : (s.atAc t i).topStamp = s.topStamp := rfl
@[simp] theorem State.atAc_holds (s : State) (t : Nat) (i : Instr) : (s.atAc t i).holds = s.holds := rfl
@[simp] theorem State.atAc_forwards (s : State) (t : Nat) (i : Instr) : (s.atAc t i).forwards = s.forwards := rfl
@[simp] theorem State.atAc_peerRecs (s : State) (t : Nat) (i : Instr) : (s.atAc t i).peerRecs = s.peerRecs := rfl
@[simp] theorem State.atAc_dieTc (s : State) (t : Nat) (i : Instr) : (s.atAc t i).dieTc = s.dieTc := rfl
@[simp] theorem State.atAc_walks (s : State) (t : Nat) (i : Instr) : (s.atAc t i).walks = s.walks := rfl
@[simp] theorem State.atAc_mends (s : State) (t : Nat) (i : Instr) : (s.atAc t i).mends = s.mends := rfl
@[simp] theorem State.atAc_mendNo (s : State) (t : Nat) (i : Instr) : (s.atAc t i).mendNo = s.mendNo := rfl
@[simp] theorem State.atAc_locked (s : State) (t : Nat) (i : Instr) : (s.atAc t i).locked = s.locked := rfl
@[simp] theorem State.atAc_asks (s : State) (t : Nat) (i : Instr) : (s.atAc t i).asks = s.asks := rfl
@[simp] theorem State.atAc_askNo (s : State) (t : Nat) (i : Instr) : (s.atAc t i).askNo = s.askNo := rfl
@[simp] theorem State.atAc_redirects (s : State) (t : Nat) (i : Instr) : (s.atAc t i).redirects = s.redirects := rfl
@[simp] theorem State.atAc_isolated (s : State) (t : Nat) (i : Instr) : (s.atAc t i).isolated = s.isolated := rfl
@[simp] theorem State.atAc_ceCount (s : State) (t : Nat) (i : Instr) : (s.atAc t i).ceCount = s.ceCount := rfl
@[simp] theorem State.atAc_chunks (s : State) (t : Nat) (i : Instr) : (s.atAc t i).chunks = s.chunks := rfl
@[simp] theorem State.atAc_bces (s : State) (t : Nat) (i : Instr) : (s.atAc t i).bces = s.bces := rfl
@[simp] theorem State.atAc_pw (s : State) (t : Nat) (i : Instr) : (s.atAc t i).pw = s.pw := rfl
@[simp] theorem State.atAc_epoch (s : State) (t : Nat) (i : Instr) : (s.atAc t i).epoch = s.epoch := rfl
@[simp] theorem State.atAc_errSeq (s : State) (t : Nat) (i : Instr) : (s.atAc t i).errSeq = s.errSeq := rfl
@[simp] theorem State.atAc_susp (s : State) (t : Nat) (i : Instr) : (s.atAc t i).susp = s.susp := rfl

/-! `atEnd` -/

@[simp] theorem State.atEnd_mem (s : State) (t : Nat) (i : Instr) : (s.atEnd t i).mem = s.mem := rfl
@[simp] theorem State.atEnd_cycle (s : State) (t : Nat) (i : Instr) : (s.atEnd t i).cycle = s.cycle := rfl
@[simp] theorem State.atEnd_act (s : State) (t : Nat) (i : Instr) : (s.atEnd t i).act = s.act := rfl
@[simp] theorem State.atEnd_cfg (s : State) (t : Nat) (i : Instr) : (s.atEnd t i).cfg = s.cfg := rfl
@[simp] theorem State.atEnd_pkgNo (s : State) (t : Nat) (i : Instr) : (s.atEnd t i).pkgNo = s.pkgNo := rfl
@[simp] theorem State.atEnd_draws (s : State) (t : Nat) (i : Instr) : (s.atEnd t i).draws = s.draws := rfl
@[simp] theorem State.atEnd_arrays (s : State) (t : Nat) (i : Instr) : (s.atEnd t i).arrays = s.arrays := rfl
@[simp] theorem State.atEnd_urgent (s : State) (t : Nat) (i : Instr) : (s.atEnd t i).urgent = s.urgent := rfl
@[simp] theorem State.atEnd_inputs (s : State) (t : Nat) (i : Instr) : (s.atEnd t i).inputs = s.inputs := rfl
@[simp] theorem State.atEnd_outbox (s : State) (t : Nat) (i : Instr) : (s.atEnd t i).outbox = s.outbox := rfl
@[simp] theorem State.atEnd_lines (s : State) (t : Nat) (i : Instr) : (s.atEnd t i).lines = s.lines := rfl
@[simp] theorem State.atEnd_rings (s : State) (t : Nat) (i : Instr) : (s.atEnd t i).rings = s.rings := rfl
@[simp] theorem State.atEnd_teams (s : State) (t : Nat) (i : Instr) : (s.atEnd t i).teams = s.teams := rfl
@[simp] theorem State.atEnd_jobs (s : State) (t : Nat) (i : Instr) : (s.atEnd t i).jobs = s.jobs := rfl
@[simp] theorem State.atEnd_queues (s : State) (t : Nat) (i : Instr) : (s.atEnd t i).queues = s.queues := rfl
@[simp] theorem State.atEnd_funcs (s : State) (t : Nat) (i : Instr) : (s.atEnd t i).funcs = s.funcs := rfl
@[simp] theorem State.atEnd_images (s : State) (t : Nat) (i : Instr) : (s.atEnd t i).images = s.images := rfl
@[simp] theorem State.atEnd_segs (s : State) (t : Nat) (i : Instr) : (s.atEnd t i).segs = s.segs := rfl
@[simp] theorem State.atEnd_folds (s : State) (t : Nat) (i : Instr) : (s.atEnd t i).folds = s.folds := rfl
@[simp] theorem State.atEnd_anns (s : State) (t : Nat) (i : Instr) : (s.atEnd t i).anns = s.anns := rfl
@[simp] theorem State.atEnd_winNo (s : State) (t : Nat) (i : Instr) : (s.atEnd t i).winNo = s.winNo := rfl
@[simp] theorem State.atEnd_watchTab (s : State) (t : Nat) (i : Instr) : (s.atEnd t i).watchTab = s.watchTab := rfl
@[simp] theorem State.atEnd_barriers (s : State) (t : Nat) (i : Instr) : (s.atEnd t i).barriers = s.barriers := rfl
@[simp] theorem State.atEnd_groups (s : State) (t : Nat) (i : Instr) : (s.atEnd t i).groups = s.groups := rfl
@[simp] theorem State.atEnd_ports (s : State) (t : Nat) (i : Instr) : (s.atEnd t i).ports = s.ports := rfl
@[simp] theorem State.atEnd_part (s : State) (t : Nat) (i : Instr) : (s.atEnd t i).part = s.part := rfl
@[simp] theorem State.atEnd_topStamp (s : State) (t : Nat) (i : Instr) : (s.atEnd t i).topStamp = s.topStamp := rfl
@[simp] theorem State.atEnd_holds (s : State) (t : Nat) (i : Instr) : (s.atEnd t i).holds = s.holds := rfl
@[simp] theorem State.atEnd_forwards (s : State) (t : Nat) (i : Instr) : (s.atEnd t i).forwards = s.forwards := rfl
@[simp] theorem State.atEnd_peerRecs (s : State) (t : Nat) (i : Instr) : (s.atEnd t i).peerRecs = s.peerRecs := rfl
@[simp] theorem State.atEnd_dieTc (s : State) (t : Nat) (i : Instr) : (s.atEnd t i).dieTc = s.dieTc := rfl
@[simp] theorem State.atEnd_walks (s : State) (t : Nat) (i : Instr) : (s.atEnd t i).walks = s.walks := rfl
@[simp] theorem State.atEnd_mends (s : State) (t : Nat) (i : Instr) : (s.atEnd t i).mends = s.mends := rfl
@[simp] theorem State.atEnd_mendNo (s : State) (t : Nat) (i : Instr) : (s.atEnd t i).mendNo = s.mendNo := rfl
@[simp] theorem State.atEnd_locked (s : State) (t : Nat) (i : Instr) : (s.atEnd t i).locked = s.locked := rfl
@[simp] theorem State.atEnd_asks (s : State) (t : Nat) (i : Instr) : (s.atEnd t i).asks = s.asks := rfl
@[simp] theorem State.atEnd_askNo (s : State) (t : Nat) (i : Instr) : (s.atEnd t i).askNo = s.askNo := rfl
@[simp] theorem State.atEnd_redirects (s : State) (t : Nat) (i : Instr) : (s.atEnd t i).redirects = s.redirects := rfl
@[simp] theorem State.atEnd_isolated (s : State) (t : Nat) (i : Instr) : (s.atEnd t i).isolated = s.isolated := rfl
@[simp] theorem State.atEnd_ceCount (s : State) (t : Nat) (i : Instr) : (s.atEnd t i).ceCount = s.ceCount := rfl
@[simp] theorem State.atEnd_chunks (s : State) (t : Nat) (i : Instr) : (s.atEnd t i).chunks = s.chunks := rfl
@[simp] theorem State.atEnd_bces (s : State) (t : Nat) (i : Instr) : (s.atEnd t i).bces = s.bces := rfl
@[simp] theorem State.atEnd_pw (s : State) (t : Nat) (i : Instr) : (s.atEnd t i).pw = s.pw := rfl
@[simp] theorem State.atEnd_epoch (s : State) (t : Nat) (i : Instr) : (s.atEnd t i).epoch = s.epoch := rfl
@[simp] theorem State.atEnd_errSeq (s : State) (t : Nat) (i : Instr) : (s.atEnd t i).errSeq = s.errSeq := rfl
@[simp] theorem State.atEnd_susp (s : State) (t : Nat) (i : Instr) : (s.atEnd t i).susp = s.susp := rfl

/-! `soon` -/

@[simp] theorem State.soon_mem (s : State) (i : Instr) : (s.soon i).mem = s.mem := rfl
@[simp] theorem State.soon_cycle (s : State) (i : Instr) : (s.soon i).cycle = s.cycle := rfl
@[simp] theorem State.soon_act (s : State) (i : Instr) : (s.soon i).act = s.act := rfl
@[simp] theorem State.soon_cfg (s : State) (i : Instr) : (s.soon i).cfg = s.cfg := rfl
@[simp] theorem State.soon_pkgNo (s : State) (i : Instr) : (s.soon i).pkgNo = s.pkgNo := rfl
@[simp] theorem State.soon_draws (s : State) (i : Instr) : (s.soon i).draws = s.draws := rfl
@[simp] theorem State.soon_arrays (s : State) (i : Instr) : (s.soon i).arrays = s.arrays := rfl
@[simp] theorem State.soon_agenda (s : State) (i : Instr) : (s.soon i).agenda = s.agenda := rfl
@[simp] theorem State.soon_inputs (s : State) (i : Instr) : (s.soon i).inputs = s.inputs := rfl
@[simp] theorem State.soon_outbox (s : State) (i : Instr) : (s.soon i).outbox = s.outbox := rfl
@[simp] theorem State.soon_lines (s : State) (i : Instr) : (s.soon i).lines = s.lines := rfl
@[simp] theorem State.soon_rings (s : State) (i : Instr) : (s.soon i).rings = s.rings := rfl
@[simp] theorem State.soon_teams (s : State) (i : Instr) : (s.soon i).teams = s.teams := rfl
@[simp] theorem State.soon_jobs (s : State) (i : Instr) : (s.soon i).jobs = s.jobs := rfl
@[simp] theorem State.soon_queues (s : State) (i : Instr) : (s.soon i).queues = s.queues := rfl
@[simp] theorem State.soon_funcs (s : State) (i : Instr) : (s.soon i).funcs = s.funcs := rfl
@[simp] theorem State.soon_images (s : State) (i : Instr) : (s.soon i).images = s.images := rfl
@[simp] theorem State.soon_segs (s : State) (i : Instr) : (s.soon i).segs = s.segs := rfl
@[simp] theorem State.soon_folds (s : State) (i : Instr) : (s.soon i).folds = s.folds := rfl
@[simp] theorem State.soon_anns (s : State) (i : Instr) : (s.soon i).anns = s.anns := rfl
@[simp] theorem State.soon_winNo (s : State) (i : Instr) : (s.soon i).winNo = s.winNo := rfl
@[simp] theorem State.soon_watchTab (s : State) (i : Instr) : (s.soon i).watchTab = s.watchTab := rfl
@[simp] theorem State.soon_barriers (s : State) (i : Instr) : (s.soon i).barriers = s.barriers := rfl
@[simp] theorem State.soon_groups (s : State) (i : Instr) : (s.soon i).groups = s.groups := rfl
@[simp] theorem State.soon_ports (s : State) (i : Instr) : (s.soon i).ports = s.ports := rfl
@[simp] theorem State.soon_part (s : State) (i : Instr) : (s.soon i).part = s.part := rfl
@[simp] theorem State.soon_topStamp (s : State) (i : Instr) : (s.soon i).topStamp = s.topStamp := rfl
@[simp] theorem State.soon_holds (s : State) (i : Instr) : (s.soon i).holds = s.holds := rfl
@[simp] theorem State.soon_forwards (s : State) (i : Instr) : (s.soon i).forwards = s.forwards := rfl
@[simp] theorem State.soon_peerRecs (s : State) (i : Instr) : (s.soon i).peerRecs = s.peerRecs := rfl
@[simp] theorem State.soon_dieTc (s : State) (i : Instr) : (s.soon i).dieTc = s.dieTc := rfl
@[simp] theorem State.soon_walks (s : State) (i : Instr) : (s.soon i).walks = s.walks := rfl
@[simp] theorem State.soon_mends (s : State) (i : Instr) : (s.soon i).mends = s.mends := rfl
@[simp] theorem State.soon_mendNo (s : State) (i : Instr) : (s.soon i).mendNo = s.mendNo := rfl
@[simp] theorem State.soon_locked (s : State) (i : Instr) : (s.soon i).locked = s.locked := rfl
@[simp] theorem State.soon_asks (s : State) (i : Instr) : (s.soon i).asks = s.asks := rfl
@[simp] theorem State.soon_askNo (s : State) (i : Instr) : (s.soon i).askNo = s.askNo := rfl
@[simp] theorem State.soon_redirects (s : State) (i : Instr) : (s.soon i).redirects = s.redirects := rfl
@[simp] theorem State.soon_isolated (s : State) (i : Instr) : (s.soon i).isolated = s.isolated := rfl
@[simp] theorem State.soon_ceCount (s : State) (i : Instr) : (s.soon i).ceCount = s.ceCount := rfl
@[simp] theorem State.soon_chunks (s : State) (i : Instr) : (s.soon i).chunks = s.chunks := rfl
@[simp] theorem State.soon_bces (s : State) (i : Instr) : (s.soon i).bces = s.bces := rfl
@[simp] theorem State.soon_pw (s : State) (i : Instr) : (s.soon i).pw = s.pw := rfl
@[simp] theorem State.soon_epoch (s : State) (i : Instr) : (s.soon i).epoch = s.epoch := rfl
@[simp] theorem State.soon_errSeq (s : State) (i : Instr) : (s.soon i).errSeq = s.errSeq := rfl
@[simp] theorem State.soon_susp (s : State) (i : Instr) : (s.soon i).susp = s.susp := rfl

/-! `send` -/

@[simp] theorem State.send_mem (s : State) (o : Output) : (s.send o).mem = s.mem := rfl
@[simp] theorem State.send_cycle (s : State) (o : Output) : (s.send o).cycle = s.cycle := rfl
@[simp] theorem State.send_act (s : State) (o : Output) : (s.send o).act = s.act := rfl
@[simp] theorem State.send_cfg (s : State) (o : Output) : (s.send o).cfg = s.cfg := rfl
@[simp] theorem State.send_pkgNo (s : State) (o : Output) : (s.send o).pkgNo = s.pkgNo := rfl
@[simp] theorem State.send_draws (s : State) (o : Output) : (s.send o).draws = s.draws := rfl
@[simp] theorem State.send_arrays (s : State) (o : Output) : (s.send o).arrays = s.arrays := rfl
@[simp] theorem State.send_agenda (s : State) (o : Output) : (s.send o).agenda = s.agenda := rfl
@[simp] theorem State.send_urgent (s : State) (o : Output) : (s.send o).urgent = s.urgent := rfl
@[simp] theorem State.send_inputs (s : State) (o : Output) : (s.send o).inputs = s.inputs := rfl
@[simp] theorem State.send_lines (s : State) (o : Output) : (s.send o).lines = s.lines := rfl
@[simp] theorem State.send_rings (s : State) (o : Output) : (s.send o).rings = s.rings := rfl
@[simp] theorem State.send_teams (s : State) (o : Output) : (s.send o).teams = s.teams := rfl
@[simp] theorem State.send_jobs (s : State) (o : Output) : (s.send o).jobs = s.jobs := rfl
@[simp] theorem State.send_queues (s : State) (o : Output) : (s.send o).queues = s.queues := rfl
@[simp] theorem State.send_funcs (s : State) (o : Output) : (s.send o).funcs = s.funcs := rfl
@[simp] theorem State.send_images (s : State) (o : Output) : (s.send o).images = s.images := rfl
@[simp] theorem State.send_segs (s : State) (o : Output) : (s.send o).segs = s.segs := rfl
@[simp] theorem State.send_folds (s : State) (o : Output) : (s.send o).folds = s.folds := rfl
@[simp] theorem State.send_anns (s : State) (o : Output) : (s.send o).anns = s.anns := rfl
@[simp] theorem State.send_winNo (s : State) (o : Output) : (s.send o).winNo = s.winNo := rfl
@[simp] theorem State.send_watchTab (s : State) (o : Output) : (s.send o).watchTab = s.watchTab := rfl
@[simp] theorem State.send_barriers (s : State) (o : Output) : (s.send o).barriers = s.barriers := rfl
@[simp] theorem State.send_groups (s : State) (o : Output) : (s.send o).groups = s.groups := rfl
@[simp] theorem State.send_ports (s : State) (o : Output) : (s.send o).ports = s.ports := rfl
@[simp] theorem State.send_part (s : State) (o : Output) : (s.send o).part = s.part := rfl
@[simp] theorem State.send_topStamp (s : State) (o : Output) : (s.send o).topStamp = s.topStamp := rfl
@[simp] theorem State.send_holds (s : State) (o : Output) : (s.send o).holds = s.holds := rfl
@[simp] theorem State.send_forwards (s : State) (o : Output) : (s.send o).forwards = s.forwards := rfl
@[simp] theorem State.send_peerRecs (s : State) (o : Output) : (s.send o).peerRecs = s.peerRecs := rfl
@[simp] theorem State.send_dieTc (s : State) (o : Output) : (s.send o).dieTc = s.dieTc := rfl
@[simp] theorem State.send_walks (s : State) (o : Output) : (s.send o).walks = s.walks := rfl
@[simp] theorem State.send_mends (s : State) (o : Output) : (s.send o).mends = s.mends := rfl
@[simp] theorem State.send_mendNo (s : State) (o : Output) : (s.send o).mendNo = s.mendNo := rfl
@[simp] theorem State.send_locked (s : State) (o : Output) : (s.send o).locked = s.locked := rfl
@[simp] theorem State.send_asks (s : State) (o : Output) : (s.send o).asks = s.asks := rfl
@[simp] theorem State.send_askNo (s : State) (o : Output) : (s.send o).askNo = s.askNo := rfl
@[simp] theorem State.send_redirects (s : State) (o : Output) : (s.send o).redirects = s.redirects := rfl
@[simp] theorem State.send_isolated (s : State) (o : Output) : (s.send o).isolated = s.isolated := rfl
@[simp] theorem State.send_ceCount (s : State) (o : Output) : (s.send o).ceCount = s.ceCount := rfl
@[simp] theorem State.send_chunks (s : State) (o : Output) : (s.send o).chunks = s.chunks := rfl
@[simp] theorem State.send_bces (s : State) (o : Output) : (s.send o).bces = s.bces := rfl
@[simp] theorem State.send_pw (s : State) (o : Output) : (s.send o).pw = s.pw := rfl
@[simp] theorem State.send_epoch (s : State) (o : Output) : (s.send o).epoch = s.epoch := rfl
@[simp] theorem State.send_errSeq (s : State) (o : Output) : (s.send o).errSeq = s.errSeq := rfl
@[simp] theorem State.send_susp (s : State) (o : Output) : (s.send o).susp = s.susp := rfl

/-! `modQueue` -/

@[simp] theorem State.modQueue_mem (s : State) (q : Nat) (f : Queue → Queue) : (s.modQueue q f).mem = s.mem := by
  unfold State.modQueue; split <;> rfl
@[simp] theorem State.modQueue_cycle (s : State) (q : Nat) (f : Queue → Queue) : (s.modQueue q f).cycle = s.cycle := by
  unfold State.modQueue; split <;> rfl
@[simp] theorem State.modQueue_act (s : State) (q : Nat) (f : Queue → Queue) : (s.modQueue q f).act = s.act := by
  unfold State.modQueue; split <;> rfl
@[simp] theorem State.modQueue_cfg (s : State) (q : Nat) (f : Queue → Queue) : (s.modQueue q f).cfg = s.cfg := by
  unfold State.modQueue; split <;> rfl
@[simp] theorem State.modQueue_pkgNo (s : State) (q : Nat) (f : Queue → Queue) : (s.modQueue q f).pkgNo = s.pkgNo := by
  unfold State.modQueue; split <;> rfl
@[simp] theorem State.modQueue_draws (s : State) (q : Nat) (f : Queue → Queue) : (s.modQueue q f).draws = s.draws := by
  unfold State.modQueue; split <;> rfl
@[simp] theorem State.modQueue_arrays (s : State) (q : Nat) (f : Queue → Queue) : (s.modQueue q f).arrays = s.arrays := by
  unfold State.modQueue; split <;> rfl
@[simp] theorem State.modQueue_agenda (s : State) (q : Nat) (f : Queue → Queue) : (s.modQueue q f).agenda = s.agenda := by
  unfold State.modQueue; split <;> rfl
@[simp] theorem State.modQueue_urgent (s : State) (q : Nat) (f : Queue → Queue) : (s.modQueue q f).urgent = s.urgent := by
  unfold State.modQueue; split <;> rfl
@[simp] theorem State.modQueue_inputs (s : State) (q : Nat) (f : Queue → Queue) : (s.modQueue q f).inputs = s.inputs := by
  unfold State.modQueue; split <;> rfl
@[simp] theorem State.modQueue_outbox (s : State) (q : Nat) (f : Queue → Queue) : (s.modQueue q f).outbox = s.outbox := by
  unfold State.modQueue; split <;> rfl
@[simp] theorem State.modQueue_lines (s : State) (q : Nat) (f : Queue → Queue) : (s.modQueue q f).lines = s.lines := by
  unfold State.modQueue; split <;> rfl
@[simp] theorem State.modQueue_rings (s : State) (q : Nat) (f : Queue → Queue) : (s.modQueue q f).rings = s.rings := by
  unfold State.modQueue; split <;> rfl
@[simp] theorem State.modQueue_teams (s : State) (q : Nat) (f : Queue → Queue) : (s.modQueue q f).teams = s.teams := by
  unfold State.modQueue; split <;> rfl
@[simp] theorem State.modQueue_jobs (s : State) (q : Nat) (f : Queue → Queue) : (s.modQueue q f).jobs = s.jobs := by
  unfold State.modQueue; split <;> rfl
@[simp] theorem State.modQueue_funcs (s : State) (q : Nat) (f : Queue → Queue) : (s.modQueue q f).funcs = s.funcs := by
  unfold State.modQueue; split <;> rfl
@[simp] theorem State.modQueue_images (s : State) (q : Nat) (f : Queue → Queue) : (s.modQueue q f).images = s.images := by
  unfold State.modQueue; split <;> rfl
@[simp] theorem State.modQueue_segs (s : State) (q : Nat) (f : Queue → Queue) : (s.modQueue q f).segs = s.segs := by
  unfold State.modQueue; split <;> rfl
@[simp] theorem State.modQueue_folds (s : State) (q : Nat) (f : Queue → Queue) : (s.modQueue q f).folds = s.folds := by
  unfold State.modQueue; split <;> rfl
@[simp] theorem State.modQueue_anns (s : State) (q : Nat) (f : Queue → Queue) : (s.modQueue q f).anns = s.anns := by
  unfold State.modQueue; split <;> rfl
@[simp] theorem State.modQueue_winNo (s : State) (q : Nat) (f : Queue → Queue) : (s.modQueue q f).winNo = s.winNo := by
  unfold State.modQueue; split <;> rfl
@[simp] theorem State.modQueue_watchTab (s : State) (q : Nat) (f : Queue → Queue) : (s.modQueue q f).watchTab = s.watchTab := by
  unfold State.modQueue; split <;> rfl
@[simp] theorem State.modQueue_barriers (s : State) (q : Nat) (f : Queue → Queue) : (s.modQueue q f).barriers = s.barriers := by
  unfold State.modQueue; split <;> rfl
@[simp] theorem State.modQueue_groups (s : State) (q : Nat) (f : Queue → Queue) : (s.modQueue q f).groups = s.groups := by
  unfold State.modQueue; split <;> rfl
@[simp] theorem State.modQueue_ports (s : State) (q : Nat) (f : Queue → Queue) : (s.modQueue q f).ports = s.ports := by
  unfold State.modQueue; split <;> rfl
@[simp] theorem State.modQueue_part (s : State) (q : Nat) (f : Queue → Queue) : (s.modQueue q f).part = s.part := by
  unfold State.modQueue; split <;> rfl
@[simp] theorem State.modQueue_topStamp (s : State) (q : Nat) (f : Queue → Queue) : (s.modQueue q f).topStamp = s.topStamp := by
  unfold State.modQueue; split <;> rfl
@[simp] theorem State.modQueue_holds (s : State) (q : Nat) (f : Queue → Queue) : (s.modQueue q f).holds = s.holds := by
  unfold State.modQueue; split <;> rfl
@[simp] theorem State.modQueue_forwards (s : State) (q : Nat) (f : Queue → Queue) : (s.modQueue q f).forwards = s.forwards := by
  unfold State.modQueue; split <;> rfl
@[simp] theorem State.modQueue_peerRecs (s : State) (q : Nat) (f : Queue → Queue) : (s.modQueue q f).peerRecs = s.peerRecs := by
  unfold State.modQueue; split <;> rfl
@[simp] theorem State.modQueue_dieTc (s : State) (q : Nat) (f : Queue → Queue) : (s.modQueue q f).dieTc = s.dieTc := by
  unfold State.modQueue; split <;> rfl
@[simp] theorem State.modQueue_walks (s : State) (q : Nat) (f : Queue → Queue) : (s.modQueue q f).walks = s.walks := by
  unfold State.modQueue; split <;> rfl
@[simp] theorem State.modQueue_mends (s : State) (q : Nat) (f : Queue → Queue) : (s.modQueue q f).mends = s.mends := by
  unfold State.modQueue; split <;> rfl
@[simp] theorem State.modQueue_mendNo (s : State) (q : Nat) (f : Queue → Queue) : (s.modQueue q f).mendNo = s.mendNo := by
  unfold State.modQueue; split <;> rfl
@[simp] theorem State.modQueue_locked (s : State) (q : Nat) (f : Queue → Queue) : (s.modQueue q f).locked = s.locked := by
  unfold State.modQueue; split <;> rfl
@[simp] theorem State.modQueue_asks (s : State) (q : Nat) (f : Queue → Queue) : (s.modQueue q f).asks = s.asks := by
  unfold State.modQueue; split <;> rfl
@[simp] theorem State.modQueue_askNo (s : State) (q : Nat) (f : Queue → Queue) : (s.modQueue q f).askNo = s.askNo := by
  unfold State.modQueue; split <;> rfl
@[simp] theorem State.modQueue_redirects (s : State) (q : Nat) (f : Queue → Queue) : (s.modQueue q f).redirects = s.redirects := by
  unfold State.modQueue; split <;> rfl
@[simp] theorem State.modQueue_isolated (s : State) (q : Nat) (f : Queue → Queue) : (s.modQueue q f).isolated = s.isolated := by
  unfold State.modQueue; split <;> rfl
@[simp] theorem State.modQueue_ceCount (s : State) (q : Nat) (f : Queue → Queue) : (s.modQueue q f).ceCount = s.ceCount := by
  unfold State.modQueue; split <;> rfl
@[simp] theorem State.modQueue_chunks (s : State) (q : Nat) (f : Queue → Queue) : (s.modQueue q f).chunks = s.chunks := by
  unfold State.modQueue; split <;> rfl
@[simp] theorem State.modQueue_bces (s : State) (q : Nat) (f : Queue → Queue) : (s.modQueue q f).bces = s.bces := by
  unfold State.modQueue; split <;> rfl
@[simp] theorem State.modQueue_pw (s : State) (q : Nat) (f : Queue → Queue) : (s.modQueue q f).pw = s.pw := by
  unfold State.modQueue; split <;> rfl
@[simp] theorem State.modQueue_epoch (s : State) (q : Nat) (f : Queue → Queue) : (s.modQueue q f).epoch = s.epoch := by
  unfold State.modQueue; split <;> rfl
@[simp] theorem State.modQueue_errSeq (s : State) (q : Nat) (f : Queue → Queue) : (s.modQueue q f).errSeq = s.errSeq := by
  unfold State.modQueue; split <;> rfl
@[simp] theorem State.modQueue_susp (s : State) (q : Nat) (f : Queue → Queue) : (s.modQueue q f).susp = s.susp := by
  unfold State.modQueue; split <;> rfl

/-! `modLine` -/

@[simp] theorem State.modLine_mem (s : State) (l : Nat) (f : LineMeta → LineMeta) : (s.modLine l f).mem = s.mem := rfl
@[simp] theorem State.modLine_cycle (s : State) (l : Nat) (f : LineMeta → LineMeta) : (s.modLine l f).cycle = s.cycle := rfl
@[simp] theorem State.modLine_act (s : State) (l : Nat) (f : LineMeta → LineMeta) : (s.modLine l f).act = s.act := rfl
@[simp] theorem State.modLine_cfg (s : State) (l : Nat) (f : LineMeta → LineMeta) : (s.modLine l f).cfg = s.cfg := rfl
@[simp] theorem State.modLine_pkgNo (s : State) (l : Nat) (f : LineMeta → LineMeta) : (s.modLine l f).pkgNo = s.pkgNo := rfl
@[simp] theorem State.modLine_draws (s : State) (l : Nat) (f : LineMeta → LineMeta) : (s.modLine l f).draws = s.draws := rfl
@[simp] theorem State.modLine_arrays (s : State) (l : Nat) (f : LineMeta → LineMeta) : (s.modLine l f).arrays = s.arrays := rfl
@[simp] theorem State.modLine_agenda (s : State) (l : Nat) (f : LineMeta → LineMeta) : (s.modLine l f).agenda = s.agenda := rfl
@[simp] theorem State.modLine_urgent (s : State) (l : Nat) (f : LineMeta → LineMeta) : (s.modLine l f).urgent = s.urgent := rfl
@[simp] theorem State.modLine_inputs (s : State) (l : Nat) (f : LineMeta → LineMeta) : (s.modLine l f).inputs = s.inputs := rfl
@[simp] theorem State.modLine_outbox (s : State) (l : Nat) (f : LineMeta → LineMeta) : (s.modLine l f).outbox = s.outbox := rfl
@[simp] theorem State.modLine_rings (s : State) (l : Nat) (f : LineMeta → LineMeta) : (s.modLine l f).rings = s.rings := rfl
@[simp] theorem State.modLine_teams (s : State) (l : Nat) (f : LineMeta → LineMeta) : (s.modLine l f).teams = s.teams := rfl
@[simp] theorem State.modLine_jobs (s : State) (l : Nat) (f : LineMeta → LineMeta) : (s.modLine l f).jobs = s.jobs := rfl
@[simp] theorem State.modLine_queues (s : State) (l : Nat) (f : LineMeta → LineMeta) : (s.modLine l f).queues = s.queues := rfl
@[simp] theorem State.modLine_funcs (s : State) (l : Nat) (f : LineMeta → LineMeta) : (s.modLine l f).funcs = s.funcs := rfl
@[simp] theorem State.modLine_images (s : State) (l : Nat) (f : LineMeta → LineMeta) : (s.modLine l f).images = s.images := rfl
@[simp] theorem State.modLine_segs (s : State) (l : Nat) (f : LineMeta → LineMeta) : (s.modLine l f).segs = s.segs := rfl
@[simp] theorem State.modLine_folds (s : State) (l : Nat) (f : LineMeta → LineMeta) : (s.modLine l f).folds = s.folds := rfl
@[simp] theorem State.modLine_anns (s : State) (l : Nat) (f : LineMeta → LineMeta) : (s.modLine l f).anns = s.anns := rfl
@[simp] theorem State.modLine_winNo (s : State) (l : Nat) (f : LineMeta → LineMeta) : (s.modLine l f).winNo = s.winNo := rfl
@[simp] theorem State.modLine_watchTab (s : State) (l : Nat) (f : LineMeta → LineMeta) : (s.modLine l f).watchTab = s.watchTab := rfl
@[simp] theorem State.modLine_barriers (s : State) (l : Nat) (f : LineMeta → LineMeta) : (s.modLine l f).barriers = s.barriers := rfl
@[simp] theorem State.modLine_groups (s : State) (l : Nat) (f : LineMeta → LineMeta) : (s.modLine l f).groups = s.groups := rfl
@[simp] theorem State.modLine_ports (s : State) (l : Nat) (f : LineMeta → LineMeta) : (s.modLine l f).ports = s.ports := rfl
@[simp] theorem State.modLine_part (s : State) (l : Nat) (f : LineMeta → LineMeta) : (s.modLine l f).part = s.part := rfl
@[simp] theorem State.modLine_asks (s : State) (l : Nat) (f : LineMeta → LineMeta) : (s.modLine l f).asks = s.asks := rfl
@[simp] theorem State.modLine_walks (s : State) (l : Nat) (f : LineMeta → LineMeta) : (s.modLine l f).walks = s.walks := rfl
@[simp] theorem State.modLine_pw (s : State) (l : Nat) (f : LineMeta → LineMeta) : (s.modLine l f).pw = s.pw := rfl
@[simp] theorem State.modLine_redirects (s : State) (l : Nat) (f : LineMeta → LineMeta) : (s.modLine l f).redirects = s.redirects := rfl
@[simp] theorem State.modLine_errSeq (s : State) (l : Nat) (f : LineMeta → LineMeta) : (s.modLine l f).errSeq = s.errSeq := rfl

/-! Accessors after an update. -/

@[simp] theorem State.modArr_arr_self (s : State) (a : ArrId) (f : Arr → Arr) : (s.modArr a f).arr a = f (s.arr a) := by
  simp [State.modArr, State.arr]

theorem State.modArr_arr_ne (s : State) (a b : ArrId) (f : Arr → Arr) (h : b ≠ a) :
    (s.modArr a f).arr b = s.arr b := by
  have h' : a.val ≠ b.val := fun e => h (Fin.ext e.symm)
  simp [State.modArr, State.arr, h']

@[simp] theorem Arr.modCtx_ctx_self (x : Arr) (c : CtxId) (f : Ctx → Ctx) : (x.modCtx c f).ctx c = f (x.ctx c) := by
  simp [Arr.modCtx, Arr.ctx]

theorem Arr.modCtx_ctx_ne (x : Arr) (c d : CtxId) (f : Ctx → Ctx) (h : d ≠ c) : (x.modCtx c f).ctx d = x.ctx d := by
  have h' : c.val ≠ d.val := fun e => h (Fin.ext e.symm)
  simp [Arr.modCtx, Arr.ctx, h']

@[simp] theorem State.modCtx_ctxOf_self (s : State) (a : ArrId) (c : CtxId) (f : Ctx → Ctx) :
    (s.modCtx a c f).ctxOf a c = f (s.ctxOf a c) := by
  simp [State.modCtx, State.ctxOf]

theorem State.modCtx_ctxOf_ne (s : State) (a b : ArrId) (c d : CtxId) (f : Ctx → Ctx) (h : ¬(b = a ∧ d = c)) :
    (s.modCtx a c f).ctxOf b d = s.ctxOf b d := by
  by_cases hb : b = a
  · subst hb
    simpa [State.modCtx, State.ctxOf] using Arr.modCtx_ctx_ne _ _ _ f fun e => h ⟨rfl, e⟩
  · simp [State.modCtx, State.ctxOf, State.modArr_arr_ne _ _ _ _ hb]

@[simp] theorem State.modMe_me (s : State) (f : Ctx → Ctx) : (s.modMe f).me = f s.me := by
  simp [State.modMe, State.me]

@[simp] theorem State.soon_arr (s : State) (i : Instr) (a : ArrId) : (s.soon i).arr a = s.arr a := rfl
@[simp] theorem State.atAc_arr (s : State) (t : Nat) (i : Instr) (a : ArrId) : (s.atAc t i).arr a = s.arr a := rfl
@[simp] theorem State.atEnd_arr (s : State) (t : Nat) (i : Instr) (a : ArrId) : (s.atEnd t i).arr a = s.arr a := rfl
@[simp] theorem State.soon_ctxOf (s : State) (i : Instr) (a : ArrId) (c : CtxId) :
    (s.soon i).ctxOf a c = s.ctxOf a c := rfl
@[simp] theorem State.atAc_ctxOf (s : State) (t : Nat) (i : Instr) (a : ArrId) (c : CtxId) :
    (s.atAc t i).ctxOf a c = s.ctxOf a c := rfl
@[simp] theorem State.atEnd_ctxOf (s : State) (t : Nat) (i : Instr) (a : ArrId) (c : CtxId) :
    (s.atEnd t i).ctxOf a c = s.ctxOf a c := rfl

@[simp] theorem State.soon_rest (s : State) (i : Instr) : (s.soon i).rest = s.rest := rfl
@[simp] theorem State.atAc_rest (s : State) (t : Nat) (i : Instr) : (s.atAc t i).rest = s.rest := rfl
@[simp] theorem State.atEnd_rest (s : State) (t : Nat) (i : Instr) : (s.atEnd t i).rest = s.rest := rfl
@[simp] theorem State.modArr_rest (s : State) (a : ArrId) (f : Arr → Arr) : (s.modArr a f).rest = s.rest := rfl
@[simp] theorem State.modCtx_rest (s : State) (a : ArrId) (c : CtxId) (f : Ctx → Ctx) :
    (s.modCtx a c f).rest = s.rest := rfl
@[simp] theorem State.modMe_rest (s : State) (f : Ctx → Ctx) : (s.modMe f).rest = s.rest := rfl

end Sys2Proof.Machine
end

