-- ==== Sys2Proof/Laws/Ops.lean ====
section
/-! SUPPORT. What the shared operations of a slot op can do: the end of a bundle, `settle`, `retire`, `keep`, `faultSlot`
and `gate`, each said once. -/

namespace Sys2Proof.Machine

/-- `t` differs from `s` only in leases, in events that follow, and in what the sequencer moves in context `c` of `a`. -/
def OnlyMoves (a : ArrId) (c : CtxId) (s t : State) : Prop :=
  t.rest = s.rest ∧ (∀ b d, ¬(b = a ∧ d = c) → t.ctxOf b d = s.ctxOf b d) ∧
  (∀ b, (t.arr b).lasting = (s.arr b).lasting) ∧
  (t.ctxOf a c).lasting = (s.ctxOf a c).lasting ∧ (t.ctxOf a c).residue = (s.ctxOf a c).residue ∧
  (t.ctxOf a c).faults = (s.ctxOf a c).faults

theorem OnlyMoves.rfl' {a : ArrId} {c : CtxId} {s : State} : OnlyMoves a c s s :=
  ⟨rfl, fun _ _ _ => rfl, fun _ => rfl, rfl, rfl, rfl⟩

theorem OnlyMoves.trans {a : ArrId} {c : CtxId} {s t u : State} (h : OnlyMoves a c s t) (k : OnlyMoves a c t u) :
    OnlyMoves a c s u :=
  ⟨k.1.trans h.1, fun b d n => (k.2.1 b d n).trans (h.2.1 b d n), fun b => (k.2.2.1 b).trans (h.2.2.1 b),
    k.2.2.2.1.trans h.2.2.2.1, k.2.2.2.2.1.trans h.2.2.2.2.1, k.2.2.2.2.2.trans h.2.2.2.2.2⟩

theorem OnlyMoves.soon {a : ArrId} {c : CtxId} {s : State} (i : Instr) : OnlyMoves a c s (s.soon i) :=
  ⟨rfl, fun _ _ _ => rfl, fun _ => rfl, rfl, rfl, rfl⟩

/-- A change of the lease or of the count of bundles of an array. -/
theorem OnlyMoves.lease {a : ArrId} {c : CtxId} (s : State) (b : ArrId) (f : Arr → Arr)
    (hc : ∀ x : Arr, (f x).ctxs = x.ctxs) (hl : ∀ x : Arr, (f x).lasting = x.lasting) :
    OnlyMoves a c s (s.modArr b f) := by
  have hx : ∀ e d, (s.modArr b f).ctxOf e d = s.ctxOf e d := by
    intro e d
    by_cases h : e = b
    · subst h; simp [State.ctxOf, Arr.ctx, hc]
    · simp [State.ctxOf, State.modArr_arr_ne _ _ _ _ h]
  refine ⟨rfl, fun e d _ => hx e d, fun e => ?_, ?_, ?_, ?_⟩
  · by_cases h : e = b
    · subst h; simp [hl]
    · simp [State.modArr_arr_ne _ _ _ _ h]
  all_goals rw [hx]

theorem State.grant_moves {a : ArrId} {c : CtxId} (s : State) (b : ArrId) (d : CtxId) :
    OnlyMoves a c s (s.grant b d) := by
  unfold State.grant
  exact OnlyMoves.lease s b _ (fun _ => rfl) (fun _ => rfl)

theorem State.dropLease_moves {a : ArrId} {c : CtxId} (s : State) (b : ArrId) :
    OnlyMoves a c s (s.dropLease b) := by
  unfold State.dropLease
  split
  · exact OnlyMoves.rfl'
  · split
    · exact State.grant_moves _ _ _
    · exact OnlyMoves.lease s b _ (fun _ => rfl) (fun _ => rfl)

/-- A change of one context that keeps its lasting part, residue and faults. -/
theorem OnlyMoves.ctx {a : ArrId} {c : CtxId} (s : State) (f : Ctx → Ctx)
    (hl : ∀ x : Ctx, (f x).lasting = x.lasting) (hr : ∀ x : Ctx, (f x).residue = x.residue)
    (hf : ∀ x : Ctx, (f x).faults = x.faults) : OnlyMoves a c s (s.modCtx a c f) := by
  refine ⟨rfl, fun b d h => State.modCtx_ctxOf_ne _ _ _ _ _ _ h, fun b => ?_, ?_, ?_, ?_⟩
  · by_cases h : b = a
    · subst h; simp [State.modCtx]; rfl
    · simp [State.modCtx, State.modArr_arr_ne _ _ _ _ h]
  all_goals simp [hl, hr, hf]

/-- The first change that a bundle's end makes: the context's UNLEASE is taken up, the counts of the array go on. -/
theorem State.endBundle_first (s : State) (a : ArrId) (c : CtxId) (held : Bool) :
    (s.modArr a fun x => { x.modCtx c (fun y : Ctx => { y with drops := false }) with
      streak := x.streak + 1, remain := if held then x.remain - 1 else x.remain }) =
    (s.modCtx a c fun y => { y with drops := false }).modArr a fun x =>
      { x with streak := x.streak + 1, remain := if held then x.remain - 1 else x.remain } := by
  simp [State.modCtx, State.modArr, Arr.modCtx]

theorem State.endBundle_moves (s : State) (a : ArrId) (c : CtxId) : OnlyMoves a c s (s.endBundle a c) := by
  unfold State.endBundle
  dsimp only
  rw [State.endBundle_first]
  have h1 : OnlyMoves a c s ((s.modCtx a c fun y => { y with drops := false }).modArr a fun x => { x with
      streak := x.streak + 1, remain := if (s.arr a).holder == some c then x.remain - 1 else x.remain }) := by
    refine OnlyMoves.trans (t := s.modCtx a c fun y => { y with drops := false }) ?_ ?_
    · exact OnlyMoves.ctx s _ (fun _ => rfl) (fun _ => rfl) (fun _ => rfl)
    · exact OnlyMoves.lease _ a _ (fun _ => rfl) (fun _ => rfl)
  generalize (s.modCtx a c fun y => { y with drops := false }).modArr a (fun x => { x with
      streak := x.streak + 1, remain := if (s.arr a).holder == some c then x.remain - 1 else x.remain }) = s1 at h1 ⊢
  have h2 : ∀ (b : Bool), OnlyMoves a c s (if b then s1.dropLease a else s1) := by
    rintro (_ | _)
    · exact h1
    · exact h1.trans (State.dropLease_moves _ _)
  generalize hs2 : (if ((s.arr a).holder == some c && (s.ctxOf a c).drops) = true then s1.dropLease a else s1) = s2
  have k2 : OnlyMoves a c s s2 := hs2 ▸ h2 _
  have h3 : ∀ (b : Bool), OnlyMoves a c s (if b then s2.soon (.leaseQuantumEnd a) else s2) := by
    rintro (_ | _)
    · exact k2
    · exact k2.trans (OnlyMoves.soon _)
  split
  · exact (h3 _).trans (OnlyMoves.soon _)
  · exact h3 _

theorem Ctx.close_lasting (c : Ctx) (t : Nat) : (c.close t).lasting = c.lasting := by
  unfold Ctx.close
  split
  · rfl
  · dsimp only; split <;> rfl

theorem Ctx.close_residue (c : Ctx) (t : Nat) : (c.close t).residue = c.residue := by
  unfold Ctx.close
  split
  · rfl
  · dsimp only; split <;> rfl

theorem Ctx.close_faults (c : Ctx) (t : Nat) : (c.close t).faults = c.faults := by
  unfold Ctx.close
  split
  · rfl
  · dsimp only; split <;> rfl

/-- What follows a slot op moves only the sequencer and the lease. -/
theorem State.settleAt_moves (s : State) (a : ArrId) (c : CtxId) : OnlyMoves a c s (s.settleAt a c) := by
  unfold State.settleAt
  dsimp only
  split
  · exact OnlyMoves.rfl'
  split
  · exact OnlyMoves.soon _
  split
  · exact OnlyMoves.soon _
  split
  · have h1 : OnlyMoves a c s ((s.modCtx a c (·.close s.now)).endBundle a c) :=
      (OnlyMoves.ctx s _ (fun x => x.close_lasting _) (fun x => x.close_residue _) (fun x => x.close_faults _)).trans
        (State.endBundle_moves _ _ _)
    generalize (s.modCtx a c (·.close s.now)).endBundle a c = s1 at h1 ⊢
    have h2 : OnlyMoves a c s (if (s.ctxOf a c).atLoopEnd then s1.soon (.loopBackEdge a c) else s1) := by
      split
      · exact h1.trans (OnlyMoves.soon _)
      · exact h1
    generalize (if (s.ctxOf a c).atLoopEnd then s1.soon (.loopBackEdge a c) else s1) = s2 at h2 ⊢
    split
    · exact h2.trans (OnlyMoves.soon _)
    split
    · exact h2.trans (OnlyMoves.soon _)
    · exact h2
  · exact OnlyMoves.rfl'

theorem State.mem_of_rest {s t : State} (h : t.rest = s.rest) : t.mem = s.mem := by
  have e := congrArg State.mem h
  exact e

theorem State.act_of_rest {s t : State} (h : t.rest = s.rest) : t.act = s.act := by
  have e := congrArg State.act h
  exact e

theorem Ctx.g_of_lasting {c d : Ctx} (h : c.lasting = d.lasting) : c.g = d.g := by
  have e := congrArg Ctx.g h
  exact e

theorem Ctx.delayed_of_lasting {c d : Ctx} (h : c.lasting = d.lasting) : c.delayed = d.delayed := by
  have e := congrArg Ctx.delayed h
  exact e

/-- Nothing outside the acting context moves, and memory stands. -/
theorem OnlyMoves.beside {s t : State} (h : OnlyMoves s.act.arr s.act.ctx s t) : Beside s t :=
  ⟨fun p => by rw [State.mem_of_rest h.1], h.1, h.2.1, h.2.2.1⟩

theorem Beside.trans {s t u : State} (h : Beside s t) (k : Beside t u) : Beside s u := by
  have ha : t.act = s.act := State.act_of_rest h.2.1
  refine ⟨fun p => (k.1 p).trans (h.1 p), k.2.1.trans h.2.1, fun a c n => ?_, fun a => ?_⟩
  · exact (k.2.2.1 a c (by rw [ha]; exact n)).trans (h.2.2.1 a c n)
  · exact (k.2.2.2 a).trans (h.2.2.2 a)

theorem Beside.act_eq {s t : State} (h : Beside s t) : t.act = s.act := State.act_of_rest h.2.1

/-- A change of the acting context is beside everything else. -/
theorem State.modMe_beside (s : State) (f : Ctx → Ctx) : Beside s (s.modMe f) := by
  refine ⟨fun _ => rfl, rfl, fun a c h => State.modCtx_ctxOf_ne _ _ _ _ _ _ h, fun b => ?_⟩
  by_cases h : b = s.act.arr
  · subst h; simp [State.modMe, State.modCtx]; rfl
  · simp [State.modMe, State.modCtx, State.modArr_arr_ne _ _ _ _ h]

/-- `settle` after a change of the acting context. -/
theorem State.settle_modMe (s : State) (f : Ctx → Ctx) :
    Beside s (s.modMe f).settle ∧ (s.modMe f).settle.me.lasting = (f s.me).lasting ∧
      (s.modMe f).settle.me.residue = (f s.me).residue ∧ (s.modMe f).settle.me.faults = (f s.me).faults := by
  have h := State.settleAt_moves (s.modMe f) (s.modMe f).act.arr (s.modMe f).act.ctx
  have hb := (State.modMe_beside s f).trans h.beside
  have e : (s.modMe f).settle.me = (s.modMe f).settle.ctxOf (s.modMe f).act.arr (s.modMe f).act.ctx := by
    exact congrArg (fun k : Act => (s.modMe f).settle.ctxOf k.arr k.ctx) hb.act_eq
  have g : (s.modMe f).ctxOf (s.modMe f).act.arr (s.modMe f).act.ctx = f s.me := State.modMe_me s f
  refine ⟨hb, ?_, ?_, ?_⟩
  · rw [e, ← g]; exact h.2.2.2.1
  · rw [e, ← g]; exact h.2.2.2.2.1
  · rw [e, ← g]; exact h.2.2.2.2.2

theorem State.modArr_lease_ctxOf (s : State) (b : ArrId) (f : Arr → Arr) (hc : ∀ x : Arr, (f x).ctxs = x.ctxs)
    (e : ArrId) (d : CtxId) : (s.modArr b f).ctxOf e d = s.ctxOf e d := by
  by_cases h : e = b
  · subst h; simp [State.ctxOf, Arr.ctx, hc]
  · simp [State.ctxOf, State.modArr_arr_ne _ _ _ _ h]

theorem State.grant_ctxOf (s : State) (b : ArrId) (k : CtxId) (e : ArrId) (d : CtxId) :
    (s.grant b k).ctxOf e d = s.ctxOf e d := by
  unfold State.grant
  exact State.modArr_lease_ctxOf s b _ (by intro; rfl) e d

theorem State.dropLease_ctxOf (s : State) (b e : ArrId) (d : CtxId) : (s.dropLease b).ctxOf e d = s.ctxOf e d := by
  unfold State.dropLease
  split
  · rfl
  · split
    · exact State.grant_ctxOf _ _ _ _ _
    · exact State.modArr_lease_ctxOf s b _ (by intro; rfl) e d

theorem State.endBundle_ctxOf (s : State) (a : ArrId) (c : CtxId) :
    (s.endBundle a c).ctxOf a c = { s.ctxOf a c with drops := false } := by
  unfold State.endBundle
  dsimp only
  rw [State.endBundle_first]
  generalize hs1 : (s.modCtx a c fun y => { y with drops := false }).modArr a (fun x => { x with
      streak := x.streak + 1, remain := if (s.arr a).holder == some c then x.remain - 1 else x.remain }) = s1
  have h1 : s1.ctxOf a c = { s.ctxOf a c with drops := false } := by
    rw [← hs1, State.modArr_lease_ctxOf _ a _ (by intro; rfl)]
    simp
  have h2 : (s1.dropLease a).ctxOf a c = { s.ctxOf a c with drops := false } := by
    rw [State.dropLease_ctxOf, h1]
  repeat' split
  all_goals simp only [State.soon_ctxOf, h1, h2]

/-- The context after `settle`: as it was, or closed where no slot is left. -/
theorem State.settleAt_ctx (s : State) (a : ArrId) (c : CtxId) :
    (s.settleAt a c).ctxOf a c = s.ctxOf a c ∨
      ((s.ctxOf a c).residue = [] ∧ (s.settleAt a c).ctxOf a c = { (s.ctxOf a c).close s.now with drops := false }) := by
  unfold State.settleAt
  dsimp only
  split
  · exact .inl rfl
  split
  · exact .inl rfl
  split
  · exact .inl rfl
  split
  · rename_i h
    refine .inr ⟨by simpa using h, ?_⟩
    repeat' split
    all_goals simp [State.endBundle_ctxOf]
  · exact .inl rfl

@[simp] theorem Ctx.dropSlot_lasting (c : Ctx) (k : Fin 4) : (c.dropSlot k).lasting = c.lasting := rfl
@[simp] theorem Ctx.passSlot_lasting (c : Ctx) (k : Fin 4) : (c.passSlot k).lasting = c.lasting := rfl
@[simp] theorem Ctx.faultAt_lasting (c : Ctx) (k : Fin 4) (n : Nat) : (c.faultAt k n).lasting = c.lasting := rfl

/-- All that an op which issues can do, beside what `f` does to its context. -/
theorem State.retire_spec (s : State) (f : Ctx → Ctx) (hf : (f s.me).residue = s.me.residue) :
    Beside s (s.retire f) ∧ Left s (s.retire f) ∧ (s.retire f).me.lasting = (f s.me).lasting := by
  have h := State.settle_modMe s fun c => (f c).dropSlot s.act.slot
  refine ⟨h.1, ?_, h.2.1.trans (by simp)⟩
  show (s.retire f).me.residue = _
  rw [show (s.retire f).me.residue = _ from h.2.2.1, ← hf]
  rfl

/-- The PC after an op which issues: where no branch is pending the bundle's end moves on by one or leaves the next bundle
to a loop; a pending branch is taken. -/
theorem State.retire_pc (s : State) (f : Ctx → Ctx) :
    ((s.retire f).me.pc = (f s.me).pc ∧ (s.retire f).me.branch = (f s.me).branch) ∨
      ((s.retire f).me.residue = [] ∧ (s.retire f).me.branch = none ∧
        match (f s.me).branch with
        | some b => (s.retire f).me.pc = b.1
        | none => (s.retire f).me.pc = (f s.me).pc ∨ (s.retire f).me.pc = (f s.me).pc + 1) := by
  have hb := (State.settle_modMe s fun c => (f c).dropSlot s.act.slot).1
  have e : (s.retire f).me = (s.retire f).ctxOf s.act.arr s.act.ctx :=
    congrArg (fun k : Act => (s.retire f).ctxOf k.arr k.ctx) hb.act_eq
  have g : (s.modMe fun c => (f c).dropSlot s.act.slot).ctxOf s.act.arr s.act.ctx = (f s.me).dropSlot s.act.slot :=
    State.modMe_me s _
  have h := State.settleAt_ctx (s.modMe fun c => (f c).dropSlot s.act.slot) s.act.arr s.act.ctx
  rw [g] at h
  rw [e]
  change (s.retire f).ctxOf s.act.arr s.act.ctx = _ ∨ _ ∧ (s.retire f).ctxOf s.act.arr s.act.ctx = _ at h
  rcases h with h | ⟨hr, h⟩
  · rw [h]; exact .inl ⟨rfl, rfl⟩
  · rw [h]
    refine .inr ⟨(Ctx.close_residue _ _).trans hr, ?_, ?_⟩
    · unfold Ctx.close; split
      · rfl
      · dsimp only; split <;> rfl
    · unfold Ctx.close
      cases hb' : (f s.me).branch with
      | some b => simp [Ctx.dropSlot, hb']
      | none =>
        simp only [Ctx.dropSlot, hb']
        split
        · exact .inl rfl
        · exact .inr rfl

theorem State.retire_issues (s : State) (f : Ctx → Ctx) (hf : (f s.me).residue = s.me.residue) :
    Issues s (.next (s.retire f)) (f s.me) := by
  obtain ⟨⟨hm, hr, hc, ha⟩, hl, hx⟩ := State.retire_spec s f hf
  exact ⟨_, rfl, hm, hr, hc, fun a _ => ha a, ha _, hl, hx, trivial⟩

/-- An op that sets a pending branch goes to its target. -/
theorem State.retire_branches (s : State) (f : Ctx → Ctx) (tgt : Nat)
    (hf : (f s.me).residue = s.me.residue) (hl : (f s.me).lasting = s.me.lasting) 
    (hb : (f s.me).branch = some (tgt, 2)) : BranchesTo s (.next (s.retire f)) tgt := by
  obtain ⟨h1,h2,h3⟩ := State.retire_spec s f hf
  refine ⟨_, rfl, h1, h2, h3.trans hl, ?_⟩
  rcases State.retire_pc s f with ⟨_, h⟩ | ⟨h, _, k⟩
  · exact .inl (h.trans hb)
  · rw [hb] at k; exact .inr ⟨h, k⟩

/-- An op that changes nothing of its context falls through. -/
theorem State.retire_falls (s : State) (f : Ctx → Ctx) (hf : f s.me = s.me) : FallsThrough s (.next (s.retire f)) := by
  obtain ⟨h1,h2,h3⟩ := State.retire_spec s f (by rw [hf])
  refine ⟨_, rfl, h1, h2, by rw [h3, hf], fun hn => ?_⟩
  rcases State.retire_pc s f with ⟨k, h⟩ | ⟨h, k', k⟩
  · rw [hf] at h k; exact ⟨h.trans hn, .inl k⟩
  · rw [hf, hn] at k; refine ⟨k', ?_⟩
    rcases k with k | k
    · exact .inl k
    · exact .inr ⟨h, k⟩

/-- An op that first changes its array, or what is to come, and then issues. -/
theorem State.retire_issuesIn (s u : State) (f : Ctx → Ctx) (x : Arr) (p : State → Prop) (hr : u.rest = s.rest) (hm : u.mem = s.mem)
   (hc : ∀ a d, u.ctxOf a d = s.ctxOf a d) (ha : ∀ a, a ≠ s.act.arr → (u.arr a).lasting = (s.arr a).lasting)
   (hx : (u.arr s.act.arr).lasting = x.lasting) (hf : (f u.me).residue = u.me.residue) (hp : p (u.retire f)) :
   IssuesIn s (.next (u.retire f)) x (f s.me) p := by
  have hact : u.act = s.act := State.act_of_rest hr
  have hme : u.me = s.me := by unfold State.me; rw [hact, hc]
  obtain ⟨⟨h0,h1,h2,h3⟩,h4,h5⟩ := State.retire_spec u f hf
  refine ⟨_, rfl, fun q => by rw [h0 q, hm], h1.trans hr, fun a d n => ?_, fun a n => ?_, ?_, ?_, ?_, hp⟩
  · rw [h2 a d (by rw [hact]; exact n), hc]
  · rw [h3, ha a n]
  · rw [h3, hx]
  · unfold Left at *; rw [h4, hme, hact]
  · rw [h5, hme]

/-- All that an op which waits can do. -/
theorem State.keep_waits (s : State) : Waits s (.next s.keep) := by
  have h := State.settle_modMe s (·.passSlot s.act.slot)
  exact ⟨_, rfl, h.1, h.2.2.1, h.2.1⟩

/-- All that an op which faults can do. -/
theorem State.faultSlot_faults (s : State) (code : Nat) : Faults s (.next (s.faultSlot code)) code := by
  have h := State.settle_modMe s (·.faultAt s.act.slot code)
  refine ⟨_, rfl, h.1, h.2.2.1, h.2.1, ?_⟩
  rw [show (s.faultSlot code).me.faults = _ from h.2.2.2]
  simp [Ctx.faultAt, Ctx.passSlot]

/-- Where its sources have arrived and are no hazard, the gate is open. -/
theorem State.gate_open (s : State) (srcs : List Reg) (dst : Reg) (k : Out) (h : s.Clear srcs dst) :
    s.gate srcs dst k = k := by
  simp [State.gate, h.1, h.2]

/-- Where a source or the destination still awaits a value, the op waits. -/
theorem State.gate_waits (s : State) (srcs : List Reg) (dst : Reg) (k : Out) (h : s.me.owes srcs dst = true) :
    s.gate srcs dst k = .next s.keep := by
  simp [State.gate, h]

/-- A source read too early with CHK set is a fault. -/
theorem State.gate_faults (s : State) (srcs : List Reg) (dst : Reg) (k : Out) (h : s.me.owes srcs dst = false)
    (hz : s.me.hazards srcs = true) : s.gate srcs dst k = .next (s.faultSlot fHazard) := by
  simp [State.gate, h, hz]

/-- A register after a write. -/
theorem Ctx.wr_gv (c : Ctx) (t : Nat) (gd r : Reg) (v : Word) :
    (c.wr t gd v).gv r = if r = gd ∧ r ≠ 0 then v else c.gv r := by
  unfold Ctx.gv
  by_cases h0 : r = 0
  · rw [if_pos h0, if_neg fun h => h.2 h0, if_pos h0]
  · rw [if_neg h0, if_neg h0]
    by_cases hr : r = gd
    · subst hr
      rw [if_pos ⟨rfl, h0⟩]
      unfold Ctx.wr
      rw [if_neg h0]
      simp [Reg.idx]
    · rw [if_neg fun h => hr h.1]
      unfold Ctx.wr
      split
      · rfl
      · have hne : gd.toNat ≠ r.toNat := fun e => hr (BitVec.eq_of_toNat_eq e.symm)
        simp [Reg.idx, hne]

theorem Ctx.gv_lasting (c : Ctx) (r : Reg) : c.lasting.gv r = c.gv r := rfl

theorem Ctx.wr_residue (c : Ctx) (t : Nat) (gd : Reg) (v : Word) : (c.wr t gd v).residue = c.residue := by
  unfold Ctx.wr; split <;> rfl

theorem Ctx.wr_delayed (c : Ctx) (t : Nat) (gd : Reg) (v : Word) :
    ((c.wr t gd v).delayed.filter fun d => d.target != .g gd) = (c.delayed.filter fun d => d.target != .g gd) := by
  unfold Ctx.wr
  split
  · rfl
  · rw [List.filter_filter]
    refine List.filter_congr fun d _ => ?_
    by_cases h : d.target = .g gd <;> simp [h]

theorem Ctx.wr_lasting (c : Ctx) (t : Nat) (gd : Reg) (v : Word) :
    (c.wr t gd v).lasting = { c with g := (c.wr t gd v).g, delayed := (c.wr t gd v).delayed }.lasting := by
  unfold Ctx.wr; split <;> rfl

/-- An op over `alu` writes its register and nothing else. -/
theorem State.alu_writes (s : State) (srcs : List Reg) (gd : Reg) (f : Ctx → Word) (h : s.Clear srcs gd) :
    WritesReg s (s.alu srcs gd f) gd (f s.me) := by
  unfold State.alu
  rw [State.gate_open s srcs gd _ h]
  obtain ⟨hb, hl, hc⟩ := State.retire_spec s (fun c => c.wr s.now gd (f c)) (Ctx.wr_residue _ _ _ _)
  generalize s.retire (fun c => c.wr s.now gd (f c)) = t at *
  have hg : t.me.g = (s.me.wr s.now gd (f s.me)).g := Ctx.g_of_lasting hc
  have hd : t.me.delayed = (s.me.wr s.now gd (f s.me)).delayed := Ctx.delayed_of_lasting hc
  refine ⟨t, rfl, hb, hl, fun r => ?_, ?_, ?_⟩
  · rw [← Ctx.wr_gv s.me s.now gd r (f s.me)]
    unfold Ctx.gv; rw [hg]
  · rw [hd]; exact Ctx.wr_delayed _ _ _ _
  · rw [hc, hg, hd]; exact Ctx.wr_lasting _ _ _ _

end Sys2Proof.Machine
end

