-- ==== Sys2Proof/Tests/Slice0.lean ====
section
/-! SUPPORT. The model's own tests: words of the spec's worked examples and of its field tables, an ill-formed op for each check of
the seal engine, single steps on small states, and, for every obligation with hypotheses, a state and operands that meet
them. -/

namespace Sys2Proof.Tests

set_option Elab.async false

open Sys2Proof Sys2Proof.Machine

/-! Decoding: words of the spec's worked examples, bit fields as its tables of R184 to R193 give them. -/

theorem test_decode_s_words :
    decodeSlot 0 0x04642800 = .ok (.add 3 4 5) ∧ decodeSlot 0 0x054B6014 = .ok (.divu 10 11 12) ∧
    decodeSlot 0 0x08420040 = .ok (.addi 2 2 64) ∧ decodeSlot 0 0x24E0FFFF = .ok (.li 7 0xFFFF) ∧
    decodeSlot 0 0x4447FFFB = .ok (.bne 2 7 (-5)) ∧ decodeSlot 0 0x58030004 = .ok (.bfs 3 4) ∧
    decodeSlot 0 0x60DC0009 = .ok (.baf 6 3 true 9) ∧ decodeSlot 0 0x85228280 = .ok (.mloop 9 1 2 5) ∧
    decodeSlot 0 0xA9000240 = .ok (.selk 2 1 4) ∧ decodeSlot 0 0xD4C00008 = .ok (.rdsr 6 8) ∧
    decodeSlot 0 0xD8060018 = .ok (.wrsr 6 0x18) ∧ decodeSlot 0 0xC800000C = .ok (.node 12) ∧
    decodeSlot 0 0xE8000000 = .ok .endt := by
  and_intros <;> rfl

theorem test_decode_c_words :
    decodeSlot 1 0x9423C7CD = .ok (.vmacf 4 0x3C 0x3E 3 1) ∧ decodeSlot 1 0x2E201600 = .ok (.vcmplt 0x44 1 0x30 0 0) ∧
    decodeSlot 1 0x4C1805C4 = .ok (.vcvt 3 0 0x0B 2 1) ∧ decodeSlot 1 0xA3300080 = .ok (.mma 0 true true 3 0 1 false 0 0) ∧
    decodeSlot 1 0xA4807040 = .ok (.wld 8 7 2 0) := by
  and_intros <;> rfl

theorem test_decode_e_words :
    decodeSlot 2 0x04180000 = .ok (.wfeed 0 1 2 false) ∧ decodeSlot 2 0x08852000 = .ok (.dfeed 1 0 1 false true 2) ∧
    decodeSlot 2 0x0DA00400 = .ok (.wfeedg 3 2 0 false 1) ∧ decodeSlot 2 0x18320000 = .ok (.spull 3 true) ∧
    decodeSlot 2 0x29880002 = .ok (.fdset 3 4 2) ∧ decodeSlot 2 0x25400190 = .ok (.eadrain 2 true 0 3 16) ∧
    decodeSlot 2 0x34843000 = .ok (.etag true 2 3) ∧ decodeSlot 2 0x380E0005 = .ok (.etest 5 7) := by
  and_intros <;> rfl

theorem test_decode_m_words :
    decodeSlot 3 0x0CE3EFFE = .ok (.st 7 3 3 2 (-2)) ∧ decodeSlot 3 0x10A6A010 = .ok (.asld 5 6 2 2 0x10) ∧
    decodeSlot 3 0x1520F040 = .ok (.asst 9 0 3 3 0x40) ∧ decodeSlot 3 0x18020080 = .ok (.prf 2 0x80) ∧
    decodeSlot 3 0x088200C0 = .ok (.lds 4 2 0 1 4) ∧ decodeSlot 3 0x20000040 = .ok (.rel 4) ∧
    decodeSlot 3 0x24050040 = .ok (.acq 5 4) ∧ decodeSlot 3 0x28000060 = .ok .relsv ∧
    decodeSlot 3 0x30000030 = .ok (.fencesc 3) ∧ decodeSlot 3 0x34000000 = .ok .qsync ∧
    decodeSlot 3 0x38060000 = .ok (.vcinv 6) := by
  and_intros <;> rfl

theorem test_decode_m_atomics_and_copies :
    decodeSlot 3 0x40821BB0 = .ok (.aadd 4 2 3 1 3 3) ∧ decodeSlot 3 0x44053800 = .ok (.afadd 0 5 7 0 0) ∧
    decodeSlot 3 0x68C84800 = .ok (.acas 6 8 9 0 0 0) ∧ decodeSlot 3 0x70078002 = .ok (.mon 7 2 2) ∧
    decodeSlot 3 0x746C00C0 = .ok (.mwait 3 12 1 4) ∧ decodeSlot 3 0x80020180 = .ok (.tdesc 2 3) ∧
    decodeSlot 3 0x85442980 = .ok (.cpy 10 4 5 3) ∧ decodeSlot 3 0x8D643010 = .ok (.cpyg 11 4 6 0 true) := by
  and_intros <;> rfl

/-- The worked bundle of R178: a wait on F3, VMUL in the C slot and LD in the M slot. -/
theorem test_decode_bundle :
    decodeBundle 0x04828002000000000C100624F2300000 =
      .ok ⟨some ⟨false, some (false, 3), none, none, 0, none⟩, .nop, .vmul 2 0 0x31 1 0, .nop, .ld 4 2 2 0 2⟩ := rfl

/-- R177: an extension header whose target is the C slot; R178: a VADD beside it. -/
theorem test_decode_ext_header : readHeader 0xF9402000 = .ok ⟨false, none, none, none, 0, some (1, 0x402000)⟩ := rfl

/-- R177: target 0 is refused; R176: a wait spec that is not enabled is all zero. -/
theorem test_header_refused : readHeader 0xF8000001 = .error .hdr ∧ readHeader 0xF0100000 = .error .hdr := ⟨rfl, rfl⟩

/-- R184 to R196: unassigned opcodes and function codes, and fields that must be zero. -/
theorem test_decode_refused :
    decodeSlot 0 0x34000000 = .error .opc ∧ decodeSlot 0 0x04000018 = .error .fn ∧ decodeSlot 0 0x6C000001 = .error .resv ∧
    decodeSlot 2 0x0C000001 = .error .resv ∧ decodeSlot 3 0xC4000000 = .error .opc := by and_intros <;> rfl

/-! Well-formedness: one ill-formed op for each check (R196). -/

theorem test_wf_branch : (Instr.loop 1 0).refusals = [.branch] := by decide
theorem test_wf_mloop : (Instr.mloop 9 1 2 4).refusals = [.mloop] := by decide
theorem test_wf_sel : (Instr.selc 0 1).refusals = [.sel] ∧ (Instr.selk 1 3 0).refusals = [.sel] := by decide
theorem test_wf_opnd_system_register : (Instr.rdsr 1 0x06).refusals = [.opnd] := by decide
theorem test_wf_opnd_operand :
    (Instr.viadd 0x48 0 0 0).refusals = [.opnd] ∧ (Instr.viadd 0 0x49 0 0).refusals = [.opnd] ∧
    (Instr.vabs 0 0 5 0 0).refusals = [.opnd] := by decide
theorem test_wf_type : (Instr.vadd 0 0 0 0 3).refusals = [.type] := by decide
theorem test_wf_opnd_conversion : (Instr.vcvt 0 0 0x1D 0 0).refusals = [.opnd] ∧ (Instr.vcvt 0 0 0 2 0).refusals = [.opnd] := by decide
theorem test_wf_mmaf : (Instr.mma 0 false false 1 0 0 false 0 0).refusals = [.mmaf] ∧ (Instr.wld 9 0 0 0).refusals = [.mmaf] := by decide
theorem test_wf_tagmode : (Instr.wfeed 0 1 3 false).refusals = [.tagmode] ∧ (Instr.asld 1 2 0 3 0).refusals = [.tagmode] := by decide
theorem test_wf_opnd_capture : (Instr.spull 0 false).refusals = [.opnd] := by decide
theorem test_wf_scope : (Instr.aadd 1 2 3 0 0 1).refusals = [.scope] ∧ (Instr.bar 0 0).refusals = [.scope] := by decide
theorem test_wf_size : (Instr.aadd 1 2 3 2 0 0).refusals = [.size] ∧ (Instr.mon 1 1 0).refusals = [.size] := by decide

/-! Numbers and places: the spec's own worked values. -/

/-- R48, R52, R53: line 0x48D15A. -/
theorem test_line_places :
    homeSlice 0x48D15A = 89 ∧ homePlace 0x48D15A = (669, 6213) ∧ (rehome 669 6213).1 = 747 := by decide +kernel

/-- R161: MF8 to nearest. -/
theorem test_mf8_nearest :
    ((toMf8 none (fp32.value 0x40280000)).1 = 0x32 ∧ (toMf8 none (fp32.value 0x40380000)).1 = 0x33) ∧
    ((toMf8 none (fp32.value 0x40F80000)).1 = 0x3F ∧ (toMf8 none (fp32.value 0xC0F9999A)).1 = 0x98) ∧
    (toMf8 none (fp32.value 0x461C4000)).1 = 0x03 ∧ (toMf8 none (.inf false)).1 = 0x80 := by decide +kernel

/-- R165: two steps of the LFSR. -/
theorem test_lfsr_steps : lfsrStep 0x9E37799A = 0x3C6EF335 ∧ lfsrStep 0x3C6EF335 = 0x78DDE66A := by decide +kernel

/-- R158, IEEE 754: 1 + 2^-24 rounds to 1 to nearest even, 1 + 3 x 2^-24 rounds up. -/
theorem test_round_to_nearest_even :
    fp32.sum .rne 0x3F800000 0x33800000 = (0x3F800000, fNX) ∧ fp32.sum .rne 0x3F800000 0x34400000 = (0x3F800002, fNX) := by
  decide +kernel

/-! Single steps, on context 0 of array 0. Expected values are worked by hand from the rules named. -/

/-- The state after reset with context 0 of array 0 changed. -/
def inCtx (f : Ctx → Ctx) : State := State.reset.modCtx 0 0 f

/-- g2 and g3 as given. -/
def withG (x y : Word) : State := inCtx fun c => { c with g := (c.g.set 2 x).set 3 y }

/-- The state after the next step, which runs the op of a word in a slot. -/
def ran (s : State) (k : Fin 4) (w : BitVec 32) : State := match step (s.placeWord k w) with | .next t => t | _ => s

/-- The state after an instruction. -/
def did (i : Instr) (s : State) : State := match exec i s with | .next t => t | _ => s

/-- The context of the op after it. -/
def after (s : State) (k : Fin 4) (w : BitVec 32) : Ctx := (ran s k w).ctxOf 0 0

/-- g4 after an op on g2 and g3. -/
def g4 (x y : Word) (w : BitVec 32) : Word := (after (withG x y) 0 w).gv 4

-- R207
theorem test_add_wraps : g4 (BitVec.allOnes 64) 2 0x04821800 = 1 := by decide +kernel
theorem test_sub_wraps : g4 1 2 0x04821801 = BitVec.allOnes 64 := by decide +kernel
theorem test_shl_by_64_is_by_0 : g4 5 64 0x04821808 = 5 := by decide +kernel
theorem test_sra_keeps_the_sign : g4 (-8) 1 0x0482180A = -4 := by decide +kernel
theorem test_min_is_signed : g4 (-1) 1 0x0482180B = -1 ∧ g4 (-1) 1 0x0482180D = 1 := by decide +kernel
theorem test_slt_and_sltu : g4 (-1) 1 0x04821810 = 1 ∧ g4 (-1) 1 0x04821811 = 0 := by decide +kernel
theorem test_clz_of_zero : g4 0 0 0x04820012 = 64 ∧ g4 0xF0 0 0x04820013 = 4 := by decide +kernel
theorem test_g0_is_zero : (after (withG 1 1) 0 0x04021800).gv 0 = 0 := by decide +kernel
-- R206: a multiply is delivered two ac later
theorem test_mul_is_owed : (after (withG 6 7) 0 0x04821802).delayed.map (fun d => (d.due, d.value)) = [(2, 42)] := by decide +kernel
theorem test_mulh_signs :
    ((after (withG (-1) 1) 0 0x04821803).delayed.map (·.value) = [BitVec.allOnes 64]) ∧
    ((after (withG (-1) 1) 0 0x04821804).delayed.map (·.value) = [0]) := by decide +kernel
-- R208
theorem test_divs_rounds_to_zero : ((ran (withG (-7) 2) 0 0x04821815).arr 0).divRes = some (0, 4, -3) := by decide +kernel
theorem test_rems_has_the_dividends_sign : ((ran (withG (-7) 2) 0 0x04821817).arr 0).divRes = some (0, 4, -1) := by decide +kernel
theorem test_divu_by_zero : ((ran (withG 7 0) 0 0x04821814).arr 0).divRes = some (0, 4, BitVec.allOnes 64) := by decide +kernel
-- R209
theorem test_addi_sign_extends : g4 1 0 0x0882FFFF = 0 ∧ g4 (BitVec.allOnes 64) 0 0x0C82FFFF = 0xFFFF := by decide +kernel
theorem test_li : g4 0 0 0x24808000 = 0xFFFFFFFFFFFF8000 := by decide +kernel
-- R210: PC + off
theorem test_beq_taken : (after (withG 3 3) 0 0x40430005).branch = some (5, 2) ∨ (after (withG 3 3) 0 0x40430005).pc = 5 := by decide +kernel
theorem test_bne_not_taken : (after (withG 3 3) 0 0x44430005).branch = none := by decide +kernel
-- R212: CALL and RET
theorem test_call_pushes : (after State.reset 0 0x68000003).rets = [1] := by decide +kernel
theorem test_ret_of_an_empty_stack : (after State.reset 0 0x6C000000).faults = [(0, 0x19)] := by decide +kernel
-- R214, R217
theorem test_loop_enters : (after (withG 3 0) 0 0x80400004).loops = [⟨1, 4, 3⟩] := by decide +kernel
theorem test_mloop_of_no_trips :
    (let t := did (.mloopPresentation 0 0) (ran (withG 0 0) 0 0x84428280)
     (t.ctxOf 0 0).mloop = none ∧ (t.ctxOf 0 0).pc = 7) := by decide +kernel
-- R220, R221
theorem test_fset_is_owed : (after State.reset 0 0x90030000).delayed.map (·.target) = [.flag 3] ∨ (after State.reset 0 0x90030000).flag 3 = true := by
  decide +kernel
theorem test_selc : ((after (withG 0x80000001 0) 0 0xA1020000).sp[2]).cols = 0x80000001 := by decide +kernel
theorem test_selg_skew_3 : (after (withG 0 3) 0 0xAD021800).faults = [(0, 0x12)] := by decide +kernel
-- R227: TRAP ends the context at its bundle
theorem test_trap : (after State.reset 0 0xD0000007).faults = [(0, 0x1C)] := by decide +kernel
-- R230 to R234
theorem test_rdsr_status : (after (inCtx fun c => { c with rm := true, chain := 1 }) 0 0xD4800018).gv 4 = 0xA := by decide +kernel
theorem test_wrsr_of_a_read_only_register : (after (withG 5 0) 0 0xD8020008).bundles = (after (withG 5 0) 0 0).bundles := by decide +kernel
-- R139: the worked selector, COLS 0x80000001, ROWS 0xF, rotate right, origin 0: row 1 selects columns 1 and 0
theorem test_selector_rotates :
    let p : Sel := ⟨0x80000001, 0xF, 1, 0⟩
    ((List.range 32).filter (cellSelected p 1)) = [0, 1] ∧ ((List.range 32).filter (cellSelected p 4)) = [] := by decide +kernel
-- R246: a lane that cp disables keeps its old value
def lanesOf (a b d : CWord) (cp : BitVec 32) : CellIn :=
  { a := a, aSide := 0, b := b, bSide := 0, d := d, cp := cp, rm := false, lfsr := 0 }
theorem test_viadd_wraps_and_masks :
    (cellEval (.viadd 0 0 0 0) (lanesOf 0x00000005FFFFFFFF 0x0000000100000002 0 1)).data = 1 := by decide +kernel
-- R241: a compare writes whole lanes and sets cp and cf
theorem test_vicmplt :
    let r := cellEval (.vicmplt 0 0 0 0) (lanesOf 0xFFFFFFFF 0 0 1)
    r.data = 0xFFFFFFFF ∧ r.cp = some 1 ∧ r.cf = some true := by decide +kernel
-- R242: 1.5 + 2.25 in FP32
theorem test_vadd_fp32 : (cellEval (.vadd 0 0 0 0 0) (lanesOf 0x3FC00000 0x40100000 0 1)).data.toNat % 2 ^ 32 = 0x40700000 := by decide +kernel
-- R126, R279: no translation is enabled after reset, a misaligned load faults
theorem test_ld_asks_for_its_page : (after (withG 0x10008 0) 3 0x0482C000).faults = [(3, 1)] ∧ (after (withG 0x10008 0) 3 0x0482C000).pageWait = some 0x10008 := by
  decide +kernel
theorem test_ld_misaligned : (after (withG 0x10001 0) 3 0x0482C000).faults = [(3, 0x11)] := by decide +kernel
-- R287: a release enters the store queue
theorem test_rel_enters : (after State.reset 3 0x20000040).storeQ.map (·.op) = [.release] := by decide +kernel
-- R306: an uninitialised ring is a descriptor fault
theorem test_rcv_of_no_ring : (after State.reset 3 0xA4800000).faults = [(3, 0x12)] := by decide +kernel
-- R68: the first window closes at ac 64 and numbers the next
theorem test_window_close : (match exec .packageWindowClose State.reset with | .next t => (t.winNo, t.winEnd) | _ => (0, 0)) = (1, 128) := by
  decide +kernel
-- R363: a command for function 0 is refused elsewhere
theorem test_command_of_another_function :
    (match exec (.queueReset 1 0) State.reset with | .next t => getBytes (t.funcs[(1 : Fin 8)]).resp 4 2 | _ => []) = [4, 0] := by decide +kernel

/-! For every obligation with hypotheses, a state and operands that meet them, clause by clause. -/

/-- The state after reset with array 0 changed. -/
def inArr (f : Arr → Arr) : State := State.reset.modArr 0 f

/-- An op in the array. -/
def inWave (i : Instr) : COp :=
  { id := 1, ctx := 0, ins := i, sel := {}, rm := false, kc := none, issued := 0, west := none, push := none, capt := none, kat := 0,
    katRow := [], sample := [], cwOld := [], cwBad := [], slow := [], seg := 0, order := 0, rows := 32, done := 0, left := 33 }

/-- An op of a slot standing in the residue. -/
def slotOp (k : Fin 4) (i : Instr) (phase : Nat) : SlotOp := ⟨k, i, none, false, none, 0, 0, phase⟩

/-- g1 = 3, g2 = 5, all captured. -/
def caught : State := inCtx fun c => { c with cap := (c.cap.set 1 3).set 2 5 }

theorem witness_clear : caught.Clear [1, 2] 3 ∧ caught.Clear [31, 31] 31 ∧ caught.Clear [] 0 ∧ State.reset.Clear [0, 0, 0] 0 ∧ State.reset.Clear [0] 0 := by
  and_intros <;> decide +kernel

theorem witness_DecodeAndEncodeAgree :
    (Instr.add 31 0 1).slot = some 0 ∧ (Instr.add 31 0 1).wf = true ∧ (Instr.vadd 0x3B 0x48 0 7 2).slot = some 1 ∧
    (Instr.vadd 0x3B 0x48 0 7 2).wf = true ∧ (Instr.wfeed 7 7 2 true).slot = some 2 ∧ (Instr.wfeed 7 7 2 true).wf = true ∧
    (Instr.bar 15 5).slot = some 3 ∧ (Instr.bar 15 5).wf = true ∧ decodeSlot 3 0 = .ok .nop := by
  and_intros <;> rfl

/-- A machine about to fetch ADD g4, g2, g3. -/
def fetching : State := State.reset.placeWord 0 0x04821800

theorem witness_StepRunsDecoded_fetch :
    let x := fetching.ctxOf 0 0
    let u := (fetching.fetchAsk 0 0 0).2.fetchTraffic 0 0 [0]
    fetching.urgent = [] ∧ fetching.part = 0 ∧ fetching.pstate ≠ 2 ∧ fetching.dueNow = false ∧ fetching.pickInput [] fetching.inputs = none ∧
    (fetching.issueFrom ((List.finRange 32).take 0)).isNone = true ∧ (fetching.boundary 0).isNone = true ∧ fetching.leaseBlocked 0 = false ∧
    (fetching.arr 0).gated = false ∧ (fetching.arr 0).nextAc ≤ fetching.now ∧ (fetching.arr 0).running = 0 ∧ x.yields = false ∧
    x.run = .active ∧ x.nextAc ≤ fetching.now ∧ x.residue = [] ∧ x.todo = [] ∧ x.mloop = none ∧ x.drains = false ∧ x.pageWait = none ∧
    x.pc = 0 ∧ (fetching.fetchAsk 0 0 0).1 = none ∧ ((u.image? x.image).map fun m => (m.codePa, m.count, m.codeAt)) = some (fetchPa, 1, none) ∧
    (fetchPa / 65536, (u.ctxOf 0 0).sec, 0) ∈ u.sealed ∧ u.secureAt fetchPa = (u.ctxOf 0 0).sec ∧ (u.ctxOf 0 0).pc < 1 ∧
    valueAt u fetchPa 16 = 0x04821800 := by decide +kernel

/-- The same of an image that was sealed from a device virtual address: at the page given, with ATBR as given. -/
def fetchingAt (page : Nat) (ena : Bool) : State :=
  let at_ : TcEntry := ⟨0, false, 1, false, BitVec.ofNat 64 (2 + 8 + 64 + page * 2 ^ 16), true⟩
  { fetching.modArr 0 fun x => { x with tc := [at_] } with
    atbrEna := ena, images := fetching.images.map fun m : Image => { m with codeAt := some 0x10000 } }

theorem witness_StepRunsDecoded_refused :
    let refused := fun (s : State) => (s.fetchAsk 0 0 0).1
    refused (fetchingAt (fetchPa / 65536) true) = none ∧ refused (fetchingAt 0x21 true) = some (0x1B, 0x10000) ∧
    refused (fetchingAt (fetchPa / 65536) false) = some (0x01, 0x10000) ∧
    (fetchingAt (fetchPa / 65536) false).dueNow = false ∧ (0x1B : Nat) ≠ fWalking ∧ (0x1B : Nat) ≠ fNotPresent ∧
    (let s := { fetching with sealed := [] }
     let u := (s.fetchAsk 0 0 0).2.fetchTraffic 0 0 [0]
     (s.fetchAsk 0 0 0).1 = none ∧ s.dueNow = false ∧ ∀ e ∈ u.sealed, e.1 ≠ fetchPa / 65536) := by decide +kernel

theorem witness_StepRunsDecoded_words :
    decodeBundle 0x04821800 = .ok ⟨none, .add 4 2 3, .nop, .nop, .nop⟩ ∧
    decodeBundle 0x20000040000000000000000000000000 = .ok ⟨none, .nop, .nop, .nop, .rel 4⟩ ∧
    decodeBundle 0x00000000000000000C00000000000000 = .ok ⟨none, .nop, .vmul 0 0 0 0 0, .nop, .nop⟩ ∧
    decodeBundle 0x00000000380E00050000000000000000 = .ok ⟨none, .nop, .nop, .etest 5 7, .nop⟩ := ⟨rfl, rfl, rfl, rfl⟩

theorem witness_StepRunsDecoded_events :
    ({ State.reset with urgent := [Instr.heartbeatSend] }).urgent = [Instr.heartbeatSend] ∧
    (let s := { State.reset with cycle := 64 }
     s.urgent = [] ∧ s.pstate ≠ 2 ∧ s.agenda = [⟨128, .packageWindowClose⟩] ∧ 128 ≤ 2 * s.now) ∧
    (let s := { State.reset with agenda := [] }
     s.urgent = [] ∧ s.pstate ≠ 2 ∧ s.dueNow = false ∧ s.pickInput [] s.inputs = none ∧ (s.issueFrom (List.finRange 32)).isNone = true ∧
       s.bankFrom (List.finRange 32) = none ∧ s.enabled = [] ∧ s.agenda = []) ∧
    (let s := inCtx fun c => { c with run := .active, residue := [slotOp 0 (.add 4 2 3) 0], todo := [0] }
     s.urgent = [] ∧ (s.issueFrom ((List.finRange 32).take 0)).isNone = true ∧ (s.boundary 0).isNone = true ∧ (s.ctxOf 0 0).todo = [0]) ∧
    (let i := Instr.heartbeatReceive 7 1
     let s := { State.reset with agenda := [], inputs := [.event i] }
     s.dueNow = false ∧ s.pickInput [] s.inputs = some (.event i, []) ∧ fromOutside i = true) ∧
    ({ State.reset with pstate := 2 }).inputs = [] := by decide +kernel

theorem witness_EveryStepKeepsTheInvariant :
    Inv State.reset ∧ Inv fetching ∧ (match step fetching with | .next _ => true | _ => false) = true := by
  refine ⟨?_, ?_, ?_⟩
  · show Memory.wf State.reset.mem = true
    decide +kernel
  · show Memory.wf fetching.mem = true
    decide +kernel
  · decide +kernel

/-- An image with one constant. -/
def image : Image :=
  { id := 0, pa := fetchPa, len := 16, sec := false, entry := 3, codePa := fetchPa, count := 9, consts := [7], plan := {}, preload := [],
    nodes := [], tag := 0, measure := 0 }

theorem witness_ImageOps :
    let s := { caught with images := [image] }
    s.image? s.me.image = some image ∧ image.consts[(0 : BitVec 16).toNat]? = some 7 ∧ (s.me.rd 1).toNat < image.count ∧
    ((inCtx fun c => { c with cap := c.cap.set 1 9 }).me.rd 1).toNat = image.count := by decide +kernel

theorem witness_MultipliesOweTheirResult :
    ({ delayed := [⟨5, 1, .g 4, 6⟩, ⟨5, 2, .g 4, 7⟩] } : Ctx).delayed = [⟨5, 1, .g 4, 6⟩, ⟨5, 2, .g 4, 7⟩] ∧ (4 : Reg) ≠ 0 ∧ 1 < 2 := by decide

theorem witness_DividesUseTheDivider :
    (State.reset.arr State.reset.act.arr).divBusy = none ∧ ((inArr fun x => { x with divBusy := some 19 }).arr 0).divBusy ≠ none ∧
    (inArr fun x => { x with divBusy := some 19 }).Clear [1, 2] 3 ∧
    ((inArr fun x => { x with divRes := some (0, 4, 3) }).arr 0).divRes = some (0, 4, 3) ∧
    ((inCtx fun c => { c with capDv := 16 }).ctxOf 0 0).capDv.getLsbD (4 : Reg).toNat = true := by
  and_intros <;> decide +kernel

theorem witness_SourcesInFlightWaitOrFault :
    (inCtx fun c => { c with capPend := 2 }).me.owes [1, 2] 3 = true ∧ (inCtx fun c => { c with capDv := 4 }).me.owes [1, 2] 3 = true ∧ (inCtx fun c => { c with sb := 8 }).me.owes [1, 2] 3 = true ∧
    (let s := inCtx fun c => { c with capHaz := 2, capChk := true }
     s.me.owes [1, 2] 3 = false ∧ s.me.hazards [1, 2] = true) ∧
    (let s := inCtx fun c => { c with chk := true, delayed := [⟨2, 0, .g 1, 5⟩] }
     (s.ctxOf 0 0).chk = true ∧ ∃ d ∈ (s.ctxOf 0 0).delayed, d.target = .g 1) ∧ (State.reset.ctxOf 0 0).chk = false := by decide +kernel

theorem witness_BranchesGoWhereTheyShould :
    caught.Clear [1, 2] 0 ∧ caught.me.rd 1 ≠ caught.me.rd 2 ∧ caught.me.rd 0 = caught.me.rd 31 ∧ State.reset.Clear [1] 0 ∧
    (State.reset.arr 0).cfQuiet 0 = true ∧
    ((inArr fun x => { x with wave := [{ inWave (.vicmpeq 0 0 0 0) with left := 0 }] }).arr 0).cfQuiet 0 =
      false := by
  and_intros <;> decide +kernel

theorem witness_CallsAndReturns :
    (inCtx fun c => { c with rets := List.replicate 15 1 }).me.rets.length < 16 ∧ 16 ≤ (inCtx fun c => { c with rets := List.replicate 16 1 }).me.rets.length ∧
    State.reset.me.rets = [] ∧ (inCtx fun c => { c with rets := [9, 2] }).me.rets = [9, 2] := by decide +kernel

theorem witness_LoopsCount :
    (inCtx fun c => { c with loops := List.replicate 3 ⟨1, 2, 3⟩ }).me.loops.length < 4 ∧ 4 ≤ (inCtx fun c => { c with loops := List.replicate 4 ⟨1, 2, 3⟩ }).me.loops.length ∧
    (caught.me.rd 1).toNat ≠ 0 ∧ (caught.me.rd 0).toNat = 0 ∧ (⟨1, 2, 1⟩ : LoopEntry).remaining = 1 ∧ 2 ≤ (⟨1, 2, 2⟩ : LoopEntry).remaining ∧
    (inCtx fun c => { c with loops := [⟨1, 2, 1⟩] }).me.loops = [⟨1, 2, 1⟩] ∧ State.reset.me.mloop = none ∧
    (let s := inCtx fun c => { c with mloop := some ⟨5, 1, 2, 1, 3, 0, [], true⟩, residue := [{ slotOp 0 .lbrk 0 with stage := 1 }] }
     ∃ m o, s.me.mloop = some m ∧ s.slotOp = some o ∧ o.stage ≤ m.k) := by
  and_intros <;> first | decide +kernel | exact ⟨⟨5, 1, 2, 1, 3, 0, [], true⟩, { slotOp 0 .lbrk 0 with stage := 1 }, by decide +kernel⟩

theorem witness_MloopRunsPasses :
    let s := inCtx fun c => { c with run := .active, mloop := some ⟨1, 1, 1, 1, 0, 0, [], false⟩ }
    (s.ctxOf 0 0).mloop = some ⟨1, 1, 1, 1, 0, 0, [], false⟩ ∧ (s.ctxOf 0 0).residue = [] ∧ (s.ctxOf 0 0).run = .active ∧ 0 ≤ 1 + 1 - 2 ∧
      1 + 1 - 2 < (1 : Nat) ∧ (s.ctxOf 0 0).loops = [] ∧ (⟨0, 0, 1⟩ : LoopEntry).last + 1 = 1 := by decide +kernel

theorem witness_FlagAndSelectorOps :
    (3 : FlagNo) ≠ 4 ∧ ((caught.me.rd 1).extractLsb' 0 2 : BitVec 2) = 3 ∧ ((caught.me.rd 2).extractLsb' 0 2 : BitVec 2) ≠ 3 := by decide +kernel

theorem witness_SystemRegisters :
    (∃ r, (inCtx fun c => { c with ring := 128 }).ring? 128 = some r) ∧ (State.reset.arr 0).cQuiet 0 = true ∧
    srAssigned 0x005 = true ∧ (0x005 : BitVec 16) ∉ [0x013, 0x018, 0x01A, 0x01B] ∧ srAssigned 0x006 = false ∧ srAssigned 0x1000 = false ∧
    (State.reset.arr 0).holder = none ∧ ((inArr fun x => { x with holder := some 1 }).arr 0).holder = some 1 ∧
    (inCtx fun c => { c with delayed := [⟨2, 0, .status, 3⟩] }).me.delayed = [⟨2, 0, .status, 3⟩] ∧
    (let s := inArr fun x => { x with wave := [{ inWave (.vicmpeq 0 0 0 0) with left := 0 }] }
     (s.arr 0).cQuiet 0 = false ∧ (s.arr 0).cfQuiet 0 = false) :=
  ⟨⟨Ring.fixed 128, rfl⟩, by and_intros <;> decide +kernel⟩

theorem witness_WaitYieldLease :
    (caught.me.rd 0).toNat + (0 : BitVec 16).toNat ≤ caught.now ∧ caught.now < (caught.me.rd 1).toNat + (0 : BitVec 16).toNat ∧ caught.phase = 0 ∧
    (State.reset.arr 0).holder = none ∧ State.reset.me.drops = false ∧ ((inArr fun x => { x with holder := some 1 }).arr 0).holder = some 1 := by
  decide +kernel

/-- Context 0 holds the lease, with CHK as given, behind a VRCP of m4 issued in this ac. -/
def behindVrcp (chk : Bool) : State :=
  (inArr fun x => { x with holder := some 0, wave := [{ inWave (.vrcp 4 1 0 0 0) with done := 1 }] }).modCtx 0 0 fun c => { c with capChk := chk }

theorem witness_CellOpsDescend :
    (Instr.vadd 0 1 2 7 2).slot = some 1 ∧ Instr.vadd 0 1 2 7 2 ≠ .nop ∧ ((behindVrcp false).arr 0).holder = some 0 ∧
    (behindVrcp false).meetsSlow (.vadd 0 4 2 0 2) = false ∧ (behindVrcp false).paired = false ∧ (behindVrcp false).me.fed = none ∧
    (behindVrcp true).meetsSlow (.vadd 0 4 2 0 2) = true ∧ (behindVrcp true).partnerFed = true ∧
    (State.reset.arr 0).holder ≠ some 0 ∧ ((inArr fun x => { x with holder := some 1 }).arr 0).holder = some 1 ∧
    (inCtx fun c => { c with residue := [slotOp 1 (.vadd 0 1 2 7 2) 0] }).me.residue ≠ [] ∧
    (let s := { inCtx fun c => { c with residue := [{ slotOp 1 (.vadd 0 1 2 0 2) 0 with paired := true }] } with act := ⟨0, 0, 1⟩ }
     s.paired = true ∧ s.me.fed = none) := by decide +kernel

theorem witness_CellRowsExecute :
    let s := inArr fun x => { x with wave := [inWave (.vadd 0 1 2 0 2)] }
    (s.arr 0).wave.find? (·.id == 1) = some (inWave (.vadd 0 1 2 0 2)) ∧ 31 < (inWave (.vadd 0 1 2 0 2)).rows ∧ isCell (inWave (.vadd 0 1 2 0 2)).ins = true ∧
    (∀ ty, (inWave (.vadd 0 1 2 0 2)).ins ≠ .katc ty) ∧ isSlow (inWave (.vadd 0 1 2 0 2)).ins = false ∧ isSlow (.vrcp 0 1 0 0 2) = true ∧ isCell (.vrcp 0 1 0 0 2) = true ∧ s.einj.arm = false ∧
    (s.arr (s.chainArr 0 0 0)).errs = [] ∧
    { inWave (.vrcp 0 1 0 0 2) with slow := [(3, [⟨96, 0, .m 0, 1, 0⟩], 0)] }.slow = [(3, [⟨96, 0, .m 0, 1, 0⟩], 0)] := by decide +kernel

theorem witness_CellRowsExecute_end :
    (let x := (inArr fun x => { x with pend := [⟨3, 0, .m 47, 5, 0⟩, ⟨3, 0, .m 47, 6, 0⟩] }).arr 0
     ∀ w ∈ x.pend, w.reg = .m 47) ∧ 47 < 48 := by decide +kernel

theorem witness_CellFloats :
    (2 : BitVec 2) ≠ 3 ∧ (0xFF : BitVec 32).getLsbD 7 = true ∧ 15 < 256 / (tyFmt 1).width ∧ (fp32.value 0x3FC00000).number.isSome = true ∧
    (fp32.value 0).number.isSome = true ∧ fp32.value 0x7FC00000 = .nan ∧ fp32.value 0xFF800000 = .inf true ∧
    (fp32.value 0xBF800000).sign = true ∧ 0x7F7FFFFF < 2 ^ (fp32.width - 1) ∧ fp16.value 0x3C00 ≠ .nan := by decide +kernel

theorem witness_CellSignsSpecialsAndConversions :
    (let x := lanesOf 0x3F800000 0x7FC00000 0 1
     x.cp.getLsbD 0 = true ∧ fp32.value (laneOf 32 x.a 0) ≠ .nan ∧ fp32.value (laneOf 32 x.b 0) = .nan ∧ x.round = .rne) ∧
    (let x := lanesOf 0x7FC00000 0x3F800000 0 1
     fp32.value (laneOf 32 x.a 0) = .nan) ∧
    (fp32.value 0x3F800000).number = some 1 ∧ (1 : Rat) ≠ 0 ∧ (fp32.value 0xBF800000).number = some (-1) ∧ (-1 : Rat) < 0 ∧
    (fp32.value 0).number = some 0 ∧ fp32.value 0x7F800000 = .inf false ∧
    (fp32.value (laneOf 32 (cellEval (.vrcp 0 0 0 0 0) (lanesOf 0x3F800000 0 0 1)).data 0)).number = some 1 ∧ 0x3F800001 < 2 ^ fp32.width ∧
    (fp32.value 0x3F800001).number.isSome = true ∧ (1 : BitVec 2).toNat < 2 ∧ 8 * (1 : BitVec 2).toNat ≤ 8 ∧ 8 < 16 ∧ ¬8 * (1 : BitVec 2).toNat ≤ 7 ∧
    8 * (3 : BitVec 2).toNat ≤ 31 ∧ 31 < 8 * (3 : BitVec 2).toNat + 8 := by decide +kernel

/-- An MMA in the first cell, fed a word with a scale. -/
def mmaOp (f : Opnd) (ty : BitVec 2) (w : CWord) (sc : BitVec 32) : COp :=
  { inWave (.mma f true true 7 3 3 true 0 ty) with west := some [(w, sc)] }

/-- An array whose first cell has latch 3 filled with a word and its scales with another. -/
def latched (w sc : CWord) : Arr :=
  (List.range 8).foldl (fun x k => x.applyWrite 0 ⟨0, 0, .latch 3 k, w, 0⟩) (({} : Arr).applyWrite 0 ⟨0, 0, .latch 3 8, sc, 0⟩)

/-- Sixteen elements of 1.0 in BF16, and eight of 1.0 and of infinity in FP32. -/
def ones16 : CWord := BitVec.ofNat 256 ((List.range 16).foldl (fun t i => t + 0x3F80 * 2 ^ (16 * i)) 0)
def ones32 : CWord := BitVec.ofNat 256 ((List.range 8).foldl (fun t i => t + 0x3F800000 * 2 ^ (32 * i)) 0)
def infs32 : CWord := BitVec.ofNat 256 ((List.range 8).foldl (fun t i => t + 0x7F800000 * 2 ^ (32 * i)) 0)

theorem witness_MatrixOpsInACell :
    (mmaOp 0x44 3 5 0x3F800000).ins = .mma 0x44 true true 7 3 3 true 0 3 ∧ (mmaOp 0x00 1 5 0x3F800000).ins = .mma 0x00 true true 7 3 3 true 0 1 ∧
    (Instr.mma 0x44 true true 7 3 3 true 0 3).wf = true ∧ (Instr.mma 0x00 false false 0 0 0 true 0 0).wf = true ∧ (0x2F : Opnd).toNat < 48 ∧
    (let a := fun (w : CWord) (sc : BitVec 32) => ({} : Arr).operand (mmaOp 0 1 w sc) 0 0 0 0x3C
     a ones16 0x3F800000 = (ones16, 0x3F800000) ∧
     (∀ i < 16, (bf16.value (laneOf 16 (a ones16 0x3F800000).1 i)).number = some 1) ∧ (fp32.value (a ones16 0x3F800000).2.toNat).number = some 1 ∧
     (fp32.value (a ones16 0x7F800000).2.toNat).isInf = true ∧ (fp32.value (a ones16 0).2.toNat).number = some 0 ∧
     bf16.value (laneOf 16 (a 0x7FC0 0x3F800000).1 0) = .nan ∧ bf16.value (laneOf 16 (a 0x7F80 0x3F800000).1 0) = .inf false) := by decide +kernel

theorem witness_MatrixOpsInACell_latch :
    (∀ i < 16, (bf16.value (laneOf 16 ((latched ones16 ones32).latchAt 0 3 7) i)).number = some 1) ∧
    (fp32.value (laneOf 32 ((latched ones16 ones32).latchAt 0 3 8) 7)).number = some 1 ∧ (1 : Rat) ≠ 0 ∧
    (fp32.value (laneOf 32 ((latched 0 infs32).latchAt 0 3 8) 7)).isInf = true ∧ (bf16.value (laneOf 16 ((latched 0 ones32).latchAt 0 3 7) 0)).number = some 0 ∧
    ((bf16.value 0x7F80).mul (bf16.value 0)).1 = .nan ∧ ((bf16.value 0x7F80).mul (bf16.value 0x3F80)).1 = .inf false ∧
    ((bf16.value 0x3F80).mul (bf16.value 0x3F80)).1 ≠ .nan := by decide +kernel

theorem witness_KnownAnswerCheck :
    katCrc (inWave (.katc 0)).katRow = (inWave (.katc 0)).kat ∧ katCrc (inWave (.katc 0)).katRow ≠ { inWave (.katc 0) with kat := 1 }.kat ∧
    (inWave (.katc 0)).rows = 32 := by decide +kernel

/-- A staged feed whose words have arrived. -/
def feed : Staged :=
  { id := 0, pc := 0, ins := .wfeed 1 2 0 false, west := some [], push := none, clips := [], status := false, reserved := [], waitFor := 0, fault := none }

/-- A plan with one buffer of 64 bytes at the foot of the array store. -/
def planned : Image := { image with plan := { bufs := [⟨0, 64, 0, 0, 0⟩] } }

theorem witness_FeedsAreStagedAndIssue :
    (let s := (inCtx fun c => { c with
        todo := [1], staged := [feed],
        residue := [{ slotOp 1 (.vadd 0 1 2 0 0) 0 with paired := true }, { slotOp 2 (.wfeed 1 2 0 false) 0 with paired := true }] }).modArr 0
          fun x => { x with holder := some 0 }
     { s with act := ⟨0, 0, 2⟩ }.partnerReady = true ∧ s.me.staged = [feed] ∧ feed.waitFor = 0 ∧ feed.fault = none ∧ (2 : BitVec 3) ≠ 0 ∧
       s.me.edgeQ.length < 8 ∧ feed.clips = [] ∧ feed.west = some []) ∧
    State.reset.partnerReady = false ∧ ({ feed with fault := some 0x10 }).fault = some 0x10 ∧ ({ feed with waitFor := 1 }).waitFor ≠ 0 ∧
    8 ≤ (inCtx fun c => { c with edgeQ := List.replicate 8 ⟨0, 0, .etest 0 0⟩ }).me.edgeQ.length ∧
    (let g := { feed with west := some [(5, 1), (6, 1)], clips := [(1, 3, 0x7F)], reserved := [(0, 64)] }
     g.clips = [(1, 3, 0x7F)] ∧ (∀ e ∈ g.clips, e.1 ≠ 0) ∧ [((5 : CWord), (1 : BitVec 32)), (6, 1)][1]? = some (6, 1)) := by decide +kernel

/-- A context that presents a feed; every descriptor has words 0 and 1, 32 bytes apart, limit 4 and the base 0; its index
vector starts 0xFFFF, 2, 9. Tile 2 is sound: two rows of 32 bytes at 0. -/
def presenting (i : Instr) : State :=
  { inCtx fun c => { c with
      run := .active, residue := [{ slotOp 1 (.vadd 0 1 2 0 0) 0 with paired := true }, { slotOp 2 i 0 with paired := true }]
      fd := Vector.replicate 8 (BitVec.ofNat 256 (32 * 2 ^ 32 + 4 * 2 ^ 192 + 2 ^ 208)), iv := Vector.replicate 4 (BitVec.ofNat 512 (0xFFFF + 2 * 2 ^ 16 + 9 * 2 ^ 32))
      capTh := c.capTh.set 2 (BitVec.ofNat 512 (1 + 32 * 2 ^ 128 + 2 * 2 ^ 192 + 32 * 2 ^ 224)) } with images := [planned] }

/-- The same with descriptor 1 at its `k`th feed. -/
def presentingAt (k : Nat) (i : Instr) : State :=
  (presenting i).modCtx 0 0 fun c => { c with fd := c.fd.set 1 ((c.fd[1]'(by decide)) ||| BitVec.ofNat 256 (k * 2 ^ 128)) }

theorem witness_FeedsAreStagedAndIssue_forms :
    (∀ i ∈ [Instr.wfeed 1 2 0 false, .npush 1 2 0 false true, .dfeed 1 2 0 false true 3, .dfeed 1 2 0 false true 1, .wfeedg 1 2 0 false 1,
        .wfeedt 1 2 0 false 2, .wfeedt 1 2 0 false 3],
      (presenting i).nextStage 0 0 = some (true, 0, i)) ∧
    (State.reset.placeWord 2 0x04180000).nextStage 0 0 = some (false, 0, .wfeed 0 1 2 false) ∧
    (let s := presenting (.wfeed 1 2 0 false)
     let x := s.ctxOf 0 0
     let p := s.planOf x
     let d := x.stagedFd[(1 : Fin 8)]
     fdWords d = 2 ∧ fdWstride d = 32 ∧ fdSmode d = false ∧ fdCur d = 0 ∧ fdLimit d = 4 ∧ p.holds 0 32 = true ∧ p.holds 32 32 = true ∧
       p.holds 64 32 = false ∧ x.chain.toNat = 0) := by decide +kernel

theorem witness_FeedsAreStagedAndIssue_gather :
    (∀ e ∈ [(0, 0xFFFF), (1, 2), (2, 9)],
      let x := (presentingAt e.1 (.wfeedg 1 2 0 false 1)).ctxOf 0 0
      ((x.iv[(1 : Fin 4)]).extractLsb' (16 * (fdCount x.stagedFd[(1 : Fin 8)] % 32)) 16).toNat = e.2) ∧
    fdLimit ((presentingAt 2 (.wfeedg 1 2 0 false 1)).ctxOf 0 0).stagedFd[(1 : Fin 8)] ≤ 9 := by decide +kernel

theorem witness_FeedsAreStagedAndIssue_tile :
    (let h := ((presenting .nop).ctxOf 0 0).capTh[(2 : Fin 16)]
     tileClean h = true ∧ h.extractLsb' 0 2 = 1 ∧ tileSigned h 36 % 32 = 0 ∧ tileField h 24 4 = 2 ∧ tileField h 28 4 = 32 ∧ tileField h 16 4 = 32) ∧
    ¬(((presenting .nop).ctxOf 0 0).capTh[(3 : Fin 16)]).extractLsb' 0 2 = 1 := by decide +kernel

theorem witness_FeedsAreStagedAndIssue_chain :
    (let s := (((presenting (.wfeed 1 2 0 false)).modCtx 0 0 fun c => { c with chain := 1 }).modArr 1 fun x => { x with leader := some (0, 0), chainPos := 1 })
     s.nextStage 0 0 = some (true, 0, .wfeed 1 2 0 false) ∧ (s.ctxOf 0 0).chain.toNat = 1 ∧ ∀ k < 2, ∀ j < 2, s.chainArr 0 0 k = s.chainArr 0 0 j → k = j) := by
  decide +kernel

/-- A bank's read for a staged feed. -/
def feedRead (mode : TagMode) : State :=
  ((presenting (.wfeed 1 2 0 false)).modCtx 0 0 fun c => { c with staged := [{ feed with west := some [(0, 1), (0, 1)], waitFor := 2 }] }).modArr 0 fun x =>
    { x with asReqs := [⟨0, 0, 2, .feed 0 0 1 false false, 1, mode, false, 0, 0, 0, false⟩], tags := [(1, true)] }

theorem witness_FeedsAreStagedAndIssue_bank :
    ∀ mode ∈ [TagMode.ignore, .fullKeep, .fullTake],
      let s := feedRead mode
      let r : AsReq := ⟨0, 0, 2, .feed 0 0 1 false false, 1, mode, false, 0, 0, 0, false⟩
      bestReq ((s.arr 0).asReqs.filter (s.asEligible 0 (asBank 1))) = some r ∧ s.einj.arm = false ∧ (s.arr 0).errs = [] ∧
        r.mode.holds ((s.arr 0).tagAt r.word && !(s.arr 0).reserved.contains r.word) = true ∧
        (s.ctxOf r.owner 0).staged = [{ feed with west := some [(0, 1), (0, 1)], waitFor := 2 }] := by decide +kernel

/-- A capture into EA row 0, kind as given. -/
def capture (kind : Nat) : Capture := ⟨BitVec.ofNat 256 (kind + 2 ^ 16), 0, false, false⟩

/-- A captured word in the collector's order. -/
def collected (k : CollKind) : CollItem := { op := 1, kind := k, words := [(0, 0, 5)], full := true, sent := 0, seg := 0, order := 0 }

theorem witness_EdgeAccumulatorAndCaptures :
    (let p := State.reset.planOf State.reset.me
     ((0 : Word) + (0x60 : BitVec 7).zeroExtend 64).toNat + 32 ≤ 128 ∧ p.eaFirst ≤ 0x60 ∧ 0x60 + 32 ≤ p.eaFirst + p.eaCount ∧
       ¬(((0 : Word) + (0x61 : BitVec 7).zeroExtend 64).toNat + 32 ≤ 128) ∧ cdKind 0x10002 = 2 ∧ ({ bufs := [⟨0, 1024, 0, 0, 0⟩] } : Plan).drainOk 0x10002 1 = true) ∧
    (∀ k ∈ [CollKind.clear 0 1, .capture (capture 0) true, .capture (capture 1) true, .capture (capture 2) false],
      let s := inArr fun x => { x with coll := x.coll.set 0 [collected k] }
      (s.arr 0).coll[(0 : CtxId)] = [collected k] ∧ s.lastPos 0 0 = 0 ∧ (s.ctxOf 0 0).chain = 0 ∧ s.collBusy 0 0 = false ∧ s.einj.arm = false ∧
        (s.arr 0).errs = []) ∧
    (capture 1).row 0 = some (capture 1).j ∧ (collected (.clear 0 1)).words[0]? = some (0, 0, 5) ∧ (collected (.clear 0 1)).op = (inWave (.vadd 0 1 2 0 0)).id := by
  decide +kernel

theorem witness_EdgeAccumulatorAndCaptures_drain :
    8 ≤ (inCtx fun c => { c with edgeQ := List.replicate 8 ⟨0, 0, .etest 0 0⟩ }).me.edgeQ.length ∧
    (∀ f ∈ [0, 1, 2, 3, 4, 5],
      let d := BitVec.ofNat 256 (2 + f * 2 ^ 128)
      let it := collected (.drain d true 0x60 1)
      let s := inArr fun x => { x with coll := x.coll.set 0 [it] }
      cdKind d = 2 ∧ cdDfmt d = f ∧ (s.arr 0).coll[(0 : CtxId)] = [it] ∧ s.lastPos 0 0 = 0 ∧ s.collBusy 0 0 = false ∧ s.einj.arm = false ∧
        (s.arr 0).errs = [] ∧ it.sent < 8 * 1 * 1) ∧
    (let k : Capture := ⟨BitVec.ofNat 256 (1 + 2 ^ 16), 1, false, false⟩
     k.row 0 = none ∧ cdKind k.desc ≤ 2) ∧
    (fp32.value ((State.reset.arr 0).eaAt 0 0).toNat).number = some 0 ∧ (fp32.value (laneOf 32 0x3F800000 0)).number = some 1 := by decide +kernel

/-- A bank that is asked to take a captured word. -/
theorem witness_EdgeAccumulatorAndCaptures_bank :
    let r : AsReq := ⟨0, 0, 4, .capture 0, 64, .emptyPut, true, 0xFFFFFFFF, 9, 0, false⟩
    let it := collected (.capture (capture 2) false)
    let s := inArr fun x => { x with asReqs := [r], coll := x.coll.set 0 [it] }
    bestReq ((s.arr 0).asReqs.filter (s.asEligible 0 (asBank 64))) = some r ∧ s.einj.arm = false ∧ (s.arr 0).errs = [] ∧
      r.mode.holds ((s.arr 0).tagAt 64 && !(s.arr 0).reserved.contains 64) = true ∧ (s.arr r.owner).coll[(0 : CtxId)] = [it] := by decide +kernel

theorem witness_EdgeAccumulatorAndCaptures_sides :
    let it := { collected (.capture (capture 1) true) with words := [], full := false }
    let s := inArr fun x => { x with coll := x.coll.set 0 [it], wave := [inWave (.vadd 0 1 2 0 2)] }
    (s.arr 0).wave.find? (·.id == 1) = some (inWave (.vadd 0 1 2 0 2)) ∧ (s.arr 0).coll[(inWave (.vadd 0 1 2 0 2)).ctx] = [it] ∧ it.op = 1 := by
  decide +kernel

theorem witness_DescriptorLoads :
    (let s := { caught with images := [planned] }
     s.phase = 0 ∧ (effective (s.me.rd 0) 1 s.ext 32).toNat = 32 ∧ 32 % 32 = 0 ∧ (s.planOf s.me).holds 32 32 = true ∧ (s.planOf s.me).holds 64 32 = false ∧
       (s.me.rd 2).toNat % 64 ≠ 0 ∧ (effective (s.me.rd 1) 0 s.ext 32).toNat % 32 ≠ 0) ∧
    (let s := { inCtx fun c => { c with residue := [slotOp 2 (.fdset 1 0 0) 4], descBuf := [(4, 0), (5, 0)] } with cycle := 4, act := ⟨0, 0, 2⟩ }
     s.phase ≠ 0 ∧ s.phase ≤ s.now ∧ { s with cycle := 3 }.now < s.phase ∧ s.me.imageWords 0 1 = none ∧ s.me.imageWords s.act.slot 1 = some [0] ∧ s.me.imageWords s.act.slot 2 = some [0, 0]) ∧
    fdOk 0 = true ∧ fdOk 1 = false ∧ cdOk {} 1 0x10000 = true ∧ cdOk {} 1 0 = false ∧
    tileOk (BitVec.ofNat 512 (1 * 2 ^ 320 + 1 * 2 ^ 352)) = true := by decide +kernel

theorem witness_TagOpsAndBanks :
    (let s := { caught with images := [planned] }
     s.me.edgeQ.length < 8 ∧ (s.me.rd 0).toNat % 32 = 0 ∧ 0 + 32 * 2 ≤ 0x1000000 ∧ (s.planOf s.me).holdsWords 0 2 = true ∧
       (s.me.rd 1).toNat % 32 ≠ 0) ∧
    8 ≤ (inCtx fun c => { c with edgeQ := List.replicate 8 ⟨0, 0, .etest 0 0⟩ }).me.edgeQ.length ∧
    (let r : AsReq := ⟨0, 0, 0, .mStore 0 3, 64, .emptyPut, true, 0xFF, 9, 0, false⟩
     let s := inArr fun x => { x with asReqs := [r] }
     let u := s.modArr 0 fun x => { x with tags := [(64, true)] }
     bestReq ((s.arr 0).asReqs.filter (s.asEligible 0 (asBank 64))) = some r ∧ s.einj.arm = false ∧ (s.arr 0).errs = [] ∧
       r.mode.holds ((s.arr 0).tagAt 64 && !(s.arr 0).reserved.contains 64) = true ∧
       bestReq ((u.arr 0).asReqs.filter (u.asEligible 0 (asBank 64))) = some r ∧
       r.mode.holds ((u.arr 0).tagAt 64 && !(u.arr 0).reserved.contains 64) = false) := by decide +kernel

/-- A bank's read for a requester. -/
def bankRead (who : AsWho) (f : Ctx → Ctx) : State :=
  (inCtx f).modArr 0 fun x => { x with asReqs := [⟨0, 0, 0, who, 64, .ignore, false, 0, 0, 0, false⟩] }

theorem witness_TagOpsAndBanks_reads :
    (∀ e ∈ [((AsWho.mLoad 0 0 : AsWho), fun c : Ctx => { c with loadQ := [c.entry .asld 4] }), (.mTag 0, id), (.sendRead 0, id), (.descr 0 4, id),
        (.edge 0, fun c => { c with edgeQ := [⟨0, 0, .etag true 64 2⟩] }), (.copyRead true, id), (.copyWrite false, id), (.net, id)],
      let s := bankRead e.1 e.2
      let r : AsReq := ⟨0, 0, 0, e.1, 64, .ignore, false, 0, 0, 0, false⟩
      bestReq ((s.arr 0).asReqs.filter (s.asEligible 0 (asBank 64))) = some r ∧ s.einj.arm = false ∧ (s.arr 0).errs = [] ∧
        r.mode.holds ((s.arr 0).tagAt 64 && !(s.arr 0).reserved.contains 64) = true) ∧
    (let s := { bankRead (.edge 0) (fun c => { c with edgeQ := [⟨0, 0, .etest 3 64⟩] }) with cycle := 4 }
     bestReq ((s.arr 0).asReqs.filter (s.asEligible 0 (asBank 64))) = some ⟨0, 0, 0, .edge 0, 64, .ignore, false, 0, 0, 0, false⟩) := by decide +kernel

/-- Array 0 holds the translation of DVA page 1, writable, to page 0x20 of HBM, of a kind. -/
def mapped (kind : Nat) : State :=
  { (inCtx fun c => { c with cap := (c.cap.set 1 0x10008).set 2 5 }).modArr 0 fun x =>
      { x with tc := [⟨0, false, 1, false, BitVec.ofNat 64 (2 + kind * 4 + 32 + 0x20 * 2 ^ 16), true⟩] } with
    atbrEna := true }

theorem access_of {α : Type} {r : Except Nat α × State} {t : α} {u : State} (h : r.1.toOption = some t) (k : r.2 = u) : r = (.ok t, u) := by
  obtain ⟨e | x, v⟩ := r
  · simp [Except.toOption] at h
  · simp only [Except.toOption, Option.some.injEq] at h k
    rw [h, k]

theorem reaches_of {s u : State} {use : Use} {addr : Word} {n : Nat} {t : Target} (h : (s.accessM s.act.arr s.act.ctx use addr n).1.toOption = some t)
    (k : (s.accessM s.act.arr s.act.ctx use addr n).2 = u) : Reaches s use addr n t u := access_of h k

theorem witness_Reaches :
    Reaches (mapped 2) .load 0x10008 8 ⟨0x200008, .sync, false⟩ (mapped 2) ∧ Reaches (mapped 2) .watch 0x10008 8 ⟨0x200008, .sync, false⟩ (mapped 2) ∧
    Reaches (mapped 0) .store 0x10008 8 ⟨0x200008, .logged, false⟩ (mapped 0) ∧
    Reaches (mapped 0) .logst 0x10008 8 ⟨0x200008, .logged, false⟩ (mapped 0) ∧ Reaches (mapped 2) .atomic 0x10008 4 ⟨0x200008, .sync, false⟩ (mapped 2) := by
  and_intros <;> exact reaches_of (by decide +kernel) (by decide +kernel)

theorem witness_LoadsIssueOrFault :
    (mapped 2).Clear [1] 4 ∧ (mapped 2).me.loadQ.length < 32 ∧ effective ((mapped 2).me.rd 1) 0 (mapped 2).ext 8 = 0x10008 ∧
    effective 0x10008 0xFFF none 8 = 0x10000 ∧ effective 0 0xFFF (some 0xFFFFFF) 8 = 0xFFFFFFFFFFFFFFF8 ∧
    32 ≤ (inCtx fun c => { c with loadQ := List.replicate 32 (c.entry .ld 0) }).me.loadQ.length ∧ 2 ^ 55 ≤ (0x80000000000000 : Word).toNat ∧
    (0x7FFFFFFFFFFFFF : Word).toNat < 2 ^ 55 ∧ (0x7FFFFFFFFFFFFF : Word).toNat % 2 ≠ 0 ∧ State.reset.atbrEna = false ∧
    (match (State.reset.accessM 0 0 .load 0x10008 8).1 with | .error c => c | .ok _ => 0) = 0x01 ∧
    (match ((mapped 2).accessM 0 0 .load 0x20008 8).1 with | .error c => c | .ok _ => 0) = fWalking := by
  and_intros <;> decide +kernel

/-- A context whose log buffer holds a byte of line 0x8000, which its view cache does not. -/
def buffered : State :=
  { inCtx fun c => { c with ring := 144, buf := [⟨0x8000, .logged, 0, 1, 5, 0⟩] } with rings := [{ Ring.fixed 144 with n := 4 }] }

theorem witness_Settles :
    Settles (mapped 2) ⟨0x200008, .sync, false⟩ 0 (mapped 2) ∧ ∃ w, Settles buffered ⟨0x200008, .logged, false⟩ 0 w := by
  refine ⟨⟨fun h => ?_, fun _ => rfl⟩, ?_⟩
  · exact absurd h.1 (by decide)
  · have h : (buffered.appendThrough 0 0 0x8000 17).isSome = true := by decide +kernel
    refine ⟨_, fun _ => (Option.some_get h).symm, fun n => absurd ⟨rfl, by decide +kernel, ?_⟩ n⟩
    exact ⟨⟨0x8000, .logged, 0, 1, 5, 0⟩, by decide +kernel, by decide +kernel, .inl rfl⟩

theorem noLineErrors_of {s : State} (h : s.einj.arm = false) (hl : s.lines = []) (hg : ∀ g ∈ s.groups, g.lost = []) : NoLineErrors s := by
  have none_in : ∀ g ∈ s.groups, ∀ st m, (g.lostIn st).contains m = false := by
    intro g m st k
    unfold Group.lostIn
    rw [hg g m]
    rfl
  have no_group : ∀ p, s.lostGroup p = none := by
    intro p
    refine List.find?_eq_none.2 fun g m => ?_
    rw [hg g m]
    exact Bool.false_ne_true
  refine ⟨⟨h, fun l => ?_⟩, fun l => ?_⟩
  · rw [show s.lineMeta l = {} by unfold State.lineMeta; rw [hl]; rfl]
    exact ⟨rfl, rfl, rfl⟩
  · unfold State.lostAt
    rw [no_group]
    split
    · rfl
    · split
      · rfl
      · rename_i w _
        cases e : s.group? w.pgid.toNat with
        | none => rfl
        | some g =>
          have m : g ∈ s.groups := List.mem_of_find?_eq_some e
          simp only [Option.bind_some, none_in g m, Bool.false_eq_true, ↓reduceIte]
    · rfl

theorem witness_NoLineErrors : NoLineErrors State.reset ∧ NoLineErrors (mapped 0) ∧ NoPoison State.reset := by
  refine ⟨?_, ?_, ?_, fun _ => rfl⟩ <;> exact noLineErrors_of rfl rfl nofun

theorem witness_StoresIssue :
    (mapped 0).Clear [2, 1] 0 ∧ (mapped 0).me.storeQ.length < 32 ∧ (mapped 0).pubEntryAt 0 0x10008 0x200008 = false ∧ Kind.logged.isLogged = true ∧
    (mapped 0).me.indexRoom 0x8000 = true ∧ (mapped 0).me.releaseAhead = false ∧ (mapped 0).releasing (mapped 0).me.ring = false ∧
    (mapped 0).entering (mapped 0).me 0x8000 = .enters ∧ (∀ w ∈ ((mapped 0).arr 0).vc, w.st ≠ .ownedDirty) ∧ 0x200008 % 8 = 0 ∧ rangeOf 0x200008 ≠ .peer ∧
    (let s := { caught with images := [planned] }
     (effective (s.me.rd 0) 7 s.ext 8).toNat = 56 ∧ (s.planOf s.me).holds 56 8 = true ∧ (s.planOf s.me).holds 64 8 = false ∧ s.phase = 0 ∧
       s.me.loadQ = [] ∧ s.me.storeQ = [] ∧ (effective (s.me.rd 1) 0 s.ext 8).toNat % 8 ≠ 0 ∧ 0x1000000 ≤ (effective 0x1000000 0 none 8).toNat) ∧
    (let s := inCtx fun c => { c with residue := [slotOp 0 (.asst 9 0 3 3 0) 1], descBuf := [(6, 0)] }
     s.phase ≠ 0 ∧ s.me.descBuf.find? (·.1 == 6) = some (6, 0)) ∧ State.reset.me.descBuf.find? (·.1 == 6) = none := by
  and_intros <;> decide +kernel

theorem witness_AtomicsIssue :
    (mapped 2).Clear [1, 2] 4 ∧ (mapped 2).Clear [4, 1, 2] 4 ∧ (mapped 2).me.storeQ.length < 32 ∧ (mapped 2).me.loadQ.length < 32 ∧
    (mapped 2).pubEntryAt 0 0x10008 0x200008 = false := by
  and_intros <;> decide +kernel

/-- A queue entry of 8 bytes at 0x200008. -/
def queued (op : QOp) : QEntry := { ({} : Ctx).entry op 0 with pa := 0x200008, dva := 0x10008, size := 8, kind := .sync, gd := 4, data := 7 }

theorem witness_QueuesPerformAtHome :
    (∀ op ∈ [QOp.ld, .lds, .st, .atomic], (queued op).kind = .sync ∧ (queued op).size ∈ [1, 2, 4, 8] ∧ (queued op).pa % 8 = 0 ∧ (queued op).order = 0 ∧ (queued op).phase = 0) ∧
    rangeOf (64 * (0x200008 / 64)) = .hbm ∧ rangeOf (64 * (Config.hostBase / 64)) = .host ∧
    (let s := inCtx fun c => { c with loadQ := [queued .atomic], storeQ := [queued .atomic] }
     (∀ q ∈ (s.ctxOf 0 0).loadQ ++ (s.ctxOf 0 0).storeQ, q.order = 0) ∧ s.releasing (s.ctxOf 0 0).ring = false) ∧ (queued .atomic).op = .atomic ∧
    (let e := { queued .ld with pa := Config.hostBase + 8, kind := .host }
     State.reset.ours (e.pa / 64) = false ∧ e.pa % 8 = 0 ∧ State.reset.hostBusy (e.pa / 64) = false) ∧
    State.reset.ours ((Config.peerBase + 2 ^ 41 + 8) / 64) = false ∧ State.reset.hostBusy ((Config.peerBase + 2 ^ 41 + 8) / 64) = false ∧
    ({ queued .atomic with code := 0x11, size := 4, data := 0x3F800000 }).pa % 4 = 0 ∧ (fp32.value (valueAt State.reset 0x200008 4)).number = some 0 := by decide +kernel

/-- A context with a queue entry, whose array's view cache holds a line 0x8000 in a state, or none. -/
def viewing (st : Option VcState) (ld stq : List QEntry) : State :=
  (inCtx fun c => { c with loadQ := ld, storeQ := stq }).modArr 0 fun x => { x with vc := st.toList.map fun k => ⟨0x8000, 0, 0, false, 0, k, 5, false⟩ }

theorem viewing_sound (st : Option VcState) (ld stq : List QEntry) : NoPoison (viewing st ld stq) := ⟨noLineErrors_of rfl rfl nofun, fun _ => rfl⟩

theorem witness_QueuesPerformAtHome_view :
    let e := { queued .ld with kind := .logged }
    (∀ k ∈ [none, some VcState.view, some .own],
      let y := (viewing k [e] []).arr 0
      y.errs = [] ∧ y.vcApart ∧ (∀ w ∈ y.vc, w.poison = false)) ∧
    ((viewing (some .own) [e] []).arr 0).vc.find? (·.ownOf 0 0x8000) = some ⟨0x8000, 0, 0, false, 0, .own, 5, false⟩ ∧
    ((viewing (some .view) [e] []).arr 0).vc.find? (·.ownOf 0 0x8000) = none ∧
    ((viewing (some .view) [e] []).arr 0).vc.find? (·.viewOf ((viewing (some .view) [e] []).ctxOf 0 0) 0x8000) = some ⟨0x8000, 0, 0, false, 0, .view, 5, false⟩ ∧
    ((viewing none [e] []).arr 0).vc.find? (·.viewOf ((viewing none [e] []).ctxOf 0 0) 0x8000) = none ∧ ((viewing none [e] []).ctxOf 0 0).hasOwn 0x8000 = false ∧
    (((viewing none [e] []).modCtx 0 0 fun c => { c with own := [(0x8000, 1)] }).ctxOf 0 0).hasOwn 0x8000 = true ∧
    ({ e with seen := some (7, 1) }).seen = some (7, 1) ∧ e.kind.isLogged = true := by
  unfold Arr.vcApart
  decide +kernel

theorem witness_QueuesPerformAtHome_private :
    (let e := { queued .st with kind := .owned }
     ∀ k ∈ [none, some VcState.ownedClean, some .ownedDirty],
      let s := viewing k [{ queued .ld with kind := .owned }] [e]
      let mine := (s.arr 0).vc.find? (·.ownedBy 0 0x8000)
      (s.ctxOf 0 0).storeQ = [e] ∧ (∀ w ∈ (s.arr 0).vc, mine = some w ∨ w.st ≠ .ownedDirty) ∧ mine.isSome = k.isSome) ∧
    (let e := { queued .st with kind := .logged }
     (viewing none [] [{ e with phase := 1 }]).releasing 0 = false ∧ (viewing none [] [e]).entering ((viewing none [] [e]).ctxOf 0 0) 0x8000 = .enters) := by
  decide +kernel

theorem witness_QueuesPerformAtHome_alias :
    (let e := { queued .ld with id := 2 }
     let q := { queued .st with id := 1 }
     let s := viewing none [e] [q]
     (s.ctxOf 0 0).loadQ = [e] ∧ q ∈ (s.ctxOf 0 0).storeQ ∧ q.id < e.id ∧ q.unperformed = true ∧ q.pa / 64 = e.pa / 64 ∧ q.cls = e.cls) := by
  decide +kernel

/-- A ring of context 0. -/
def ring144 : Ring := { Ring.fixed 144 with n := 4 }

theorem witness_OrderingOps :
    State.reset.me.storeQ.length < 32 ∧ State.reset.me.loadQ = [] ∧ State.reset.me.storeQ = [] ∧ (7 : BitVec 3) ≠ 6 ∧
    ¬((inCtx fun c => { c with storeQ := [queued .st] }).me.storeQ = []) ∧
    (let s := { inCtx fun c => { c with ring := 144 } with rings := [{ ring144 with pub := 1, tail := 1 }] }
     s.foldedTo 144 (s.pubOf 144) = false) ∧
    (let s := { inCtx fun c => { c with ring := 144 } with rings := [ring144] }
     s.ring? 144 = some ring144 ∧ ring144.pub ≤ ring144.fold ∧ s.unguardedGroups ring144 = [] ∧ s.releasing 144 = false ∧ s.me.buf = [] ∧ s.phase = 0 ∧
       s.me.maySample = true ∧ s.me.acquire = none ∧ s.accessesDone 6 = true) ∧
    (let s := inCtx fun c => { c with mseq := 1, storeQ := [{ queued .st with order := 1 }] }
     s.accessesDone 4 = false ∧ s.me.maySample = false) ∧
    (let s := { inCtx fun c => { c with ring := 144, residue := [slotOp 0 (.fencesc 3) 1] } with
        rings := [{ ring144 with release := some ⟨2, 3, false, false, false, 0, 0⟩ }] }
     s.phase = 1 ∧ s.releasing 144 = true) ∧
    (let s := inCtx fun c => { c with residue := [slotOp 0 (.fencesc 3) 1] }
     s.phase = 1 ∧ s.releasing s.me.ring = false ∧ s.ranksLost s.me.team.toNat (s.farBelow 0 0 3) = false) ∧
    32 ≤ (inCtx fun c => { c with storeQ := List.replicate 32 (queued .st) }).me.storeQ.length ∧
    (match State.reset.acqOperand (2 ^ 35) 0 with | .error c => c | .ok _ => 0) = 0x12 ∧
    (match State.reset.acqOperand 0 3 with | .error _ => false | .ok _ => true) = true ∧
    (let s := inCtx fun c => { c with residue := [slotOp 0 (.acq 0 3) 2] }
     s.phase ≠ 0 ∧ 2 ≤ s.phase ∧ (s.stepAcquire 0 0).1 = true ∧ (s.stepAcquire 0 0).2.act = s.act ∧ (s.stepAcquire 0 0).2.accessesDone 4 = true) ∧
    State.reset.me.rd 0 = 0 ∧ (∀ v ∈ (State.reset.arr 0).vc, v.st = .view ∨ v.st = .own) := by decide +kernel

/-- Context 0 acquires from ring 144 up to a tail, having read to a position. -/
def acquiring (r : Ring) (tail pos : Nat) : State :=
  { inCtx fun c => { c with residue := [slotOp 0 (.acq 1 3) 2], pos := [(7, pos)], acquire := some ⟨3, [⟨7, 144, tail, false, 2, 0⟩], false⟩ } with
    rings := [r] }

theorem acquiring_sound (r : Ring) (tail pos : Nat) : NoPoison (acquiring r tail pos) := ⟨noLineErrors_of rfl rfl nofun, fun _ => rfl⟩

theorem witness_OrderingOps_acquire :
    (∀ e ∈ [(ring144, 1, 0), ({ ring144 with slot := 0, fold := 1, tail := 1, pub := 1 }, 1, 1), ({ ring144 with slot := 0, fold := 6, tail := 6, pub := 6 }, 6, 1),
        ({ ring144 with slot := 0, n := 4096, fold := 3000, tail := 3000, pub := 3000 }, 3000, 0), ({ ring144 with slot := 0, fold := 1, tail := 1, pub := 1 }, 1, 0)],
      let s := acquiring e.1 e.2.1 e.2.2
      s.phase ≠ 0 ∧ s.ring? 144 = some e.1 ∧ e.1.seen = [] ∧ 7 < remoteKey ∧ Sparse.get 0 s.me.pos 7 = e.2.2) ∧
    ring144.fold < 1 ∧ ((acquiring { ring144 with slot := 0, fold := 6, tail := 6, pub := 6 } 6 1).sample { ring144 with slot := 0, fold := 6, tail := 6, pub := 6 }).2.1 = 2 ∧
    ((acquiring { ring144 with slot := 0, fold := 1 } 1 0).sample { ring144 with slot := 0, fold := 1, tail := 1, pub := 1 }).2.1 = 0 ∧ 2048 < 3000 - 0 ∧
    ({ ring144 with slot := 0, fold := 1, tail := 1, pub := 1 }).walkRecs 0 1 = .overrun ∧
    (let s := inCtx fun c => { c with residue := [slotOp 0 (.acq 1 3) 2], acquire := some ⟨4, [⟨remoteKey, 0, 1, true, 2, 1⟩], true⟩ }
     s.me.acquire = some ⟨4, [⟨remoteKey, 0, 1, true, 2, 1⟩], true⟩) := by decide +kernel

theorem witness_WatchesAndMwait :
    (let s := inCtx fun c => { c with watch := c.watch.set 3 { armed := true, pa := 0x200008, size := 8, satisfied := true } }
     (s.me.satisfied).toNat = 8 ∧ ((s.ctxOf 0 0).watch[(3 : Fin 8)]).armed = true ∧ s.phase = 0) ∧ (State.reset.me.satisfied).toNat = 0 ∧
    State.reset.me.spurious = 0 ∧ (State.reset.me.rd 0).toNat ≤ State.reset.now ∧ caught.now < (caught.me.rd 1).toNat := by decide +kernel

/-- A fill of 8 bytes at DVA 0x10008. -/
def fill : CopyJob :=
  { id := 0, op := 0x22, arr := 0, ctx := 0, job := 0, gd := 4, ga := 9, gb := 0x10008, th := BitVec.ofNat 512 (2 ^ 320 + 8 * 2 ^ 352), opt := false,
    stampNo := 0, asid := 0, sec := false, rank := 0, seg := 0, row := 0, col := 0, bytes := 0, clip := false, status := 0, srcBuf := [], asBuf := none,
    asWait := 0, pageWait := none, stamped := false, stopped := false, done := false, token := false, stage := 0, bulk := false, sent := [], part := none, asBad := false, got := none,
    stale := false, upto := 0, ready := false, team := 0, away := false }

theorem witness_CopiesRunAndComplete :
    (State.reset.copyQ 0 true).length < 16 ∧ (State.reset.copyQ 0 false).length < 16 ∧
    (let s := (mapped 2).modArr 0 fun x => { x with near := [fill] }
     s.copyQ 0 false = [fill] ∧ fill.shape = 0 ∧ fill.row < fill.rows ∧ fill.dspace = 0 ∧
       (match s.gather 0 false fill 0 (fill.beatEnd - 0) with | .ready n => n | _ => 99) = 8 ∧ fill.dest 0 0 = 0x10008 ∧
       s.copyAccess 0 false fill .copyWrite 0x10008 = (.ok ⟨0x200008, .sync, false⟩, s) ∧ rangeOf 0x200008 = .hbm ∧ 0x200008 % 64 + 8 ≤ 64) ∧
    { fill with th := 0 }.shape ≠ 0 ∧ { fill with row := 1 }.rows ≤ { fill with row := 1 }.row ∧ fill.sent = [] ∧
    { fill with sent := [(3, 1)] }.sent ≠ [] ∧ { fill with status := 2 }.status ≠ 0 ∧ 16 ≤ ((State.reset.modArr 0 fun x => { x with near := List.replicate 16 fill }).copyQ 0 false).length ∧ ({ fill with pageWait := some 0 }).pageWait.isSome = true ∧
    (State.reset.ctxOf 0 0).nodeSeg ≤ fill.seg := by
  and_intros <;> first | decide +kernel | exact access_of (by decide +kernel) (by decide +kernel)

/-- A copy of a kind to a space, with JOIN or not. -/
def copyTo (op space : Nat) (join : Bool) (gb : Word) : CopyJob :=
  { fill with op := op, gb := gb, th := BitVec.ofNat 512 (2 ^ 320 + (if space = 0 then 8 else 32) * 2 ^ 352 + 4 * space + (if join then 16 else 0)) }

/-- The state in which it is the head of the near queue of array 0's engine. -/
def copying (j : CopyJob) (s : State) : State := s.modArr 0 fun x => { x with near := [j] }

theorem witness_CopiesRunAndComplete_stages :
    (copying (copyTo 0x21 1 true 0) State.reset).copyQ 0 false = [copyTo 0x21 1 true 0] ∧
    (let j := copyTo 0x21 1 true 0
     j.joins = true ∧ (copyTo 0x21 1 false 0).joins = false ∧ j.pageWait = none ∧ j.done = false ∧ j.asBuf = none ∧
       { j with asWait := 2, stage := 1 }.asWait = 2 ∧ j.dsbase + j.dest j.row j.col / 32 * 4 = 0 ∧
       (copyTo 0x21 1 true 0x400).dsbase + (copyTo 0x21 1 true 0x400).dest 0 0 / 32 * 4 = 128) ∧
    ({ State.reset with images := [planned] }).copyAsOk (copyTo 0x21 1 true 0) 0 4 = true ∧
    ({ State.reset with images := [planned] }).copyAsOk (copyTo 0x21 1 true 0) 128 4 = false := by
  and_intros <;> decide +kernel

theorem witness_CopiesRunAndComplete_stamps :
    (∀ e ∈ [0, 8, 64],
      let gb := BitVec.ofNat 64 e
      let j := { copyTo 0x23 1 false gb with opt := true, row := 1 }
      j.rows ≤ j.row ∧ j.dspace = 1 ∧ j.sent = [] ∧ j.part = none ∧ j.stamped = false ∧ j.gb.toNat + j.rows * j.drs = gb.toNat) ∧
    (copying fill { State.reset with images := [planned] }).copyAsOk (copyTo 0x23 1 false 0) 0 32 = true ∧
    (copying fill { State.reset with images := [planned] }).copyAsOk (copyTo 0x23 1 false 64) 64 32 = false ∧
    (let j := { copyTo 0x23 0 false 4 with opt := true, row := 1 }
     j.dspace = 0 ∧ (j.gb.toNat + j.rows * j.drs) % 8 ≠ 0) ∧
    (let j := { fill with row := 1, part := some (1, ⟨0, 0, 0, false, 0, [(0, [5])]⟩) }
     j.rows ≤ j.row ∧ j.part = some (1, ⟨0, 0, 0, false, 0, [(0, [5])]⟩)) := by decide +kernel

theorem witness_CopiesRunAndComplete_stampStore :
    let j := { copyTo 0x23 0 false 0x10008 with opt := true, row := 1 }
    j.dspace = 0 ∧ j.gb.toNat + j.rows * j.drs = 0x10008 ∧
      ((copying j (mapped 2)).copyAccess 0 false j .copyWrite 0x10008).1.toOption = some ⟨0x200008, .sync, false⟩ := by decide +kernel

theorem witness_CopiesRunAndComplete_source :
    (let j := { copyTo 0x21 0 false 0x10008 with ga := 0x10008, th := fill.th ||| BitVec.ofNat 512 (2 ^ 192 + 8 * 2 ^ 224) }
     let s := copying j (mapped 2)
     j.shape = 0 ∧ j.row < j.rows ∧ j.srcAs = false ∧ j.joins = false ∧ j.col < j.beatEnd ∧ (j.source 0 0).1 = .inr 0x10008 ∧ j.srcBuf = [] ∧
       (s.copyAccess 0 false j .copyRead 0x10008).1.toOption = some ⟨0x200008, .sync, false⟩ ∧ rangeOf (64 * (0x200008 / 64)) = .hbm) ∧
    (let j := { copyTo 0x24 0 false 0x10008 with ga := 0x10008, th := fill.th ||| BitVec.ofNat 512 (2 ^ 192 + 8 * 2 ^ 224), srcBuf := [(0x400, 0)] }
     let s := copying j (mapped 2)
     j.shape = 0 ∧ (match s.gather 0 false j 0 (j.beatEnd - 0) with | .ready n => n | _ => 99) = 8 ∧ j.elem = 4 ∧
       (s.copyAccess 0 false j .copyReduce 0x10008).1.toOption = some ⟨0x200008, .sync, false⟩ ∧ (0 + 1) * j.elem ≤ 8 ∧
       (fp32.value (valueAt s (0x200008 + 0 * j.elem) j.elem)).number = some 0 ∧
       (fp32.value (bytesToNat ((List.range j.elem).map fun i => j.byteAt (0 * j.elem + i)))).number = some 0) := by decide +kernel

theorem witness_CopiesRunAndComplete_logged :
    let s := copying fill { (mapped 0).modCtx 0 0 fun c => { c with ring := 144 } with rings := [ring144] }
    let x := s.ctxOf 0 0
    (match s.gather 0 false fill 0 (fill.beatEnd - 0) with | .ready n => n | _ => 99) = 8 ∧
    (s.copyAccess 0 false fill .copyWrite 0x10008).1.toOption = some ⟨0x200008, .logged, false⟩ ∧ s.ring? x.ring = some ring144 ∧
    ring144.tail - ring144.pub + x.buf.length + 1 ≤ ring144.n - 1 ∧ s.roomy ring144 = true ∧ x.indexRoom 0x8000 = true ∧ x.buf = [] ∧ x.storeQ = [] := by
  decide +kernel

/-- A team of one task on context 0 of array 0, and its map. -/
def team5 : Team :=
  { id := 5, job := 1, queue := 0, asid := 0, sec := false, image := 0, param := 0, sync := 0, ringsW := [], ntasks := 1, chain := 1, ringsz := 4, quantum := 16,
    tsize := 1, first := 0, tasks := [{ rank := 0, larr := 0, arr := 0, ctx := 0, placed := true, ended := false, ring := 144, node := false }], map := [⟨0, true, 0, true⟩], placed := true, placedAc := 0, request := none,
    wdAc := none, everPlaced := true, dead := false, relaunch := false, tokens := [] }

theorem witness_MessagesAreSentAndReceived :
    (let s := { inCtx fun c => { c with team := 5 } with teams := [team5], images := [planned], cycle := 1 }
     peerClean (s.me.rd 0) = true ∧ peerOffset (s.me.rd 0) = 0 ∧ s.peer 5 (s.me.rd 0) = .here 0 0 ∧ s.me.asstPending 0 = false ∧
       (s.planOf s.me).holds 0 32 = true ∧ s.me.etagCovers 2 = false) ∧ (caught.me.rd 2).toNat % 32 ≠ 0 ∧
    (let s := { inCtx fun c => { c with team := 5 } with teams := [{ team5 with tsize := 2, map := [⟨0, false, 0, true⟩] }], cycle := 1 }
     s.peer 5 0 = .invalid ∧ s.peer 5 (2 ^ 24) = .outside ∧ s.peer 5 (2 ^ 31 + 2 ^ 32) = .away 1) ∧
    (inCtx fun c => { c with residue := [slotOp 0 (.send 1 2 0) 1], descBuf := [(8, 3)] }).me.descBuf.find? (·.1 == 8) = some (8, 3) ∧
    State.reset.me.rings[(0 : Fin 4)].log2n = 0 ∧
    (let s := inCtx fun c => { c with rings := c.rings.set 1 { log2n := 3, base := 64, head := 64, tail := 64 } }
     s.me.rings[(1 : Fin 4)].log2n ≠ 0 ∧ (s.arr 0).full 2 = false ∧ ((s.modArr 0 fun x => { x with tags := [(2, true)] }).arr 0).full 2 = true) ∧
    (let m : NetMsg := ⟨1, 0, none, some (0, 1), 2, 7, 0xFFFFFFFF, true, none, none⟩
     m.posted = true ∧ m.remote = none ∧ m.ring = some (0, 1) ∧ ¬(m.src = 0 ∧ m.srcCtx = 0)) := by decide +kernel

/-- CPYX of 32 bytes to a peer: `gb` names it. -/
theorem witness_CopiesRunAndComplete_peers :
    let at_ := fun (t : Team) => { (inCtx fun c => { c with team := 5 }) with teams := [t], images := [planned], cycle := 1 }
    let sent := fun (t : Team) (gb : Word) =>
      let j := copyTo 0x25 2 false gb
      ((at_ t).issuer j).team.toNat = 5 ∧ j.dspace = 2 ∧ j.shape = 0 ∧
        (match (copying j (at_ t)).gather 0 false j 0 (j.beatEnd - 0) with | .ready n => n | _ => 99) = 32 ∧ j.dest 0 0 % 32 + 32 ≤ 32
    let one := { team5 with tsize := 2, map := [⟨0, false, 0, true⟩] }
    sent one 0 ∧ (at_ one).peer 5 0 = .invalid ∧ sent one (2 ^ 24) ∧ (at_ one).peer 5 (2 ^ 24) = .outside ∧
    sent one (2 ^ 31 + 2 ^ 32) ∧ (at_ one).peer 5 (2 ^ 31 + 2 ^ 32) = .away 1 ∧ (at_ one).copyAsOk (copyTo 0x25 2 false 0) 0 32 = true ∧
    sent team5 0 ∧ (at_ team5).peer 5 0 = .here 0 0 ∧ (copyTo 0x25 2 false 0).bulk = false ∧
    (at_ team5).copyAsOk (copyTo 0x25 2 false 64) 64 32 = false ∧
    (let t := { team5 with map := [⟨1, true, 0, true⟩] }
     (at_ t).peer 5 0 = .here 1 0 ∧ ((at_ t).arr 1).net = []) ∧
    (let m : NetMsg := ⟨2, 0, none, none, 1, 7, 0xFF, true, some 4, none⟩
     ((State.reset.modArr 1 fun x => { x with net := [m] }).arr 1).net = [m] ∧ m.posted = true) := by decide +kernel

theorem witness_CopiesRunAndComplete_tokens :
    (let j := { fill with done := true, away := true, team := 5 }
     let s := copying j { State.reset with teams := [team5] }
     s.copyQ (0 : ArrId).val false = [j] ∧ j.bulk = false ∧ j.stopped = false ∧ (s.team? 5).isSome = true ∧ j.gd ≠ 0) ∧
    ((copying { fill with done := true } (inCtx fun c => { c with nodeSeg := 1 })).ctxOf 0 0).nodeSeg = 1 := by decide +kernel

theorem witness_BarriersCompleteTogether :
    State.reset.mayArrive 2 3 = true ∧ (inCtx fun c => { c with arrived := [(2, 3, 0)] }).mayArrive 2 3 = false ∧ State.reset.me.skip = 0 ∧ (slotOp 3 (.bar 3 2) 1).phase ≠ 0 ∧
    0 < (inCtx fun c => { c with skip := 1 }).me.skip ∧
    (let s := { inCtx fun c => { c with team := 5, arrived := [(2, 3, 0)] } with teams := [team5], barriers := [⟨0, 5, 2, 0, 3, 0, [0]⟩] }
     s.barriers.find? (·.no == 0) = some ⟨0, 5, 2, 0, 3, 0, [0]⟩ ∧ (∀ r ∈ s.participants ⟨0, 5, 2, 0, 3, 0, [0]⟩, r ∈ [0]) ∧ s.team? 5 = some team5 ∧ barrierUnit 2 0 = 0 ∧
       (s.ctxOf 0 0).team.toNat = 5 ∧ (s.ctxOf 0 0).arrived = [(2, 3, 0)]) := by decide +kernel

/-! Sequencer, logs and scheduler. -/

theorem witness_SequencerTurns :
    (let s := inCtx fun c => { c with run := .active, residue := [slotOp 0 (.add 4 2 3) 0] }
     (s.arr 0).running = 0 ∧ (s.ctxOf 0 0).run = .active ∧ (s.ctxOf 0 0).residue ≠ [] ∧ (s.ctxOf 0 0).todo = []) ∧
    (let x := (inArr fun x => { x with able := 8 }).arr 0
     x.able.getLsbD (x.running + 3).val = true ∧ ∀ j : CtxId, j ≠ 0 → j < 3 → x.able.getLsbD (x.running + j).val = false) ∧
    (∀ j : CtxId, j ≠ 0 → (State.reset.arr 0).able.getLsbD ((State.reset.arr 0).running + j).val = false) ∧
    (let x := (inArr fun x => { x with able := 1 }).arr 0
     x.gated = true ∧ x.able.getLsbD x.running.val = true) ∧
    (let x := (inArr fun x => { x with holder := some 1, reqs := x.reqs.set 0 true }).arr 0
     x.holder = some 1 ∧ x.reqs[(1 + 3 : CtxId)] = true ∧ ∀ j : CtxId, j ≠ 0 → j < 3 → x.reqs[1 + j] = false) ∧
    (let x := (inArr fun x => { x with holder := some 1 }).arr 0
     ∀ j : CtxId, j ≠ 0 → x.reqs[1 + j] = false) := by decide +kernel

/-- Context 0 with ring 144, whose release is at a step. -/
def releasing (step : Nat) (l : List BufEntry) : State :=
  { inCtx fun c => { c with run := .active, ring := 144, buf := l } with rings := [{ ring144 with slot := 0, release := some ⟨step, 4, false, false, false, 0, 0⟩ }] }

theorem witness_LogsAreWrittenAndStamped :
    (let s := { inCtx fun c => { c with ring := 144, buf := [⟨0x8000, .logged, 0, 1, 5, 0⟩] } with rings := [ring144], cycle := 256 }
     s.ring? (s.ctxOf 0 0).ring = some ring144 ∧ ring144.release = none ∧ s.roomy ring144 = true ∧
       (s.ctxOf 0 0).buf = [⟨0x8000, .logged, 0, 1, 5, 0⟩] ∧ 0 + 256 ≤ s.now) ∧
    ((releasing 2 []).ctxOf 0 0).buf = [] ∧ (releasing 2 []).ringCtx { ring144 with slot := 0 } = some (0, 0) ∧ (releasing 3 []).anns = [] ∧
    (let r := { ring144 with release := some ⟨1, 4, false, false, false, 0, 0⟩ }
     ({ inCtx fun c => { c with ring := 144 } with rings := [r] }).mayAppend r ⟨1, 4, false, false, false, 0, 0⟩ = true) ∧
    (let s := { State.reset with rings := [Ring.fixed 128] }
     s.pubAddr (Ring.fixed 128) = some s.visible ∧ s.visible % 64 = 0 ∧ rangeOf s.visible = .hbm ∧ 128 ≤ (Ring.fixed 128).slot) ∧
    (let n : Ann := ⟨144, 0, 0, 0, 1⟩
     let m : Ann := ⟨145, 1, 0, 0, 1⟩
     ({ State.reset with anns := [n] }).windowOrder[0]? = some n ∧ State.reset.carriedAnns = [] ∧
       (n.slot + 128 - State.reset.winNo % 128) % 128 < (m.slot + 128 - State.reset.winNo % 128) % 128) ∧
    (let g : Seg := ⟨144, 0, 0, 0, 1, 129, 0, 0, [], []⟩
     let s := { releasing 4 [] with segs := [g] }
     s.segs = [g] ∧ g.ring = (s.ctxOf 0 0).ring ∧ g.known ≤ s.now ∧ s.asks = [] ∧ s.pubAddr { ring144 with slot := 0 } = none ∧ g.stamp ≠ 0 ∧ (⟨4, 4, false, false, false, 0, 0⟩ : Release).seq = g.rel) := by
  decide +kernel

theorem witness_LogsAreWrittenAndStamped_forced :
    (let e := { queued .st with kind := .logged }
     let r := { ring144 with tail := 3 }
     let s := { inCtx fun c => { c with ring := 144, storeQ := [e] } with rings := [r] }
     s.ring? (s.ctxOf 0 0).ring = some r ∧ (s.ctxOf 0 0).storeQ = [e] ∧ e.op = .st ∧ e.kind.isLogged = true ∧ e.phase = 0 ∧ e.order = 0 ∧
       r.release = none ∧ (s.ctxOf 0 0).buf = [] ∧ r.n ≤ r.tail - r.pub + 0 + 1) ∧
    (let r := { ring144 with slot := 0, release := some ⟨3, 5, false, true, false, 0, 0⟩ }
     let s := { inCtx fun c => { c with run := .active, ring := 144 } with rings := [r] }
     s.anns = [] ∧ s.ringCtx r = some (0, 0) ∧ (s.ctxOf 0 0).queue < 64) ∧
    State.reset.roomy { ring144 with tail := 4 } = false := by decide +kernel

/-- A record of line 0x8000. -/
def rec8000 : Record := ⟨0x8000, 0, 0, 0xF, 0x01020304, 0, false, false, false, false, false, false, 0⟩

theorem recOk_of (r : Record) (c : BitVec 64) (h : c = crc64 (recBytes r)) : recOk { r with crc := c } = true := by
  have k : recBytes { r with crc := c } = recBytes r := rfl
  unfold recOk
  rw [k, ← h]
  exact beq_self_eq_true c

/-- The record with its own CRC. -/
def goodRecord : Record := { rec8000 with crc := crc64 (recBytes rec8000) }

theorem witness_recOk : recOk goodRecord = true := recOk_of _ _ rfl

theorem witness_OrderingOps_walk :
    ({ ring144 with recs := [(0, some goodRecord)] }).walkRecs 0 1 = .lines [0x8000] ∧
    rangeOf (64 * State.reset.named 0x8000) = .hbm ∧ State.reset.pageRetired (64 * State.reset.named 0x8000) = false ∧
    ({ ring144 with recs := [(0, some { goodRecord with crc := goodRecord.crc + 1 })] }).walkRecs 0 1 = .crc := by
  have step : ∀ r : Record, r.seq = 0 → ({ ring144 with recs := [(0, some r)] }).walkRecs 0 1 =
      if !recOk r then .crc else .lines (if r.rel then [] else [] ++ [r.line.toNat]) := by
    intro r h
    show (if r.seq.toNat != 0 then Walk.overrun else _) = _
    rw [h]
    rfl
  refine ⟨?_, by decide +kernel, by decide +kernel, ?_⟩
  · rw [step _ rfl, witness_recOk]
    rfl
  · have bad : recOk { goodRecord with crc := goodRecord.crc + 1 } = false := by
      unfold recOk
      have same : ∀ (r : Record) (c : BitVec 64), recBytes { r with crc := c } = recBytes r := fun _ _ => rfl
      rw [same, show recBytes goodRecord = recBytes rec8000 from same _ _, show goodRecord.crc = crc64 (recBytes rec8000) from rfl]
      generalize crc64 (recBytes rec8000) = x
      rw [beq_eq_false_iff_ne]
      intro h
      bv_omega
    rw [step _ rfl, bad]
    rfl

theorem witness_FoldingAppliesRecords :
    (let h := homeSlice 0x8000
     let g : Seg := ⟨144, 0, 0, 1, BitVec.ofNat 128 (2 ^ h), 129, 0, 0, [], []⟩
     let r : Ring := { ring144 with slot := 0, recs := Sparse.set none [] 0 (some goodRecord), tail := 2, pub := 2 }
     let f : PFold := ⟨3, 0, 144, 0, 129, 0x8000, true, none, rec8000, 0, [], 0, 0, true, 0, false, 0, false⟩
     let s := { State.reset with rings := [r], segs := [g] }
     s.folds = [] ∧ s.holds = [] ∧ s.forwards = [] ∧ s.redirects = [] ∧ s.peerRecs = [] ∧ g.touch.getLsbD h = true ∧ g.reported.getLsbD h = false ∧
       Sparse.get g.first g.next h = 0 ∧ 0 < g.rel ∧ s.ring? 144 = some r ∧ r.recs.get none 0 = some goodRecord ∧ goodRecord.kind = 0 ∧
       rangeOf (64 * 0x8000) = .hbm ∧ s.pageRetired (64 * 0x8000) = false ∧ g.rel < r.pub ∧ Sparse.get g.first (Sparse.set 0 g.next h 1) h = g.rel ∧
       f.line = goodRecord.line.toNat ∧ homeSlice goodRecord.line.toNat = h ∧ { g with reported := g.touch }.touch &&& ~~~{ g with reported := g.touch }.reported = 0 ∧ r.next = none ∧
       r.frees = false ∧ s.pubAddr r = none ∧ { s with folds := [f] }.lineHeld 0x8000 = true ∧ s.lineHeld 0x8000 = false) ∧
    (let s := State.reset
     s.windowAt (64 * 0x8000) = none ∧ s.adopted 0x8000 = none ∧ s.isolatedAt 0x8000 = false ∧ s.physFault (64 * 0x8000) false .logged = none ∧
       s.privateAt (64 * 0x8000) = false ∧ s.sealedAt (64 * 0x8000) = false ∧ s.physFault s.visible false .logged = some (fPhys, 0x0021) ∧
       s.visible % 64 = 0 ∧ rangeOf s.visible = .hbm) ∧
    (let f : PFold := ⟨3, 0, 144, 0, 129, 0x8000, true, none, rec8000, 0, [], 0, 0, true, 0, false, 0, false⟩
     ({ State.reset with folds := [f] }).folds = [f] ∧ f.peer = true ∧ f.tag = 3) := by
  and_intros <;> first | decide +kernel | rfl

/-- A card: fields of a number of bytes at their offsets. -/
def cardOf (fields : List (Nat × Nat × Nat)) : List Byte :=
  Memory.bytes (fields.foldl (fun m e => Memory.store m e.1 (natToBytes e.2.1 e.2.2)) []) 0 256

/-- Queue 0 runs, and its next card is the one given. DVAs below 2^29 are pages of sync kind at 2^29. -/
def queued0 (card : List Byte) : State :=
  { State.reset.modQueue 0 fun q => { q with st := 1, log2e := 4, tail := 1, vmaj := 1, vmin := 1, base := 0x400 } with
    atbrBase := 0x10, atbrEna := true
    mem := Memory.store (Memory.store (Memory.store (Memory.store [] 0x40000 card) 0x100000 (natToBytes 8 0x110001)) 0x110000 (natToBytes 8 0x120001))
      0x120000 (natToBytes 8 (0x20000000 + 2 + 8 + 32)) }

theorem witness_CardsBecomeJobs_admit :
    (let card := cardOf [(0, 8, 1), (8, 1, 5), (10, 1, 1), (11, 1, 1)]
     let s := queued0 card
     let x := s.queue 0
     s.admitReady 0 = true ∧ card = s.cardAt x ∧ cardBits card x.vmin = true ∧ cardNat card 11 1 = x.vmaj ∧ cardNat card 10 1 = x.vmin ∧
       s.dueSeq x.asid ≤ cardNat card 0 8 ∧ cardRegions card = some [] ∧ x.st ≠ 0 ∧ ¬(2 ^ x.log2e.toNat < (17 - 1 - x.head).toNat) ∧
       2 ^ x.log2e.toNat < ((17 : BitVec 16) - x.head).toNat) ∧
    (let s := { queued0 [] with srt := State.reset.srt.set 0 { base := 4, limit := 4, valid := true } }
     s.admitReady 0 = true ∧ (s.queue 0).sec = false ∧ s.secureAt 0x40000 = true) ∧
    (let card := cardOf [(8, 1, 5), (10, 1, 1), (11, 1, 1)]
     (queued0 card).admitReady 0 = true ∧ cardNat card 0 8 < (queued0 card).dueSeq 0) ∧
    cardBits (cardOf [(8, 1, 8)]) 1 = false ∧ cardRegions (cardOf [(64, 8, 2 ^ 60), (72, 4, 1)]) = none ∧
    cardRegions (cardOf [(64, 8, 2 ^ 55 - 1), (72, 4, 1)]) = some [⟨2 ^ 55 - 1, 2 ^ 55 - 1, false⟩] := by decide +kernel

theorem tagHolds_of (s : State) (m : Image) : s.tagHolds { m with tag := s.sealTagOf m.box m.sec } = true := by
  unfold State.tagHolds Image.box
  exact beq_self_eq_true _

theorem witness_CardsBecomeJobs_commands :
    (queued0 []).cardWord 0 8 true = some 0x20000008 ∧ (queued0 []).cardWord 0 4 false = none ∧ (queued0 []).syncOk {} 0x10000 = true ∧
    (queued0 []).syncOk {} 8 = false ∧ (queued0 []).shapeOk (cardOf [(56, 1, 1), (57, 1, 1)]) {} = true ∧
    (queued0 []).shapeOk (cardOf [(56, 1, 33), (57, 1, 1)]) {} = false ∧ (queued0 []).image? 0 = none ∧ image.sec = ((queued0 []).queue 0).sec ∧
    (∃ t, (queued0 []).tagHolds { image with tag := t } = true) := by
  and_intros <;> first | decide +kernel | exact ⟨_, tagHolds_of _ _⟩

theorem witness_CardsBecomeJobs_release :
    ({ State.reset with rings := [{ Ring.fixed 136 with release := some ⟨3, 7, false, false, false, 0, 0⟩ }] }).releasing 136 = true ∧
    (∃ r, State.reset.ring? 136 = some r) ∧ State.reset.releasing 136 = false ∧ (State.reset.queue 0).st = 0 ∧
    (queued0 []).abortAt 0 false 8 = none ∧ (∀ i < 64, (queued0 []).abortAt 0 false (8 + 65536 * i) = none) :=
  ⟨by decide +kernel, ⟨Ring.fixed 136, rfl⟩, by and_intros <;> decide +kernel⟩

/-- Job 1 of queue 0. -/
def job1 (cmd : Nat) (st : JobState) (body : List Byte) : Job :=
  { id := 1, seq := 1, idx := 0, queue := 0, asid := 0, cmd := cmd, irq := false, global := false, body := body, regions := [], st := st, failed := false, readyAc := 0,
    steps := 0, promoted := false, team := 0, rings := [] }

/-- The same with those DVAs mapped to host memory, pages of host-coherent kind. -/
def farMapped : State :=
  { queued0 [] with mem := Memory.store (queued0 []).mem 0x120000 (natToBytes 8 (Config.hostBase + 2 + 16 + 32)) }

theorem witness_LogsAreWrittenAndStamped_far :
    (let r := { ring144 with slot := 0, team := 5 }
     let s := { farMapped with teams := [{ team5 with sync := 0x10000 }], rings := [r] }
     s.pubAddr r = some (Config.hostBase + 0x10000) ∧ s.ours ((Config.hostBase + 0x10000) / 64) = false ∧
       s.secureAt (Config.hostBase + 0x10000) = false) := by decide +kernel

theorem witness_JobsAdvance :
    (∀ cmd ∈ [1, 2, 5, 4], ({ queued0 [] with jobs := [job1 cmd .waiting []] }).jobDue (job1 cmd .waiting []) = true) ∧
    (let j := job1 4 .waiting (cardOf [(16, 8, 8), (24, 8, 5)])
     (queued0 []).cardWord j.queue (cardNat j.body 16 8) true = some 0x20000008 ∧ 0x20000008 % 8 = 0 ∧ rangeOf (64 * (0x20000008 / 64)) = .hbm ∧
       farMapped.cardWord j.queue (cardNat j.body 16 8) true = some (Config.hostBase + 8) ∧ farMapped.ours ((Config.hostBase + 8) / 64) = false ∧
       { farMapped with jobs := [job1 4 .waiting []] }.jobDue (job1 4 .waiting []) = true) ∧
    (let j := job1 3 .waiting (cardOf [(16, 8, 8)])
     let s := { queued0 [] with jobs := [j] }
     s.stampMet 0 = some j ∧ s.job? 1 = some j) ∧
    (let i := job1 3 .waiting (cardOf [(16, 8, 8), (24, 8, 1)])
     let j := { job1 1 .waiting [] with id := 2, seq := 2 }
     let s := { queued0 [] with jobs := [i, j] }
     s.job? 2 = some j ∧ i ∈ s.jobs ∧ i.queue = j.queue ∧ i.seq < j.seq ∧ s.jobDue j = false) ∧
    (queued0 []).chooseEngine ((queued0 []).jobPool (job1 2 .ready [])) = some 0 ∧ 255 ≤ { job1 1 .ready [] with steps := 255 }.steps := by decide +kernel

/-- Job `n` of queue 0 touches DVAs 0 to 63, writing them or not. -/
def jobOn (n : Nat) (write : Bool) (st : JobState) : Job :=
  { job1 1 st [] with id := n, seq := n, regions := [⟨0, 63, write⟩] }

theorem witness_JobsAdvance_edges :
    edgeOf (jobOn 1 true .waiting) (jobOn 2 false .waiting) = .afterFold ∧ edgeOf (jobOn 1 true .waiting) (jobOn 2 true .waiting) = .afterFold ∧
    edgeOf (jobOn 1 false .waiting) (jobOn 2 true .waiting) = .afterDone ∧ edgeOf (jobOn 1 false .waiting) (jobOn 2 false .waiting) = .none ∧
    edgeOf { job1 1 .waiting [] with id := 1, global := true, regions := [⟨0, 2 ^ 55 - 1, true⟩] } (jobOn 2 true .waiting) = .afterFold ∧
    (jobOn 1 true .placed).complete = false ∧
    (let i := { jobOn 1 true .folding with cmd := 1, rings := [144] }
     i.complete = true ∧ ({ State.reset with rings := [{ ring144 with pub := 1 }] }).jobFolded i = false) := by decide +kernel

theorem witness_JobsAdvance_failed :
    (let j := { jobOn 1 true .waiting with failed := true }
     let i := jobOn 2 true .waiting
     let s := { State.reset with jobs := [j, i] }
     s.job? 1 = some j ∧ s.jobDue j = true ∧ i.id ≠ 1 ∧ edgeOf j i ≠ .none ∧ s.dependsOn j i = true ∧
       ∀ k ∈ ({ State.reset with jobs := [j] }).jobs, ({ State.reset with jobs := [j] }).dependsOn j k = false) ∧
    (let j := job1 3 .waiting (cardOf [(16, 8, 2 ^ 29)])
     let s := { queued0 [] with jobs := [j] }
     s.stampMet 0 = some j ∧ s.cardWord 0 (cardNat j.body 16 8) false = none) := by decide +kernel

/-- Queue 0 has a ready LAUNCH of one task; with `t` its team has been placed before. -/
def launching (t : List Team) : State :=
  { queued0 [] with
    jobs := [job1 1 .ready (cardOf [(16, 8, 0), (32, 8, 0x10000), (56, 1, 1), (57, 1, 1)])], teams := t, images := [image] }

theorem witness_TeamsArePlacedAndStopped_place :
    (let s := launching []
     let j := job1 1 .ready (cardOf [(16, 8, 0), (32, 8, 0x10000), (56, 1, 1), (57, 1, 1)])
     (s.jobFit j).map (fun e => (e.2.1, e.2.2.2, s.freeSlot e.2.2.1 0, s.toScrub e.2.2.1 [[0]])) = some (image, [[0]], some 0, []) ∧ s.pstate ≠ 1 ∧ cardNat j.body 56 1 = 1 ∧ j.failed = false) ∧
    (let k : Task := ⟨0, 0, 0, 0, false, false, 144, true, none⟩
     let t := { team5 with everPlaced := true, placed := false, tasks := [k], sync := 0x10000 }
     let s := { launching [t] with mem := Memory.store (launching []).mem 0x20110000 (natToBytes 8 (7 + 2 ^ 48)) }
     s.team? 5 = some t ∧ t.job = 1 ∧ k.ended = false ∧ (s.nodeRecord t k).map (fun r => (cardNat r 0 4, cardNat r 7 1)) = some (7, 0)) := by
  decide +kernel

theorem witness_TeamsArePlacedAndStopped_stop :
    (let s := { (queued0 []).modCtx 0 0 fun c => { c with run := .parked, team := 5 } with teams := [{ team5 with request := some none }] }
     s.team? 5 = some { team5 with request := some none } ∧ s.preemptReady { team5 with request := some none } = true) ∧
    (let s := { queued0 [] with teams := [team5], cycle := 175000000 }
     s.t1Due 0 = true) ∧
    (let s := { queued0 [] with teams := [{ team5 with wdAc := some 0 }], cycle := 700000000 }
     s.t2Due { team5 with wdAc := some 0 } = true ∧ s.susp = none) ∧
    State.reset.idleArr 31 = true ∧ team5.map[0]? = some ⟨0, true, 0, true⟩ := by decide +kernel

/-- A gang of tasks in chains. -/
def gangOf (chain tasks : Nat) : Gang := { sec := false, plan := {}, chain := chain, ringsz := 8, tasks := tasks, rings := [] }

theorem witness_TeamsArePlacedAndStopped_gangs :
    State.reset.gangFit (gangOf 1 1) = some [[0]] ∧ State.reset.gangFit (gangOf 1 2) = some [[0], [1]] ∧
    State.reset.gangFit (gangOf 2 1) = some [[0, 1]] ∧ State.reset.gangFit (gangOf 4 1) = some [[0, 1, 8, 9]] ∧
    (∀ b, State.reset.leaderOk (gangOf 1 1) false b = false) ∧ State.reset.leaderOk (gangOf 1 1) true 0 = true ∧
    ({ bufs := [⟨0, 64, 1, 0, 0⟩], mCount := 8, oCount := 1, latches := 1, eaCount := 4 } : Plan).apart
      { bufs := [⟨64, 64, 2, 0, 0⟩], mFirst := 8, mCount := 8, oFirst := 1, oCount := 1, latches := 2, eaFirst := 4, eaCount := 4 } = true := by
  decide +kernel

theorem witness_TeamsArePlacedAndStopped_scrub :
    let s := { launching [] with arrays := (launching []).arrays.map fun x : Arr => { x with sec := true, scrubbed := false } }
    let j := job1 1 .ready (cardOf [(16, 8, 0), (32, 8, 0x10000), (56, 1, 1), (57, 1, 1)])
    s.job? j.id = some j ∧ (s.jobFit j).map (fun e => s.toScrub e.2.2.1 e.2.2.2) = some [0] ∧ (s.jobTeam j).everPlaced = false := by decide +kernel

/-- Array 0 alone is usable; team 5 of job 1 holds its whole plan, and job 2 of queue 1, of a higher rank, needs the same. -/
def crowdedOut : State :=
  let card := cardOf [(16, 8, 0), (32, 8, 0x10000), (56, 1, 1), (57, 1, 1)]
  let s := ((launching [team5]).modQueue 1 fun q => { q with st := 1, prio := 5 }).modCtx 0 0 fun c => { c with run := .active, team := 5 }
  { s with jobs := [job1 1 .placed card, { job1 1 .ready card with id := 2, seq := 2, queue := 1 }], cfg := { s.cfg with disabled := 0xFFFFFFFE } }

theorem witness_TeamsArePlacedAndStopped_victims :
    crowdedOut.preemptDue.map (fun e => (e.1.id, e.2.map (·.id))) = some (2, [5]) := by decide +kernel

/-! The host port, faults, survivable memory, links and power. -/

theorem witness_CommandsAnswer_queues :
    (State.reset.queue 63).st = 0 ∧ State.reset.backed 0x40000 (256 * 2 ^ 12) = true ∧ State.reset.cfg.fnOn.getLsbD 7 = true ∧
    (queued0 []).rootOk 0 false = true ∧ ((queued0 []).queue 0).st ≠ 0 ∧
    (let s := State.reset.modQueue 0 fun q => { q with st := 2 }
     (s.queue 0).st = 2 ∧ (s.queue 0).ending = none ∧ s.queueQuiet 0 = true ∧ s.teams = []) ∧
    ((({ State.reset with jobs := [job1 1 .placed []] }).modQueue 0 fun q => { q with st := 2 }).queueQuiet 0) = false ∧
    ({ State.reset with jobs := [job1 1 .ready []] }).jobs = [job1 1 .ready []] ∧ (job1 1 .ready []).team = 0 := by decide +kernel

theorem witness_CommandsAnswer_destroyed :
    let s := State.reset.modQueue 3 fun q => { q with st := 3, ending := some 0 }
    (s.queue 3).ending = some 0 ∧ s.queueQuiet 3 = true ∧ ∀ k < 64, k ≠ 3 → (s.queue k).ending = none ∧ (s.queue k).resetting = none := by
  decide +kernel

theorem witness_CommandsAnswer_secure :
    (let s := { State.reset with srt := State.reset.srt.set 0 { base := 0x10, limit := 0x10, valid := true } }
     s.cfg.fnSec.getLsbD 0 = false ∧ s.secureIn 0x100000 64 = true ∧ s.secureIn 0x110000 64 = false ∧ s.secureIn 0x100000 0 = false) ∧
    (let f : Forward := ⟨0x200000, 0x300000, 65536, 0, 5, 0⟩
     let s := { State.reset with forwards := [f], rings := [{ ring144 with slot := 0, tail := 1, pub := 1 }] }
     s.forwards = [f] ∧ s.holds = [] ∧ s.forwarding f = true ∧ { s with rings := [] }.forwarding f = false) := by decide +kernel

theorem witness_CommandsAnswer_images :
    ({ State.reset with cfg := { fnSec := 1 } }).cfg.fnSec.getLsbD 0 = true ∧ State.reset.backed 0x100000 64 = true ∧ 0x100000 % 16 = 0 ∧
    (State.reset.sealCheck ⟨0x100000, 64⟩ false).map (·.reason) = some 0x20 ∧ State.reset.image? 5 = none ∧
    ({ State.reset with images := [image] }).image? 0 = some image ∧ ({ State.reset with images := [image] }).imageNamed 0 = false ∧
    (launching []).imageNamed 0 = true ∧ State.reset.image? (State.reset.boxNat ⟨0x100000, 64⟩ 16 8) = none ∧
    State.reset.measureOk image = true := by decide +kernel

theorem witness_CommandsAnswer_pages :
    (let h : Shoot := ⟨0, 0, 0x10000, 1, false, true, false, false, true, [], [], []⟩
     ({ State.reset with shoots := [h] }).shoots = [h] ∧ h.sent = true ∧ h.begun = false ∧ ({ h with begun := true }).begun = true ∧
       State.reset.shootDrained { h with begun := true } = true ∧ h.hold = false ∧ h.mailbox = true) ∧
    (queued0 []).leafOf 0 0 = some (0x2000002A, 0x120000, 2 ^ 29) ∧ newKindFor (leafKind 0x2000002A) (rangeOf 0x40000000) = some (2, false) ∧
    (queued0 []).holds = [] ∧ rangeOf (leafPa 0x2000002A) ≠ .peer ∧
    (queued0 []).kindFits (newLeaf 0x2000002A 0x40000000 2 false) ((2 : Nat) ^ 29 == 2 ^ 29) = true ∧ 0x120000 % 8 = 0 ∧ newKindFor 0 .hbm = some (0, true) ∧
    (State.reset.pxt[(63 : Fin 64)]).st = 0 ∧
    (({ State.reset with pxt := State.reset.pxt.set 0 ⟨0, 3, 1, none⟩ }).pxt[(0 : Fin 64)]).st = 1 ∧
    (({ State.reset with pxt := State.reset.pxt.set 0 ⟨0, 3, 2, some 0⟩ }).pxt[(0 : Fin 64)]).st = 2 ∧
    ({ State.reset with cfg := { fnSec := 1 } }).cfg.fnSec.getLsbD 0 = true ∧
    (let s := (queued0 []).modCtx 0 0 fun c => { c with pageWait := some 0x10008 }
     (s.ctxOf 0 0).asid.toNat = 0 ∧ (s.ctxOf 0 0).pageWait.map (· / 2 ^ 29) = some (0x10000 / 2 ^ 29) ∧ s.leafOf 0 0x10000 = some (0x2000002A, 0x120000, 2 ^ 29)) ∧
    (let l := 64 / 64 + Config.poolBase / 64
     let s := { State.reset with lines := [(l, { l2 := .dirty })], pxt := State.reset.pxt.set 0 ⟨BitVec.ofNat 36 (64 * l / 65536), BitVec.ofNat 36 (64 * l / 65536), 1, none⟩ }
     (s.pxt[(0 : Fin 64)]).has l = true ∧ (s.lineMeta l).l2 = .dirty) := by decide +kernel

theorem witness_RegistersReadAndWrite :
    pregAt (Config.regBase + 0x1000) = some (.fw 0 0) ∧ pregAt (Config.regBase + 0x11F8) = some (.fw 15 3) ∧ pregAt (Config.regBase + 0x2000) = some (.pw 0 0) ∧
    pregAt (Config.regBase + 0x4000) = some .atbr ∧ pregAt (Config.regBase + 0x6000) = some .boot ∧ pregAt (Config.regBase + 0x10FC8) = some (.queue 63 1) ∧
    pregAt (Config.regBase + 0x11000) = none ∧ (State.reset.fw[(0 : Fin 16)]).ena = false ∧ State.reset.barQueue 0 0x10 = none ∧
    State.reset.barQueue 0 0x10FF0 = some (63, 6) ∧ State.reset.barQueue 1 0x10000 = none ∧
    (let s := { State.reset with fw := State.reset.fw.set 3 { ena := true, closing := some 0 } }
     (s.fw[(3 : Fin 16)]).ena = true ∧ (s.fw[(3 : Fin 16)]).closing = some 0 ∧ s.joining = false) ∧
    State.reset.protOk 0 = false ∧ (({ State.reset with srt := State.reset.srt.set 0 { lock := true } }).srt[(0 : Fin 64)]).lock = true ∧
    pregAt (Config.regBase + 0x5000) = some .einjCtl ∧ ({ State.reset with cfg := { injEna := true } }).cfg.injEna = true ∧
    (0x40 : Word).getLsbD 7 = false ∧ (({ State.reset with pw := State.reset.pw.set 0 { ena := true } }).pw[(0 : Fin 16)]).ena = true ∧
    State.reset.cfg.injEna = false ∧ (State.reset.einj.take 0).reserved = false ∧ ((State.reset.einj.take 0).trig = false) ∧
    (State.reset.einj.take 9).reserved = true ∧ ({ State.reset with einj := { arm := true } }).einj.target = 0 := by decide +kernel

/-- Function 0's window is open on DVA 0x10000, a page of a kind. -/
def hosted (kind : Nat) : State :=
  { State.reset.modFunc 0 fun f => { f with wbase := 1, hena := true } with
    atbrEna := true, dieTc := State.reset.dieTc.set 0 [⟨0, false, 1, false, BitVec.ofNat 64 (2 + kind * 4 + 32 + 0x20 * 2 ^ 16), true⟩] }

theorem witness_HostAccessesAndErrors :
    (State.reset.funcs[(0 : Fin 8)]).hena = false ∧ ((hosted 2).funcs[(0 : Fin 8)]).hena = true ∧ ((hosted 2).modFunc 0 fun f => { f with synced := true }).postedBlocked 0 8 = false ∧ (hosted 2).postedBlocked 0 8 = true ∧
    (hosted 0).postedBlocked 0 8 = false ∧ (hosted 2).hostAccess 0 .store 0x10008 = (.ok ⟨0x200008, .sync, false⟩, hosted 2) ∧
    (hosted 0).hostAccess 0 .store 0x10008 = (.ok ⟨0x200008, .logged, false⟩, hosted 0) ∧ (hosted 0).ring? 136 = some (Ring.fixed 136) ∧
    (hosted 0).ringCtx (Ring.fixed 136) = none ∧ (Ring.fixed 136).tail - (Ring.fixed 136).fold < (Ring.fixed 136).n ∧ 0x10008 % 64 + 56 ≤ 64 ∧
    (let f : Func := { errs := [errRec 1 0 0 0], eqlog2 := 6 }
     6 ≤ f.eqlog2.toNat ∧ (f.eqtail - f.eqhead).toNat ≠ 2 ^ f.eqlog2.toNat ∧ f.lost = false ∧
       ({ f with eqtail := 64 }.eqtail - { f with eqtail := 64 }.eqhead).toNat = 2 ^ { f with eqtail := 64 }.eqlog2.toNat) ∧
    (let s := { State.reset with lines := [(0x8000, { l2 := .dirty }), (0x8001, { l2 := .clean })] }
     (s.lineMeta 0x8000).l2 = .dirty ∧ (s.lineMeta 0x8000).parity = false ∧ (s.lineMeta 0x8001).l2 = .clean ∧ s.retPages.length < 1024) ∧
    (team5.sec = State.reset.secureAt (64 * 0x8000) ∧ team5.tasks.any (fun k => !k.ended) = true) ∧
    (∀ c, (State.reset.ctxOf 0 c).run = .free) ∧ (State.reset.arr 0).passAc + 1750000000 ≤ ({ State.reset with cycle := 1750000000 }).now := by
  and_intros <;> first | decide +kernel | exact access_of (by decide +kernel) (by decide +kernel)

theorem witness_HostAccessesAndErrors_held :
    (let s := { hosted 2 with asks := [⟨0, .host 0, 0, .read⟩] }
     s.postedBlocked 0 8 = true ∧ (s.readPends 0 8 8).isSome = true) ∧ (hosted 2).hostAsks 0 = false ∧ 64 - 0x10008 % 64 < 57 ∧
    ((hosted 2).lineMeta 0x8000).poison = false ∧ rangeOf Config.hostBase = .host ∧ State.reset.windowAt (64 * 0x8000) = none := by decide +kernel

theorem witness_HostAccessesAndErrors_off :
    ({ State.reset with cfg := { State.reset.cfg with fnOn := 1 } }).fnOn 3 = false ∧ (hosted 2).fnOn 0 = true ∧ State.reset.usable 31 = true ∧
    State.reset.mendable 0x8000 = false ∧ State.reset.dataUnit 0x8000 = none := by decide +kernel

/-- R58, worked example: A ages to 255 and then beats priority 15; B, granted before C, then wins again. -/
theorem test_crossbar_egress :
    let a := fun (age : Nat) => (⟨1, 0, 3, 45, 4, age, false, 0, []⟩ : Packet)
    let b := fun (age : Nat) => (⟨2, 0, 9, 45, 15, age, false, 0, []⟩ : Packet)
    let c := fun (age : Nat) => (⟨3, 0, 20, 45, 15, age, false, 0, []⟩ : Packet)
    (egressWinner [9, 20, 3] [a 253, b 0, c 0]).map (·.ingress) = some 9 ∧ (egressWinner [20, 3, 9] [a 254, b 0, c 1]).map (·.ingress) = some 20 ∧
    (egressWinner [3, 9, 20] [a 255, b 1, c 0]).map (·.ingress) = some 3 ∧ (egressWinner [9, 20, 3] [b 2, c 1]).map (·.ingress) = some 9 := by
  decide +kernel

theorem witness_HostAccessesAndErrors_ways :
    (State.reset.lineMeta 0x8000).l2 = .invalid ∧ ((State.reset.fillL2 0x8000 0).lineMeta 0x8000).l2 = .clean := by decide +kernel

theorem witness_CommandsAnswer_operand :
    State.reset.secureIn 0x100001 64 = false ∧ 0x100001 % 16 ≠ 0 ∧ State.reset.backed (2 ^ 41) 64 = false := by decide +kernel

theorem witness_FaultsStopContexts :
    (inCtx fun c => { c with residue := [slotOp 0 (.trap 7) 0] }).alone = true ∧
    (inCtx fun c => { c with residue := [slotOp 0 (.trap 7) 0, slotOp 3 (.rel 4) 0] }).alone = false ∧
    fatalOf [(3, 0x10), (0, 1), (1, 0x12)] = some (1, 0x12) ∧ fatalOf [(3, 1)] = none ∧
    (let x : Ctx := { run := .active, faults := [(0, 0x1C)], residue := [slotOp 0 (.trap 7) 0] }
     x.slotAt 0 = some (slotOp 0 (.trap 7) 0)) ∧
    (let s := { State.reset with teams := [team5] }
     s.team? 5 = some team5 ∧ team5.dead = false ∧ team5.tasks = [⟨0, 0, 0, 0, true, false, 144, false, none⟩] ∧ team5.relaunch = false ∧
       s.canHold team5.ntasks team5.chain = true) := by decide +kernel

theorem witness_FaultsStopContexts_tail :
    (let s := { inCtx fun c => { c with run := .active, ring := 144, ask := some 0x21 } with rings := [{ ring144 with tail := 3, pub := 1 }] }
     s.ring? (s.ctxOf 0 0).ring = some { ring144 with tail := 3, pub := 1 } ∧ (s.ctxOf 0 0).ask = some 0x21 ∧ fatalOf (s.ctxOf 0 0).faults = none) ∧
    (∀ y, ring144.release = some y → y.step < 4) ∧ (⟨3, 4, false, false, false, 0, 0⟩ : Release).step < 4 := by
  refine ⟨by decide +kernel, ?_, by decide⟩
  intro y h
  rw [show ring144.release = none from rfl] at h
  cases h

/-- A snapshot at bundle 3. -/
def snap3 : Snapshot := { ({} : Ctx).snapshot 0 with pc := 3 }

theorem witness_DataErrorsRerunSegments :
    (let x := (inCtx fun c => { c with run := .active, snap := some snap3, dataErr := some (0x0005, 0) }).ctxOf 0 0
     x.run = .active ∧ x.snap = some snap3 ∧ x.dataErr = some (0x0005, 0) ∧ x.segBase ≤ 0 ∧ x.rerun = none ∧ x.barrier ≤ snap3.relSeq) ∧
    snap3.relSeq < ({ barrier := 1 } : Ctx).barrier ∧ (0 : Nat) < ({ segBase := 1 } : Ctx).segBase ∧ (⟨1, none, 0⟩ : Rerun).run ≠ 2 ∧ (⟨2, none, 4⟩ : Rerun).run = 2 ∧ ({ dataErr := some (0x0013, 0) } : Ctx).dataErr = some (0x0013, 0) := by decide +kernel

theorem witness_DataErrorsRerunSegments_signatures :
    ∃ x y : Ctx, x.rerun = some ⟨1, some x.signature, 0⟩ ∧ ∃ g, y.rerun = some ⟨1, some g, 0⟩ ∧ g ≠ y.signature := by
  refine ⟨{ rerun := some ⟨1, some ({} : Ctx).signature, 0⟩ }, { rerun := some ⟨1, some (({} : Ctx).signature.1 + 1, ({} : Ctx).signature.2), 0⟩ }, rfl, _, rfl, ?_⟩
  intro h
  exact Nat.succ_ne_self _ (congrArg Prod.fst h)

theorem witness_NodesCheckpointsAndEnds :
    (let s := { inCtx fun c => { c with ring := 144 } with rings := [ring144] }
     s.ring? s.me.ring = some ring144 ∧ s.phase = 0 ∧ s.mayRelease = true ∧ s.me.rerun = none ∧ s.me.dataErr = none ∧ s.me.sb = 0 ∧ s.me.dv = 0 ∧ s.me.delayed = [] ∧ s.queuesEmpty = true ∧ s.me.skip = 0 ∧
       (s.arr 0).cQuiet 0 = true ∧ s.copiesOf 0 0 = []) ∧
    (inCtx fun c => { c with loadQ := [queued .ld] }).mayRelease = false ∧ (inCtx fun c => { c with loadQ := [queued .ld] }).queuesEmpty = false ∧
    ({ team5 with request := some none }).request ≠ none ∧ team5.request = none ∧ ({ ring144 with release := some ⟨3, 4, true, false, false, 0, 0⟩ }).release.isSome = true ∧
    (∀ n ∈ [1, 2, 3], (inCtx fun c => { c with residue := [slotOp 0 (.node 12) n] }).phase = n) ∧ State.reset.me.arrived = [] ∧
    (let s := { (queued0 []).modCtx 0 0 fun c => { c with team := 5, ring := 144 } with teams := [{ team5 with sync := 0x10000 }], rings := [ring144] }
     s.nodeAddr s.me = some 0x20110000 ∧ 0x20110000 % 128 = 0 ∧ rangeOf 0x20110000 = .hbm ∧ rangeOf (0x20110000 + 64) = .hbm ∧ s.secureAt 0x20110000 = false ∧ s.secureAt (0x20110000 + 64) = false ∧
       (s.team? s.me.team.toNat).isSome = true) := by decide +kernel

/-- Package 0 is member 0 of a group of four, with P alone and eight units, its window from page 0x100. -/
def group7 : Group :=
  { pgid := 7, n := 4, q := 0, k := 8, members := [0, 1, 2, 3], index := 0, epoch := 0, lost := [], heard := [(1, 0), (2, 0), (3, 0)], leaving := none,
    rebuild := none, awaits := [] }

def window7 : ProtWindow := { base := 0x100, limit := 0x107, idx := 0, n := 4, pgid := 7, ena := true }

def grouped (g : Group) : State := { State.reset with groups := [g], pw := State.reset.pw.set 0 window7, rings := [] }

theorem witness_GroupsWatchTheirMembers :
    (grouped group7).groups = [group7] ∧ (grouped group7).group? 7 = some group7 ∧ 1 ≠ group7.index ∧ 1 ∉ group7.lost ∧ group7.index < group7.n ∧
    (let g := { group7 with heard := [(1, 0), (2, 5), (3, 5)] }
     let s := { grouped g with cycle := 3500000 }
     g.heardAt 1 + 3500000 ≤ s.now ∧ s.now < g.heardAt 2 + 3500000 ∧ s.unreachable (g.member 1) = true) ∧
    (∀ i < 4, i ≠ group7.index → group7.heardAt i + 3500000 ≤ ({ grouped group7 with cycle := 3500000 }).now) ∧
    (let s := grouped group7
     s.rings = [] ∧ s.series = [] ∧ s.folds = [] ∧ s.teams = [] ∧ s.asks = []) ∧
    1 ∈ { group7 with lost := [1] }.lost ∧ (0x40 + group7.k) * 65536 ≤ State.reset.visible ∧ (∀ p < 0x40 + group7.k, State.reset.secureAt (65536 * p) = false) ∧ State.reset.group? 7 = none := by decide +kernel

theorem witness_protected_line :
    NoLineErrors (grouped group7) ∧
    (let s := grouped group7
     s.protectedLine (0x1010000 / 64) = some (window7, group7) ∧ group7.stripeLost (window7.stripe 0x1010000) 1 = false ∧
       rangeOf (64 * (0x1010000 / 64)) = .hbm) := by
  refine ⟨noLineErrors_of rfl rfl ?_, by decide +kernel⟩
  intro g h
  rw [show g = group7 from List.mem_singleton.1 h]
  rfl

/-- Context 0 is of a team with a rank in package 1, which is lost. -/
def rankLost : State :=
  { (queued0 []).modCtx 0 0 fun c => { c with team := 5, residue := [slotOp 0 (.fencesc 4) 1] } with
    teams := [{ team5 with tsize := 2, sync := 0x10000 }], groups := [{ group7 with lost := [1] }]
    mem := Memory.store (queued0 []).mem 0x20310004 (natToBytes 4 1) }

theorem witness_OrderingOps_lost :
    rankLost.phase = 1 ∧ rankLost.releasing rankLost.me.ring = false ∧ rankLost.ranksLost rankLost.me.team.toNat (rankLost.farBelow 0 0 4) = true := by
  decide +kernel

theorem witness_ParityRecoversLostLines :
    let g := { group7 with lost := [2] }
    let data := (List.range g.n).filter fun m => !(g.parity 0).contains m
    4 ≤ g.n ∧ g.n ≤ 16 ∧ 2 ∈ data ∧ 2 ∈ g.lostIn 0 ∧ (g.lostIn 0).Nodup ∧ (∀ m ∈ g.lostIn 0, m < g.n) ∧
    (∀ m ∈ data, m ∉ g.lostIn 0 → (grouped g).lineData ((grouped g).homeLine (State.unitLine window7 g m 0)) = 0) ∧
    (0 % g.n ∉ g.lostIn 0) ∧ (grouped g).lineData ((grouped g).homeLine (State.unitLine window7 g 0 0)) = data.foldl (fun v _ => v ^^^ (0 : LineData)) 0 ∧
    g.stripeLost 0 0 = false := by decide +kernel

theorem witness_ParityFoldsAndRetirement :
    (grouped group7).groupWindow 7 = some window7 ∧ (grouped group7).memberOf group7 1 = some 1 ∧ (grouped group7).lostSender group7 1 = false ∧ (grouped group7).parityLocked window7 group7 0 = false ∧
    ({ grouped group7 with locked := [(0x1000000 / 64, 3)] }).parityLocked window7 group7 0 = true ∧ group7.gone = [] ∧
    (grouped { group7 with lost := [1] }).lostSender { group7 with lost := [1] } 1 = true ∧
    (({ grouped group7 with series := [⟨7, 1, 0, 0, 1, [], [], 0, []⟩] }).series? 7 1 0 0 0).applied 0 = true ∧
    group7.lost = [] ∧ (grouped group7).series = [] ∧ (grouped group7).lostAt 0x1000000 = none ∧ (grouped group7).redirects = [] ∧
    (grouped { group7 with lost := [1] }).memberOf { group7 with lost := [1] } 1 = some 1 ∧
    0 / 65536 % group7.n = group7.index ∧ rangeOf 0x1000000 = .hbm ∧ (grouped group7).windowAt 0x1000000 = some window7 ∧
    (let f : PFold := ⟨3, 0, 144, 0, 129, 0x1000000 / 64, false, none, rec8000, 7, [1], 0, 0, true, 0, false, 0, false⟩
     f.peer = false ∧ f.holders = [1] ∧ group7.members.getD 1 512 = 1) ∧
    (let g := { group7 with lost := [1], rebuild := some (1, 3, 0x40, 6) }
     g.rebuild = some (1, 3, 0x40, 6) ∧ 6 + 1 < g.k ∧ g.k ≤ 7 + 1 ∧ 3 ≠ State.reset.pkgNo ∧ (0x40 + 7 + 1) * 65536 ≤ 2 ^ 41) ∧
    4095 < State.reset.cfg.ceLimit ∧ State.reset.cfg.ceLimit ≤ 4096 ∧ State.reset.cfg.ceRuns ≤ Sparse.get 0 ({ State.reset with ceRun := [(5, 2)] }).ceRun 5 + 1 ∧ 5 < Config.channels ∧
    State.reset.retired = none ∧ State.reset.cfg.retireEna = true ∧
    (let r : ChanRetire := ⟨5, 0, []⟩
     r.slot < Config.homeSlots ∧ State.reset.windowAt (64 * lineAt r.channel r.slot) = none ∧ Config.homeSlots ≤ { r with slot := Config.homeSlots }.slot) := by
  decide +kernel

/-- Package 2 of the group is lost; the line at the foot of its HBM. -/
def lostLine : Nat := (Config.peerBase + 2 * 2 ^ 41) / 64

theorem lostLine_stripe (g : Group) : g.peerStripe 2 (64 * lostLine) = 0 := by
  unfold Group.peerStripe
  rw [show (64 * lostLine - Config.peerBase) % 2 ^ 41 / 65536 = 0 by decide]
  exact Nat.zero_sub _

theorem witness_ParityFoldsAndRetirement_lost :
    let g := { group7 with lost := [2] }
    NoStoreErrors (grouped g) ∧ (grouped g).lostAt (64 * lostLine) = some (g, 2, 0) ∧ g.reconstructs 0 = true ∧ g.stripeLost 0 0 = false ∧
      2 ∉ g.parity 0 ∧ (grouped g).copyHere lostLine = false ∧ (grouped g).mends = [] ∧ (grouped g).groupWindow g.pgid = some window7 := by
  intro g
  have lost : (grouped g).lostAt (64 * lostLine) = some (g, 2, 0) := by
    unfold State.lostAt
    rw [show rangeOf (64 * lostLine) = .peer by decide +kernel, show (grouped g).lostGroup (peerOf (64 * lostLine)) = some g by decide +kernel]
    simp only [show g.members.idxOf (peerOf (64 * lostLine)) = 2 by decide +kernel, lostLine_stripe]
    rfl
  exact ⟨⟨rfl, fun _ => ⟨rfl, rfl, rfl⟩⟩, lost, by decide +kernel, by decide +kernel, by decide +kernel, by decide +kernel, rfl, by decide +kernel⟩

/-- The reconstruction of that line at a step. -/
def mending (step : Nat) (owed bad : List Nat) : Mend := ⟨1, lostLine, .read, 7, 2, 0, step, [], owed, [], bad⟩

theorem witness_ParityFoldsAndRetirement_mends :
    let g := { group7 with lost := [2] }
    let s := { grouped g with mends := [mending 0 [] []] }
    s.mends = [mending 0 [] []] ∧ g.exchanging (mending 0 [] []).stripe = false ∧ (mending 0 [] []).hopeless g = false ∧ (mending 0 [] []).parities g = [0] ∧
    s.heldUnit window7 g 0 0 = some (0x1000000 / 64) ∧ (mending 0 [] [0]).hopeless g = true ∧ (mending 1 [] []).sources g = [1, 3] ∧
    s.heldUnit window7 g 1 0 = none ∧ (mending 1 [1] []).owed ≠ [] ∧ (mending 3 [] []).owed = [] ∧ (mending 3 [] []).locked = [] ∧
    (mending 3 [] []).use = .read ∧ (unitValue g 0 [(0, 7), (1, 3), (3, 1)] 2) = some 5 := by decide +kernel

theorem witness_ParityFoldsAndRetirement_uses :
    rangeOf (64 * 0x48D15A) = .hbm ∧ homePlace 0x48D15A = (669, 6213) ∧ ({ State.reset with retChan := some ⟨669, 6213, []⟩ }).retChan = some ⟨669, 6213, []⟩ ∧
    State.reset.retired ≠ some 669 ∧ (grouped group7).group? 7 = some group7 ∧
    (let g := { group7 with lost := [1], rebuild := some (1, 0, 0x40, 6) }
     (grouped g).groupWindow 7 = some window7 ∧ (grouped g).pkgNo = 0 ∧ g.lines < 1024 ∧ 1024 ≤ { g with lines := 1024 }.lines ∧ 6 + 1 < g.k) ∧
    (let p := homePlace (0x1010000 / 64)
     lineAt p.1 p.2 = 0x1010000 / 64 ∧ p.2 < Config.homeSlots ∧ (grouped group7).unitOf (0x1010000 / 64) = some (window7, group7, 0, 0x10000) ∧
       0 ∉ group7.lostIn (0x10000 / 65536) ∧ ((grouped group7).lineMeta (0x1010000 / 64)).l2 ≠ .dirty) ∧
    State.reset.unitOf (lineAt 5 0) = none ∧ (5 : Nat) < 768 ∧ runsOf [3, 4, 5, 9] = [(3, 5), (9, 9)] := by decide +kernel

theorem witness_ParityFoldsAndRetirement_places :
    Config.channels * Config.homeSlots - 1 < Config.channels * Config.homeSlots ∧ State.reset.retired = none ∧
    ({ State.reset with retired := some 5 }).retChan = none ∧
    homePlace (lineAt 5 (Config.homeSlots - 1)) = (5, Config.homeSlots - 1) ∧
    lineAt 5 (Config.homeSlots - 1) < Config.channels * Config.homeSlots ∧ (rehome 5 (Config.homeSlots - 1)).2 < Config.channelSlots := by
  decide +kernel

theorem witness_HostAccessesAndErrors_mend :
    (grouped group7).dataUnit (0x1010000 / 64) = some (window7, group7, 0, 0x10000) ∧ group7.stripeLost (0x10000 / 65536) 1 = false ∧
    (grouped group7).mends = [] := by decide +kernel

theorem made_crcOk (typ : BitVec 4) (seq ack : BitVec 16) (l : List Byte) : (Flit.made typ seq ack l).crcOk = true := by
  have body : ∀ (f : Flit) (c : BitVec 64), ({ f with crc := c }).body = f.body := fun _ _ => rfl
  unfold Flit.crcOk Flit.made
  rw [body]
  exact beq_self_eq_true _

theorem witness_LinksDeliverInOrder :
    (let x : Port := { up := true, rxE := 5 }
     x.up = true ∧ x.repairing = false ∧ x.replay = [] ∧ (Flit.made 1 5 0 []).crcOk = true ∧ (Flit.made 1 5 0 []).seq = x.rxE ∧
       0 < (x.rxE - (4 : BitVec 16)).toNat ∧ (x.rxE - (4 : BitVec 16)).toNat ≤ 32768 ∧
       ¬((x.rxE - (6 : BitVec 16)).toNat ≤ 32768) ∧ (x.rxE - ((5 : BitVec 16) - 32768)).toNat = 32768) ∧
    (State.reset.ports[(0 : Fin 16)]).up = false ∧ ({ up := true, replay := [Flit.made 1 5 0 []] } : Port).lastAck + 3500 ≤ 3500 ∧
    State.reset.now < (State.reset.ports[(0 : Fin 16)]).lastAck + 3500 ∧ ({ nakHold := some 3 } : Port).nakHold = some 3 ∧
    ({ up := true } : Port).free = true ∧ ({ up := true, spare := false } : Port).spare = false ∧ ({ up := true, repairing := true } : Port).repairing = true ∧
    (let errs : List (Nat × Nat × Nat) := [(3, 0, 64)]
     let n := fun (l : List (Nat × Nat × Nat)) => ((l.filter fun y => y.1 == 3).map (·.2.2)).sum
     n errs = 64 ∧ n (errs ++ [(3, 5, 1)]) = 65 ∧ decide ((1750000 : Nat) < 0 + 1750000) = false) := by
  refine ⟨⟨rfl, rfl, rfl, made_crcOk .., ?_⟩, ?_⟩ <;> and_intros <;> first | rfl | decide +kernel

theorem witness_PeersAreServed_chunks :
    (State.reset.chunksTo 3).applied + 1 = 1 ∧ 0 ≤ (State.reset.chunksTo 3).applied ∧ (State.reset.chunksTo 3).applied < 2 ∧
    2 ≠ (State.reset.chunksTo 3).applied + 1 ∧ State.reset.chunkWaits 3 0 3 = true ∧ State.reset.chunkWaits 3 0 0 = false ∧ State.reset.atbrEna = false ∧
    (let runs : List (Nat × List Byte) := [(0x200030, List.replicate 32 7), (0x200050, [1])]
     (runs.flatMap runLines).map (·.1) = [0x200030, 0x200040, 0x200050] ∧
       (∀ x ∈ runs.flatMap runLines, rangeOf x.1 = .hbm ∧ (State.reset.inbound x.1 false true).toOption = some x.1) ∧
       (runs.Pairwise fun x y => x.1 + x.2.length ≤ y.1 ∨ y.1 + y.2.length ≤ x.1)) ∧
    (match ({ State.reset with sealed := [(0x20, false, 0)] }).inbound 0x200000 false true with | .error e => e | .ok _ => (0, 0)) = (fWorld, 0x0022) := by
  decide +kernel

theorem witness_PeersAreServed_words :
    (let s := { State.reset with teams := [team5], images := [planned], cycle := 1 }
     let rank := 5 * 16384
     s.rankHere 5 0 = some 0 ∧ s.chunkWaits 3 rank 3 = false ∧ s.chunkAsOk rank [(0x20, [1, 2])] = true ∧ s.chunkAsOk rank [(0x40, [1])] = false ∧
       (runWords 0x1E [1, 2, 3, 4]).map (·.1) = [0x1E, 0x20]) ∧
    (let m : NetMsg := ⟨0, 0, some (3, 0, 0), none, 1, 7, 3, true, none, some (3, 1)⟩
     m.copy = none ∧ m.chunk = some (3, 1)) := by decide +kernel

theorem witness_PeersAreServed_requests :
    State.reset.lostAt 0x200000 = none ∧ State.reset.localLine (Config.hostBase / 64) = none ∧ State.reset.lostAt Config.hostBase = none ∧
    64 < 0x200038 % 64 + 9 ∧ 0x200038 % 64 + 8 ≤ 64 ∧ rangeOf (64 * (0x200000 / 64)) = .hbm ∧ State.reset.windowAt 0x200000 = none ∧
    State.reset.privateAt 0x200000 = false ∧ State.reset.physFault 0x200000 true .sync = none ∧
    State.reset.physFault State.reset.visible true .sync = some (fPhys, 0x0021) ∧ rangeOf (64 * (State.reset.visible / 64)) = .hbm ∧
    ({ State.reset with sealed := [(0x20, false, 0)] }).sealedAt 0x200000 = true ∧ State.reset.sealedAt 0x200000 = false ∧
    requestWrites 0x10 = true ∧ requestWrites 0x01 = false := by decide +kernel

/-- The leaf of DVA 0 as given, in the tables of queue 0's ASID. -/
def leafed (leaf : Nat) : State :=
  { queued0 [] with mem := Memory.store (queued0 []).mem 0x120000 (natToBytes 8 leaf) }

theorem witness_PeersAreServed_private :
    let s := leafed (0x20000000 + 2 + 12 + 32)
    s.privateAt 0x20000000 = true ∧ s.privateAt 0x3FFFFFFF = true ∧ s.privateAt 0x40000000 = false := by decide +kernel

theorem witness_PeersAreServed_lost :
    let g := { group7 with lost := [2] }
    rangeOf (64 * lostLine) = .peer ∧ 0 < 8 ∧ 64 * lostLine % 64 + 8 ≤ 64 ∧ (g.parity 0).contains 2 = false ∧ (g.parity 2).contains 2 = true ∧
    g.reconstructs 1 = false ∧ { group7 with lost := [0, 2] }.stripeLost 0 0 = true ∧ 64 < 0 % 64 + 65 := by decide +kernel

theorem witness_PowerStatesAndReset :
    (let s := { State.reset with cycle := 175000 }
     s.pstate = 0 ∧ s.ready = true ∧ s.susp = none ∧ s.busyAc + 175000 ≤ s.now) ∧ State.reset.now < State.reset.busyAc + 175000 ∧
    (State.reset.queue 0).mgmt = false ∧
    (let x := ((queued0 []).modQueue 0 fun q => { q with mgmt := true }).queue 0
     x.mgmt = true ∧ (queued0 []).reportAt x 0x10000 = some 0x20010000 ∧ (queued0 []).reportAt x 8 = none) ∧
    cardRegions (cardOf [(16, 8, 0x10000)]) = some [] ∧ team5.placed = true ∧ team5.request = none ∧
    (let r : Retain := ⟨3, 9, 1, [], State.reset.queues, [], [], [], [], State.reset.ports, [], []⟩
     ({ State.reset with pstate := 2, retain := some r }).retain = some r) := by decide +kernel

theorem witness_PowerStatesAndReset_suspend :
    (let y : Suspend := ⟨0, 1, 0x10000, true, 2, 0, 0, false, 1⟩
     let s := { State.reset with teams := [team5], susp := some y }
     s.susp = some y ∧ y.resuming = false ∧ y.step = 2 ∧ team5 ∈ s.teams ∧ team5.placed = true) ∧
    ({ State.reset with segs := [⟨144, 0, 0, 0, 1, 129, 0, 0, [], []⟩] }).allFolded = false ∧
    (let s := { State.reset with ports := State.reset.ports.set 3 { up := true } }
     (s.ports[(3 : Fin 16)]).up = true ∧ (s.ports[(3 : Fin 16)]).peerQuiet = false) ∧
    (let s := { State.reset with pstate := 2, inputs := [.bar0Read 0 8], urgent := [] }
     s.inputs = [.bar0Read 0 8] ∧ s.fnOn 0 = true) ∧
    team5.waits = false ∧ State.reset.chunks = [] := by decide +kernel

/-- Tables at 0x100000: words of 64 bits at addresses. -/
def tables (l : List (Nat × Nat)) : State :=
  { State.reset with atbrBase := 0x10, atbrEna := true, mem := l.foldl (fun m e => Memory.store m e.1 (natToBytes 8 e.2)) [] }

/-- The code with which the walk of a DVA ends there, or 0. -/
def walkCode (l : List (Nat × Nat)) (sec : Bool) (dva : Nat) : Nat :=
  match (tables l).walk 0 sec dva with | .error c => c | .ok _ => 0

/-- The three tables of the worked example of R122: at 0x110000, 0x120000 and 0x130000. -/
def workedTables (leaf : Nat) : List (Nat × Nat) :=
  [(0x100000, 0x110001), (0x110070, 0x120001), (0x129700, 0x130001), (0x1391A0, leaf)]

/-- The worked example of R122, with both of its leaves. -/
theorem test_walk_worked_example :
    (match (tables (workedTables 0x7ABC0022)).walk 0 false 0x3A5C12345678 with | .ok r => r | .error _ => (0, true)) = (0x7ABC0022, false) ∧
    ((tables (workedTables 0x7ABC0022)).hardDva 0 false 0x3A5C12345678) = some 0x7ABC5678 ∧
    ((tables [(0x100000, 0x110001), (0x110070, 0x120001), (0x129700, 0x60000022)]).hardDva 0 false 0x3A5C12345678) = some 0x72345678 := by decide +kernel

theorem witness_TranslationsAreChecked_walks :
    walkCode [] false 0 = 0x01 ∧ walkCode [(0x100000, 0x110002)] false 0 = 0x05 ∧ walkCode [(0x100000, 0x110005)] false 0 = 0x06 ∧
    walkCode [(0x100000, 0x110009)] false 0 = 0x05 ∧ walkCode [(0x100000, 0x110001)] false 0 = 0x01 ∧
    walkCode [(0x100000, 0x110001), (0x110000, 0x20000002)] false 0 = 0x05 ∧ walkCode [(0x100000, 0x110001), (0x110000, 0x120001)] false 0 = 0x01 ∧
    walkCode [(0x100000, 0x110001), (0x110000, 0x120001), (0x120000, 0x20010002)] false 0 = 0x05 ∧
    walkCode [(0x100000, 0x110001), (0x110000, 0x120001), (0x120000, 0x20000002)] false 0 = 0 ∧
    walkCode [(0x100000, 0x110001), (0x110000, 0x120001), (0x120000, 0x130001)] false 0 = 0x01 ∧
    walkCode [(0x100000, 0x110001), (0x110000, 0x120001), (0x120000, 0x130001), (0x130000, 0x140001)] false 0 = 0x05 ∧
    walkCode [(0x100000, 0x110001), (0x110000, 0x120001), (0x120000, 0x130001), (0x130000, Config.peerBase + 2)] false 0 = 0x04 ∧
    walkCode [(0x100000, 0x110001), (0x110000, 0x120001), (0x120000, 0x130001), (0x130000, Config.hostBase + 2)] false 0 = 0x03 := by decide +kernel

theorem witness_TranslationsAreChecked_worlds :
    (let s := { tables (workedTables 0x7ABC0022) with srt := State.reset.srt.set 0 { base := 0x13, limit := 0x13, valid := true } }
     (match s.walk 0 false 0x3A5C12345678 with | .error c => c | .ok _ => 0) = 0x06 ∧ s.secureAt 0x1391A0 = true ∧ s.secureAt 0x129700 = false) ∧
    State.reset.visible < ({ State.reset with atbrBase := 0xFFFFFFF }).atbrBase.toNat * 65536 + 8 ∧ State.reset.atbrEna = false := by decide +kernel

/-- A walk of context 0 of array 0, about to read at a level. -/
def walking (level base : Nat) : TableWalk := ⟨.ctx 0 0, 0, 0, 0, false, 0x3A5C12345678, level, base, false, none⟩

theorem witness_TranslationsAreChecked_steps :
    (let s := { tables (workedTables 0x7ABC0022) with walks := [walking 0 0] }
     walking 0 0 ∈ s.walks ∧ (walking 0 0).stale = false ∧ s.secureAt 0x100000 = false ∧ s.pageRetired 0x100000 = false ∧
       (match s.readRoot false (BitVec.ofNat 64 (valueAt s 0x100000 8)) with | .table b => b | _ => 0) = 0x110000) ∧
    (match (tables (workedTables 0x7ABC0022)).readEntry 3 0x7ABC0022 with | .leaf e => e | _ => 0) = 0x7ABC0022 ∧
    (match (tables []).readEntry 1 0x7ABC0022 with | .bad c => c | _ => 0) = 0x05 ∧ ((tables []).leafCheck 0x7ABC0022 false).toOption.isSome = true ∧
    0x130000 + 8 * dvaIndex 0x3A5C12345678 3 = 0x1391A0 := by decide +kernel

theorem witness_TranslationsAreChecked_caches :
    (((mapped 2).arr 0).tc.find? fun v => v.hits 0 false 0x10008).isSome = true ∧ (Seeker.ctx 0 0).array = some 0 ∧
    (((hosted 2).dieTc[(Seeker.host 0).die]).find? fun v => v.hits 0 false 0x10008).isSome = true ∧ (Seeker.host 0).array = none ∧
    (tables []).walkOf (.ctx 0 0) 0 false 0 = none ∧ (∀ n, ((tables []).walks.filter fun v => v.walker == n && v.fault.isNone).length < 64) := by decide +kernel

/-- Array 0's cache holds a leaf of DVA page 1. -/
def leafAt1 (e : BitVec 64) : State :=
  (tables []).modArr 0 fun x => { x with tc := [⟨0, false, 1, false, e, true⟩] }

theorem witness_TranslationsAreChecked_accesses :
    (∀ e ∈ [0x200022, 0x200002, 0x20002E], (((leafAt1 (BitVec.ofNat 64 e)).leafFor (.ctx 0 0) 0 false 0x10000).1.toOption) = some (BitVec.ofNat 64 e, false)) ∧
    (let code := fun (e : BitVec 64) (rank : Option Nat) (use : Use) => match ((leafAt1 e).access (.ctx 0 0) 0 false rank use 0x10000).1 with | .error c => c | .ok _ => 0
     code 0x200002 none .store = 0x02 ∧ code 0x200022 none .fetch = 0x02 ∧ code 0x200022 none .atomic = 0x15 ∧ code 0x20002E (some 1) .load = 0x07 ∧
       code 0x20002E (some 0) .load = 0 ∧ code 0x200022 none .store = 0) ∧
    (let s := { leafAt1 0x200022 with sealed := [(0x20, false, 0)] }
     (match (s.access (.ctx 0 0) 0 false none .store 0x10000).1 with | .error c => c | .ok _ => 0) = 0x06) := by decide +kernel

end Sys2Proof.Tests
end

namespace Sys2Proof.Machine

/-! Every operation of the machine keeps what O6 says (`Kept`), file by file of the model and in its order: one lemma `Kept.f` for each
function `f` of the state, so that the lemma about an operation composes those of what it calls, in the order in which it calls
them. An operation that answers an outcome keeps it in every next state (`KeptOut`); one that may not answer, in every state that it
gives (`KeptSome`, `KeptOk`). -/

/-- What O6 says every step keeps, of one state: memory is canonical, and the part has configuration record `cr` and package
number `pn`. -/
def Kept (cr : ConfigRecord) (pn : Nat) (s : State) : Prop := Inv s ∧ s.cfg = cr ∧ s.pkgNo = pn

/-- An outcome that is a next state is a kept one. -/
def KeptOut (cr : ConfigRecord) (pn : Nat) (o : Out) : Prop := ∀ t, o = .next t → Kept cr pn t

/-- A state that an operation may give is a kept one. -/
def KeptSome (cr : ConfigRecord) (pn : Nat) (o : Option State) : Prop := ∀ t, o = some t → Kept cr pn t

/-- A state that the application of a record may give is a kept one. -/
def KeptOk (cr : ConfigRecord) (pn : Nat) (o : Except Later State) : Prop := ∀ t, o = .ok t → Kept cr pn t

section
variable {cr : ConfigRecord} {pn : Nat} {s : State}

/-- Whatever else an update changes. -/
theorem Kept.same {t : State} (h : Kept cr pn s) (e : (t.mem, t.cfg, t.pkgNo) = (s.mem, s.cfg, s.pkgNo)) : Kept cr pn t := by
  obtain ⟨hm, hc, hp⟩ : t.mem = s.mem ∧ t.cfg = s.cfg ∧ t.pkgNo = s.pkgNo := by simpa using e
  obtain ⟨hi, hsc, hsp⟩ := h
  exact ⟨by unfold Inv at *; rwa [hm], hc.trans hsc, hp.trans hsp⟩

/-- What the sequencer moves is neither memory nor configuration. -/
theorem Kept.onlyMoves {a : ArrId} {c : CtxId} {t : State} (h : Kept cr pn s) (m : OnlyMoves a c s t) : Kept cr pn t := by
  have e : (t.rest.mem, t.rest.cfg, t.rest.pkgNo) = (s.rest.mem, s.rest.cfg, s.rest.pkgNo) := by rw [m.1]
  exact h.same e

/-- Memory is written only by stores, which keep its canonical form. -/
theorem Kept.setMem {m : Memory} (h : Kept cr pn s) (hm : m.wf = true) : Kept cr pn { s with mem := m } := ⟨hm, h.2⟩

theorem Kept.mem_wf (h : Kept cr pn s) : s.mem.wf = true := h.1

theorem Kept.storeMask {a mask i : Nat} {bs : List Byte} (h : Kept cr pn s) :
    Kept cr pn { s with mem := Memory.storeMask s.mem a mask bs i } := h.setMem (Memory.storeMask_wf mask bs a i h.mem_wf)

theorem Kept.store {a : Nat} {bs : List Byte} (h : Kept cr pn s) : Kept cr pn { s with mem := Memory.store s.mem a bs } :=
  h.setMem (Memory.store_wf bs a h.mem_wf)

theorem Kept.ite {a b : State} {p : Prop} [Decidable p] (ha : Kept cr pn a) (hb : Kept cr pn b) :
    Kept cr pn (if p then a else b) := by
  split
  · exact ha
  · exact hb

theorem Kept.foldl {α : Type} {l : List α} {f : State → α → State} (h : Kept cr pn s)
    (hf : ∀ {u x}, Kept cr pn u → Kept cr pn (f u x)) : Kept cr pn (l.foldl f s) := by
  induction l generalizing s with
  | nil => exact h
  | cons x l ih => exact ih (hf h)

theorem Kept.foldlSnd {α β : Type} {l : List α} {f : β × State → α → β × State} {p : β × State} (h : Kept cr pn p.2)
    (hf : ∀ {u x}, Kept cr pn u.2 → Kept cr pn (f u x).2) : Kept cr pn (l.foldl f p).2 := by
  induction l generalizing p with
  | nil => exact h
  | cons x l ih => exact ih (hf h)

theorem Kept.snd {α : Type} {p : α × State} {x : α} {t : State} (h : Kept cr pn p.2) (e : p = (x, t)) : Kept cr pn t := by
  subst e
  exact h

theorem Kept.fst {α : Type} {p : State × α} {x : α} {t : State} (h : Kept cr pn p.1) (e : p = (t, x)) : Kept cr pn t := by
  subst e
  exact h

theorem Kept.thd {α β : Type} {p : α × β × State} {x : α} {y : β} {t : State} (h : Kept cr pn p.2.2) (e : p = (x, y, t)) :
    Kept cr pn t := by
  subst e
  exact h

/-- Of two answers with a state, either a kept one. -/
theorem Kept.iteSnd {α : Type} {x y : α × State} {a : α} {t : State} {p : Prop} [Decidable p] (e : (if p then x else y) = (a, t))
    (hx : Kept cr pn x.2) (hy : Kept cr pn y.2) : Kept cr pn t := by
  split at e
  · exact hx.snd e
  · exact hy.snd e

theorem Kept.iteFst {α : Type} {x y : State × α} {a : α} {t : State} {p : Prop} [Decidable p] (e : (if p then x else y) = (t, a))
    (hx : Kept cr pn x.1) (hy : Kept cr pn y.1) : Kept cr pn t := by
  split at e
  · exact hx.fst e
  · exact hy.fst e

theorem Kept.iteThd {α β : Type} {x y : α × β × State} {a : α} {b : β} {t : State} {p : Prop} [Decidable p]
    (e : (if p then x else y) = (a, b, t)) (hx : Kept cr pn x.2.2) (hy : Kept cr pn y.2.2) : Kept cr pn t := by
  split at e
  · exact hx.thd e
  · exact hy.thd e

theorem KeptOut.next {t : State} (h : Kept cr pn t) : KeptOut cr pn (.next t) := by
  rintro _ ⟨⟩
  exact h

theorem KeptOut.ite {a b : Out} {p : Prop} [Decidable p] (ha : KeptOut cr pn a) (hb : KeptOut cr pn b) :
    KeptOut cr pn (if p then a else b) := by
  split
  · exact ha
  · exact hb

theorem KeptSome.none : KeptSome cr pn none := by
  rintro _ ⟨⟩

theorem KeptSome.some {t : State} (h : Kept cr pn t) : KeptSome cr pn (some t) := by
  rintro _ ⟨⟩
  exact h

theorem KeptSome.ite {a b : Option State} {p : Prop} [Decidable p] (ha : KeptSome cr pn a) (hb : KeptSome cr pn b) :
    KeptSome cr pn (if p then a else b) := by
  split
  · exact ha
  · exact hb

theorem KeptOk.ok {t : State} (h : Kept cr pn t) : KeptOk cr pn (.ok t) := by
  rintro _ ⟨⟩
  exact h

theorem KeptOk.error {e : Later} : KeptOk cr pn (.error e) := by
  rintro _ ⟨⟩

theorem KeptOk.ite {a b : Except Later State} {p : Prop} [Decidable p] (ha : KeptOk cr pn a) (hb : KeptOk cr pn b) :
    KeptOk cr pn (if p then a else b) := by
  split
  · exact ha
  · exact hb

theorem KeptSome.getD {o : Option State} (ho : KeptSome cr pn o) (h : Kept cr pn s) : Kept cr pn (o.getD s) := by
  cases o with
  | none => exact h
  | some t => exact ho t rfl

theorem KeptSome.map {o : Option State} {f : State → State} (ho : KeptSome cr pn o)
    (hf : ∀ {u}, Kept cr pn u → Kept cr pn (f u)) : KeptSome cr pn (o.map f) := by
  cases o with
  | none => exact .none
  | some t => exact .some (hf (ho t rfl))

/-! O6 for the operations of `Sys2Proof/Machine/Base.lean`. -/

theorem Kept.modArr {a f} (h : Kept cr pn s) : Kept cr pn (s.modArr a f) := h.same rfl

theorem Kept.modCtx {a c f} (h : Kept cr pn s) : Kept cr pn (s.modCtx a c f) := h.modArr

theorem Kept.modMe {f} (h : Kept cr pn s) : Kept cr pn (s.modMe f) := h.modCtx

theorem Kept.modQueue {q f} (h : Kept cr pn s) : Kept cr pn (s.modQueue q f) := by
  unfold State.modQueue
  split
  · exact h.same rfl
  · exact h

theorem Kept.modFunc {n f} (h : Kept cr pn s) : Kept cr pn (s.modFunc n f) := h.same rfl

theorem Kept.modPort {p f} (h : Kept cr pn s) : Kept cr pn (s.modPort p f) := h.same rfl

theorem Kept.modRing {id f} (h : Kept cr pn s) : Kept cr pn (s.modRing id f) := h.same rfl

theorem Kept.modTeam {id f} (h : Kept cr pn s) : Kept cr pn (s.modTeam id f) := h.same rfl

theorem Kept.modJob {id f} (h : Kept cr pn s) : Kept cr pn (s.modJob id f) := h.same rfl

theorem Kept.atAc {t i} (h : Kept cr pn s) : Kept cr pn (s.atAc t i) := h.same rfl

theorem Kept.atEnd {t i} (h : Kept cr pn s) : Kept cr pn (s.atEnd t i) := h.same rfl

theorem Kept.soon {i} (h : Kept cr pn s) : Kept cr pn (s.soon i) := h.same rfl

theorem Kept.send {o} (h : Kept cr pn s) : Kept cr pn (s.send o) := h.same rfl

theorem Kept.draw {n} (h : Kept cr pn s) : Kept cr pn (s.draw n).2 := h.same rfl

theorem Kept.report {r} (h : Kept cr pn s) : Kept cr pn (s.report r) := h.same rfl

theorem Kept.freeFollowers (h : Kept cr pn s) : Kept cr pn s.freeFollowers := h.same rfl

theorem Kept.request {who pa op sec asid} (h : Kept cr pn s) : Kept cr pn (s.request who pa op sec asid) := Kept.send (h.same rfl)

theorem Kept.forgetWalks {p} (h : Kept cr pn s) : Kept cr pn (s.forgetWalks p) := h.same rfl

theorem Kept.forgetAsks {a c} (h : Kept cr pn s) : Kept cr pn (s.forgetAsks a c) := h.same rfl

/-! O6 for the operations of `Sys2Proof/Machine/Ops.lean`. -/

theorem Kept.grant {a c} (h : Kept cr pn s) : Kept cr pn (s.grant a c) := h.modArr

theorem Kept.dropLease {a} (h : Kept cr pn s) : Kept cr pn (s.dropLease a) :=
  h.onlyMoves (s.dropLease_moves (a := a) (c := 0) a)

theorem Kept.endBundle {a c} (h : Kept cr pn s) : Kept cr pn (s.endBundle a c) := h.onlyMoves (s.endBundle_moves a c)

theorem Kept.settleAt {a c} (h : Kept cr pn s) : Kept cr pn (s.settleAt a c) := h.onlyMoves (s.settleAt_moves a c)

theorem Kept.settle (h : Kept cr pn s) : Kept cr pn s.settle := h.settleAt

theorem Kept.retire {f} (h : Kept cr pn s) : Kept cr pn (s.retire f) := h.modMe.settle

theorem Kept.keep (h : Kept cr pn s) : Kept cr pn s.keep := h.modMe.settle

theorem Kept.keepWith {f} (h : Kept cr pn s) : Kept cr pn (s.keepWith f) := h.modMe.settle

theorem Kept.faultSlot {code} (h : Kept cr pn s) : Kept cr pn (s.faultSlot code) := h.modMe.settle

theorem Kept.hold {n} (h : Kept cr pn s) : Kept cr pn (s.hold n) := h.keepWith

theorem Kept.gate {srcs dst k} (h : Kept cr pn s) (hk : KeptOut cr pn k) : KeptOut cr pn (s.gate srcs dst k) :=
  .ite (.next h.keep) (.ite (.next h.faultSlot) hk)

theorem Kept.discardUnpublished {a c} (h : Kept cr pn s) : Kept cr pn (s.discardUnpublished a c) := by
  unfold State.discardUnpublished
  extract_lets _ _ _ s0
  have h0 : Kept cr pn s0 := h.same rfl
  split
  · exact h0.modCtx
  · exact h0.modRing.modCtx.modArr

theorem Kept.dropFeeds {a c all_} (h : Kept cr pn s) : Kept cr pn (s.dropFeeds a c all_) :=
  Kept.modCtx (.foldl (h.foldl fun hu => hu.modArr) fun hu => hu.modArr)

theorem Kept.stopAt {a c code} (h : Kept cr pn s) : Kept cr pn (s.stopAt a c code) :=
  h.dropFeeds.modCtx.modArr.dropLease.ite h.dropFeeds.modCtx.modArr

theorem Kept.raiseData {a c reason seg} (h : Kept cr pn s) : Kept cr pn (s.raiseData a c reason seg) := h.ite (h.modCtx.soon.ite h.modCtx)

theorem Kept.askTeam {team skip code} (h : Kept cr pn s) : Kept cr pn (s.askTeam team skip code) := by
  unfold State.askTeam
  split
  · exact h
  · exact h.foldl fun hu => (hu.modCtx.soon.ite hu.modCtx).ite hu

theorem Kept.stopTeamCopies {team} (h : Kept cr pn s) : Kept cr pn (s.stopTeamCopies team) := h.same rfl

theorem Kept.endTeam {team skip} (h : Kept cr pn s) : Kept cr pn (s.endTeam team skip) := by
  unfold State.endTeam
  extract_lets
  split
  · exact h
  · exact h.ite h.modTeam.modJob.stopTeamCopies.askTeam

theorem Kept.terminateTeam {team skip} (h : Kept cr pn s) : Kept cr pn (s.terminateTeam team skip) := by
  unfold State.terminateTeam
  split
  · exact h
  · exact h.ite (h.endTeam.send.ite h.endTeam)

theorem Kept.takeFatal {a c slot code detail pcHi} (h : Kept cr pn s) : Kept cr pn (s.takeFatal a c slot code detail pcHi) :=
  .terminateTeam (.report h.stopAt.discardUnpublished)

theorem Kept.sendDown {a c i v} (h : Kept cr pn s) : Kept cr pn (s.sendDown a c i v) := h.modArr.atAc

theorem Kept.putChunks {c} (h : Kept cr pn s) : Kept cr pn (s.putChunks c) := h.same rfl

theorem Kept.modCopies {a c f} (h : Kept cr pn s) : Kept cr pn (s.modCopies a c f) := h.same rfl

theorem Kept.stopCopies {a c} (h : Kept cr pn s) : Kept cr pn (s.stopCopies a c) := h.modCopies

theorem Kept.rollback {a c} (h : Kept cr pn s) : KeptSome cr pn (s.rollback a c) := by
  unfold State.rollback
  extract_lets
  split
  · exact .none
  · exact .ite .none (.some h.discardUnpublished.dropFeeds.modCtx.stopCopies.modArr.sendDown)

theorem Kept.readErr {a p chunks} (h : Kept cr pn s) : Kept cr pn (s.readErr a p chunks).2 := by
  unfold State.readErr
  extract_lets _ _ s1
  have h1 : Kept cr pn s1 := h.foldl fun hu => hu.modArr
  split
  · exact h
  · exact h1.same rfl

theorem Kept.upsetLine {level l n} (h : Kept cr pn s) : Kept cr pn (s.upsetLine level l n) := h.same rfl

theorem Kept.einjAt {p} (h : Kept cr pn s) : Kept cr pn (s.einjAt p) := (h.upsetLine.ite h.modArr).same rfl

theorem Kept.einjPlaced (h : Kept cr pn s) : Kept cr pn s.einjPlaced := h.einjAt

theorem Kept.einjLine {level l} (h : Kept cr pn s) : Kept cr pn (s.einjLine level l) := h.einjPlaced.ite h

theorem Kept.einjArr {a here} (h : Kept cr pn s) : Kept cr pn (s.einjArr a here) := h.einjPlaced.ite h

theorem Kept.einjVc {a v} (h : Kept cr pn s) : Kept cr pn (s.einjVc a v) := h.einjAt.ite h

theorem Kept.setCopyQ {e pool l} (h : Kept cr pn s) : Kept cr pn (s.setCopyQ e pool l) := by
  unfold State.setCopyQ
  split
  · exact h.modArr
  · split
    · exact h.same rfl
    · exact h

theorem Kept.modCopy {e pool id f} (h : Kept cr pn s) : Kept cr pn (s.modCopy e pool id f) := h.setCopyQ

/-! O6 for the operations of `Sys2Proof/Machine/Place.lean`. -/

theorem Kept.modLine {l f} (h : Kept cr pn s) : Kept cr pn (s.modLine l f) := h.same rfl

theorem Kept.modGroup {pgid f} (h : Kept cr pn s) : Kept cr pn (s.modGroup pgid f) := h.same rfl

/-! O6 for the operations of `Sys2Proof/Machine/Parity.lean`. -/

theorem Kept.startMend {l use pgid m off} (h : Kept cr pn s) : Kept cr pn (s.startMend l use pgid m off) := h.same rfl

theorem Kept.mendOwn {l level} (h : Kept cr pn s) : Kept cr pn (s.mendOwn l level) := by
  unfold State.mendOwn
  split
  · exact h.ite h.startMend
  · exact h

/-! O6 for the operations of `Sys2Proof/Machine/HomeMem.lean`. -/

theorem Kept.retirePage {pa src unit_} (h : Kept cr pn s) : Kept cr pn (s.retirePage pa src unit_) :=
  h.ite (.ite (Kept.report (h.same rfl)) h.report)

theorem Kept.quarantine {l level} (h : Kept cr pn s) : Kept cr pn (s.quarantine l level) :=
  .ite (.ite (Kept.report (h.same rfl)) h.report) (.ite (Kept.report (h.same rfl)) h.report)

theorem Kept.endAsid {owner} (h : Kept cr pn s) : Kept cr pn (s.endAsid owner) := Kept.same (h.foldl fun hu => hu.terminateTeam.ite hu) rfl

theorem Kept.endOwner {l owner r} (h : Kept cr pn s) : Kept cr pn (s.endOwner l owner r) := by
  unfold State.endOwner
  extract_lets
  split
  · exact Kept.endAsid (h.foldl fun hu => hu.report)
  · exact .foldl (h.foldl fun hu => hu.report) fun hu => hu.terminateTeam

theorem Kept.dirtyFail {l level owner} (h : Kept cr pn s) : Kept cr pn (s.dirtyFail l level owner) := by
  unfold State.dirtyFail
  extract_lets _ _ _ lost _ _ _ s1 _ s3
  have h1 : Kept cr pn s1 := by
    unfold s1
    split
    · split
      · clear_value lost
        split
        · exact h.modLine.modGroup.report
        · exact h
      · exact h.endOwner.modLine.report
    · split
      · clear_value lost
        split
        · exact h.modLine.modGroup.report
        · exact h
      · exact h.endOwner.modLine.report
  have h3 : Kept cr pn s3 := h1.modLine.retirePage
  exact h3.ite h3.quarantine

theorem Kept.cleanFail {l level refetch} (h : Kept cr pn s) (hrefetch : Kept cr pn refetch) : Kept cr pn (s.cleanFail l level refetch) :=
  h.mendOwn.ite (h.modLine.report.ite hrefetch)

theorem Kept.chooseWay {allowed used} (h : Kept cr pn s) : Kept cr pn (s.chooseWay allowed used).2 := by
  unfold State.chooseWay
  split
  · exact h
  · split
    · exact h
    · split
      rename_i e
      exact h.draw.snd e

theorem Kept.evictTarn {l} (h : Kept cr pn s) : Kept cr pn (s.evictTarn l) := ((h.einjLine.ite h).dirtyFail.ite (h.einjLine.ite h)).modLine

theorem Kept.fillTarn {l dirty asid} (h : Kept cr pn s) : Kept cr pn (s.fillTarn l dirty asid) := by
  unfold State.fillTarn
  extract_lets
  split
  · exact h.modLine.ite h
  · split
    · rename_i e
      exact h.chooseWay.snd e
    · rename_i e
      exact Kept.modLine ((h.chooseWay.snd e).foldl fun hu => hu.evictTarn)

theorem Kept.evictL2 {l} (h : Kept cr pn s) : Kept cr pn (s.evictL2 l) := by
  unfold State.evictL2
  extract_lets s0 _ s1 _
  have h0 : Kept cr pn s0 := h.einjLine.ite h
  have h1 : Kept cr pn s1 := h0.dirtyFail.ite h0
  exact (h1.fillTarn.ite h1).modLine

theorem Kept.fillL2 {l asid} (h : Kept cr pn s) : Kept cr pn (s.fillL2 l asid) := by
  unfold State.fillL2
  extract_lets
  split
  · exact h
  · split
    · rename_i e
      exact h.chooseWay.snd e
    · rename_i e
      exact Kept.modLine ((h.chooseWay.snd e).foldl fun hu => hu.evictL2)

theorem Kept.probeHbm {l} (h : Kept cr pn s) : Kept cr pn (s.probeHbm l) := by
  unfold State.probeHbm
  extract_lets s0
  have h0 : Kept cr pn s0 := h.einjLine
  split
  · exact h0
  · exact h0.cleanFail h0
  · exact h0.modLine

theorem Kept.probeTarn {l asid} (h : Kept cr pn s) : Kept cr pn (s.probeTarn l asid) := by
  unfold State.probeTarn
  extract_lets s0 _
  have h0 : Kept cr pn s0 := h.ite h.einjLine
  split
  · exact h
  · split
    · exact h0.probeHbm.fillTarn
    · split
      · exact h0
      · exact h0.dirtyFail.ite (h0.cleanFail h0.evictTarn.probeHbm.fillTarn)
      · exact h0.modLine

theorem Kept.probe {l asid} (h : Kept cr pn s) : Kept cr pn (s.probe l asid) := by
  unfold State.probe
  extract_lets s0 _
  have h0 : Kept cr pn s0 := h.ite h.einjLine
  split
  · exact h0.probeTarn.fillL2
  · split
    · exact h0.evictL2.probeTarn.fillL2
    · split
      · exact h0
      · exact h0.dirtyFail.ite (h0.cleanFail h0.evictL2.probeTarn.fillL2)
      · exact h0.modLine

theorem Kept.homeRead {line asid} (h : Kept cr pn s) : Kept cr pn (s.homeRead line asid).2.2 := h.probe

theorem Kept.noticeWatches {l data} (h : Kept cr pn s) : Kept cr pn (s.noticeWatches l data) :=
  .foldl (h.foldl fun hu => .ite (Kept.send (hu.same rfl)) hu) fun hu => hu.soon.ite hu

theorem Kept.homeWrite {line mask data asid clears} (h : Kept cr pn s) : Kept cr pn (s.homeWrite line mask data asid clears) := by
  unfold State.homeWrite
  extract_lets _ s1 s2 _
  have h1 : Kept cr pn s1 := h.probe
  have h2 : Kept cr pn s2 := h1.storeMask
  exact h2.modLine.noticeWatches

theorem Kept.homeStore {pa v n asid} (h : Kept cr pn s) : Kept cr pn (s.homeStore pa v n asid) := h.homeWrite

theorem Kept.fetched {l data poison asid} (h : Kept cr pn s) : Kept cr pn (s.fetched l data poison asid) := by
  unfold State.fetched
  extract_lets s1
  have h1 : Kept cr pn s1 := h.evictL2.fillL2
  exact .modLine h1.storeMask

theorem Kept.known {l mask data} (h : Kept cr pn s) : Kept cr pn (s.known l mask data) := by
  unfold State.known
  extract_lets s1
  have h1 : Kept cr pn s1 := h.storeMask
  exact h1.noticeWatches

theorem Kept.failLevel {l} (h : Kept cr pn s) : Kept cr pn (s.failLevel l).2 := by
  unfold State.failLevel
  extract_lets s0 s1 _
  have h0 : Kept cr pn s0 := h.ite h.einjLine
  have h1 : Kept cr pn s1 := h0.ite h0.einjLine
  split
  · exact h
  · split
    · exact h0
    · split
      · exact h1
      · exact h1.einjLine

theorem Kept.awaitMend {line} (h : Kept cr pn s) : KeptSome cr pn (s.awaitMend line) := by
  unfold State.awaitMend
  split
  · exact .ite .none (.some h.startMend)
  · exact .ite .none (.some h.failLevel.mendOwn)

theorem Kept.flushLine {l} (h : Kept cr pn s) : Kept cr pn (s.flushLine l) := h.probe.evictL2.evictTarn

/-! O6 for the operations of `Sys2Proof/Machine/Ports.lean`. -/

theorem Kept.sendPacket {path prio bytes resp} (h : Kept cr pn s) : Kept cr pn (s.sendPacket path prio bytes resp) := by
  unfold State.sendPacket
  split
  · exact h
  · extract_lets
    split
    · exact h.same rfl
    · exact h

theorem Kept.traffic {die port slice prio out back} (h : Kept cr pn s) : Kept cr pn (s.traffic die port slice prio out back) :=
  h.sendPacket.sendPacket

theorem Kept.viewTraffic {a c l out back} (h : Kept cr pn s) : Kept cr pn (s.viewTraffic a c l out back) := h.traffic

theorem Kept.walkTraffic {who pa} (h : Kept cr pn s) : Kept cr pn (s.walkTraffic who pa) := h.traffic

/-! O6 for the operations of `Sys2Proof/Machine/Translate.lean`. -/

theorem Kept.install {l t same n} (h : Kept cr pn s) : Kept cr pn (s.install l t same n).2 := by
  unfold State.install
  extract_lets
  split
  · exact h
  · split
    rename_i s1 e
    have h1 : Kept cr pn s1 := h.draw.snd e
    split
    · exact h1
    · exact h1

theorem Kept.installDie {die t} (h : Kept cr pn s) : Kept cr pn (s.installDie die t) := h.install.same rfl

theorem Kept.installArr {a t} (h : Kept cr pn s) : Kept cr pn (s.installArr a t) := h.install.modArr

theorem Kept.leafFor {who asid sec dva} (h : Kept cr pn s) : Kept cr pn (s.leafFor who asid sec dva).2 := by
  unfold State.leafFor
  extract_lets
  split
  · exact h
  · split
    · exact h.modArr
    · split
      · extract_lets s1
        have h1 : Kept cr pn s1 := h.same rfl
        split
        · exact h1.installArr
        · exact h1
      · split
        · split
          · exact h.same rfl
          · exact h
        · split
          · exact h
          · exact h.same rfl

theorem Kept.walkFault {w c} (h : Kept cr pn s) : Kept cr pn (s.walkFault w c) := .ite (h.same rfl) (h.same rfl)

theorem Kept.walkFound {w e big} (h : Kept cr pn s) : Kept cr pn (s.walkFound w e big) := by
  unfold State.walkFound
  extract_lets s1 _ s2
  have h1 : Kept cr pn s1 := h.same rfl
  have h2 : Kept cr pn s2 := h1.installDie
  split
  · exact h1
  · split
    · exact h2.installArr
    · exact h2

theorem Kept.walkNext {w} (h : Kept cr pn s) : Kept cr pn (s.walkNext w) := by
  unfold State.walkNext
  extract_lets
  split
  extract_lets
  split
  · exact h.walkFault
  · split
    · exact h.report.walkFault
    · split
      · exact h.report.walkFault
      · split
        rename_i s1 e
        have h1 : Kept cr pn s1 := h.walkTraffic.homeRead.thd e
        extract_lets
        split
        · exact h1.walkFault
        · split
          · exact h1.walkFault
          · exact h1.same rfl
          · split
            · exact h1.walkFault
            · exact h1.walkFound

theorem Kept.walkTick (h : Kept cr pn s) : Kept cr pn s.walkTick :=
  h.foldl fun hu => hu.ite (.ite (Kept.walkNext (hu.same rfl)) (hu.same rfl))

theorem Kept.access {who asid sec rank u dva} (h : Kept cr pn s) : Kept cr pn (s.access who asid sec rank u dva).2 := by
  unfold State.access
  split
  rename_i s0 e
  have h0 : Kept cr pn s0 := h.leafFor.snd e
  split
  · exact h0
  · extract_lets _ note
    have hnote : ∀ {reason}, Kept cr pn (note reason) := h0.report
    split
    · exact h0
    · split
      · exact h0
      · split
        · exact h0
        · split
          · exact h0
          · split
            · exact h0.ite hnote
            · split
              · exact hnote
              · exact h0

theorem Kept.accessM {a c u addr size} (h : Kept cr pn s) : Kept cr pn (s.accessM a c u addr size).2 := by
  unfold State.accessM
  extract_lets
  split
  · exact h
  · split
    · exact h
    · exact h.access

/-! O6 for the operations of `Sys2Proof/Machine/Peer.lean`. -/

theorem Kept.noteAbort {asid sec dva src} (h : Kept cr pn s) : Kept cr pn (s.noteAbort asid sec dva src) := by
  unfold State.noteAbort
  extract_lets
  split
  · exact h.report
  · exact h

theorem Kept.postNet {a} (h : Kept cr pn s) : Kept cr pn (s.postNet a) := by
  unfold State.postNet
  split
  · exact h
  · exact h.ite h.modArr

theorem Kept.askCtx {a c code} (h : Kept cr pn s) : Kept cr pn (s.askCtx a c code) := h.ite (h.modCtx.soon.ite h.modCtx)

theorem Kept.sendOver {a c} (h : Kept cr pn s) : Kept cr pn (s.sendOver a c) := h.modCtx

theorem Kept.arrive {a m} (h : Kept cr pn s) : Kept cr pn (s.arrive a m) := by
  unfold State.arrive
  extract_lets
  split
  · split
    · exact h.send
    · exact h.sendOver.askCtx
  · exact h.modArr.postNet

/-! O6 for the operations of `Sys2Proof/Machine/View.lean`. -/

theorem Kept.vcRead {a v} (h : Kept cr pn s) : Kept cr pn (s.vcRead a v).2 := by
  unfold State.vcRead
  split
  rename_i s1 e
  have h1 : Kept cr pn s1 := h.einjVc.readErr.snd e
  extract_lets s2
  have h2 : Kept cr pn s2 := h1.modArr
  split
  · exact h1
  · exact h2.dirtyFail.ite h2

theorem Kept.vcWriteBack {a v} (h : Kept cr pn s) : Kept cr pn (s.vcWriteBack a v) := by
  unfold State.vcWriteBack
  split
  · rename_i e
    exact h.vcRead.snd e
  · rename_i s1 e
    have h1 : Kept cr pn s1 := h.vcRead.snd e
    exact h1.viewTraffic.modArr.homeWrite.modLine.ite h1.viewTraffic.modArr.homeWrite

theorem Kept.vcEvict {a v} (h : Kept cr pn s) : Kept cr pn (s.vcEvict a v) := h.vcWriteBack.ite h.modArr

theorem Kept.vcInsert {a v} (h : Kept cr pn s) : Kept cr pn (s.vcInsert a v) := by
  unfold State.vcInsert
  extract_lets _ _ _ _ s1 _
  have h1 : Kept cr pn s1 := by
    unfold s1
    split
    · exact h.vcEvict
    · exact h
  exact h1.modArr

theorem Kept.vcSetData {a v f} (h : Kept cr pn s) : Kept cr pn (s.vcSetData a v f) := h.modArr

theorem Kept.vcFind {a p} (h : Kept cr pn s) : Kept cr pn (s.vcFind a p).2 := by
  unfold State.vcFind
  split
  · exact h
  · split
    · rename_i e
      exact (h.vcRead.snd e).modArr
    · rename_i e
      exact h.vcRead.snd e

theorem Kept.vcFill {a c l own} (h : Kept cr pn s) : Kept cr pn (s.vcFill a c l own).2 := by
  unfold State.vcFill
  extract_lets
  split
  rename_i s1 e
  have h1 : Kept cr pn s1 := h.viewTraffic.homeRead.thd e
  exact (h1.modArr.ite h1).vcInsert

theorem Kept.viewLine {a c l} (h : Kept cr pn s) : Kept cr pn (s.viewLine a c l).2 := by
  unfold State.viewLine
  split
  · rename_i e
    exact h.vcFind.snd e
  · rename_i s1 e
    have h1 : Kept cr pn s1 := h.vcFind.snd e
    split
    · exact h1.vcFill
    · split
      · rename_i e'
        exact h1.vcFind.snd e'
      · rename_i e'
        exact (h1.vcFind.snd e').vcFill

theorem Kept.ownLine {a c l} (h : Kept cr pn s) : Kept cr pn (s.ownLine a c l).2 := by
  unfold State.ownLine
  split
  · rename_i e
    exact h.vcFind.snd e
  · rename_i e
    exact (h.vcFind.snd e).vcFill

theorem Kept.patchView {a c l d m} (h : Kept cr pn s) : Kept cr pn (s.patchView a c l d m) := h.ownLine.vcSetData

theorem Kept.patchPresent {a c l d m} (h : Kept cr pn s) : Kept cr pn (s.patchPresent a c l d m) := by
  unfold State.patchPresent
  split
  · exact h.vcSetData
  · exact h

theorem Kept.patchLogst {a c l d m} (h : Kept cr pn s) : Kept cr pn (s.patchLogst a c l d m) := h.patchView.ite h

theorem Kept.ownedLine {a c l} (h : Kept cr pn s) : Kept cr pn (s.ownedLine a c l).2 := by
  unfold State.ownedLine
  split
  · rename_i e
    exact h.vcFind.snd e
  · rename_i e
    extract_lets
    split
    rename_i e'
    exact ((h.vcFind.snd e).viewTraffic.homeRead.thd e').vcInsert

theorem Kept.ownedStore {a c l d m} (h : Kept cr pn s) : Kept cr pn (s.ownedStore a c l d m) := h.ownedLine.vcSetData

theorem Kept.ownedCopy {a c l d m} (h : Kept cr pn s) : Kept cr pn (s.ownedCopy a c l d m) := by
  unfold State.ownedCopy
  extract_lets _ s1
  have h1 : Kept cr pn s1 := by
    unfold s1
    split
    · exact h.modArr
    · exact h
  exact h.ownedStore.ite h1.vcInsert

theorem Kept.writeBackOwned {a p drop} (h : Kept cr pn s) : Kept cr pn (s.writeBackOwned a p drop) := by
  unfold State.writeBackOwned
  refine h.foldl fun {u v} hu => ?_
  split
  · split
    · exact hu.vcEvict
    · split
      · rename_i e
        exact hu.vcRead.snd e
      · rename_i e
        exact (hu.vcRead.snd e).vcWriteBack.modArr
  · exact hu

theorem Kept.vcReload {a c l} (h : Kept cr pn s) : Kept cr pn (s.vcReload a c l) :=
  h.ite (h.modArr.ite (h.viewTraffic.homeRead.modArr.ite h.viewTraffic.homeRead.modArr))


end

end Sys2Proof.Machine

namespace Sys2Proof.Machine

section
variable {cr : ConfigRecord} {pn : Nat} {s : State}

/-! O6 for the operations of `Sys2Proof/Machine/Log.lean`. -/

theorem Kept.append {ring rc} (h : Kept cr pn s) : KeptSome cr pn (s.append ring rc) := by
  unfold State.append
  split
  · exact .none
  · extract_lets _ _ s1
    have h1 : Kept cr pn s1 := h.modRing
    split
    · exact .none
    · split
      · exact .ite (.some h1) (.some h1.modCtx)
      · exact .some h1

theorem Kept.upsetRecord {ring n} (h : Kept cr pn s) : Kept cr pn (s.upsetRecord ring n) := h.modRing

theorem Kept.appendFor {ring rc asid sec} (h : Kept cr pn s) : KeptSome cr pn (s.appendFor ring rc asid sec) :=
  h.append.map fun hu => hu.modRing

theorem Kept.appendOldest {a c} (h : Kept cr pn s) : KeptSome cr pn (s.appendOldest a c) := by
  unfold State.appendOldest
  split
  · exact .some h
  · exact h.append.map fun hu => hu.modCtx

theorem Kept.appendThrough {a c l k} (h : Kept cr pn s) : KeptSome cr pn (s.appendThrough a c l k) := by
  induction k generalizing s with
  | zero => exact .some h
  | succ k ih =>
    unfold State.appendThrough
    split
    · split
      · exact .none
      · rename_i s1 e
        exact ih (h.appendOldest s1 e)
    · exact .some h

theorem Kept.startRelease {ring scope ckpt forced node mark} (h : Kept cr pn s) :
    Kept cr pn (s.startRelease ring scope ckpt forced node mark) := h.modRing

theorem Kept.pushRelease {ring} (h : Kept cr pn s) : Kept cr pn (s.pushRelease ring) := by
  unfold State.pushRelease
  split
  · exact h
  · extract_lets left
    split
    · exact h
    · split
      · exact h.modRing.ite h
      · split
        · clear_value left
          split
          · exact h.appendOldest.getD h
          · split
            split
            · exact h
            · rename_i s1 e
              have h1 : Kept cr pn s1 := h.append _ e
              exact h1.modRing
        · split
          · split
            · exact h
            · split
              extract_lets _ s1 s2
              have h1 : Kept cr pn s1 := h.same rfl
              have h2 : Kept cr pn s2 := h1.modRing
              split
              · split
                · exact h2.modCtx.modQueue
                · split
                  · exact h2
                  · split
                    · exact h2.modQueue
                    · exact h2
              · exact h2
          · exact h

theorem Kept.runRelease {ring k} (h : Kept cr pn s) : Kept cr pn (s.runRelease ring k) := by
  induction k generalizing s with
  | zero => exact h
  | succ k ih => exact ih h.pushRelease

theorem Kept.enterStore {a c l k acls m d} (h : Kept cr pn s) : Kept cr pn (s.enterStore a c l k acls m d) :=
  h.modCtx.ite (h.ite (h.appendOldest.getD h)).modCtx

theorem Kept.hardBytes {pa v n asid sec who} (h : Kept cr pn s) : Kept cr pn (s.hardBytes pa v n asid sec who) :=
  .ite (h.same rfl) (h.report.ite (h.homeWrite.ite h.known.request))

theorem Kept.hardWrite {pa ws asid sec who} (h : Kept cr pn s) : Kept cr pn (s.hardWrite pa ws asid sec who) := h.hardBytes

theorem Kept.trackEntry {r} (h : Kept cr pn s) : Kept cr pn (s.trackEntry r) := by
  unfold State.trackEntry
  split
  · exact h
  · exact h.ite h.hardWrite

theorem keptOut_execPackageWindowClose (h : Kept cr pn s) : KeptOut cr pn (execPackageWindowClose s) := by
  unfold execPackageWindowClose
  extract_lets
  split
  rename_i s0 e
  have h0 : Kept cr pn s0 := .iteSnd e h h.draw
  extract_lets _ _ s1 s2 s3
  have h1 : Kept cr pn s1 := h0.same rfl
  have h2 : Kept cr pn s2 := h1.foldl fun hu => hu.atAc
  have h3 : Kept cr pn s3 := h2.foldl fun hu => hu.report
  exact .next (.atAc (h3.foldl fun hu => hu.trackEntry))

theorem Kept.noteRelease {r stamp} (h : Kept cr pn s) : Kept cr pn (s.noteRelease r stamp) := by
  unfold State.noteRelease
  split
  · exact h
  · exact h.foldl fun hu => hu.modArr

theorem keptOut_execStampReceive {slot} (h : Kept cr pn s) : KeptOut cr pn (execStampReceive slot s) := by
  unfold execStampReceive
  refine .next ?_
  refine h.foldl fun {u g} hu => ?_
  split
  · exact hu
  · split
    · exact hu
    · extract_lets _ u1'
      have hu1' : Kept cr pn u1' := hu.modRing.noteRelease
      split
      · exact hu
      · split
        · exact hu
        · split
          · exact hu1'.hardWrite.modRing.ite hu1'.hardWrite
          · exact hu1'

theorem Kept.freeIndex {a c f} (h : Kept cr pn s) : Kept cr pn (s.freeIndex a c f) := h.modArr

theorem Kept.moveFold {ring fold} (h : Kept cr pn s) : Kept cr pn (s.moveFold ring fold) := h.modRing

theorem Kept.freeRing {r} (h : Kept cr pn s) : Kept cr pn (s.freeRing r) := h.same rfl

theorem keptOut_execLogTrackerAdvance {ring} (h : Kept cr pn s) : KeptOut cr pn (execLogTrackerAdvance ring s) := by
  unfold execLogTrackerAdvance
  split
  · exact .next h
  · extract_lets s1 _ s2
    have h1 : Kept cr pn s1 := h.same rfl
    have h2 : Kept cr pn s2 := h1.moveFold.foldl fun hu => hu.moveFold
    split
    · exact .next h
    · split
      · exact .next h1
      · extract_lets _ s3 _ s5
        have h3 : Kept cr pn s3 := by
          unfold s3
          split
          · exact h2.freeIndex.atAc
          · exact h2
        have h5 : Kept cr pn s5 := by
          unfold s5
          refine h3.trackEntry.foldl fun {u q} hu => ?_
          split
          · exact hu.freeRing.ite hu
          · exact hu
        exact .next h5

theorem Kept.sample {r} (h : Kept cr pn s) : Kept cr pn (s.sample r).2.2 := by
  unfold State.sample
  split
  · exact h
  · split
    rename_i s1 e
    have h1 : Kept cr pn s1 := h.homeRead.thd e
    extract_lets
    split
    · exact h1.hardWrite.modLine
    · exact h1

theorem Kept.sampleRank {a c t rank} (h : Kept cr pn s) : Kept cr pn (s.sampleRank a c t rank).2 := by
  unfold State.sampleRank
  extract_lets
  split
  · exact h.noteAbort
  · split
    · exact h.request
    · split
      rename_i s1 e
      have h1 : Kept cr pn s1 := h.homeRead.thd e
      split
      · exact h1.send
      · exact h1

theorem Kept.entryRead {a c key pa bad d} (h : Kept cr pn s) : Kept cr pn (s.entryRead a c key pa bad d) := by
  unfold State.entryRead
  extract_lets
  split
  · exact h.send.request.ite (h.modCtx.ite h.modCtx.request)
  · exact h

theorem Kept.rewriteEntry {team rank} (h : Kept cr pn s) : Kept cr pn (s.rewriteEntry team rank) := by
  unfold State.rewriteEntry
  split
  · exact h
  · extract_lets
    split
    · exact h
    · exact h.hardWrite.modLine.ite h.hardWrite

theorem Kept.startAcquire {a c scope keys ranks} (h : Kept cr pn s) : Kept cr pn (s.startAcquire a c scope keys ranks) := by
  unfold State.startAcquire
  extract_lets
  split
  rename_i s1 e
  have h1 : Kept cr pn s1 := Kept.snd (.foldlSnd h fun {u k} hu => by
    split
    · split
      · exact hu
      · exact hu
    · split
      · exact hu
      · exact hu.sample) e
  split
  rename_i s2 e'
  have h2 : Kept cr pn s2 := Kept.snd (by
    split
    · exact .foldlSnd h1 fun hu => hu.sampleRank
    · exact h1) e'
  exact h2.modCtx

theorem Kept.dropViews {a c} (h : Kept cr pn s) : Kept cr pn (s.dropViews a c) := h.modArr

theorem Kept.overrun {a c} (h : Kept cr pn s) : Kept cr pn (s.overrun a c) := h.dropViews.modCtx

theorem Kept.patchChain {a c own key upto} (h : Kept cr pn s) : Kept cr pn (s.patchChain a c own key upto) := by
  unfold State.patchChain
  extract_lets
  split
  · exact h
  · split
    · exact h.dropViews
    · split
      · exact h
      · split
        · exact h.dropViews
        · split
          · exact h.foldl fun hu => hu.vcReload
          · exact h.dropViews

theorem Kept.noteTaken {r team lo hi} (h : Kept cr pn s) : Kept cr pn (s.noteTaken r team lo hi) := h.ite (h.ite h.modArr)

theorem Kept.patchFrom {a c w r} (h : Kept cr pn s) : Kept cr pn (s.patchFrom a c w r) := by
  unfold State.patchFrom
  extract_lets
  split
  rename_i u' e
  have hu' : Kept cr pn u' := h.sample.thd e
  extract_lets s1
  have h1 : Kept cr pn s1 := by
    unfold s1
    split
    · exact hu'
    · split
      · exact hu'.overrun
      · split
        · exact hu'.dropViews
        · split
          · exact hu'.overrun
          · exact hu'.dropViews
          · exact hu'.foldl fun hu => hu.vcReload
  exact Kept.modCtx (Kept.noteTaken (h1.foldl fun hu => hu.patchChain))

theorem Kept.patchGone {a c w} (h : Kept cr pn s) : Kept cr pn (s.patchGone a c w) := (h.ite h.overrun).modCtx

theorem Kept.resample {a c w} (h : Kept cr pn s) : Kept cr pn (s.resample a c w).2 := by
  unfold State.resample
  split
  · split
    · exact h.sampleRank
    · exact h
  · exact h

theorem Kept.stepAcquire {a c} (h : Kept cr pn s) : Kept cr pn (s.stepAcquire a c).2 := by
  unfold State.stepAcquire
  split
  · exact h
  · split
    rename_i s1 e
    have h1 : Kept cr pn s1 := Kept.snd (.foldlSnd h fun {u w0} hu => by
      split
      rename_i u1 e1
      have hu1 : Kept cr pn u1 := .iteSnd e1 hu hu.resample
      extract_lets
      split
      · exact hu1
      · split
        · exact hu1.ite hu1.patchGone
        · exact hu1.patchFrom) e
    extract_lets s2 s3
    have h2 : Kept cr pn s2 := h1.modCtx
    have h3 : Kept cr pn s3 := h2.dropViews
    split
    · exact .ite (h3.same rfl) h2
    · exact h1.modCtx

/-! O6 for the operations of `Sys2Proof/Machine/Jobs.lean`. -/

theorem Kept.updateDone {q} (h : Kept cr pn s) : Kept cr pn (s.updateDone q) := h.modQueue

theorem Kept.dropJobs (h : Kept cr pn s) : Kept cr pn s.dropJobs := h.same rfl

theorem Kept.signalDone {j} (h : Kept cr pn s) : Kept cr pn (s.signalDone j) := h.updateDone.send.ite h.updateDone

theorem Kept.makeReady {job} (h : Kept cr pn s) : Kept cr pn (s.makeReady job) := h.modJob.atAc

theorem Kept.completeJob {job failed} (h : Kept cr pn s) : Kept cr pn (s.completeJob job failed) := by
  unfold State.completeJob
  split
  · exact h
  · exact h.ite h.modJob.signalDone

theorem Kept.failDependants {j k} (h : Kept cr pn s) : Kept cr pn (s.failDependants j k) := by
  induction k generalizing s j with
  | zero => exact h
  | succ k ih => exact h.foldl fun hu => hu.ite (ih hu.report).completeJob

theorem Kept.failJob {job} (h : Kept cr pn s) : Kept cr pn (s.failJob job) := by
  unfold State.failJob
  split
  · exact h
  · exact h.failDependants.completeJob

theorem Kept.teamCheck {team} (h : Kept cr pn s) : Kept cr pn (s.teamCheck team) := by
  unfold State.teamCheck
  split
  · exact h
  · exact .ite (Kept.modTeam (Kept.freeFollowers ((h.failJob.ite h.completeJob).same rfl))) h.freeFollowers

theorem Kept.retireRing {ring} (h : Kept cr pn s) : Kept cr pn (s.retireRing ring) := by
  unfold State.retireRing
  split
  · exact h
  · exact h.freeRing.ite h.modRing

theorem Kept.vacate {a c} (h : Kept cr pn s) : Kept cr pn (s.vacate a c) := by
  unfold State.vacate
  extract_lets s0 s1 s2
  have h0 : Kept cr pn s0 := h.writeBackOwned.forgetWalks.forgetAsks
  have h1 : Kept cr pn s1 := h0.modArr
  have h2 : Kept cr pn s2 := h1.same rfl
  exact h2.dropLease.ite h2

theorem Kept.freeCtx {a c} (h : Kept cr pn s) : Kept cr pn (s.freeCtx a c) := h.vacate.retireRing

/-! O6 for the operations of `Sys2Proof/Machine/SeqOps.lean`. -/

theorem Kept.alu {srcs gd f} (h : Kept cr pn s) : KeptOut cr pn (s.alu srcs gd f) := h.gate (.next h.retire)

theorem Kept.mulOp {ga gb gd f} (h : Kept cr pn s) : KeptOut cr pn (s.mulOp ga gb gd f) := h.gate (.next h.retire)

theorem Kept.divOp {ga gb gd f} (h : Kept cr pn s) : KeptOut cr pn (s.divOp ga gb gd f) :=
  h.gate (.ite (.next h.keep) (.next h.modArr.atEnd.retire))

theorem keptOut_execDivideResult {a} (h : Kept cr pn s) : KeptOut cr pn (execDivideResult a s) := by
  unfold execDivideResult
  split
  · exact .next h.modArr
  · exact .next h.modArr.modCtx

theorem Kept.branchOp {srcs cond off} (h : Kept cr pn s) : KeptOut cr pn (s.branchOp srcs cond off) := h.gate (.next h.retire)

theorem keptOut_execBfs {f off} (h : Kept cr pn s) : KeptOut cr pn (execBfs f off s) := h.branchOp

theorem keptOut_execBfc {f off} (h : Kept cr pn s) : KeptOut cr pn (execBfc f off s) := h.branchOp

theorem keptOut_execJmp {off} (h : Kept cr pn s) : KeptOut cr pn (execJmp off s) := h.branchOp

theorem keptOut_execRet (h : Kept cr pn s) : KeptOut cr pn (execRet s) := by
  unfold execRet
  split
  · exact .next h.faultSlot
  · exact .next h.retire

theorem keptOut_execLbrk (h : Kept cr pn s) : KeptOut cr pn (execLbrk s) := by
  unfold execLbrk
  extract_lets
  split
  · exact .next h.retire
  · split
    · exact .next h.faultSlot
    · exact .next h.retire

theorem Kept.seekLease {a c} (h : Kept cr pn s) : Kept cr pn (s.seekLease a c) := by
  unfold State.seekLease
  split
  · exact h.grant
  · exact h.ite h.modArr

theorem keptOut_execWrsr {ga sr} (h : Kept cr pn s) : KeptOut cr pn (execWrsr ga sr s) := by
  unfold execWrsr
  split
  · split
    · exact h.gate (.next h.retire)
    · exact h.gate (.next h.retire)
    · exact h.gate (.next h.retire)
    · exact h.gate (.next h.sendDown.retire)
    · exact h.gate (.next h.retire)
  · exact h.gate (.next h.keep)

/-! O6 for the operations of `Sys2Proof/Machine/Wave.lean`. -/

theorem Kept.readWords {b l a c seg} (h : Kept cr pn s) : Kept cr pn (s.readWords b l a c seg) := h.ite (h.raiseData.ite h)

theorem Kept.leaveEdge {a o p} (h : Kept cr pn s) : Kept cr pn (s.leaveEdge a o p) := by
  unfold State.leaveEdge
  extract_lets _ _ _ s1 s2
  have h1 : Kept cr pn s1 := h.modArr
  have h2 : Kept cr pn s2 := by
    unfold s2
    split
    · exact h1.atAc
    · exact h1.ite h1.readWords.atAc
    · exact h1
  exact h1.readWords.atAc.ite h2.modArr

theorem Kept.raiseDataIf {p : Prop} [Decidable p] {a c k n} (h : Kept cr pn s) :
    Kept cr pn (if p then s.raiseData a c k n else s) := h.raiseData.ite h

theorem Kept.readWordsUnless {p : Prop} [Decidable p] {b l a c n} (h : Kept cr pn s) :
    Kept cr pn (if p then s else s.readWords b l a c n) := h.ite h.readWords

theorem keptOut_execCOpRowExecute {a op row} (h : Kept cr pn s) : KeptOut cr pn (execCOpRowExecute a op row s) := by
  unfold execCOpRowExecute
  split
  · exact .next h
  · rename_i o _
    split
    · exact .next h.leaveEdge
    · extract_lets _ _ _ _ _ s0 _ _ _ s2 s1 s4 s5
      have h0 : Kept cr pn s0 := h.einjArr.modArr
      have h2 : Kept cr pn s2 := h0.modArr
      have h1 : Kept cr pn s1 := by
        unfold s1
        cases o.ins
        case wrsr | ckpt | dataErrorTake | katc => exact h0.modArr
        all_goals exact (h2.modArr.atEnd.ite h2.modArr.modCtx).raiseDataIf.readWordsUnless
      have h4 : Kept cr pn s4 := by
        unfold s4
        split
        · exact h1.atAc.ite h1
        · exact h1
      have h5 : Kept cr pn s5 := h4.atAc.ite h4.atAc
      exact .next h5.modArr

theorem keptOut_execSlowResultWrite {a op row} (h : Kept cr pn s) : KeptOut cr pn (execSlowResultWrite a op row s) := by
  unfold execSlowResultWrite
  split
  · exact .next h
  · extract_lets
    split
    · exact .next h
    · exact .next h.modArr.modCtx.modArr

theorem Kept.modItem {a c op f} (h : Kept cr pn s) : Kept cr pn (s.modItem a c op f) := h.modArr

theorem keptOut_execSouthCapture {a op} (h : Kept cr pn s) : KeptOut cr pn (execSouthCapture a op s) := by
  unfold execSouthCapture
  split
  · exact .next h
  · exact .next h.modItem.modArr

theorem keptOut_execEastCapture {a op row} (h : Kept cr pn s) : KeptOut cr pn (execEastCapture a op row s) := by
  unfold execEastCapture
  split
  · exact .next h
  · exact .next h.readWords.modItem.modArr

theorem keptOut_execKatcCheck {a op} (h : Kept cr pn s) : KeptOut cr pn (execKatcCheck a op s) := by
  unfold execKatcCheck
  extract_lets s1
  have h1 : Kept cr pn s1 := h.modArr
  split
  · exact .next h
  · exact .ite (.next (h1.foldl fun hu => hu.modArr)) (.next h1.report.raiseData)

theorem Kept.inject {i} (h : Kept cr pn s) : Kept cr pn (s.inject i) := h.modArr.modCtx.atAc

theorem Kept.cellOp {i} (h : Kept cr pn s) : KeptOut cr pn (s.cellOp i) := by
  unfold State.cellOp
  split
  · exact .next h.seekLease.keep
  · exact .ite (.next h.keep) (.ite (.next h.faultSlot) (.next h.inject.retire))


end

end Sys2Proof.Machine

namespace Sys2Proof.Machine

section
variable {cr : ConfigRecord} {pn : Nat} {s : State}

/-! O6 for the operations of `Sys2Proof/Machine/AStore.lean`. -/

theorem Kept.putTag {a w full} (h : Kept cr pn s) : Kept cr pn (s.putTag a w full) := h.modArr.atAc.ite h.modArr

theorem Kept.askAs {a owner cls who word mode write mask data} (h : Kept cr pn s) :
    Kept cr pn (s.askAs a owner cls who word mode write mask data) := h.modArr

theorem Kept.askEdge {a c} (h : Kept cr pn s) : Kept cr pn (s.askEdge a c) := by
  unfold State.askEdge
  split
  · exact h
  · split
    · exact h.askAs
    · exact h.askAs

theorem Kept.asDone {a r v full bad} (h : Kept cr pn s) : Kept cr pn (s.asDone a r v full bad) := by
  unfold State.asDone
  extract_lets
  split
  · split
    · exact h
    · exact h.modCtx
  · exact h.modCtx
  · exact h.modCtx
  · exact h.modCtx
  · exact h.modCtx
  · split
    · exact h
    · exact h.modCtx.askEdge
  · exact (h.modArr.ite h).modCtx
  · exact h.modArr
  · exact h.modArr
  · exact h.modArr
  · exact h.soon

theorem Kept.asRead {a r} (h : Kept cr pn s) : Kept cr pn (s.asRead a r).2 := by
  unfold State.asRead
  extract_lets _ _ s0 _
  have h0 : Kept cr pn s0 := h.einjArr.ite h
  split
  rename_i s1 e1
  have h1 : Kept cr pn s1 := .iteSnd e1 h0.readErr h0
  split
  rename_i s2 e2
  have h2 : Kept cr pn s2 := .iteSnd e2 h1.readErr h1
  exact h2

theorem keptOut_execAsBankAccess {a bank} (h : Kept cr pn s) : KeptOut cr pn (execAsBankAccess a bank s) := by
  unfold execAsBankAccess
  extract_lets
  split
  · exact .next h
  · extract_lets _ who _
    split
    · split
      rename_i e
      extract_lets _ s1' s2 s3 _
      have h1' : Kept cr pn s1' := (h.asRead.snd e).modArr
      have h2 : Kept cr pn s2 := h1'.modArr.ite h1'
      have h3 : Kept cr pn s3 := h2.ite h2.putTag
      refine .next ?_
      clear_value who
      split
      · exact h3.asDone.raiseData
      · exact h3.asDone
    · split
      rename_i e
      extract_lets s1'
      have h1' : Kept cr pn s1' := (h.readErr.snd e).modArr
      refine .next ?_
      split
      · exact h1'.raiseData
      · exact h1'

/-! O6 for the operations of `Sys2Proof/Machine/EdgeOps.lean`. -/

theorem keptOut_execFeedStage {a c} (h : Kept cr pn s) : KeptOut cr pn (execFeedStage a c s) := by
  unfold execFeedStage
  extract_lets
  split
  · exact .next h
  · extract_lets
    refine .next ?_
    refine h.modArr.foldl fun {u r} hu => ?_
    refine hu.foldl fun {v k} hv => ?_
    extract_lets _ _ v1
    have hv1 : Kept cr pn v1 := hv.askAs
    split
    · exact hv1
    · exact hv1.askAs

theorem Kept.takeReserved {l} (h : Kept cr pn s) : Kept cr pn (s.takeReserved l) := h.foldl fun hu => hu.modArr.putTag

theorem Kept.feedOp {i cd put east} (h : Kept cr pn s) : KeptOut cr pn (s.feedOp i cd put east) := by
  unfold State.feedOp
  split
  · exact .next h.keep
  · split
    · exact .next h.retire
    · split
      · exact .next h.keep
      · extract_lets
        split
        · exact .next h.keep
        · split
          · exact .next h.faultSlot
          · exact .next h.takeReserved.retire

theorem keptOut_execWfeed {fd cd ftag ctag} (h : Kept cr pn s) : KeptOut cr pn (execWfeed fd cd ftag ctag s) := h.feedOp

theorem keptOut_execDfeed {fd cd ftag ctag pt pd} (h : Kept cr pn s) : KeptOut cr pn (execDfeed fd cd ftag ctag pt pd s) := h.feedOp

theorem keptOut_execWfeedg {fd cd ftag ctag iv} (h : Kept cr pn s) : KeptOut cr pn (execWfeedg fd cd ftag ctag iv s) := h.feedOp

theorem keptOut_execWfeedt {fd cd ftag ctag th} (h : Kept cr pn s) : KeptOut cr pn (execWfeedt fd cd ftag ctag th s) := h.feedOp

theorem keptOut_execNpush {fd cd ftag ctag pt} (h : Kept cr pn s) : KeptOut cr pn (execNpush fd cd ftag ctag pt s) := h.feedOp

theorem keptOut_execSpull {cd ctag} (h : Kept cr pn s) : KeptOut cr pn (execSpull cd ctag s) := h.feedOp

theorem keptOut_execEpull {cd ctag} (h : Kept cr pn s) : KeptOut cr pn (execEpull cd ctag s) := h.feedOp

theorem Kept.eaRead {a b c row seg chunks} (h : Kept cr pn s) : Kept cr pn (s.eaRead a b c row seg chunks) :=
  h.einjArr.readErr.raiseData.ite h.einjArr.readErr

theorem Kept.captureEa {a c it k int idx w} (h : Kept cr pn s) : Kept cr pn (s.captureEa a c it k int idx w) := by
  unfold State.captureEa
  extract_lets
  split
  · exact h
  · exact h.modArr.ite h.eaRead.modArr.modCtx

theorem Kept.putCapture {a c put off v} (h : Kept cr pn s) : Kept cr pn (s.putCapture a c put off v) := h.askAs

theorem keptOut_execCollectorWrite {a c} (h : Kept cr pn s) : KeptOut cr pn (execCollectorWrite a c s) := by
  unfold execCollectorWrite
  extract_lets
  split
  · exact .next h
  · split
    · exact .next h
    · extract_lets pop step
      have hpop : ∀ {u}, Kept cr pn u → Kept cr pn (pop u) := fun hu => hu.modArr
      have hstep : ∀ {u}, Kept cr pn u → Kept cr pn (step u) := fun hu => hu.modArr
      split
      · exact .next (hpop (h.foldl fun hu => hu.modArr))
      · split
        · exact .next (hpop h)
        · split
          · split
            · exact .next (hstep h)
            · exact .next h.putCapture
          · exact .next (hstep h.captureEa)
      · exact .ite (.next (hpop h)) (.next h.eaRead.modCtx.putCapture)

theorem Kept.collect {k} (h : Kept cr pn s) : Kept cr pn (s.collect k) := h.modArr

theorem Kept.loadImage {off align n load} (h : Kept cr pn s) : KeptOut cr pn (s.loadImage off align n load) := by
  unfold State.loadImage
  extract_lets _ s1
  have h1 : Kept cr pn s1 := h.ite (h.foldl fun hu => hu.askAs)
  split
  · exact .next h1.hold
  · split
    · exact .next h.keep
    · split
      · exact .next h.faultSlot
      · split
        · exact .next h.faultSlot
        · split
          · exact .next h.keep
          · split
            · exact .next h.modMe.faultSlot
            · exact .next h.retire

theorem Kept.loadEdge {off n load} (h : Kept cr pn s) : KeptOut cr pn (s.loadEdge off n load) := .ite (.next h.keep) h.loadImage

theorem Kept.edgeOp {k} (h : Kept cr pn s) : Kept cr pn (s.edgeOp k) := h.modMe.askEdge.ite h.modMe

theorem keptOut_execEtag {full ga gb} (h : Kept cr pn s) : KeptOut cr pn (execEtag full ga gb s) := by
  unfold execEtag
  extract_lets
  split
  · exact h.gate (.next h.keep)
  · split
    · exact h.gate (.next h.faultSlot)
    · exact h.gate (.ite (.next h.retire) (.ite (.next h.faultSlot) (.next h.edgeOp.retire)))

theorem keptOut_execEtest {f ga} (h : Kept cr pn s) : KeptOut cr pn (execEtest f ga s) := by
  unfold execEtest
  extract_lets
  split
  · exact h.gate (.next h.keep)
  · exact h.gate (.ite (.next h.faultSlot) (.ite (.next h.faultSlot) (.next h.edgeOp.retire)))

/-! O6 for the operations of `Sys2Proof/Machine/Fold.lean`. -/

theorem Kept.modSeg {ring rel f} (h : Kept cr pn s) : Kept cr pn (s.modSeg ring rel f) := h.same rfl

theorem Kept.foldReport {reason r g l} (h : Kept cr pn s) : Kept cr pn (s.foldReport reason r g l) := h.report

theorem Kept.applyDelta {w g home offset d} (h : Kept cr pn s) : Kept cr pn (s.applyDelta w g home offset d) := by
  unfold State.applyDelta
  extract_lets
  refine h.foldl fun {u h} hu => ?_
  extract_lets
  split
  · exact hu
  · exact hu.homeRead.homeWrite.modLine

theorem Kept.finishFold {f} (h : Kept cr pn s) : Kept cr pn (s.finishFold f) := by
  unfold State.finishFold
  extract_lets s1 s2
  have h1 : Kept cr pn s1 := h.same rfl
  have h2 : Kept cr pn s2 := h1.homeWrite.ite h1.evictL2
  split
  · exact h2.send
  · exact h2

theorem Kept.finishFolds (h : Kept cr pn s) : Kept cr pn s.finishFolds := h.foldl fun hu => hu.finishFold.ite hu

theorem Kept.foldGo {f w g m off old} (h : Kept cr pn s) : Kept cr pn (s.foldGo f w g m off old) :=
  h.applyDelta.finishFold.ite (.foldl (h.applyDelta.same rfl) fun hu => hu.send)

theorem Kept.protFold {slice ring seq stamp l asid rc w g m off src} (h : Kept cr pn s) :
    Kept cr pn (s.protFold slice ring seq stamp l asid rc w g m off src) := by
  unfold State.protFold
  extract_lets _ s1
  have h1 : Kept cr pn s1 := h.same rfl
  exact (h1.ite h1.failLevel).startMend.ite h1.homeRead.foldGo

theorem Kept.lostFold {slice ring seq stamp l asid rc g m src} (h : Kept cr pn s) :
    KeptSome cr pn (s.lostFold slice ring seq stamp l asid rc g m src) := by
  unfold State.lostFold
  extract_lets
  split
  · exact .none
  · exact .ite .none (.some h.protFold)

theorem Kept.sendRecord {slice n dest g r l rc} (h : Kept cr pn s) : Kept cr pn (s.sendRecord slice n dest g r l rc) :=
  Kept.send (h.same rfl)

theorem KeptOk.applyFar {slice g r n l rc} (h : Kept cr pn s) : KeptOk cr pn (s.applyFar slice g r n l rc) := by
  unfold State.applyFar
  extract_lets
  refine .ite (.ok h) (.ite .error ?_)
  split
  · exact .ite (.ok h.report) (.ok h.sendRecord)
  · refine .ite (.ok h.report) (.ite .error (.ite ?_ (.ok h.sendRecord)))
    split
    · rename_i u e
      exact .ok (h.lostFold u e)
    · exact .error

theorem KeptOk.applyProt {slice g r n l rc} (h : Kept cr pn s) : KeptOk cr pn (s.applyProt slice g r n l rc) := by
  unfold State.applyProt
  split
  · exact .ite .error (.ite .error (.ok h.protFold))
  · exact .ok (h.ite h.homeWrite)

theorem KeptOk.applyLine {slice g r n l rc} (h : Kept cr pn s) : KeptOk cr pn (s.applyLine slice g r n l rc) := by
  unfold State.applyLine
  refine .ite .error (.ite .error (.ite (.applyFar h) (.ite (.ok h.report) (.ite ?_ ?_))))
  · split
    · exact .ok h.report
    · exact .ok h.homeWrite
  · exact .ite (.applyProt h) (.ok h.homeWrite)

theorem KeptOk.applyRecord {slice g r n rc} (h : Kept cr pn s) : KeptOk cr pn (s.applyRecord slice g r n rc) := by
  unfold State.applyRecord
  extract_lets
  refine .ite (.ok h.report.terminateTeam) ?_
  split
  · exact .ite .error (.ok (h.same rfl))
  · exact .applyLine h

theorem Kept.foldRetry {slice g n} (h : Kept cr pn s) : KeptSome cr pn (s.foldRetry slice g n) := by
  unfold State.foldRetry
  split
  · exact .some h.modSeg
  · split
    · exact .some h.modSeg
    · split
      · rename_i u e
        exact .some (.modSeg (KeptOk.applyRecord h u e))
      · exact .none

theorem Kept.foldStep {slice g} (h : Kept cr pn s) : KeptSome cr pn (s.foldStep slice g) := by
  unfold State.foldStep
  extract_lets step
  have hstep : ∀ {u k}, Kept cr pn u → Kept cr pn (step u k) := fun hu => hu.modSeg
  split
  · exact .some h.modSeg
  · extract_lets _ pass
    have hpass : KeptSome cr pn pass := .some (.modSeg (hstep h))
    refine .ite (.some (hstep h)) ?_
    split
    · exact .some (hstep h)
    · refine .ite hpass ?_
      split
      · rename_i u e
        exact .some (hstep (KeptOk.applyRecord h u e))
      · exact hpass
      · exact .none

theorem keptOut_execFoldSegment {slice} (h : Kept cr pn s) : KeptOut cr pn (execFoldSegment slice s) := by
  unfold execFoldSegment
  split
  · exact .next h
  · exact .next h.modSeg
  · exact .next (h.foldRetry.getD h)
  · exact .next (h.foldStep.getD h)

theorem Kept.takeRecord {p0} (h : Kept cr pn s) : KeptSome cr pn (s.takeRecord p0) := by
  unfold State.takeRecord
  extract_lets _ p bad _ _ _
  have hbad : ∀ {l reason}, Kept cr pn (bad l reason) := h.report.send
  refine .ite .none ?_
  split
  · split
    · exact .some (h.ite h.send)
    · exact .ite (.some h) (.ite (.some h.send) (.ite (.some hbad) (.ite .none h.lostFold)))
  · extract_lets
    split
    · exact .ite (.some hbad) (.ite (.some hbad) (.ite (.some hbad) (.ite (.some h) (.ite .none (.some h.protFold)))))
    · refine .ite (.some hbad) (.ite (.some h) ?_)
      split
      · exact .some hbad
      · exact .ite (.some hbad) (.ite (.some hbad) (.ite .none (.some h.homeWrite.send)))

theorem Kept.takeRecords (h : Kept cr pn s) : Kept cr pn s.takeRecords := by
  unfold State.takeRecords
  have h0 : Kept cr pn { s with peerRecs := [] } := h.same rfl
  refine Kept.same (.foldlSnd (p := ([], _)) h0 fun {u p} hu => ?_) rfl
  split
  · exact hu
  · split
    · rename_i t e
      exact hu.takeRecord t e
    · exact hu

theorem keptOut_execPeerRecordAck {tag outOfRange} (h : Kept cr pn s) : KeptOut cr pn (execPeerRecordAck tag outOfRange s) := by
  unfold execPeerRecordAck
  extract_lets s1
  have h1 : Kept cr pn s1 := h.same rfl
  split
  · exact .next h
  · exact .ite (.next h1.report) (.next (.modLine h1.storeMask))

theorem Kept.dropUnreached (h : Kept cr pn s) : Kept cr pn s.dropUnreached := h.foldl fun hu => .ite (Kept.report (hu.same rfl)) hu

theorem Kept.putSeries {x} (h : Kept cr pn s) : Kept cr pn (s.putSeries x) := h.same rfl

theorem Kept.runSeries {w g home x k} (h : Kept cr pn s) : Kept cr pn (s.runSeries w g home x k) := by
  induction k generalizing s x with
  | zero => exact h.putSeries
  | succ k ih =>
    unfold State.runSeries
    split
    · exact h.putSeries
    · exact ih h.applyDelta.send

theorem Kept.reconcile {w g home slice rot seq off d exchange} (h : Kept cr pn s) :
    Kept cr pn (s.reconcile w g home slice rot seq off d exchange) := h.ite h.applyDelta.putSeries

theorem keptOut_execParityDeltaReceive {pgid src slice rot seq offset delta} (h : Kept cr pn s) :
    KeptOut cr pn (execParityDeltaReceive pgid src slice rot seq offset delta s) := by
  unfold execParityDeltaReceive
  extract_lets
  split
  · split
    · exact .next h
    · split
      · exact .next h.reconcile
      · split
        · exact .next h.atAc
        · exact .ite (.next h.send) (.ite (.next h.applyDelta.putSeries.send) (.next h.runSeries))
  · exact .next h

theorem Kept.retryLost (h : Kept cr pn s) : Kept cr pn s.retryLost := by
  unfold State.retryLost
  refine h.foldl fun {u f} hu => ?_
  extract_lets u1
  have hu1 : Kept cr pn u1 := hu.same rfl
  split
  · exact hu
  · split
    · exact hu
    · exact hu.ite (hu1.lostFold.getD hu)

/-! O6 for the operations of `Sys2Proof/Machine/Mend.lean`. -/

theorem Kept.modMend {id f} (h : Kept cr pn s) : Kept cr pn (s.modMend id f) := h.same rfl

theorem Kept.lockUnit {w g m on h'} (h : Kept cr pn s) : Kept cr pn (s.lockUnit w g m on h') := by
  unfold State.lockUnit
  split
  · exact h.same rfl
  · exact h.send

theorem Kept.againMend {w g m} (h : Kept cr pn s) : Kept cr pn (s.againMend w g m) :=
  Kept.modMend (Kept.same (h.foldl fun hu => hu.lockUnit) rfl)

theorem Kept.mendAnswer {id k bad d} (h : Kept cr pn s) : Kept cr pn (s.mendAnswer id k bad d) := h.modMend

theorem Kept.takeLocked {pkg pgid member off} (h : Kept cr pn s) : Kept cr pn (s.takeLocked pkg pgid member off) := h.same rfl

theorem Kept.takeParityLine {pkg pgid member off bad d} (h : Kept cr pn s) : Kept cr pn (s.takeParityLine pkg pgid member off bad d) :=
  h.same rfl

theorem Kept.moved {l v} (h : Kept cr pn s) : Kept cr pn (s.moved l v) := by
  unfold State.moved
  extract_lets s1
  have h1 : Kept cr pn s1 := by
    unfold s1
    split
    · exact .modLine h.storeMask
    · exact h.modLine
  exact h1.same rfl

theorem Kept.rebuilt {m g v} (h : Kept cr pn s) : Kept cr pn (s.rebuilt m g v) := by
  unfold State.rebuilt
  extract_lets _ s1
  have h1 : Kept cr pn s1 := by
    unfold s1
    split
    · exact h.homeWrite.modLine.ite h.homeWrite
    · exact h.modLine
  exact h1.modGroup

theorem Kept.corrected {l level v} (h : Kept cr pn s) : Kept cr pn (s.corrected l level v) := by
  unfold State.corrected
  extract_lets _ s1 _ _
  have h1 : Kept cr pn s1 := h.modLine
  split
  · exact h1.homeWrite.report
  · exact h1.modLine.report

theorem Kept.foldMended {m w g tag v} (h : Kept cr pn s) : Kept cr pn (s.foldMended m w g tag v) := by
  unfold State.foldMended
  split
  · exact h
  · exact h.foldGo
  · extract_lets _ s1
    have h1 : Kept cr pn s1 := Kept.report (h.same rfl)
    split
    · exact h1.send
    · exact h1

theorem Kept.endMend {w g m v} (h : Kept cr pn s) : Kept cr pn (s.endMend w g m v) := by
  unfold State.endMend
  extract_lets s1
  have h1 : Kept cr pn s1 := .foldl (h.same rfl) fun hu => hu.lockUnit
  split
  · exact h1.fetched
  · exact h1.foldMended
  · exact h1.corrected
  · exact h1.rebuilt
  · exact h1.moved

theorem Kept.mendReads {w g m} (h : Kept cr pn s) : Kept cr pn (s.mendReads w g m) := by
  unfold State.mendReads
  refine h.foldl fun {u k} hu => ?_
  split
  · exact hu
  · exact hu.ite (hu.mendAnswer.ite hu.homeRead.mendAnswer)

theorem Kept.runMend {w g m} (h : Kept cr pn s) : Kept cr pn (s.runMend w g m) := by
  unfold State.runMend
  extract_lets _ _ _ _ s1
  have h1 : Kept cr pn s1 := h.foldl fun hu => hu.send
  split
  · exact h.ite (h.endMend.ite (Kept.modMend (h.foldl fun hu => hu.lockUnit)))
  · exact h.ite (Kept.modMend (h.foldl fun hu => hu.request))
  · split
    · exact h.mendReads
    · split
      · exact h.againMend
      · refine h1.modMend.foldl fun {v h} hu => ?_
        split
        · exact hu
        · exact hu.homeRead.mendAnswer
  · exact h.ite (h.againMend.ite (h.ite h.endMend))

theorem Kept.mendTick (h : Kept cr pn s) : Kept cr pn s.mendTick := by
  unfold State.mendTick
  refine h.foldl fun {u m0} hu => ?_
  split
  · exact hu
  · split
    · exact hu
    · split
      · exact .ite (.foldl (hu.same rfl) fun hv => hv.lockUnit) hu.runMend
      · exact hu.same rfl

theorem Kept.takeLock {pkg pgid member off on} (h : Kept cr pn s) : Kept cr pn (s.takeLock pkg pgid member off on) := by
  unfold State.takeLock
  split
  · exact h.ite (.ite (Kept.send (h.same rfl)) (h.same rfl))
  · exact h

theorem Kept.takeParityRead {pkg pgid member off} (h : Kept cr pn s) : Kept cr pn (s.takeParityRead pkg pgid member off) := by
  unfold State.takeParityRead
  split
  · exact h.ite h.homeRead.send
  · exact h


end

end Sys2Proof.Machine

namespace Sys2Proof.Machine

section
variable {cr : ConfigRecord} {pn : Nat} {s : State}

/-! O6 for the operations of `Sys2Proof/Machine/MemOps.lean`. -/

theorem Kept.faultM {code addr} (h : Kept cr pn s) : Kept cr pn (s.faultM code addr) := h.modMe.faultSlot.ite h.faultSlot

theorem Kept.memIssue {u addr size room} {k : Target → State → Out} (h : Kept cr pn s)
    (hk : ∀ {t v}, Kept cr pn v → KeptOut cr pn (k t v)) : KeptOut cr pn (s.memIssue u addr size room k) := by
  unfold State.memIssue
  refine .ite (.next h.keep) ?_
  split
  · rename_i s1 e
    have h1 : Kept cr pn s1 := h.accessM.snd e
    exact .next (h1.keep.ite h1.faultM)
  · rename_i s1 e
    have h1 : Kept cr pn s1 := h.accessM.snd e
    exact .ite (.next h1.faultSlot) (.ite (.next h1.keep) (hk h1))

theorem Kept.asIssue {addr size room} {k : State → Out} (h : Kept cr pn s)
    (hk : ∀ {v}, Kept cr pn v → KeptOut cr pn (k v)) : KeptOut cr pn (s.asIssue addr size room k) :=
  .ite (.next h.keep) (.ite (.next h.faultSlot) (.ite (.next h.faultSlot) (.ite (.next h.faultSlot) (hk h))))

theorem Kept.loadAppend {t cls} {k : State → Out} (h : Kept cr pn s)
    (hk : ∀ {v}, Kept cr pn v → KeptOut cr pn (k v)) : KeptOut cr pn (s.loadAppend t cls k) := by
  unfold State.loadAppend
  extract_lets
  split
  · split
    · rename_i u e
      exact hk (h.appendThrough u e)
    · exact .next h.keep
  · exact hk h

theorem Kept.keepSeen {a c l} (h : Kept cr pn s) : Kept cr pn (s.keepSeen a c l) := h.modCtx.ite h

theorem Kept.logStore {op t addr v n cls} (h : Kept cr pn s) : KeptOut cr pn (s.logStore op t addr v n cls) := by
  unfold State.logStore
  extract_lets
  split
  extract_lets put
  have hput : ∀ {u ph}, Kept cr pn u → KeptOut cr pn (put u ph) := by
    intro u ph hu
    unfold put
    extract_lets u0 u1 u2 u3
    have h0 : Kept cr pn u0 := hu.keepSeen
    have h1 : Kept cr pn u1 := h0.patchLogst.ite (h0.ite h0.patchView)
    have h2 : Kept cr pn u2 := h1.modCtx
    have h3 : Kept cr pn u3 := h2.enterStore.ite h2
    exact .next h3.retire
  refine .ite (.next h.keep) (.ite (hput h) (.ite (.next h.keep) ?_))
  split
  · exact hput h
  · exact .next h.keep
  · exact .next h.startRelease.keep

theorem Kept.storeOp {u op gs ga size cls disp} (h : Kept cr pn s) : KeptOut cr pn (s.storeOp u op gs ga size cls disp) :=
  h.gate (h.memIssue fun hv => hv.logStore.ite (.next hv.retire))

theorem Kept.tagAccess {free word md write data issue} (h : Kept cr pn s) : KeptOut cr pn (s.tagAccess free word md write data issue) := by
  unfold State.tagAccess
  split
  · exact .ite (.next h.askAs.hold) (.next h.keep)
  · split
    · exact .next h.keep
    · exact .next h.retire

theorem keptOut_execPrf {ga disp} (h : Kept cr pn s) : KeptOut cr pn (execPrf ga disp s) := by
  unfold execPrf
  extract_lets
  split
  · exact h.gate (.next h.keep)
  · split
    · rename_i e
      exact h.gate (.next ((h.accessM.snd e).keep.ite (Kept.retire (h.same rfl))))
    · rename_i e
      exact h.gate (.next (h.accessM.snd e).retire)

theorem Kept.atomicOp {code gd ga gb n order scope srcs} (h : Kept cr pn s) : KeptOut cr pn (s.atomicOp code gd ga gb n order scope srcs) :=
  h.gate (h.memIssue fun hu => .next hu.retire)

theorem Kept.setEntry {a c id f} (h : Kept cr pn s) : Kept cr pn (s.setEntry a c id f) := h.modCtx

theorem Kept.popEntry {a c id} (h : Kept cr pn s) : Kept cr pn (s.popEntry a c id) := h.modCtx

theorem Kept.survived {ring} (h : Kept cr pn s) : Kept cr pn (s.survived ring) := by
  unfold State.survived
  split
  · exact h
  · exact h.foldl fun hu => hu.same rfl

theorem Kept.relPart {a c e} (h : Kept cr pn s) : KeptSome cr pn (s.relPart a c e) := by
  unfold State.relPart
  extract_lets
  split
  · exact .ite .none (.some h.startRelease.setEntry)
  · exact .ite .none (.some h.setEntry)
  · exact .ite (.some h.survived.setEntry) .none

theorem Kept.acqStart {a c e} (h : Kept cr pn s) : Kept cr pn (s.acqStart a c e) := h.popEntry.askCtx.ite h.startAcquire.setEntry

theorem Kept.acqPart {a c e} (h : Kept cr pn s) : KeptSome cr pn (s.acqPart a c e) := by
  unfold State.acqPart
  split
  · exact .none
  · split
    · rename_i e'
      exact .some (h.stepAcquire.snd e').popEntry
    · rename_i e'
      exact .some (h.stepAcquire.snd e')

theorem Kept.performed {a c e} (h : Kept cr pn s) : Kept cr pn (s.performed a c e) := h.popEntry.ite (h.setEntry.ite h.acqStart)

theorem Kept.askOwner {a c e phase op} (h : Kept cr pn s) : Kept cr pn (s.askOwner a c e phase op) := h.request.setEntry

theorem Kept.raceLine {rs d} (h : Kept cr pn s) : Kept cr pn (s.raceLine rs d).2 := by
  unfold State.raceLine
  split
  · exact h
  · split
    rename_i e
    exact h.draw.snd e

theorem Kept.consume {a c kind seg} (h : Kept cr pn s) : Kept cr pn (s.consume a c kind seg) := h.askCtx.ite h.raiseData

theorem Kept.bindLoad {a c e} (h : Kept cr pn s) : Kept cr pn (s.bindLoad a c e) := by
  unfold State.bindLoad
  extract_lets _ _ finish
  have hfinish : ∀ {u d p}, Kept cr pn u → Kept cr pn (finish u d p) := fun hu => (hu.modCtx.consume.ite hu.modCtx).performed
  split
  · split
    · exact hfinish h.homeRead.vcReload
    · exact hfinish h.viewLine
  · exact .ite (hfinish h.ownedLine.raceLine) (hfinish h.homeRead.raceLine)

theorem Kept.arm {a c e} (h : Kept cr pn s) : Kept cr pn (s.arm a c e) := by
  unfold State.arm
  extract_lets
  split
  rename_i s1 e'
  have h1 : Kept cr pn s1 := h.homeRead.thd e'
  extract_lets _ here s2 s3 s4
  have h2 : Kept cr pn s2 := by
    unfold s2
    clear_value here
    split
    · exact .ite (h1.same rfl) (Kept.modCtx (h1.same rfl))
    · exact h1.same rfl
  have h3 : Kept cr pn s3 := h2.same rfl
  have h4 : Kept cr pn s4 := h3.modCtx
  exact (h4.consume.ite h4).popEntry

theorem Kept.prefetch {a c e} (h : Kept cr pn s) : Kept cr pn (s.prefetch a c e) := (h.viewLine.ite (h.ownedLine.ite h.probe)).popEntry

theorem Kept.loadStep {a c} (h : Kept cr pn s) : KeptSome cr pn (s.loadStep a c) := by
  unfold State.loadStep
  extract_lets
  split
  · exact .none
  · split
    · exact .none
    · split
      · split
        · exact h.relPart
        · split
          · exact h.acqPart
          · exact .ite .none (h.awaitMend.ite (.ite (.ite .none (.some h.askOwner)) (.some h.bindLoad)))
      · split
        · exact h.relPart
        · split
          · exact h.acqPart
          · exact .ite .none (h.awaitMend.ite (.ite (.ite .none (.some h.askOwner)) (.some h.bindLoad)))
      · exact .ite (.ite .none (.some h.modCtx.popEntry)) (.ite .none (.some h.askAs.setEntry))
      · exact h.awaitMend.ite (.ite .none (.some (h.request.popEntry.ite h.prefetch)))
      · exact .ite .none (.some (h.askOwner.ite h.arm))
      · exact .none
      · exact .some h.popEntry

theorem Kept.doAtomic {a c e} (h : Kept cr pn s) : Kept cr pn (s.doAtomic a c e).2.2 := by
  unfold State.doAtomic
  extract_lets
  split
  rename_i s1' e'
  have h1' : Kept cr pn s1' := (h.writeBackOwned.ite h).homeRead.thd e'
  exact h1'.homeStore.modArr.request.ite h1'.homeStore

theorem Kept.atomicEnds {a c e old poison} (h : Kept cr pn s) : Kept cr pn (s.atomicEnds a c e old poison) :=
  ((h.modCtx.ite h).consume.ite (h.modCtx.ite h)).performed

theorem Kept.atomicStep {a c e} (h : Kept cr pn s) : Kept cr pn (s.atomicStep a c e) := by
  unfold State.atomicStep
  extract_lets
  split
  · exact h.doAtomic.atomicEnds
  · split
    · exact h.atomicEnds.ite h.askOwner
    · exact h.homeRead.known.setEntry.askOwner.ite (h.evictL2.atomicEnds.ite h.askOwner)

theorem Kept.sendStep {a c e} (h : Kept cr pn s) : KeptSome cr pn (s.sendStep a c e) := by
  unfold State.sendStep
  extract_lets _ _ sent
  have hsent : ∀ {u}, Kept cr pn u → Kept cr pn (sent u) := fun hu => hu.setEntry
  split
  · exact .none
  · split
    · split
      · exact .some (Kept.arrive (hsent h))
      · exact .some h.popEntry.askCtx
    · exact .some (Kept.send (hsent h))
    · exact .none
    · exact .some h.popEntry

theorem Kept.enterQueued {a c e} (h : Kept cr pn s) : KeptSome cr pn (s.enterQueued a c e) := by
  unfold State.enterQueued
  extract_lets
  split
  split
  · exact .some h.enterStore.popEntry
  · exact .none
  · exact .some h.startRelease

theorem Kept.storeHome {a c e} (h : Kept cr pn s) : Kept cr pn (s.storeHome a c e) :=
  h.ownedStore.popEntry.ite (h.homeWrite.popEntry.ite (h.popEntry.ite h.askOwner))

theorem Kept.storeStep {a c} (h : Kept cr pn s) : KeptSome cr pn (s.storeStep a c) := by
  unfold State.storeStep
  extract_lets
  split
  · exact .none
  · split
    · exact .none
    · split
      · exact .ite (h.enterQueued.ite (.some h.popEntry)) (.ite .none (.some h.storeHome))
      · exact .ite (h.enterQueued.ite (.some h.popEntry)) (.ite .none (.some h.storeHome))
      · exact .ite .none (.some h.askAs.setEntry)
      · exact h.sendStep
      · exact h.relPart.ite (.some h.popEntry)
      · split
        · exact h.relPart
        · exact h.acqPart.ite (.ite (.ite .none (.some h.acqStart)) (.ite .none (.ite .none (.some h.atomicStep))))
      · split
        · exact h.relPart
        · exact h.acqPart.ite (.ite (.ite .none (.some h.acqStart)) (.ite .none (.ite .none (.some h.atomicStep))))
      · exact .some h.popEntry

/-! O6 for the operations of `Sys2Proof/Machine/SyncOps.lean`. -/

theorem Kept.releaseOp {scope} (h : Kept cr pn s) : KeptOut cr pn (s.releaseOp scope) := .ite (.next h.keep) (.next h.retire)

theorem Kept.awaitAcquire {k} (h : Kept cr pn s) (hk : ∀ {u}, Kept cr pn u → Kept cr pn (k u)) : Kept cr pn (s.awaitAcquire k) := by
  unfold State.awaitAcquire
  split
  · rename_i e
    exact hk (h.stepAcquire.snd e)
  · rename_i e
    exact (h.stepAcquire.snd e).keep

theorem keptOut_execAcq {ga scope} (h : Kept cr pn s) : KeptOut cr pn (execAcq ga scope s) := by
  unfold execAcq
  split
  · split
    · exact h.gate (.next h.keep)
    · split
      · exact h.gate (.next h.faultSlot)
      · exact h.gate (.next h.startAcquire.hold)
  · exact h.gate (.next (h.awaitAcquire (fun hu => hu.retire)))

theorem Kept.startBelow {a c scope σ} (h : Kept cr pn s) : Kept cr pn (s.startBelow a c scope σ) := h.startAcquire.modCtx

theorem keptOut_execFencesc {scope} (h : Kept cr pn s) : KeptOut cr pn (execFencesc scope s) := by
  unfold execFencesc
  extract_lets
  split
  · exact .ite (.next h.keep) (.next h.startRelease.hold)
  · exact .ite (.next h.keep) (.ite (.next h.faultSlot) (.next h.startBelow.hold))
  · exact .next (h.awaitAcquire (fun hu => hu.retire.ite hu.keep))

theorem Kept.drainBuf {a c k} (h : Kept cr pn s) : Kept cr pn (s.drainBuf a c k) := by
  induction k generalizing s with
  | zero => exact h
  | succ k ih =>
    unfold State.drainBuf
    refine h.ite ?_
    split
    · rename_i s1 e
      exact ih (h.appendOldest s1 e)
    · exact h

theorem Kept.vcDiscard {lines} (h : Kept cr pn s) : Kept cr pn (s.vcDiscard lines) := h.writeBackOwned.modArr

theorem keptOut_execVcinv {ga} (h : Kept cr pn s) : KeptOut cr pn (execVcinv ga s) := by
  unfold execVcinv
  split
  · exact h.gate (.next h.vcDiscard.retire)
  · split
    · rename_i s1 e
      have h1 : Kept cr pn s1 := h.accessM.snd e
      exact h.gate (.next (h1.keep.ite h1.faultM))
    · rename_i e
      exact h.gate (.next (h.accessM.snd e).vcDiscard.retire)

theorem Kept.disarm {a c m} (h : Kept cr pn s) : Kept cr pn (s.disarm a c m) := h.same rfl

theorem Kept.mwaitDecide {deadline} (h : Kept cr pn s) : ∀ r, s.mwaitDecide deadline = some r → Kept cr pn r.2.2 := by
  unfold State.mwaitDecide
  extract_lets
  split
  · rintro _ ⟨⟩
    exact h.disarm
  · split
    · rintro _ ⟨⟩
      exact h.disarm.modMe
    · split
      · rintro _ ⟨⟩
        exact h
      · rintro _ ⟨⟩

theorem keptOut_execMwait {gd ga order scope} (h : Kept cr pn s) : KeptOut cr pn (execMwait gd ga order scope s) := by
  unfold execMwait
  extract_lets _ _ decide_ _
  have hdecide_ : KeptOut cr pn decide_ := by
    unfold decide_
    split
    · exact .next (h.keep.ite h.atAc.hold)
    · rename_i v ok s1 e
      have h1 : Kept cr pn s1 := h.mwaitDecide _ e
      extract_lets s2
      have h2 : Kept cr pn s2 := h1.modMe
      exact .ite (.next h2.hold) (.next h2.retire)
  split
  · exact h.gate (hdecide_.ite (.ite (.next h.keep) (.next h.startRelease.hold.modMe)))
  · exact h.gate (.ite (.next h.keep) (.next h.hold))
  · exact h.gate (.ite (.next h.keep) (.ite (.next h.survived.hold) hdecide_))
  · exact h.gate (.ite (.next h.keep) (.ite (.next h.faultSlot) (.next h.startAcquire.hold)))
  · exact h.gate (.next (h.awaitAcquire (fun hu => hu.retire)))
  · exact h.gate hdecide_

theorem keptOut_execSend {ga gb ring} (h : Kept cr pn s) : KeptOut cr pn (execSend ga gb ring s) := by
  unfold execSend
  extract_lets
  split
  · split
    · exact h.gate (.next h.faultSlot)
    · split
      · exact h.gate (.next h.faultSlot)
      · split
        · exact h.gate (.next h.faultSlot)
        · split
          · exact h.gate (.next h.faultSlot)
          · exact h.gate (.next h.faultSlot)
          · exact h.gate (.next h.keep)
          · exact h.gate (.ite (.next h.keep) (.next h.askAs.hold))
  · split
    · exact h.gate (.next h.keep)
    · exact h.gate (.ite (.next h.keep) (.next h.retire))

theorem Kept.wordPlaced {m} (h : Kept cr pn s) : Kept cr pn (s.wordPlaced m) := by
  unfold State.wordPlaced
  extract_lets s1
  have h1 : Kept cr pn s1 := by
    unfold s1
    split
    · exact h
    · exact h.modCopy.modCopy
  split
  · exact h1
  · exact h1.putChunks.send

theorem keptOut_execMessagePlace {a} (h : Kept cr pn s) : KeptOut cr pn (execMessagePlace a s) := by
  unfold execMessagePlace
  split
  · exact .next h
  · extract_lets s1 s2 s3
    have h1 : Kept cr pn s1 := h.modArr
    have h2 : Kept cr pn s2 := by
      unfold s2
      split
      · exact h1
      · exact h1.modCtx
    have h3 : Kept cr pn s3 := by
      unfold s3
      split
      · exact h2.wordPlaced
      · split
        · exact h2.send
        · exact h2.sendOver
    exact .ite (.next h.postNet) (.next h3.postNet)

theorem Kept.arriveAt {team scope unit_ id rank} (h : Kept cr pn s) : Kept cr pn (s.arriveAt team scope unit_ id rank) := by
  unfold State.arriveAt
  extract_lets s1 _ s2
  have h1 : Kept cr pn s1 := h.ite (h.same rfl)
  have h2 : Kept cr pn s2 := h1.same rfl
  split
  · exact h2
  · exact h2.atEnd.ite h2

theorem keptOut_execBarrierComplete {no} (h : Kept cr pn s) : KeptOut cr pn (execBarrierComplete no s) := by
  unfold execBarrierComplete
  extract_lets s1
  have h1 : Kept cr pn s1 := h.same rfl
  split
  · exact .next h
  · exact .ite (.next h) (.next (h1.foldl fun hu => hu.modCtx.ite hu))

theorem Kept.arriveMe {scope id} (h : Kept cr pn s) : Kept cr pn (s.arriveMe scope id) := h.modMe.ite (h.modMe.send.ite h.modMe).arriveAt

theorem keptOut_execBar {id scope} (h : Kept cr pn s) : KeptOut cr pn (execBar id scope s) := by
  unfold execBar
  split
  · exact .ite (.next h.arriveMe.retire) (.ite (.next h.keep) (.next h.arriveMe.hold))
  · exact .ite (.next h.keep) (.next h.retire)

/-! O6 for the operations of `Sys2Proof/Machine/CopyOps.lean`. -/

theorem Kept.putHead {e pool j} (h : Kept cr pn s) : Kept cr pn (s.putHead e pool j) := h.setCopyQ

theorem Kept.copyAccess {e pool j u dva} (h : Kept cr pn s) : Kept cr pn (s.copyAccess e pool j u dva).2 := by
  unfold State.copyAccess
  split
  · exact h
  · split
    · rename_i e'
      exact h.access.snd e'
    · exact h.access

theorem Kept.sendPart {j} (h : Kept cr pn s) : Kept cr pn (s.sendPart j).1 := by
  unfold State.sendPart
  split
  · exact h
  · exact h.putChunks.send

theorem Kept.addRun {j p rank reduce addr bs} (h : Kept cr pn s) : Kept cr pn (s.addRun j p rank reduce addr bs).1 := by
  unfold State.addRun
  extract_lets
  split
  rename_i s1 j1 e
  have h1 : Kept cr pn s1 := .iteFst e h h.sendPart
  extract_lets
  split
  · exact h1
  · exact h1.sendPart

theorem Kept.flushParts {p} (h : Kept cr pn s) : Kept cr pn (s.flushParts p) :=
  h.foldl fun hu => hu.foldl fun hv => hv.foldl fun hv => hv.sendPart.modCopy

theorem Kept.copyPend {e pool j dva} (h : Kept cr pn s) : Kept cr pn (s.copyPend e pool j dva) := h.sendPart.report.setCopyQ

theorem Kept.copyEnd {e pool j status} (h : Kept cr pn s) : Kept cr pn (s.copyEnd e pool j status) := h.sendPart.putHead.soon

theorem Kept.copyLine {e j t} (h : Kept cr pn s) : Kept cr pn (s.copyLine e j t).2.2 := by
  unfold State.copyLine
  extract_lets
  split
  · split
    rename_i e'
    exact h.homeRead.thd e'
  · split
    · split
      rename_i e'
      exact h.viewLine.snd e'
    · split
      · split
        rename_i e'
        exact h.ownedLine.snd e'
      · exact h.homeRead

theorem Kept.scaleAt {e j t pa} (h : Kept cr pn s) : Kept cr pn (s.scaleAt e j t pa).2 := by
  unfold State.scaleAt
  split
  · exact h
  · extract_lets
    split
    · exact h.ite h.report
    · split
      rename_i e'
      exact h.copyLine.thd e'

theorem Kept.copyRequest {e pool j pa op} (h : Kept cr pn s) : Kept cr pn (s.copyRequest e pool j pa op) := h.putHead.request

/-- A job that a copy's beat may leave, in a kept state. -/
def KeptFst {α : Type} (cr : ConfigRecord) (pn : Nat) (o : Option (State × α)) : Prop := ∀ r, o = some r → Kept cr pn r.1

theorem KeptFst.none {α : Type} : KeptFst (α := α) cr pn none := by
  rintro _ ⟨⟩

theorem KeptFst.some {α : Type} {r : State × α} (h : Kept cr pn r.1) : KeptFst cr pn (some r) := by
  rintro _ ⟨⟩
  exact h

theorem KeptFst.ite {α : Type} {a b : Option (State × α)} {p : Prop} [Decidable p] (ha : KeptFst cr pn a) (hb : KeptFst cr pn b) :
    KeptFst cr pn (if p then a else b) := by
  split
  · exact ha
  · exact hb

theorem KeptFst.map {α β : Type} {o : Option (State × α)} {f : State × α → State × β} (ho : KeptFst cr pn o)
    (hf : ∀ {r}, Kept cr pn r.1 → Kept cr pn (f r).1) : KeptFst cr pn (o.map f) := by
  cases o with
  | none => exact .none
  | some r => exact .some (hf (ho r rfl))

theorem KeptFst.mapState {α : Type} {o : Option (State × α)} {f : State × α → State} (ho : KeptFst cr pn o)
    (hf : ∀ {r}, Kept cr pn r.1 → Kept cr pn (f r)) : KeptSome cr pn (o.map f) := by
  cases o with
  | none => exact .none
  | some r => exact .some (hf (ho r rfl))

theorem KeptSome.mapFst {α : Type} {o : Option State} {f : State → State × α} (ho : KeptSome cr pn o)
    (hf : ∀ {u}, Kept cr pn u → Kept cr pn (f u).1) : KeptFst cr pn (o.map f) := by
  cases o with
  | none => exact .none
  | some t => exact .some (hf (ho t rfl))

theorem Kept.copyAppend {e j t bs} (h : Kept cr pn s) : KeptFst cr pn (s.copyAppend e j t bs) := by
  unfold State.copyAppend
  extract_lets _ _ x full u s1
  have h1 : KeptSome cr pn s1 := .ite (.some h) h.appendThrough
  have hu : Kept cr pn u := h.startRelease
  split
  refine .ite (.ite .none (.some ?_)) (.ite .none (.ite .none ?_))
  · split
    · exact hu.modQueue
    · exact hu
  · clear_value s1
    split
    · exact .none
    · rename_i v
      have hv : Kept cr pn v := h1 v rfl
      exact (hv.appendFor.ite hv.append).mapFst fun hw => hw.ite hw.patchPresent

theorem Kept.copyFar {j pa reduce bs new} (h : Kept cr pn s) : Kept cr pn (s.copyFar j pa reduce bs new).1 := by
  unfold State.copyFar
  extract_lets
  split
  rename_i e
  split
  exact (h.addRun.fst e).known

theorem Kept.copyHost {e pool j pa bs} (h : Kept cr pn s) : Kept cr pn (s.copyHost e pool j pa bs).1 := by
  unfold State.copyHost
  extract_lets
  split
  · split
    extract_lets
    split
    · exact h.evictL2.ite h
    · exact h.copyRequest
  · split
    · split
      rename_i e'
      split
      exact (h.homeRead.thd e').known.copyRequest
    · exact h.copyRequest

theorem Kept.copyPut {e pool j t bs} (h : Kept cr pn s) : KeptFst cr pn (s.copyPut e pool j t bs) := by
  unfold State.copyPut
  extract_lets _ far s0
  have h0 : Kept cr pn s0 := h.writeBackOwned.ite h
  refine .ite (.ite (.some h) .none) (.ite (h.copyAppend.map id) (.ite (.ite .none (.some h.copyHost)) (.ite ?_ ?_)))
  · split
    rename_i s1 e1
    have h1 : Kept cr pn s1 := h0.homeRead.thd e1
    extract_lets new
    split
    exact .ite (.some h1.copyFar) (.some (h1.homeWrite.modArr.ite h1.homeWrite))
  · split
    exact .ite (.some h.ownedCopy) (.ite (.some h.copyFar) (.some h.homeWrite))

theorem Kept.copyFail {e pool j code addr} (h : Kept cr pn s) : Kept cr pn (s.copyFail e pool j code addr) :=
  h.ite (h.copyPend.ite h.copyEnd)

theorem Kept.copyAsWrite {e pool j off bs stage} (h : Kept cr pn s) : Kept cr pn (s.copyAsWrite e pool j off bs stage) := h.putHead.askAs

theorem Kept.copyWritten {e pool j dva bs next} (h : Kept cr pn s) : KeptSome cr pn (s.copyWritten e pool j dva bs next) := by
  unfold State.copyWritten
  split
  · rename_i e'
    exact .ite .none (.some (h.copyAccess.snd e').copyFail)
  · rename_i t s1 e'
    have h1 : Kept cr pn s1 := h.copyAccess.snd e'
    exact h1.copyPut.mapState fun hr => hr.putHead

theorem Kept.copyWrite {e pool j last} (h : Kept cr pn s) : KeptSome cr pn (s.copyWrite e pool j last) := by
  unfold State.copyWrite
  extract_lets
  split
  · exact h.copyWritten
  · exact .ite (.some h.copyEnd) (.some h.copyAsWrite)
  · split
    · exact .ite (.some h.copyEnd) (.ite (.some h.copyAsWrite) (.some h.putHead.arrive))
    · exact .ite (.some h.copyEnd) (.some h.addRun.putHead)
    · exact .none
    · exact .some h.copyEnd

theorem Kept.copyStamp {e pool j} (h : Kept cr pn s) : KeptSome cr pn (s.copyStamp e pool j) := by
  unfold State.copyStamp
  extract_lets
  split
  · exact .ite (.some h.copyEnd) (.ite (.some h.copyEnd) (.some h.copyAsWrite))
  · exact .ite (.some h.copyEnd) h.copyWritten

/-- Whatever a gathering of a beat has come to, its state is a kept one. -/
def KeptGather (cr : ConfigRecord) (pn : Nat) (g : Gather) : Prop :=
  (∀ t, g = .fetched t → Kept cr pn t) ∧ ∀ t code addr, g = .stop t code addr → Kept cr pn t

theorem KeptGather.ready {n : Nat} : KeptGather cr pn (.ready n) :=
  ⟨fun _ e => (nomatch e), fun _ _ _ e => (nomatch e)⟩

theorem KeptGather.waits : KeptGather cr pn .waits :=
  ⟨fun _ e => (nomatch e), fun _ _ _ e => (nomatch e)⟩

theorem KeptGather.fetched {t : State} (h : Kept cr pn t) : KeptGather cr pn (.fetched t) := by
  constructor
  · rintro _ ⟨⟩
    exact h
  · rintro _ _ _ ⟨⟩

theorem KeptGather.stop {t : State} {code addr : Nat} (h : Kept cr pn t) : KeptGather cr pn (.stop t code addr) := by
  constructor
  · rintro _ ⟨⟩
  · rintro _ _ _ ⟨⟩
    exact h

theorem KeptGather.ite {a b : Gather} {p : Prop} [Decidable p] (ha : KeptGather cr pn a) (hb : KeptGather cr pn b) :
    KeptGather cr pn (if p then a else b) := by
  split
  · exact ha
  · exact hb

theorem Kept.gatherByte {e pool j b} (h : Kept cr pn s) : KeptGather cr pn (s.gatherByte e pool j b) := by
  unfold State.gatherByte
  split
  · exact .ready
  · extract_lets
    refine .ite .ready (.ite (.stop h) (.ite (.ite (.stop h) (.fetched h.putHead.askAs)) ?_))
    split
    · rename_i s1 e'
      have h1 : Kept cr pn s1 := h.copyAccess.snd e'
      exact .ite (.ite .waits (.fetched h1)) (.stop h1)
    · rename_i t s1 e'
      have h1 : Kept cr pn s1 := h.copyAccess.snd e'
      refine .ite ?_ (.ite (.ite .waits (.fetched h1.copyRequest)) ?_)
      · split
        · rename_i u eu
          exact .fetched (h1.awaitMend u eu)
        · exact .waits
      · split
        rename_i s2 e2
        have h2 : Kept cr pn s2 := h1.copyLine.thd e2
        extract_lets
        split
        rename_i s3 e3
        have h3 : Kept cr pn s3 := .iteSnd e3 h2.scaleAt h2
        split
        rename_i s4 e4
        have h4 : Kept cr pn s4 := .iteSnd e4 h3.scaleAt h3
        refine .ite (.stop h2) ?_
        split
        · exact .stop h3
        · exact .stop h4
        · exact .fetched h4.putHead

theorem Kept.gather {e pool j b n} (h : Kept cr pn s) : KeptGather cr pn (s.gather e pool j b n) := by
  induction n generalizing b with
  | zero => exact .ready
  | succ n ih =>
    unfold State.gather
    have hb := h.gatherByte (e := e) (pool := pool) (j := j) (b := b)
    split
    · exact ih
    · rename_i s1 e1
      exact .fetched (hb.1 s1 e1)
    · exact .waits
    · rename_i s1 _ _ e1
      exact .ite (.stop (hb.2 s1 _ _ e1)) .ready

theorem Kept.copyStep {e pool} (h : Kept cr pn s) : KeptSome cr pn (s.copyStep e pool) := by
  unfold State.copyStep
  split
  · exact .none
  · rename_i j _ _
    extract_lets
    refine .ite .none (.ite (.ite (.some h.soon) .none) (.ite (.some h.copyEnd) (.ite ?_ (.ite (.some h.copyEnd) (.ite ?_ ?_)))))
    · split
      · exact .some h.putHead
      · exact .ite (.ite (.some h.copyEnd) (.some h.copyAsWrite)) (.some h.putHead)
      · exact .some h.putHead
      · exact .some h.putHead
    · exact .ite (.some h.sendPart.putHead) (.ite .none (h.copyStamp.ite (.some h.copyEnd)))
    · have hg := h.gather (e := e) (pool := pool) (j := j) (b := j.col) (n := j.beatEnd - j.col)
      split
      · rename_i s1 e1
        exact .some (hg.1 s1 e1)
      · exact .none
      · rename_i s1 _ _ e1
        exact .some (hg.2 s1 _ _ e1).copyFail
      · exact h.copyWrite

theorem Kept.progress {q} (h : Kept cr pn s) : Kept cr pn (s.progress q) := h.modQueue

theorem Kept.copyJobDone {job ring} (h : Kept cr pn s) : Kept cr pn (s.copyJobDone job ring) := by
  unfold State.copyJobDone
  extract_lets _ s1
  have h1 : Kept cr pn s1 := h.modJob
  split
  · exact h
  · exact (h1.failJob.ite h1.completeJob).progress

theorem keptOut_execCopyComplete {engine pool} (h : Kept cr pn s) : KeptOut cr pn (execCopyComplete engine pool s) := by
  unfold execCopyComplete
  split
  · exact .next h
  · extract_lets _ s1 s2 _ _
    have h1 : Kept cr pn s1 := h.setCopyQ.forgetWalks
    have h2 : Kept cr pn s2 := h1.ite h1.modTeam
    split
    · exact .next h
    · split
      · split
        · exact .ite (.next h.putHead.atAc) (.next h.startRelease.putHead)
        · exact .ite (.next h) (.next h.setCopyQ.forgetWalks.copyJobDone)
      · exact .ite (.next h1) (.ite (.next h2.progress) (.next (h1.modTeam.ite h1).modCtx.progress))

theorem Kept.copyOp {op gd ga gb th opt} (h : Kept cr pn s) : KeptOut cr pn (s.copyOp op gd ga gb th opt) :=
  h.gate (.ite (.next h.keep) (.next (Kept.retire (Kept.setCopyQ (h.same rfl)))))

theorem Kept.wakeCopies {p} (h : Kept cr pn s) : Kept cr pn (s.wakeCopies p) := h.same rfl

/-! O6 for the operations of `Sys2Proof/Machine/NodeOps.lean`. -/

theorem Kept.segmentEnd {k} (h : Kept cr pn s) (hk : KeptOut cr pn k) : KeptOut cr pn (s.segmentEnd k) := .ite (.next h.soon.hold) hk

theorem Kept.orError {k} (h : Kept cr pn s) (hk : KeptOut cr pn k) : KeptOut cr pn (s.orError k) := .ite (.next h.soon.keep) hk

theorem keptOut_execCkpt (h : Kept cr pn s) : KeptOut cr pn (execCkpt s) := by
  unfold execCkpt
  extract_lets
  split
  · exact .ite (.next h.keep) (h.orError (h.segmentEnd (.next h.modMe.sendDown.startRelease.hold)))
  · exact .ite (.next h.keep) (.next h.retire)

theorem Kept.writeNode {x ws} (h : Kept cr pn s) : Kept cr pn (s.writeNode x ws) := by
  unfold State.writeNode
  split
  · split
    · exact h.noteAbort
    · exact h
  · exact h.hardWrite.hardWrite

theorem Kept.modTask {team rank f} (h : Kept cr pn s) : Kept cr pn (s.modTask team rank f) := h.modTeam

theorem Kept.passNode {idx} (h : Kept cr pn s) : Kept cr pn (s.passNode idx) := h.sendDown.progress.retire

theorem keptOut_execNode {idx} (h : Kept cr pn s) : KeptOut cr pn (execNode idx s) := by
  unfold execNode
  extract_lets
  split
  · exact .ite (.next h.keep) (h.orError (h.segmentEnd (.next h.startRelease.hold)))
  · exact .ite (.next h.keep) (.next h.arriveMe.hold)
  · exact .ite (.next h.keep) (.next h.writeNode.modTeam.modMe.hold)
  · exact .ite (.next h.keep) (.ite (.next h.keepWith.progress) (.next h.passNode))

theorem Kept.endArrives {team} (h : Kept cr pn s) : Kept cr pn (s.endArrives team) := by
  unfold State.endArrives
  split
  · exact h
  · exact h.atEnd.ite h

theorem Kept.finishTask {a c} (h : Kept cr pn s) : Kept cr pn (s.finishTask a c) := by
  unfold State.finishTask
  extract_lets _ _ s1 _
  have h1 : Kept cr pn s1 := by
    unfold s1
    split
    · exact h.hardBytes
    · exact h
  exact h1.progress.modTask.modTeam.modCtx.freeCtx.endArrives.teamCheck

theorem keptOut_execEndt (h : Kept cr pn s) : KeptOut cr pn (execEndt s) := by
  unfold execEndt
  extract_lets
  split
  · exact .ite (.next h.keep) (h.orError (h.segmentEnd (.next h.startRelease.hold)))
  · exact .ite (.next h.keep) (.next h.retire.finishTask)


end

end Sys2Proof.Machine

namespace Sys2Proof.Machine

section
variable {cr : ConfigRecord} {pn : Nat} {s : State}

/-! O6 for the operations of `Sys2Proof/Machine/Issue.lean`. -/

theorem Kept.represent {a c} (h : Kept cr pn s) : Kept cr pn (s.represent a c) := h.modArr.grant.ite h.modArr

theorem Kept.presentOps {a c pc ops stall} (h : Kept cr pn s) : Kept cr pn (s.presentOps a c pc ops stall) := h.modCtx.represent

theorem Kept.fetchFault {a c} (h : Kept cr pn s) : Kept cr pn (s.fetchFault a c) := h.modCtx.soon

theorem Kept.fetchAsk {a c pc} (h : Kept cr pn s) : Kept cr pn (s.fetchAsk a c pc).2 := by
  unfold State.fetchAsk
  extract_lets
  split
  · exact h
  · extract_lets
    split
    · rename_i e
      exact h.access.snd e
    · rename_i e
      exact h.access.snd e

theorem Kept.fetchAsks {a c pcs} (h : Kept cr pn s) : Kept cr pn (s.fetchAsks a c pcs).2 := by
  induction pcs generalizing s with
  | nil => exact h
  | cons pc t ih =>
    unfold State.fetchAsks
    split
    · rename_i s1 e
      have h1 : Kept cr pn s1 := h.fetchAsk.snd e
      exact h1
    · rename_i s1 e
      have h1 : Kept cr pn s1 := h.fetchAsk.snd e
      exact ih h1

theorem Kept.fetchRefused {a c r} (h : Kept cr pn s) : Kept cr pn (s.fetchRefused a c r) := h.modArr.ite (h.modCtx.soon.ite h.modCtx.soon)

theorem Kept.fetchTraffic {a c pcs} (h : Kept cr pn s) : Kept cr pn (s.fetchTraffic a c pcs) := by
  unfold State.fetchTraffic
  split
  · exact h
  · exact h.foldl fun hu => hu.viewTraffic

theorem Kept.present {a c} (h : Kept cr pn s) : Kept cr pn (s.present a c) := by
  unfold State.present
  extract_lets
  split
  · exact h.fetchFault
  · exact h.presentOps

theorem keptOut_execContextSwitch {a} (h : Kept cr pn s) : KeptOut cr pn (execContextSwitch a s) := by
  unfold execContextSwitch
  extract_lets
  split
  · exact .next h.modArr
  · exact .next h.modArr

theorem Kept.wake {a} (h : Kept cr pn s) : Kept cr pn (s.wake a) := h.modArr

theorem keptOut_execSequencerWake {a} (h : Kept cr pn s) : KeptOut cr pn (execSequencerWake a s) := .next h.wake

theorem keptOut_execLeaseQuantumEnd {a} (h : Kept cr pn s) : KeptOut cr pn (execLeaseQuantumEnd a s) := by
  unfold execLeaseQuantumEnd
  split
  · exact .next h
  · exact .next h.grant

theorem Kept.passBlocked {a} (h : Kept cr pn s) : Kept cr pn (s.passBlocked a) := by
  unfold State.passBlocked
  split
  · exact h
  · split
    · exact h
    · split
      · exact h.grant
      · exact h

theorem Kept.presentGroup {a c m g} (h : Kept cr pn s) : Kept cr pn (s.presentGroup a c m g) := by
  unfold State.presentGroup
  extract_lets _ g1 _ _ _
  clear_value g1
  split
  · exact h
  · exact h.fetchFault.ite (h.presentOps.settleAt.ite h.presentOps)

theorem keptOut_execMloopPresentation {a c} (h : Kept cr pn s) : KeptOut cr pn (execMloopPresentation a c s) := by
  unfold execMloopPresentation
  extract_lets
  split
  · exact .next h
  · extract_lets
    split
    · exact .next h
    · split
      · split
        · exact .next h.modCtx.presentGroup
        · exact .next h.modCtx
      · exact .ite (.next h.modCtx) (.next h.modCtx)

/-! O6 for the operations of `Sys2Proof/Machine/Mailbox.lean`. -/

theorem Kept.respond {fn status results} (h : Kept cr pn s) : Kept cr pn (s.respond fn status results) := h.modFunc.send

theorem Kept.onlyFn0 {fn k} (h : Kept cr pn s) (hk : KeptOut cr pn k) : KeptOut cr pn (s.onlyFn0 fn k) := .ite (.next h.respond) hk

/-! O6 for the operations of `Sys2Proof/Machine/Contain.lean`. -/

theorem keptOut_execContextFatalFault {a c} (h : Kept cr pn s) : KeptOut cr pn (execContextFatalFault a c s) := by
  unfold execContextFatalFault
  extract_lets
  split
  · exact .next h
  · split
    · extract_lets
      split
      · exact .next h.takeFatal
      · exact .next h.takeFatal
    · split
      · exact .next h
      · exact .ite (.next h.stopAt.discardUnpublished) (.next h.takeFatal)

theorem Kept.relaunchHere {team skip} (h : Kept cr pn s) : Kept cr pn (s.relaunchHere team skip) := by
  unfold State.relaunchHere
  extract_lets
  split
  · exact h
  · exact h.ite (h.report.terminateTeam.ite (h.report.modTeam.askTeam.foldl fun hu => hu.modCopies.ite hu))

theorem Kept.relaunchTeam {team skip} (h : Kept cr pn s) : Kept cr pn (s.relaunchTeam team skip) := by
  unfold State.relaunchTeam
  extract_lets s1
  have h1 : Kept cr pn s1 := h.relaunchHere
  split
  · exact h
  · exact h.ite (h1.send.ite h1)

theorem Kept.stopRelaunch {a c} (h : Kept cr pn s) : Kept cr pn (s.stopRelaunch a c) :=
  .relaunchTeam (.discardUnpublished h.stopAt)

theorem Kept.retireArray {a} (h : Kept cr pn s) : Kept cr pn (s.retireArray a) := by
  unfold State.retireArray
  extract_lets _ _ _ _ s1 s2 _ s3
  have h1 : Kept cr pn s1 := Kept.report (h.same rfl)
  have h2 : Kept cr pn s2 := h1.foldl fun hu => hu.send
  have h3 : Kept cr pn s3 := h2.report.foldl fun hu => hu.report
  exact h.ite (h3.foldl fun hu => hu.relaunchTeam)

theorem Kept.rerunFrom {a c r} (h : Kept cr pn s) : Kept cr pn (s.rerunFrom a c r) := by
  unfold State.rerunFrom
  split
  · rename_i u e
    have hu : Kept cr pn u := h.rollback _ e
    exact hu.modCtx
  · exact h.takeFatal

theorem keptOut_execDataErrorTake {a c} (h : Kept cr pn s) : KeptOut cr pn (execDataErrorTake a c s) := by
  unfold execDataErrorTake
  extract_lets _ s1 _
  have h1 : Kept cr pn s1 := h.modCtx
  split
  · exact .next h
  · split
    · exact .next h
    · split
      · exact .next h1.stopRelaunch
      · split
        · exact .ite (.next (h1.takeFatal.ite h1.rerunFrom)) (.next h1.report.retireArray.stopRelaunch)
        · exact .next h1.rerunFrom

theorem keptOut_execSegmentEndSignature {a c} (h : Kept cr pn s) : KeptOut cr pn (execSegmentEndSignature a c s) := by
  unfold execSegmentEndSignature
  extract_lets _ done _
  have hdone : Kept cr pn done := h.modCtx
  split
  · exact .next h
  · split
    · exact .next h
    · split
      · exact .next hdone
      · split
        · exact .next h.rerunFrom
        · exact .ite (.next hdone.report) (.next hdone.report.retireArray.stopRelaunch)

theorem Kept.clearKernel {a c} (h : Kept cr pn s) : Kept cr pn (s.clearKernel a c) := h.foldl fun hu => hu.modArr

theorem Kept.killCtx {a c} (h : Kept cr pn s) : Kept cr pn (s.killCtx a c) := h.stopAt.discardUnpublished.modCtx.stopCopies

theorem Kept.killTeam {team reason} (h : Kept cr pn s) : Kept cr pn (s.killTeam team reason) := by
  unfold State.killTeam
  extract_lets
  split
  · exact h
  · exact Kept.report (Kept.modJob (Kept.modTeam (h.foldl fun hu => hu.killCtx.ite hu)))

theorem Kept.killQueue {q} (h : Kept cr pn s) : Kept cr pn (s.killQueue q) := h.modQueue

theorem Kept.detachCopies {a c} (h : Kept cr pn s) : Kept cr pn (s.detachCopies a c) := h.modCopies

theorem Kept.reapRelaunch {t} (h : Kept cr pn s) : Kept cr pn (s.reapRelaunch t) :=
  Kept.freeFollowers (Kept.same (h.foldl fun hu => hu.detachCopies.vacate.ite hu) rfl)

theorem Kept.reapDead {t} (h : Kept cr pn s) : Kept cr pn (s.reapDead t) := by
  unfold State.reapDead
  extract_lets s1
  have h1 : Kept cr pn s1 := h.foldl fun hu => hu.stopCopies.detachCopies.clearKernel.freeCtx.ite (hu.ite hu.retireRing)
  exact h1.modTeam.teamCheck

theorem Kept.loosenTeam {t} (h : Kept cr pn s) : Kept cr pn (s.loosenTeam t) := by
  unfold State.loosenTeam
  refine h.foldl fun {u k} hu => ?_
  split
  · exact .ite (hu.foldl fun hv => hv.modArr) hu
  · exact hu

theorem Kept.reapTeams (h : Kept cr pn s) : Kept cr pn s.reapTeams :=
  .foldl (h.foldl fun hu => hu.loosenTeam.ite hu) fun hu => hu.reapDead.ite (hu.reapRelaunch.ite hu)

/-! O6 for the operations of `Sys2Proof/Machine/Seal.lean`. -/

theorem keptOut_execImageLoad {fn pa len world} (h : Kept cr pn s) : KeptOut cr pn (execImageLoad fn pa len world s) := by
  unfold execImageLoad
  extract_lets _ _ _ _ _ s1
  have h1 : Kept cr pn s1 := h.same rfl
  split
  · exact .next h.respond
  · split
    · exact .next h.respond
    · split
      · exact .next h.report.respond
      · exact .ite (.next h.respond) (.next h1.respond)

theorem keptOut_execImageUnload {fn id} (h : Kept cr pn s) : KeptOut cr pn (execImageUnload fn id s) := by
  unfold execImageUnload
  extract_lets s1
  have h1 : Kept cr pn s1 := h.same rfl
  split
  · exact .next h.respond
  · exact .ite (.next h.respond) (.ite (.next h.respond) (.next h1.respond))

theorem keptOut_execAttest {fn nonce buf} (h : Kept cr pn s) : KeptOut cr pn (execAttest fn nonce buf s) :=
  .ite (.next h.respond) (.next h.store.send.respond)

/-! O6 for the operations of `Sys2Proof/Machine/Cards.lean`. -/

theorem Kept.refuse {q code idx seq} (h : Kept cr pn s) : Kept cr pn (s.refuse q code idx seq) := h.modQueue.report

theorem Kept.hostRelease {fn} (h : Kept cr pn s) : Kept cr pn (s.hostRelease fn) := h.ite h.startRelease

theorem keptOut_execQueueDoorbell {q tail} (h : Kept cr pn s) : KeptOut cr pn (execQueueDoorbell q tail s) := by
  unfold execQueueDoorbell
  extract_lets _ _ s1
  have h1 : Kept cr pn s1 := h.hostRelease.modQueue
  exact .ite (.next h.atAc) (.ite (.next h.hostRelease) (.ite (.next h1.refuse) (.next h1)))

theorem keptOut_execCardAdmit {q} (h : Kept cr pn s) : KeptOut cr pn (execCardAdmit q s) := by
  unfold execCardAdmit
  extract_lets _ _ _ s1 bad _ _
  have h1 : Kept cr pn s1 := h.modQueue
  have hbad : ∀ {code}, KeptOut cr pn (bad code) := .next h1.refuse
  split
  · exact .next h
  · exact .ite (.next h1.report.refuse) (.ite hbad (.ite hbad (.ite hbad (.next h1.soon))))

theorem Kept.enterCard {q card regions} (h : Kept cr pn s) : Kept cr pn (s.enterCard q card regions) := h.same rfl

theorem Kept.refuseCard {q card code} (h : Kept cr pn s) : Kept cr pn (s.refuseCard q card code) := h.refuse

theorem Kept.cardNote {q dva} (h : Kept cr pn s) : Kept cr pn (s.cardNote q dva) := h.ite h.noteAbort

theorem Kept.cardLost {j} (h : Kept cr pn s) : Kept cr pn (s.cardLost j) := h.cardNote.failJob.refuse

theorem Kept.syncNote {x dva} (h : Kept cr pn s) : Kept cr pn (s.syncNote x dva) := by
  unfold State.syncNote
  split
  · exact h.noteAbort
  · exact h

theorem keptOut_execLaunch {q card} (h : Kept cr pn s) : KeptOut cr pn (execLaunch q card s) := by
  unfold execLaunch
  extract_lets
  split
  · exact .next h.refuseCard
  · split
    · exact .next h.refuseCard
    · split
      · exact .next h.refuseCard
      · split
        · exact .next h.refuseCard
        · split
          · exact .next h.report.refuseCard
          · exact .ite (.next h.refuseCard) (.ite (.next h.syncNote.refuseCard) (.next h.enterCard))

theorem keptOut_execCopy {q card} (h : Kept cr pn s) : KeptOut cr pn (execCopy q card s) := by
  unfold execCopy
  extract_lets
  split
  · exact .ite (.next h.refuseCard) (.next h.enterCard)
  · exact .next h.refuseCard

theorem keptOut_execWaitstamp {q card} (h : Kept cr pn s) : KeptOut cr pn (execWaitstamp q card s) := by
  unfold execWaitstamp
  split
  · exact .next h.enterCard
  · exact .next h.cardNote.refuseCard
  · exact .next h.refuseCard

theorem keptOut_execSignal {q card} (h : Kept cr pn s) : KeptOut cr pn (execSignal q card s) := by
  unfold execSignal
  split
  · exact .next h.enterCard
  · exact .next h.cardNote.refuseCard
  · exact .next h.refuseCard

theorem keptOut_execFenceCard {q card} (h : Kept cr pn s) : KeptOut cr pn (execFenceCard q card s) := by
  unfold execFenceCard
  split
  · exact .next h.enterCard
  · exact .next h.refuseCard

theorem Kept.signalWrite {j} (h : Kept cr pn s) : Kept cr pn (s.signalWrite j) := by
  unfold State.signalWrite
  extract_lets
  split
  · exact h.cardLost
  · exact h.traffic.homeRead.homeStore.completeJob.ite (h.request.ite (h.request.ite h.request))

theorem Kept.signalAdd {j pa} (h : Kept cr pn s) : Kept cr pn (s.signalAdd j pa) := h.known.request

theorem Kept.predFailed {j} (h : Kept cr pn s) : Kept cr pn (s.predFailed j) := h.report.failJob

theorem keptOut_execJobReady {job} (h : Kept cr pn s) : KeptOut cr pn (execJobReady job s) := by
  unfold execJobReady
  split
  · exact .next h
  · split
    · exact .next h
    · split
      · exact .next h.predFailed
      · split
        · exact .next h.signalWrite
        · exact .next h.completeJob
        · exact .next h.makeReady

theorem keptOut_execWaitstampSatisfied {q} (h : Kept cr pn s) : KeptOut cr pn (execWaitstampSatisfied q s) := by
  unfold execWaitstampSatisfied
  split
  · exact .next h
  · exact .next (h.completeJob.ite h.cardLost)

theorem keptOut_execJobAgeStep {job} (h : Kept cr pn s) : KeptOut cr pn (execJobAgeStep job s) := by
  unfold execJobAgeStep
  extract_lets s1
  have h1 : Kept cr pn s1 := h.modJob.atAc
  split
  · exact .next h
  · exact .ite (.next h) (.next (h1.soon.ite h1))

theorem keptOut_execJobPromote {job} (h : Kept cr pn s) : KeptOut cr pn (execJobPromote job s) := by
  unfold execJobPromote
  split
  · exact .next h
  · exact .next (h.modJob.ite h)

theorem keptOut_execQueueCreate {fn q base log2e prio asid owner world mgmt vmaj vmin} (h : Kept cr pn s) :
    KeptOut cr pn (execQueueCreate fn q base log2e prio asid owner world mgmt vmaj vmin s) := by
  unfold execQueueCreate
  extract_lets
  split
  · exact h.onlyFn0 (.next h.respond)
  · split
    · exact h.onlyFn0 (.ite (.next h.respond) (.next h.modQueue.respond))
    · exact h.onlyFn0 (.next h.respond)

theorem Kept.restartQueue {q fn} (h : Kept cr pn s) : Kept cr pn (s.restartQueue q fn) := h.modQueue.respond

theorem keptOut_execQueueReset {fn q} (h : Kept cr pn s) : KeptOut cr pn (execQueueReset fn q s) :=
  h.onlyFn0 (.ite (.next h.respond) (.ite (.next h.restartQueue) (.next h.modQueue)))

theorem keptOut_execQueueDestroy {fn q} (h : Kept cr pn s) : KeptOut cr pn (execQueueDestroy fn q s) := by
  unfold execQueueDestroy
  extract_lets _ _ s1 s2
  have h1 : Kept cr pn s1 := (h.modQueue.ite h.killQueue).foldl fun hu => hu.killTeam
  have h2 : Kept cr pn s2 := h1.foldl fun hu => hu.failJob
  exact h.onlyFn0 (.ite (.next h.respond) (.next h2.modQueue))

theorem Kept.tidyQueues (h : Kept cr pn s) : Kept cr pn s.tidyQueues := by
  unfold State.tidyQueues
  refine h.foldl fun {u q} hu => ?_
  extract_lets
  split
  · exact hu
  · split
    · exact hu.modQueue.respond
    · exact hu.restartQueue
    · exact hu

/-! O6 for the operations of `Sys2Proof/Machine/Gang.lean`. -/

theorem Kept.repartition {d n} (h : Kept cr pn s) : Kept cr pn (s.repartition d n) := .foldl (h.same rfl) fun hu => hu.evictL2

theorem Kept.seatRing {t k was a c} (h : Kept cr pn s) : Kept cr pn (s.seatRing t k was a c) := by
  unfold State.seatRing
  extract_lets _ s1
  split
  · exact h
  · split
    · exact h.same rfl
    · extract_lets
      have h1 : Kept cr pn s1 := h.modRing
      exact h1.same rfl

theorem Kept.reattach {t k} (h : Kept cr pn s) : Kept cr pn (s.reattach t k) := h.same rfl

theorem Kept.seatArrays {t p x resumed} (h : Kept cr pn s) : Kept cr pn (s.seatArrays t p x resumed) := h.foldl fun hu => hu.modArr

theorem Kept.seatCtx {t m k} (h : Kept cr pn s) : Kept cr pn (s.seatCtx t m k) := (h.noteAbort.ite h).modCtx

theorem Kept.seatWrites {t k} (h : Kept cr pn s) : Kept cr pn (s.seatWrites t k) := by
  unfold State.seatWrites
  extract_lets s1
  have h1 : Kept cr pn s1 := by
    unfold s1
    split
    · exact h.hardBytes
    · exact h.noteAbort
  split
  · exact h1.hardWrite
  · exact h1

theorem Kept.withdrawFor {job} (h : Kept cr pn s) : Kept cr pn (s.withdrawFor job) := h.same rfl

theorem Kept.watchStart {q} (h : Kept cr pn s) : Kept cr pn (s.watchStart q) := h.ite h.modQueue

theorem Kept.seatTeam {t m seats resumed} (h : Kept cr pn s) : Kept cr pn (s.seatTeam t m seats resumed) := by
  unfold State.seatTeam
  extract_lets _ _ _ wide s1 s2 s3 s4 s5 s6 s7
  have hwide : Kept cr pn wide := h.watchStart.foldl fun hu => hu.repartition.ite hu
  have h1 : Kept cr pn s1 := hwide.foldl fun hu => hu.seatArrays
  have h2 : Kept cr pn s2 := .foldl (h1.same rfl) fun hu => hu.seatRing
  have h3 : Kept cr pn s3 := h2.same rfl
  have h4 : Kept cr pn s4 := h3.foldl fun hu => hu.seatCtx.reattach.seatWrites.sendDown
  have h5 : Kept cr pn s5 := h4.ite (h4.foldl fun hu => hu.modArr)
  have h6 : Kept cr pn s6 := h5.modJob.withdrawFor
  have h7 : Kept cr pn s7 := h6.same rfl
  refine h7.foldl fun {u i} hu => ?_
  split
  · exact hu.soon.ite hu
  · exact hu

theorem Kept.place_ {j resumed} (h : Kept cr pn s) : Kept cr pn (s.place_ j resumed) := by
  unfold State.place_
  split
  · exact h
  · extract_lets s0
    have h0 : Kept cr pn s0 := h.ite (h.same rfl)
    split
    · exact h.soon
    · split
      · exact h0.seatTeam
      · exact h.foldl fun hu => hu.soon

theorem keptOut_execGangPlace {job} (h : Kept cr pn s) : KeptOut cr pn (execGangPlace job s) := by
  unfold execGangPlace
  split
  · exact .next h
  · exact .next (h.place_.ite h)

theorem keptOut_execTeamResume {team} (h : Kept cr pn s) : KeptOut cr pn (execTeamResume team s) := by
  unfold execTeamResume
  split
  · exact .next h
  · split
    · exact .next h
    · exact .next (h.place_.ite h)

/-! O6 for the operations of `Sys2Proof/Machine/Sched.lean`. -/

theorem keptOut_execBulkCopyAssign {job} (h : Kept cr pn s) : KeptOut cr pn (execBulkCopyAssign job s) := by
  unfold execBulkCopyAssign
  split
  · exact .next h
  · extract_lets _ _ _ s1
    have h1 : Kept cr pn s1 := h.watchStart.same rfl
    split
    · exact .next h
    · split
      · exact .next h
      · exact .next (h1.setCopyQ.same rfl)

theorem Kept.without {ts} (h : Kept cr pn s) : Kept cr pn (s.without ts) := Kept.freeFollowers (h.same rfl)

theorem keptOut_execPreemptRequest {job} (h : Kept cr pn s) : KeptOut cr pn (execPreemptRequest job s) := by
  unfold execPreemptRequest
  split
  · exact .ite (.next (h.foldl fun hu => hu.modTeam)) (.next h)
  · exact .next h

theorem keptOut_execTeamPreempt {team} (h : Kept cr pn s) : KeptOut cr pn (execTeamPreempt team s) := by
  unfold execTeamPreempt
  split
  · exact .next h
  · extract_lets s1 s2 s3
    have h1 : Kept cr pn s1 := h.foldl fun hu => hu.detachCopies.vacate.ite hu
    have h2 : Kept cr pn s2 := h1.modTeam
    have h3 : Kept cr pn s3 := h2.freeFollowers.makeReady
    exact .ite (.next h) (.next (h3.same rfl))

theorem keptOut_execWatchdogT2Expire {team} (h : Kept cr pn s) : KeptOut cr pn (execWatchdogT2Expire team s) := by
  unfold execWatchdogT2Expire
  extract_lets
  split
  · exact .next h
  · exact .ite (.next h) (.next (h.killTeam.killQueue.same rfl))

/-! O6 for the operations of `Sys2Proof/Machine/Answers.lean`. -/

theorem Kept.refusalRecord {k code} (h : Kept cr pn s) : Kept cr pn (s.refusalRecord k code) := h.ite h.report

theorem Kept.moveGiven {asid dva} (h : Kept cr pn s) : Kept cr pn (s.moveGiven asid dva) := h.same rfl

theorem Kept.refused {k code} (h : Kept cr pn s) : Kept cr pn (s.refused k code) := by
  unfold State.refused
  extract_lets s1
  have h1 : Kept cr pn s1 := h.refusalRecord
  split
  · split
    · exact h1
    · exact h1.popEntry.ite h1.popEntry.askCtx
  · split
    · exact h1
    · exact h1.copyEnd
  · exact h1.modRing
  · exact .ite (Kept.send (h1.same rfl)) h1
  · exact h1.completeJob
  · exact h1.askCtx
  · exact h
  · exact h.mendAnswer
  · exact h1.moveGiven
  · exact h1
  · exact h1

theorem Kept.learn {k code data} (h : Kept cr pn s) : Kept cr pn (s.learn k code data) := by
  unfold State.learn
  extract_lets
  split
  · exact h
  · exact h
  · exact h
  · exact h
  · exact h
  · exact h.known
  · exact h.evictL2.known
  · exact h.fetched

theorem Kept.takeAnswer {tag code data} (h : Kept cr pn s) : Kept cr pn (s.takeAnswer tag code data) := by
  unfold State.takeAnswer
  extract_lets s0
  have h0 : Kept cr pn s0 := h.same rfl
  split
  · exact h
  · extract_lets s1
    have h1 : Kept cr pn s1 := h0.learn
    split
    · exact h0.refused
    · split
      · exact h1.setEntry
      · exact h1.modCopy
      · exact h1.modRing
      · split
        · exact h1.signalAdd
        · exact h1.completeJob
      · exact h1.entryRead
      · exact h1.mendAnswer
      · exact h1.moveGiven
      · exact h1
      · exact h1
      · exact h1
      · exact h1

theorem Kept.askLost {pkg} (h : Kept cr pn s) : Kept cr pn (s.askLost pkg) := by
  unfold State.askLost
  extract_lets s1 _
  have h1 : Kept cr pn s1 := by
    unfold s1
    refine h.foldl fun {u k} hu => ?_
    extract_lets u0
    have hu0 : Kept cr pn u0 := hu.same rfl
    split
    · exact hu
    · split
      · exact hu0.refused
      · split
        · exact hu0.setEntry
        · exact hu0.modCopy
        · exact hu0.request
        · exact hu
        · exact hu0
  exact h1.same rfl


end

end Sys2Proof.Machine

namespace Sys2Proof.Machine

section
variable {cr : ConfigRecord} {pn : Nat} {s : State}

/-! O6 for the operations of `Sys2Proof/Machine/Survive.lean`. -/

theorem Kept.modWindow {pgid f} (h : Kept cr pn s) : Kept cr pn (s.modWindow pgid f) := h.same rfl

theorem Kept.dropMends {pgid} (h : Kept cr pn s) : Kept cr pn (s.dropMends pgid) := by
  unfold State.dropMends
  extract_lets s1 _
  have h1 : Kept cr pn s1 := by
    unfold s1
    split
    · exact h.foldl fun hu => hu.foldl fun hv => hv.lockUnit
    · exact h
  exact h1.same rfl

theorem Kept.forgetGroup {pgid} (h : Kept cr pn s) : Kept cr pn (s.forgetGroup pgid) := h.dropMends.same rfl

theorem Kept.isolate {pgid} (h : Kept cr pn s) : Kept cr pn (s.isolate pgid) := by
  unfold State.isolate
  split
  · exact h
  · exact Kept.forgetGroup (.foldl (h.same rfl) fun hu => hu.foldl fun hv => hv.askCtx.ite hv)

theorem Kept.settleSeries {w g x e} (h : Kept cr pn s) : Kept cr pn (s.settleSeries w g x e) := by
  unfold State.settleSeries
  extract_lets _ s1 _ s2 _
  have h1 : Kept cr pn s1 := h.foldl fun hu => hu.applyDelta
  have h2 : Kept cr pn s2 := h1.putSeries
  exact h2.ite (h2.foldl fun hu => hu.foldl fun hv => hv.send)

theorem Kept.lossRecord {pkg r} (h : Kept cr pn s) : Kept cr pn (s.lossRecord pkg r) := h.ite h.report

theorem Kept.resendFold {f} (h : Kept cr pn s) : Kept cr pn (s.resendFold f) := by
  unfold State.resendFold
  extract_lets sendTo _
  have hsendTo : ∀ {dest}, Kept cr pn (sendTo dest) := .ite (h.same rfl) (Kept.send (h.same rfl))
  split
  · exact hsendTo
  · exact .ite (Kept.report (h.same rfl)) hsendTo

theorem Kept.declareLost {pgid x notices} (h : Kept cr pn s) : Kept cr pn (s.declareLost pgid x notices) := by
  unfold State.declareLost
  extract_lets
  split
  · exact h
  · extract_lets _ _ _ _ sg s0 s1 s2 _ s3 s4a s4 s5 s6 s7 s8
    have hg : Kept cr pn sg := h.modGroup
    have h0 : Kept cr pn s0 := hg.same rfl
    have h1 : Kept cr pn s1 := h0.modWindow.foldl fun hu => hu.report
    have h2 : Kept cr pn s2 := .ite (h1.foldl fun hu => hu.send) h1
    have h3 : Kept cr pn s3 := h2.foldl fun hu => hu.foldl fun hv => hv.lossRecord
    have h4a : Kept cr pn s4a := by
      unfold s4a
      split
      · exact h3.foldl fun hu => hu.settleSeries
      · exact h3
    have h4 : Kept cr pn s4 := h4a.foldl fun hu => hu.foldl fun hv => hv.send
    have h5 : Kept cr pn s5 := Kept.finishFolds (h4.same rfl)
    have h6 : Kept cr pn s6 := h5.foldl fun hu => hu.resendFold
    have h7 : Kept cr pn s7 := h6.foldl fun hu => hu.askLost
    have h8 : Kept cr pn s8 := by
      unfold s8
      split
      · exact h7.foldl fun hu => hu.againMend
      · exact h7
    exact h.ite (h8.foldl fun hu => hu.foldl fun hv => hv.endTeam)

theorem Kept.takeSettled {pgid holder member} (h : Kept cr pn s) : Kept cr pn (s.takeSettled pgid holder member) :=
  h.ite h.declareLost.modGroup

theorem keptOut_execHeartbeatSend (h : Kept cr pn s) : KeptOut cr pn (execHeartbeatSend s) := by
  unfold execHeartbeatSend
  extract_lets s1
  have h1 : Kept cr pn s1 := h.foldl fun hu => hu.foldl fun hv => hv.send
  exact .next (h1.ite h1.atAc)

theorem keptOut_execHeartbeatReceive {pgid member} (h : Kept cr pn s) : KeptOut cr pn (execHeartbeatReceive pgid member s) := by
  unfold execHeartbeatReceive
  split
  · exact .next h
  · exact .ite (.next h) (.next h.modGroup.atAc)

theorem keptOut_execHeartbeatTimeout {pgid member} (h : Kept cr pn s) : KeptOut cr pn (execHeartbeatTimeout pgid member s) := by
  unfold execHeartbeatTimeout
  extract_lets
  split
  · exact .next h
  · exact .ite (.next h) (.ite (.next h.isolate) (.ite (.next h.declareLost) (.next h.report)))

theorem keptOut_execLossNoticeReceive {pgid notice} (h : Kept cr pn s) : KeptOut cr pn (execLossNoticeReceive pgid notice s) := by
  unfold execLossNoticeReceive
  split
  · exact .next h
  · exact .ite (.next h) (.next (h.isolate.ite h.declareLost))

theorem Kept.passStripe {g m target base p} (h : Kept cr pn s) : Kept cr pn (s.passStripe g m target base p) :=
  h.modGroup.ite (h.modGroup.modWindow.ite h.modGroup)

theorem keptOut_execRebuildStripe {pgid} (h : Kept cr pn s) : KeptOut cr pn (execRebuildStripe pgid s) := by
  unfold execRebuildStripe
  split
  · split
    · exact .next h
    · exact .ite (.next h.startMend) (.next h.passStripe)
  · exact .next h

theorem keptOut_execGroupRegister {fn pgid n q k members} (h : Kept cr pn s) :
    KeptOut cr pn (execGroupRegister fn pgid n q k members s) := by
  unfold execGroupRegister
  extract_lets _ afresh s1 _ s3
  have hafresh : Kept cr pn afresh := h.same rfl
  have h1 : Kept cr pn s1 := hafresh.same rfl
  have h3 : Kept cr pn s3 := (h1.atAc.ite h1).foldl fun hu => hu.atAc
  split
  · exact h.onlyFn0 (.next h.respond)
  · split
    · exact h.onlyFn0 (.ite (.next h.respond) (.ite (.next h.respond) (.next hafresh.modGroup.respond)))
    · exact h.onlyFn0 (.next h3.respond)

theorem keptOut_execGroupLeave {fn pgid} (h : Kept cr pn s) : KeptOut cr pn (execGroupLeave fn pgid s) := by
  unfold execGroupLeave
  split
  · exact h.onlyFn0 (.next h.respond)
  · exact h.onlyFn0 (.ite (.next h.respond) (.next h.modGroup))

theorem Kept.leaveGroups (h : Kept cr pn s) : Kept cr pn s.leaveGroups := by
  unfold State.leaveGroups
  refine h.foldl fun {u g} hu => ?_
  split
  · exact hu.forgetGroup.respond.ite hu
  · exact hu

theorem keptOut_execGroupDeclareLost {fn pgid member} (h : Kept cr pn s) : KeptOut cr pn (execGroupDeclareLost fn pgid member s) := by
  unfold execGroupDeclareLost
  split
  · exact h.onlyFn0 (.next h.respond)
  · exact h.onlyFn0 (.ite (.next h.respond) (.ite (.next h.isolate.respond) (.next h.declareLost.respond)))

theorem keptOut_execGroupRebuild {fn pgid member target base} (h : Kept cr pn s) :
    KeptOut cr pn (execGroupRebuild fn pgid member target base s) := by
  unfold execGroupRebuild
  split
  · exact h.onlyFn0 (.next h.respond)
  · exact h.onlyFn0 (.ite (.next h.respond) (.ite (.next h.respond) (.next (Kept.respond (h.same rfl)))))

theorem keptOut_execScrubCountSample {channel ce ue} (h : Kept cr pn s) : KeptOut cr pn (execScrubCountSample channel ce ue s) := by
  unfold execScrubCountSample
  extract_lets _ _ s1 _ _
  have h1 : Kept cr pn s1 := h.same rfl
  split
  · exact .next h1
  · exact .ite (.ite (.next h1) (.next h1.report)) (.ite (.next h1.report) (.next (h1.same rfl)))

theorem Kept.moveLine {l} (h : Kept cr pn s) : Kept cr pn (s.moveLine l) := by
  unfold State.moveLine
  extract_lets _ s1
  have h1 : Kept cr pn s1 := h.flushLine.modLine
  split
  · clear_value s1
    exact h1.same rfl
  · split
    · exact h.moved
    · exact h.moved.ite h.startMend

theorem keptOut_execChannelRetire (h : Kept cr pn s) : KeptOut cr pn (execChannelRetire s) := by
  unfold execChannelRetire
  split
  · exact .next h
  · exact .ite (.next h.moveLine) (.next (Kept.report (h.same rfl)))

/-! O6 for the operations of `Sys2Proof/Machine/Migrate.lean`. -/

theorem Kept.beginShoot {x} (h : Kept cr pn s) : Kept cr pn (s.beginShoot x) := by
  unfold State.beginShoot
  extract_lets t s1 s2
  have ht : Kept cr pn t := h.flushParts
  clear_value t
  have h1 : Kept cr pn s1 := ht.same rfl
  have h2 : Kept cr pn s2 := h1.foldl fun hu => hu.modCtx.ite hu
  exact h2.same rfl

theorem Kept.wakePages {p} (h : Kept cr pn s) : Kept cr pn (s.wakePages p) := Kept.wakeCopies (h.foldl fun hu => hu.modCtx)

theorem Kept.writeLeaf {h' wp} (h : Kept cr pn s) : Kept cr pn (s.writeLeaf h' wp) := h.homeStore

theorem Kept.shootPage {h'} (h : Kept cr pn s) : Kept cr pn (s.shootPage h') := h.same rfl

theorem Kept.modHold {h' f} (h : Kept cr pn s) : Kept cr pn (s.modHold h' f) := h.same rfl

theorem keptOut_execMigrate {fn asid dva pa} (h : Kept cr pn s) : KeptOut cr pn (execMigrate fn asid dva pa s) := by
  unfold execMigrate
  split
  · exact h.onlyFn0 (.next h.respond)
  · extract_lets
    split
    · exact h.onlyFn0 (.next h.respond)
    · extract_lets _ s1
      have h1 : Kept cr pn s1 := h.same rfl
      split
      · exact h.onlyFn0 (.next h.respond)
      · exact h.onlyFn0 (.ite (.next h.respond) (.next (h1.ite h1.writeLeaf.shootPage)))

theorem Kept.moveWrite {h' l d poison} (h : Kept cr pn s) : Kept cr pn (s.moveWrite h' l d poison) :=
  h.report.ite (h.known.request.ite (h.homeWrite.modLine.ite h.homeWrite))

theorem Kept.moveTraffic {h' write l out back} (h : Kept cr pn s) : Kept cr pn (s.moveTraffic h' write l out back) := h.traffic

theorem Kept.moveNext {h'} (h : Kept cr pn s) : KeptSome cr pn (s.moveNext h') := by
  unfold State.moveNext
  extract_lets _ _ host step s1
  have h1 : Kept cr pn s1 := h.moveTraffic.moveTraffic
  have hstep : ∀ {u}, Kept cr pn u → Kept cr pn (step u) := fun hu => hu.modHold
  refine .ite .none (.ite (.some h.request.modHold) (h.awaitMend.ite ?_))
  split
  rename_i s2 e
  have h2 : Kept cr pn s2 := .iteThd e h1 h1.homeRead
  split
  · exact .some (hstep h2).moveWrite
  · exact .ite (.some (hstep h2).moveWrite) (.ite .none (.some (hstep h2).protFold))

theorem Kept.renamePage {h'} (h : Kept cr pn s) : Kept cr pn (s.renamePage h') := .foldl (h.same rfl) fun hu => hu.ownLine

theorem Kept.lateWrite {pa v n asid sec who} (h : Kept cr pn s) : Kept cr pn (s.lateWrite pa v n asid sec who) := by
  unfold State.lateWrite
  extract_lets
  split
  · exact h.hardBytes.ite h.hardBytes.modRing
  · exact h.hardBytes

theorem Kept.holdNext {h'} (h : Kept cr pn s) : Kept cr pn (s.holdNext h') := by
  unfold State.holdNext
  extract_lets s1 _ s1'
  have h1 : Kept cr pn s1 := h.foldl fun hu => hu.writeBackOwned
  have h1' : Kept cr pn s1' := .foldl (h.same rfl) fun hu => hu.lateWrite
  split
  · exact Kept.modHold (h.same rfl)
  · exact .ite (Kept.modHold (h1.foldl fun hu => hu.evictL2)) h1'.respond

theorem keptOut_execShootdownAck (h : Kept cr pn s) : KeptOut cr pn (execShootdownAck s) := by
  unfold execShootdownAck
  split
  · exact .next h
  · extract_lets s1 s2
    have h1 : Kept cr pn s1 := h.same rfl
    have h2 : Kept cr pn s2 := h1.wakePages
    split
    · exact .next h.beginShoot
    · split
      · split
        · exact .next h2.holdNext
        · exact .next h2
      · exact .next (h2.respond.ite h2)

theorem keptOut_execShootdown {fn asid dva count all} (h : Kept cr pn s) : KeptOut cr pn (execShootdown fn asid dva count all s) :=
  h.onlyFn0 (.ite (.next h.respond) (.next (h.same rfl)))

theorem keptOut_execPageReady {fn asid dva} (h : Kept cr pn s) : KeptOut cr pn (execPageReady fn asid dva s) :=
  h.onlyFn0 (.ite (.next h.respond) (.next h.wakePages.respond))

theorem Kept.sendHeld {h' e} (h : Kept cr pn s) : KeptSome cr pn (s.sendHeld h' e) := by
  unfold State.sendHeld
  extract_lets s1
  have h1 : Kept cr pn s1 := h.modHold
  split
  · exact .some h1
  · split
    · rename_i u e'
      exact .some (KeptOk.applyLine h1 u e')
    · exact .none

theorem Kept.moveCopy {h'} (h : Kept cr pn s) : Kept cr pn (s.moveCopy h') := by
  unfold State.moveCopy
  extract_lets s1
  have h1 : Kept cr pn s1 := h.writeLeaf.shootPage
  exact (h.modHold.ite h).ite ((h.moveNext.getD h).ite (h.ite (h1.renamePage.ite h1).modHold))

theorem Kept.endForwards (h : Kept cr pn s) : Kept cr pn s.endForwards := h.foldl fun hu => hu.ite (Kept.respond (hu.same rfl))

theorem Kept.moveHolds (h : Kept cr pn s) : Kept cr pn s.moveHolds := by
  unfold State.moveHolds
  refine Kept.endForwards ?_
  refine h.foldl fun {u h} hu => ?_
  split
  · exact hu.moveCopy
  · split
    · split
      · exact hu.sendHeld.getD hu
      · exact hu.same rfl
    · exact hu

theorem Kept.modExtent {n f} (h : Kept cr pn s) : Kept cr pn (s.modExtent n f) := by
  unfold State.modExtent
  split
  · exact h.same rfl
  · exact h

theorem keptOut_execExtentRelease {fn extent forced} (h : Kept cr pn s) : KeptOut cr pn (execExtentRelease fn extent forced s) := by
  unfold execExtentRelease
  extract_lets
  split
  · extract_lets _ _ s1 _ s3
    have h1 : Kept cr pn s1 := h.foldl fun hu => hu.modLine
    have h3 : Kept cr pn s3 := h1.report.modExtent
    split
    · exact h.onlyFn0 (.next h.respond)
    · split
      · exact h.onlyFn0 (.next h.modExtent)
      · split
        · exact h.onlyFn0 (.next h3.respond.respond)
        · exact h.onlyFn0 (.next h3.respond)
  · exact h.onlyFn0 (.next h.respond)

theorem Kept.releaseExtents (h : Kept cr pn s) : Kept cr pn s.releaseExtents := by
  unfold State.releaseExtents
  refine h.foldl fun {u n} hu => ?_
  extract_lets _ u1
  have hu1 : Kept cr pn u1 := hu.foldl fun hv => hv.flushLine
  split
  · exact hu
  · exact hu.ite hu1.modExtent.respond

/-! O6 for the operations of `Sys2Proof/Machine/Regs.lean`. -/

theorem Kept.modFmt {n f} (h : Kept cr pn s) : Kept cr pn (s.modFmt n f) := h.same rfl

theorem keptOut_execFormatWindowEnable {n} (h : Kept cr pn s) : KeptOut cr pn (execFormatWindowEnable n s) :=
  .next (h.ite (h.modFmt.ite h.modFmt))

theorem keptOut_execFormatWindowDisable {n} (h : Kept cr pn s) : KeptOut cr pn (execFormatWindowDisable n s) := by
  unfold execFormatWindowDisable
  split
  · exact .next h
  · exact .ite (.next h) (.next h.modFmt.respond)

theorem Kept.modProt {n f} (h : Kept cr pn s) : Kept cr pn (s.modProt n f) := h.same rfl

theorem keptOut_execProtectionWindowEnable {n} (h : Kept cr pn s) : KeptOut cr pn (execProtectionWindowEnable n s) :=
  .next (h.ite (.ite (h.same rfl) h.modProt))

theorem keptOut_execSecureRegionTableWrite {byBase n limitReg value} (h : Kept cr pn s) :
    KeptOut cr pn (execSecureRegionTableWrite byBase n limitReg value s) := .ite (.next h.report) (.ite (.next h) (.next (h.same rfl)))

theorem keptOut_execEinjArm {value secure} (h : Kept cr pn s) : KeptOut cr pn (execEinjArm value secure s) := by
  unfold execEinjArm
  extract_lets _ _ _ s1
  have h1 : Kept cr pn s1 := h.same rfl
  exact .ite (.next (h.same rfl)) (.ite (.next (h.same rfl)) (.next (h1.einjPlaced.ite h1)))

theorem KeptOut.doneWith {fn o} (ho : KeptOut cr pn o) : KeptOut cr pn (State.doneWith fn o) := by
  unfold State.doneWith
  split
  · rename_i t
    exact .next (ho t rfl).respond
  · exact ho

theorem Kept.writeFmt {fn n r v} (h : Kept cr pn s) : KeptOut cr pn (s.writeFmt fn n r v) := by
  unfold State.writeFmt
  extract_lets _ s1 s2
  have h1 : Kept cr pn s1 := h.modFmt
  have h2 : Kept cr pn s2 := h1.modFmt
  split
  · exact .next (h.ite h.modFmt).respond
  · split
    · exact .ite (.next h1.respond) (.next h1.modFmt)
    · exact .ite (.doneWith (keptOut_execFormatWindowEnable h2)) (.next h2.respond)

theorem Kept.writeProt {fn n r v} (h : Kept cr pn s) : KeptOut cr pn (s.writeProt fn n r v) := by
  unfold State.writeProt
  extract_lets _ s1
  have h1 : Kept cr pn s1 := h.modProt
  split
  · exact .next (h.ite h.modProt).respond
  · split
    · exact .next h.respond
    · exact .ite (.doneWith (keptOut_execProtectionWindowEnable h1)) (.next h1.respond)

theorem keptOut_execReadReg {fn addr} (h : Kept cr pn s) : KeptOut cr pn (execReadReg fn addr s) := by
  unfold execReadReg
  split
  · exact h.onlyFn0 (.next h.respond)
  · exact h.onlyFn0 (.next h.respond)

theorem keptOut_execWriteReg {fn addr value} (h : Kept cr pn s) : KeptOut cr pn (execWriteReg fn addr value s) := by
  unfold execWriteReg
  extract_lets
  split
  · exact h.onlyFn0 (.next h.respond)
  · exact h.onlyFn0 h.writeFmt
  · exact h.onlyFn0 h.writeProt
  · exact h.onlyFn0 (.ite (.next h.respond) (.doneWith (keptOut_execSecureRegionTableWrite h)))
  · exact h.onlyFn0 (.ite (.next h.respond) (.next (Kept.respond (h.same rfl))))
  · split
    · exact h.onlyFn0 (KeptOut.doneWith (keptOut_execEinjArm h))
    · exact h.onlyFn0 (.ite (.next (Kept.respond (h.same rfl))) (.next (Kept.respond (h.same rfl))))
  · exact h.onlyFn0 (.ite (.next (Kept.respond (h.same rfl))) (.next (Kept.respond (h.same rfl))))
  · exact h.onlyFn0 (.ite (.doneWith (keptOut_execQueueDoorbell h)) (.next h.modQueue.respond))
  · exact h.onlyFn0 (.next h.respond)
  · exact h.onlyFn0 (.next h.respond)

/-! O6 for the operations of `Sys2Proof/Machine/Links.lean`. -/

theorem Kept.sendE {p typ} (h : Kept cr pn s) : Kept cr pn (s.sendE p typ) := h.modPort.send

theorem Kept.sendFlit {p item} (h : Kept cr pn s) : Kept cr pn (s.sendFlit p item) := (h.modPort.atAc.ite h.modPort).send

theorem Kept.replayNext {p} (h : Kept cr pn s) : Kept cr pn (s.replayNext p) := by
  unfold State.replayNext
  extract_lets
  split
  · exact h
  · split
    · exact h.modPort
    · exact h.modPort.send

theorem Kept.takeUp {n} (h : Kept cr pn s) : Kept cr pn (s.takeUp n) := by
  induction n generalizing s with
  | zero => exact h
  | succ n ih =>
    unfold State.takeUp
    split
    · exact h
    · extract_lets s1
      have h1 : Kept cr pn s1 := h.same rfl
      exact .ite (ih h1) (.ite (ih h1.sendFlit) h)

theorem Kept.linkTick (h : Kept cr pn s) : Kept cr pn s.linkTick :=
  .foldl (Kept.takeUp (h.foldl fun hu => hu.replayNext.ite hu)) fun hu => hu.sendE.ite hu

theorem Kept.ackBelow {p e} (h : Kept cr pn s) : Kept cr pn (s.ackBelow p e) := h.modPort.atAc.ite h.modPort

theorem Kept.startReplay {p} (h : Kept cr pn s) : Kept cr pn (s.startReplay p) := h.ite h.modPort.report.atAc

theorem keptOut_execDataFlitReceive {p f} (h : Kept cr pn s) : KeptOut cr pn (execDataFlitReceive p f s) := by
  unfold execDataFlitReceive
  extract_lets _ s1
  have h1 : Kept cr pn s1 := h.ackBelow.ite h
  split
  · exact .next h
  · exact .ite (.next h1.modPort) (.ite (.next h1) (.ite (.next h1) (.next h1.modPort.sendE.atAc)))

theorem Kept.portDown {p} (h : Kept cr pn s) : Kept cr pn (s.portDown p) :=
  h.modPort.report.foldl fun hu => hu.foldl fun hv => hv.soon.ite hv

theorem keptOut_execLaneErrorLimit {p lane} (h : Kept cr pn s) : KeptOut cr pn (execLaneErrorLimit p lane s) :=
  .ite (.next h) (.ite (.next h.portDown) (.next h.modPort))

theorem Kept.symbolErrors {p lane n} (h : Kept cr pn s) : KeptOut cr pn (s.symbolErrors p lane n) :=
  .ite (keptOut_execLaneErrorLimit h.modPort) (.next h.modPort)

theorem keptOut_execLaneRetrainComplete {p ok e} (h : Kept cr pn s) : KeptOut cr pn (execLaneRetrainComplete p ok e s) := by
  unfold execLaneRetrainComplete
  extract_lets _ _ s3
  have h3 : Kept cr pn s3 := h.modPort.ackBelow.modPort.report.sendE
  exact .ite (.next h) (.ite (.next h.portDown) (.next (h3.ite h3.atAc)))

theorem keptOut_execLinkTrain {p peerMajor peerMinor window} (h : Kept cr pn s) :
    KeptOut cr pn (execLinkTrain p peerMajor peerMinor window s) := by
  unfold execLinkTrain
  extract_lets _ s1 s2
  have h1 : Kept cr pn s1 := h.modPort
  have h2 : Kept cr pn s2 := h1.ite h1.atAc
  exact .ite (.next h.modPort.report) (.next (h2.ite h2.send))

theorem Kept.homeBytes {pa bs reduce asid} (h : Kept cr pn s) : Kept cr pn (s.homeBytes pa bs reduce asid) :=
  h.foldl fun hu => hu.homeRead.homeWrite

theorem Kept.chunkWords {src seq rank runs} (h : Kept cr pn s) : Kept cr pn (s.chunkWords src seq rank runs) := by
  unfold State.chunkWords
  split
  · exact h
  · exact h.foldl fun hu => hu.arrive

theorem Kept.chunkApply {src reduce runs} (h : Kept cr pn s) : Kept cr pn (s.chunkApply src reduce runs).1 := by
  induction runs generalizing s with
  | nil => exact h
  | cons p t ih =>
    unfold State.chunkApply
    split
    · exact h
    · exact ih h.homeBytes

theorem keptOut_execChunkReceive {src seq rank reduce runs} (h : Kept cr pn s) :
    KeptOut cr pn (execChunkReceive src seq rank reduce runs s) := by
  unfold execChunkReceive
  extract_lets _ answer
  have hanswer : ∀ {u code}, Kept cr pn u → KeptOut cr pn (answer u code) := fun hu => .next hu.send
  split
  · exact hanswer h
  · split
    · exact .next h
    · split
      · exact .ite (.next h.chunkWords) (hanswer h.putChunks)
      · split
        · rename_i e
          exact hanswer (h.putChunks.chunkApply.fst e)
        · rename_i s1 _ _ _ e
          have h1 : Kept cr pn s1 := h.putChunks.chunkApply.fst e
          exact hanswer (h1.ite h1.report)

theorem Kept.sampledBy {src addr} (h : Kept cr pn s) : Kept cr pn (s.sampledBy src addr) := by
  unfold State.sampledBy
  split
  · exact h
  · exact h.modArr

theorem Kept.serve {src op pa size operand compare asid} (h : Kept cr pn s) : Kept cr pn (s.serve src op pa size operand compare asid) := by
  unfold State.serve
  split
  rename_i s1 e
  have h1 : Kept cr pn s1 := h.homeRead.thd e
  extract_lets
  split
  · exact h.homeStore.send
  · exact .ite (Kept.send (h1.same rfl)) (h1.homeStore.send.ite (h1.sampledBy.send.ite h1.send))

theorem keptOut_execPeerPackageRequest {src op addr size operand compare agent} (h : Kept cr pn s) :
    KeptOut cr pn (execPeerPackageRequest src op addr size operand compare agent s) := by
  unfold execPeerPackageRequest
  extract_lets abort serve
  have habort : ∀ {e}, KeptOut cr pn (abort e) := .next h.report.send
  have hserve : ∀ {pa}, KeptOut cr pn (serve pa) := .ite (.next (h.awaitMend.getD h).atAc) (.next h.serve)
  split
  · exact habort
  · split
    · exact .ite habort (.ite habort (.ite habort hserve))
    · split
      · exact habort
      · exact hserve

theorem Kept.takeMessage {pkg team sender rank ring data} (h : Kept cr pn s) :
    Kept cr pn (s.takeMessage pkg team sender rank ring data) := by
  unfold State.takeMessage
  split
  · exact h.arrive
  · exact h

theorem Kept.takePlaced {team rank ok} (h : Kept cr pn s) : Kept cr pn (s.takePlaced team rank ok) := by
  unfold State.takePlaced
  split
  · exact h
  · exact h.sendOver.ite h.sendOver.askCtx

theorem Kept.takeChanged {pa} (h : Kept cr pn s) : Kept cr pn (s.takeChanged pa) := h.foldl fun hu => hu.soon.ite hu

theorem keptOut_execErrorRecordDeliver {fn} (h : Kept cr pn s) : KeptOut cr pn (execErrorRecordDeliver fn s) := by
  unfold execErrorRecordDeliver
  extract_lets
  split
  · exact .next h
  · exact .ite (.next h.modFunc) (.next h.hardBytes.modFunc.send)


end

end Sys2Proof.Machine

namespace Sys2Proof.Machine

section
variable {cr : ConfigRecord} {pn : Nat} {s : State}

/-! O6 for the operations of `Sys2Proof/Machine/Power.lean`. -/

theorem keptOut_execSuspend {q card} (h : Kept cr pn s) : KeptOut cr pn (execSuspend q card s) := by
  unfold execSuspend
  extract_lets
  split
  · exact .next h.refuseCard
  · split
    · exact .next (h.same rfl)
    · exact .next h.refuseCard

theorem Kept.flushAll (h : Kept cr pn s) : Kept cr pn s.flushAll := h.foldl fun hu => hu.flushLine

theorem Kept.hardLines {pa bs asid sec} (h : Kept cr pn s) : Kept cr pn (s.hardLines pa bs asid sec) := h.foldl fun hu => hu.hardBytes

theorem Kept.writeReport {x bs} (h : Kept cr pn s) : Kept cr pn (s.writeReport x bs) := by
  unfold State.writeReport
  extract_lets
  split
  · exact h
  · exact h.hardLines

theorem Kept.writeRetain {r} (h : Kept cr pn s) : Kept cr pn (s.writeRetain r) := by
  have hs : Kept cr pn { s with mem := Memory.store s.mem (s.visible + 4096) (r.bytes.take (2 ^ 26)) } := h.store
  exact hs.same rfl

theorem Kept.enterRetain {x} (h : Kept cr pn s) : Kept cr pn (s.enterRetain x) := by
  unfold State.enterRetain
  extract_lets s1 s2 s3
  have h1 : Kept cr pn s1 := h.writeReport.flushAll
  have h2 : Kept cr pn s2 := h1.report.completeJob.send
  clear_value s2
  have h3 : Kept cr pn s3 := h2.writeRetain
  clear_value s3
  exact h3.same rfl

theorem Kept.suspendTick (h : Kept cr pn s) : Kept cr pn s.suspendTick := by
  unfold State.suspendTick
  split
  · exact h
  · extract_lets goto
    have hgoto : ∀ {u n}, Kept cr pn u → Kept cr pn (goto u n) := fun hu => hu.same rfl
    split
    · exact h
    · split
      · exact h.ite (hgoto h)
      · split
        · exact .ite (hgoto h) h
        · split
          · exact hgoto h.flushAll.flushParts
          · split
            · exact h.ite (hgoto (h.foldl fun hu => hu.modPort.send.ite hu))
            · exact .ite (h.ite (Kept.enterRetain (hgoto h))) h

theorem Kept.afterReset {boots status} (h : Kept cr pn s) : Kept cr pn (s.afterReset boots status) := h.same rfl

theorem Kept.wakeUp (h : Kept cr pn s) : Kept cr pn s.wakeUp := by
  unfold State.wakeUp
  extract_lets
  split
  · exact h
  · exact h.ite (h.afterReset.ite (h.afterReset.ite (.ite (Kept.report (h.same rfl)) (h.same rfl))))

theorem Kept.resendChunks (h : Kept cr pn s) : Kept cr pn s.resendChunks := h.foldl fun hu => hu.foldl fun hv => hv.send

theorem keptOut_execRetainWakeDoorbell (h : Kept cr pn s) : KeptOut cr pn (execRetainWakeDoorbell s) := .next h.wakeUp

theorem keptOut_execPowerRetainExit {fn} (h : Kept cr pn s) : KeptOut cr pn (execPowerRetainExit fn s) :=
  h.onlyFn0 (.ite (.next h.wakeUp.modFunc.respond) (.next h.respond))

theorem keptOut_execResume {q card} (h : Kept cr pn s) : KeptOut cr pn (execResume q card s) := by
  unfold execResume
  extract_lets
  split
  · exact .next h.refuseCard
  · split
    · exact .next (Kept.same (Kept.resendChunks (h.enterCard.foldl fun hu => hu.report.terminateTeam)) rfl)
    · exact .next h.refuseCard

theorem Kept.resumeTick (h : Kept cr pn s) : Kept cr pn s.resumeTick := by
  unfold State.resumeTick
  split
  · exact h
  · exact h.ite (h.writeReport.report.completeJob.same rfl)

/-! O6 for the operations of `Sys2Proof/Machine/HostPort.lean`. -/

theorem Kept.hostAccess {fn u dva} (h : Kept cr pn s) : Kept cr pn (s.hostAccess fn u dva).2 := by
  unfold State.hostAccess
  split
  · exact h
  · exact h.access

theorem Kept.hostFault {fn dva} (h : Kept cr pn s) : Kept cr pn (s.hostFault fn dva) := h.report

theorem Kept.postedKick {fn off} (h : Kept cr pn s) : Kept cr pn (s.postedKick fn off) := by
  unfold State.postedKick
  split
  · exact h
  · split
    · rename_i e
      exact (h.hostAccess.snd e).ite h
    · exact h.ite ((h.startRelease.ite h).ite (h.ite h.hostRelease.modFunc))
    · exact h

theorem Kept.postLine {fn dva bs} (h : Kept cr pn s) : Kept cr pn (s.postLine fn dva bs) := by
  unfold State.postLine
  extract_lets
  split
  · rename_i s1 e
    have h1 : Kept cr pn s1 := h.hostAccess.snd e
    exact h1.hostFault.ite h1
  · rename_i s1 e
    have h1 : Kept cr pn s1 := h.hostAccess.snd e
    exact (h1.appendFor.getD h1).ite (h1.homeWrite.ite h1.request)

theorem keptOut_execHostPostedWrite {fn off data} (h : Kept cr pn s) : KeptOut cr pn (execHostPostedWrite fn off data s) := by
  unfold execHostPostedWrite
  extract_lets _ _ s1
  have h1 : Kept cr pn s1 := h.postLine
  split
  · exact .next h
  · split
    · exact .next h.hostFault
    · exact .ite (.next h) (.ite (.next (h.same rfl)) (.next (h1.modFunc.ite (h1.same rfl))))

theorem Kept.readLine {fn dva n} (h : Kept cr pn s) : Kept cr pn (s.readLine fn dva n).2 := by
  unfold State.readLine
  split
  · rename_i e
    exact h.hostAccess.snd e
  · rename_i e
    split
    rename_i e'
    exact (h.hostAccess.snd e).homeRead.thd e'

theorem KeptSome.findSome? {α : Type} {l : List α} {f : α → Option State} (hf : ∀ x, KeptSome cr pn (f x)) :
    KeptSome cr pn (l.findSome? f) := by
  intro t e
  obtain ⟨x, -, ex⟩ := List.exists_of_findSome?_eq_some e
  exact hf x t ex

theorem Kept.readPends {fn off n} (h : Kept cr pn s) : KeptSome cr pn (s.readPends fn off n) := by
  unfold State.readPends
  refine .ite (.some h) (.ite .none (.findSome? fun p => ?_))
  split
  · rename_i s1 e
    have h1 : Kept cr pn s1 := h.hostAccess.snd e
    exact .ite (.some h1) .none
  · rename_i s1 e
    have h1 : Kept cr pn s1 := h.hostAccess.snd e
    exact .ite (.some (h1.awaitMend.getD h1)) (.ite (.some h) (.ite (.some h1.request) .none))

theorem keptOut_execHostRead {fn off n} (h : Kept cr pn s) : KeptOut cr pn (execHostRead fn off n s) := by
  unfold execHostRead
  extract_lets _ bad r
  have hbad : ∀ {u}, Kept cr pn u → KeptOut cr pn (bad u) := fun hu => .next hu.hostFault.send
  have hr : Kept cr pn r.2 := by
    refine .foldlSnd h fun {u p} hu => ?_
    split
    · exact hu
    · split
      · rename_i e
        exact hu.readLine.snd e
      · rename_i e
        exact hu.readLine.snd e
  refine .ite (.next h.send) (.ite (hbad h) (.ite (.next (h.same rfl)) ?_))
  clear_value r
  split
  · exact .ite (hbad hr) (.next hr.send)
  · exact .next hr.send

theorem Kept.barReply {fn off} (h : Kept cr pn s) : Kept cr pn (s.barReply fn off) := h.send

theorem keptOut_execRegisterWrite {fn off value} (h : Kept cr pn s) : KeptOut cr pn (execRegisterWrite fn off value s) := by
  unfold execRegisterWrite
  split
  · exact .next h.modQueue
  · exact .next h.modFunc

theorem keptOut_execMailboxDoorbellIgnored {fn} (h : Kept cr pn s) : KeptOut cr pn (execMailboxDoorbellIgnored fn s) := .next h

theorem Kept.withBits {fn l k} (h : Kept cr pn s) (hk : KeptOut cr pn k) : KeptOut cr pn (s.withBits fn l k) := hk.ite (.next h.respond)

theorem Kept.command {fn} (h : Kept cr pn s) : KeptOut cr pn (s.command fn) := by
  unfold State.command
  extract_lets code _ _
  split
  · exact .next h.respond
  · split
    · exact .next h.respond
    · split
      · exact keptOut_execReadReg h
      · split
        · exact keptOut_execPowerRetainExit h
        · split
          · exact .next h.respond
          · clear_value code
            split
            · exact keptOut_execWriteReg h
            · exact h.withBits (keptOut_execImageLoad h)
            · exact keptOut_execImageUnload h
            · exact keptOut_execAttest h
            · exact keptOut_execGroupRegister h
            · exact keptOut_execGroupLeave h
            · exact keptOut_execGroupDeclareLost h
            · exact .ite (.next h.respond) (keptOut_execGroupRebuild h)
            · exact h.withBits (keptOut_execShootdown h)
            · exact keptOut_execMigrate h
            · exact keptOut_execPageReady h
            · exact h.withBits (keptOut_execExtentRelease h)
            · exact h.withBits (keptOut_execQueueCreate h)
            · exact keptOut_execQueueReset h
            · exact keptOut_execQueueDestroy h
            · exact keptOut_execPowerRetainExit h

theorem Kept.barWrite {fn off value} (h : Kept cr pn s) : KeptOut cr pn (s.barWrite fn off value) := by
  unfold State.barWrite
  split
  · exact .next h
  · split
    · exact .ite (.ite (keptOut_execRetainWakeDoorbell h) (.next h)) (keptOut_execQueueDoorbell h)
    · exact .ite (.ite (keptOut_execMailboxDoorbellIgnored h) h.modFunc.command) (keptOut_execRegisterWrite h)

theorem Kept.kickFn {fn} (h : Kept cr pn s) : Kept cr pn (s.kickFn fn) := by
  unfold State.kickFn
  split
  · exact h.postedKick
  · exact h.readPends.getD h
  · exact h

theorem Kept.kickInputs (h : Kept cr pn s) : Kept cr pn s.kickInputs := h.ite (h.foldl fun hu => hu.kickFn)

/-! O6 for the operations of `Sys2Proof/Machine/Crossbar.lean`. -/

theorem Kept.drain {d} (h : Kept cr pn s) : Kept cr pn (s.drain d) := h.foldl fun hu => hu.same rfl

theorem Kept.xbarDie {d} (h : Kept cr pn s) : Kept cr pn (s.xbarDie d) := h.ite (.foldl (h.drain.same rfl) fun hu => hu.sendPacket)

theorem Kept.xbarTick (h : Kept cr pn s) : Kept cr pn s.xbarTick := h.foldl fun hu => hu.xbarDie

theorem Kept.appendTraffic {ring die port prio} (h : Kept cr pn s) : Kept cr pn (s.appendTraffic ring die port prio) := by
  unfold State.appendTraffic
  split
  · exact h.traffic
  · exact h

theorem Kept.copyTraffic {e j} (h : Kept cr pn s) : Kept cr pn (s.copyTraffic e j) := by
  unfold State.copyTraffic
  extract_lets
  split
  · split
    · exact h
    · split
      · exact h.traffic
      · exact h
  · split
    · split
      · exact h.ite h.sendPacket
      · exact h
    · split
      · exact h
      · split
        · exact h
        · split
          · exact h.appendTraffic.ite h.traffic
          · exact h

theorem Kept.queueTraffic {a x e} (h : Kept cr pn s) : Kept cr pn (s.queueTraffic a x e) := by
  unfold State.queueTraffic
  extract_lets _ line _
  have hline : ∀ {out back}, Kept cr pn (line out back) := h.traffic
  split
  · exact h.ite hline
  · exact h.ite hline
  · exact h.ite hline
  · exact hline
  · exact h.ite hline
  · exact h.ite hline
  · exact hline
  · exact hline
  · split
    · exact h.sendPacket
    · exact h
  · exact h

theorem Kept.shootTraffic (h : Kept cr pn s) : Kept cr pn s.shootTraffic := h.foldl fun hu => hu.sendPacket.sendPacket

theorem Kept.trafficOf {i} (h : Kept cr pn s) : Kept cr pn (s.trafficOf i) := by
  unfold State.trafficOf
  split
  · extract_lets
    split
    · exact h.queueTraffic
    · exact h
  · exact h.appendTraffic
  · split
    · exact h.copyTraffic
    · exact h
  · exact h.sendPacket
  · split
    · exact h.traffic
    · exact h
  · exact h.ite h.sendPacket
  · split
    · exact h.traffic
    · exact h
  · exact h.shootTraffic
  · exact h.traffic
  · split
    · exact h.traffic
    · exact h
  · split
    · exact h.traffic
    · exact h
  · exact h

/-! O6 for the operations of `Sys2Proof/Machine/Dispatch.lean`. -/

/-- Every instruction and every step of the machine keeps what O6 says. -/
theorem Kept.exec {i} (h : Kept cr pn s) : KeptOut cr pn (exec i s) := by
  cases i with
  | nop => exact .next h.settle
  | add | sub | and | or | xor | shl | shr | sra | min | max | minu | maxu | seq | slt | sltu | clz | popc | addi | andi | ori | xori
    | shli | shri | srai | li | lik | slti | sltiu | fget => exact h.alu
  | mul | mulh | mulhu => exact h.mulOp
  | divu | divs | remu | rems => exact h.divOp
  | beq | bne | blt | bge | bltu | bgeu => exact h.branchOp
  | bfs => exact keptOut_execBfs h
  | bfc => exact keptOut_execBfc h
  | baf => exact h.gate (h.branchOp.ite (.next h.keep))
  | jmp => exact keptOut_execJmp h
  | call => exact .ite (.next h.faultSlot) (.next h.retire)
  | ret => exact keptOut_execRet h
  | jr => exact h.gate (.ite (.next h.retire) (.next h.faultSlot))
  | loop => exact h.gate (.ite (.next h.faultSlot) (.ite (.next h.retire) (.next h.retire)))
  | mloop | selc | selr | kats => exact h.gate (.next h.retire)
  | lbrk => exact keptOut_execLbrk h
  | fset | fclr | fmov | selk => exact .next h.retire
  | selg => exact h.gate (.ite (.next h.faultSlot) (.next h.retire))
  | wait => exact h.gate (.ite (.next h.retire) (.ite (.next h.atAc.hold) (.next h.keep)))
  | yield | unlease => exact .next h.modArr.retire
  | node => exact keptOut_execNode h
  | ckpt => exact keptOut_execCkpt h
  | trap => exact .ite (.next h.faultSlot) (.next h.keep)
  | rdsr => exact h.alu.ite (.next h.keep)
  | wrsr => exact keptOut_execWrsr h
  | lease => exact .next h.seekLease.retire
  | endt => exact keptOut_execEndt h
  | vadd | vsub | vmul | vfma | vfms | vmin | vmax | vabs | vneg | vcmpeq | vcmplt | vcmple | vsel | vrcp | vrsq | vexp2 | vlog2 |
    vtanh | vcvt | viadd | visub | vimul | vand | vor | vxor | vshl | vshr | vsra | vicmpeq | vicmplt | vmov | vbcl | vperm | vrsum |
    vrmax | vmacf | mma | wld | wrd | katc => exact h.cellOp
  | wfeed => exact keptOut_execWfeed h
  | dfeed => exact keptOut_execDfeed h
  | wfeedg => exact keptOut_execWfeedg h
  | wfeedt => exact keptOut_execWfeedt h
  | npush => exact keptOut_execNpush h
  | spull => exact keptOut_execSpull h
  | epull => exact keptOut_execEpull h
  | eaclr | eadrain => exact h.gate (.ite (.next h.keep) (.ite (.next h.collect.retire) (.next h.faultSlot)))
  | fdset | cdset | ivld => exact h.gate h.loadEdge
  | etag => exact keptOut_execEtag h
  | etest => exact keptOut_execEtest h
  | ld | lds => exact h.gate (h.memIssue fun hv => hv.loadAppend fun hu => .next hu.retire)
  | st | logst => exact h.storeOp
  | asld | asst => exact h.gate (h.asIssue fun hu => .ite (.next hu.retire) hu.tagAccess)
  | prf => exact keptOut_execPrf h
  | rel | relsv => exact h.releaseOp
  | acq => exact keptOut_execAcq h
  | fence => exact .ite (.next h.keep) (.ite (.ite (.next h.survived.retire) (.next h.keep)) (.next h.retire))
  | fencesc => exact keptOut_execFencesc h
  | qsync => exact .ite (.next h.keep) (.ite (.next h.drainBuf.retire) (.next h.drainBuf.keep))
  | vcinv => exact keptOut_execVcinv h
  | aadd | afadd | aand | aor | axor | amin | amax | aminu | amaxu | aswp | acas => exact h.atomicOp
  | mon => exact h.gate (h.memIssue fun hu => .next hu.retire)
  | mwait => exact keptOut_execMwait h
  | tdesc => exact h.gate h.loadImage
  | cpy | cpys | cpyg | cpyr | cpyx => exact h.copyOp
  | send => exact keptOut_execSend h
  | rcv => exact h.gate (.ite (.next h.faultSlot) (.ite (.next h.keep) (.next h.retire)))
  | bara => exact .ite (.next h.keep) (.next h.arriveMe.retire)
  | barw => exact .ite (.next h.keep) (.next h.retire)
  | bar => exact keptOut_execBar h
  | residueRepresent => exact .ite (.next h.represent) (.next h)
  | contextSwitch => exact keptOut_execContextSwitch h
  | bundleCountExpire | tagWaiterRetry => exact .next h.modArr
  | sequencerWake => exact keptOut_execSequencerWake h
  | leaseQuantumEnd => exact keptOut_execLeaseQuantumEnd h
  | divideResult => exact keptOut_execDivideResult h
  | loopBackEdge | watchSatisfy => exact .next h.modCtx
  | mloopPresentation => exact keptOut_execMloopPresentation h
  | waitDeadline | mwaitDeadline => exact .ite (.next h.modArr.wake) (.next h)
  | cOpRowExecute => exact keptOut_execCOpRowExecute h
  | slowResultWrite => exact keptOut_execSlowResultWrite h
  | katcCheck => exact keptOut_execKatcCheck h
  | feedStage => exact keptOut_execFeedStage h
  | southCapture => exact keptOut_execSouthCapture h
  | eastCapture => exact keptOut_execEastCapture h
  | collectorWrite => exact keptOut_execCollectorWrite h
  | asBankAccess => exact keptOut_execAsBankAccess h
  | queuePerform => exact .next ((h.storeStep.ite h.loadStep).getD h)
  | logBufferEntryAppend => exact .ite (.next h.pushRelease) (.ite (.next (h.appendOldest.getD h)) (.next h))
  | appendStallEnd => exact .next h.pushRelease
  | packageWindowClose => exact keptOut_execPackageWindowClose h
  | stampReceive => exact keptOut_execStampReceive h
  | foldSegment => exact keptOut_execFoldSegment h
  | peerRecordReceive => exact .next (Kept.takeRecords (h.same rfl))
  | peerRecordAck => exact keptOut_execPeerRecordAck h
  | logTrackerAdvance => exact keptOut_execLogTrackerAdvance h
  | copyBeat => exact .next (h.copyStep.getD h)
  | copyComplete => exact keptOut_execCopyComplete h
  | messagePlace => exact keptOut_execMessagePlace h
  | barrierComplete => exact keptOut_execBarrierComplete h
  | peerEntryValid => exact .next (h.modTeam.foldl fun hu => hu.atAc)
  | contextFatalFault => exact keptOut_execContextFatalFault h
  | terminationNoticeReceive => exact .next h.endTeam
  | pageRequestFault => exact .ite (.next h) (.next h.report.modCtx)
  | dataErrorTake => exact keptOut_execDataErrorTake h
  | segmentEndSignature => exact keptOut_execSegmentEndSignature h
  | suspectNoticeReceive => exact .next h.report
  | relaunchNoticeReceive => exact .next h.relaunchHere
  | selfTest => exact .ite (.next h) (.ite (.next h.modArr) (.next h.retireArray))
  | uncorrectableRead => exact .next (h.modLine.probe.ite (h.modLine.probeTarn.ite h.modLine.probeHbm))
  | dirtyLineError => exact .next (h.dirtyFail.ite h)
  | parityDeltaReceive => exact keptOut_execParityDeltaReceive h
  | parityAckReceive => exact .next (Kept.finishFolds (h.same rfl))
  | heartbeatSend => exact keptOut_execHeartbeatSend h
  | heartbeatTimeout => exact keptOut_execHeartbeatTimeout h
  | heartbeatReceive => exact keptOut_execHeartbeatReceive h
  | lossNoticeReceive => exact keptOut_execLossNoticeReceive h
  | degradedRead => exact .next ((h.awaitMend.getD h).ite h)
  | rebuildStripe => exact keptOut_execRebuildStripe h
  | scrubCountSample => exact keptOut_execScrubCountSample h
  | channelRetire => exact keptOut_execChannelRetire h
  | groupRegister => exact keptOut_execGroupRegister h
  | groupLeave => exact keptOut_execGroupLeave h
  | groupDeclareLost => exact keptOut_execGroupDeclareLost h
  | groupRebuild => exact keptOut_execGroupRebuild h
  | shootdown => exact keptOut_execShootdown h
  | shootdownAck => exact keptOut_execShootdownAck h
  | migrate => exact keptOut_execMigrate h
  | pageReady => exact keptOut_execPageReady h
  | extentRelease => exact keptOut_execExtentRelease h
  | poolExtentAdd => exact .next h.modExtent
  | queueCreate => exact keptOut_execQueueCreate h
  | queueReset => exact keptOut_execQueueReset h
  | queueDestroy => exact keptOut_execQueueDestroy h
  | readReg => exact keptOut_execReadReg h
  | writeReg => exact keptOut_execWriteReg h
  | imageLoad => exact keptOut_execImageLoad h
  | imageUnload => exact keptOut_execImageUnload h
  | attest => exact keptOut_execAttest h
  | powerRetainExit => exact keptOut_execPowerRetainExit h
  | formatWindowEnable => exact keptOut_execFormatWindowEnable h
  | formatWindowDisable => exact keptOut_execFormatWindowDisable h
  | protectionWindowEnable => exact keptOut_execProtectionWindowEnable h
  | secureRegionTableWrite => exact keptOut_execSecureRegionTableWrite h
  | einjArm => exact keptOut_execEinjArm h
  | einjPlace => exact .next (h.einjPlaced.ite h)
  | registerWrite => exact keptOut_execRegisterWrite h
  | queueDoorbell => exact keptOut_execQueueDoorbell h
  | mailboxDoorbellIgnored fn => exact keptOut_execMailboxDoorbellIgnored (fn := fn) h
  | cardAdmit => exact keptOut_execCardAdmit h
  | launch => exact keptOut_execLaunch h
  | copy => exact keptOut_execCopy h
  | waitstamp => exact keptOut_execWaitstamp h
  | waitstampSatisfied => exact keptOut_execWaitstampSatisfied h
  | signal => exact keptOut_execSignal h
  | fenceCard => exact keptOut_execFenceCard h
  | suspend => exact keptOut_execSuspend h
  | resume => exact keptOut_execResume h
  | jobReady => exact keptOut_execJobReady h
  | jobAgeStep => exact keptOut_execJobAgeStep h
  | jobPromote => exact keptOut_execJobPromote h
  | gangPlace => exact keptOut_execGangPlace h
  | bulkCopyAssign => exact keptOut_execBulkCopyAssign h
  | preemptRequest => exact keptOut_execPreemptRequest h
  | teamPreempt => exact keptOut_execTeamPreempt h
  | teamResume => exact keptOut_execTeamResume h
  | watchdogT1Expire => exact .ite (.next h) (.next (h.same rfl))
  | watchdogT2Expire => exact keptOut_execWatchdogT2Expire h
  | arrayScrub => exact .ite (.next h) (.next h.modArr)
  | hostPostedWrite => exact keptOut_execHostPostedWrite h
  | hostRead => exact keptOut_execHostRead h
  | errorRecordDeliver => exact keptOut_execErrorRecordDeliver h
  | dataFlitReceive => exact keptOut_execDataFlitReceive h
  | nakReceive => exact .next h.ackBelow.startReplay
  | flitAckReceive => exact .next h.ackBelow
  | replayTimeout => exact .next (h.startReplay.ite h)
  | nakHoldoffExpire | quiesceFlitReceive => exact .next h.modPort
  | laneErrorLimit => exact keptOut_execLaneErrorLimit h
  | laneRetrainComplete => exact keptOut_execLaneRetrainComplete h
  | linkTrain => exact keptOut_execLinkTrain h
  | chunkReceive => exact keptOut_execChunkReceive h
  | chunkAckReceive => exact .next (h.same rfl)
  | peerPackageRequest => exact keptOut_execPeerPackageRequest h
  | quietEntry | quietExit => exact .next (.ite (h.same rfl) h)
  | retainWakeDoorbell => exact keptOut_execRetainWakeDoorbell h
  | packageReset => exact .next (h.afterReset.report.ite h.afterReset)

/-! O6 for the operations of `Sys2Proof/Machine/Tick.lean`. -/

theorem Kept.outsideWrite {pa data} (h : Kept cr pn s) : Kept cr pn (s.outsideWrite pa data) :=
  h.store.foldl fun hu => (hu.evictL2.ite hu).noticeWatches

theorem Kept.takeInput {i} (h : Kept cr pn s) : KeptOut cr pn (s.takeInput i) := by
  unfold State.takeInput
  split
  · exact h.barWrite
  · exact .next h.barReply
  · exact h.trafficOf.exec.ite (.next h)
  · exact .next h.outsideWrite
  · exact .next h.takeMessage
  · exact .next h.takePlaced
  · exact .next h.rewriteEntry
  · exact .next (h.arriveAt.ite h)
  · exact .next h.takeLock
  · exact .next h.takeLocked
  · exact .next h.takeParityRead
  · exact .next h.takeParityLine
  · exact .next h.takeChanged
  · exact .next h.takeSettled
  · exact .next h.takeAnswer
  · exact h.symbolErrors
  · exact .next h.modArr
  · exact .next h.upsetLine
  · exact .next h.upsetRecord

theorem Kept.takeInRetain {i} (h : Kept cr pn s) : KeptOut cr pn (s.takeInRetain i) := by
  unfold State.takeInRetain
  split
  · exact h.barWrite
  · exact .next h.barReply
  · exact h.exec
  · exact .next h.send
  · exact .next h

theorem Kept.runSlot {a c o} (h : Kept cr pn s) : KeptOut cr pn (s.runSlot a c o) := Kept.exec (h.same rfl)

theorem Kept.withAble {a} (h : Kept cr pn s) : Kept cr pn (s.withAble a) := h.modArr

theorem Kept.firstTry {a c} (h : Kept cr pn s) : KeptOut cr pn (s.firstTry a c) := by
  unfold State.firstTry
  extract_lets
  split
  · exact h.runSlot
  · exact .ite (Kept.exec (h.same rfl)) (.next h)

theorem Kept.presents {a} (h : Kept cr pn s) : KeptOut cr pn (s.presents a) := by
  unfold State.presents
  extract_lets
  split
  · exact keptOut_execContextSwitch h.withAble
  · split
    · exact h.represent.firstTry.ite (keptOut_execContextSwitch h.withAble)
    · split
      · rename_i e
        exact .next (h.fetchAsks.snd e).fetchRefused
      · rename_i s1 e
        have h1 : Kept cr pn s1 := h.fetchAsks.snd e
        exact .ite (keptOut_execMloopPresentation h1.fetchTraffic) h1.fetchTraffic.present.firstTry

/-- What an array may issue has a kept outcome. -/
def KeptIssue (cr : ConfigRecord) (pn : Nat) (o : Option Out) : Prop := ∀ x, o = some x → KeptOut cr pn x

theorem KeptIssue.none : KeptIssue cr pn none := by
  rintro _ ⟨⟩

theorem KeptIssue.some {o : Out} (h : KeptOut cr pn o) : KeptIssue cr pn (some o) := by
  rintro _ ⟨⟩
  exact h

theorem KeptIssue.ite {a b : Option Out} {p : Prop} [Decidable p] (ha : KeptIssue cr pn a) (hb : KeptIssue cr pn b) :
    KeptIssue cr pn (if p then a else b) := by
  split
  · exact ha
  · exact hb

theorem Kept.issueArr {a} (h : Kept cr pn s) : KeptIssue cr pn (s.issueArr a) := by
  have ha : Kept cr pn (s.withAble a) := h.withAble
  have hswitch : KeptOut cr pn (execContextSwitch a (s.withAble a)) := keptOut_execContextSwitch ha
  unfold State.issueArr
  extract_lets
  split
  · exact .some ((keptOut_execContextFatalFault h).ite (keptOut_execDataErrorTake h))
  · split
    · split
      · exact .some h.runSlot
      · exact .some (.next h.modCtx)
    · exact .ite (.some (.next ha.passBlocked)) (.ite (.ite (.some (keptOut_execSequencerWake ha)) .none)
        (.ite .none (.ite (.some hswitch) (.ite (.some hswitch) (.ite .none (.some h.presents))))))

theorem Kept.issueFrom {l} (h : Kept cr pn s) : KeptIssue cr pn (s.issueFrom l) := by
  induction l with
  | nil => exact .none
  | cons a t ih =>
    unfold State.issueFrom
    split
    · rename_i o e
      exact .some (h.issueArr o e)
    · exact ih

theorem Kept.fixedReleases (h : Kept cr pn s) : Kept cr pn s.fixedReleases := h.foldl fun hu => hu.pushRelease.ite hu

theorem Kept.upkeep (h : Kept cr pn s) : Kept cr pn s.upkeep := by
  have h1 : Kept cr pn s.walkTick.mendTick.takeRecords.dropUnreached.fixedReleases :=
    .fixedReleases h.walkTick.mendTick.takeRecords.dropUnreached
  exact .xbarTick (.linkTick (.kickInputs (.resumeTick (.suspendTick (.releaseExtents (.moveHolds (.leaveGroups
    (.retryLost (.tidyQueues (.dropJobs (.reapTeams h1)))))))))))

theorem Kept.endAc (h : Kept cr pn s) : Kept cr pn s.endAc := by
  unfold State.endAc
  extract_lets s1
  have h1 : Kept cr pn s1 := .upkeep (h.same rfl)
  clear_value s1
  exact h1.same rfl

theorem Kept.finish (h : Kept cr pn s) : KeptOut cr pn s.finish := by
  unfold State.finish
  split
  · exact .ite (Kept.exec (h.trafficOf.same rfl)) (.next h.endAc)
  · exact .next h.endAc

theorem Kept.openTurn (h : Kept cr pn s) : KeptOut cr pn s.openTurn := by
  unfold State.openTurn
  split
  · exact h.finish
  · split
    rename_i s1 e
    have h1 : Kept cr pn s1 := h.draw.snd e
    split
    · exact Kept.exec (h1.trafficOf.same rfl)
    · exact h1.finish

theorem Kept.act_ (h : Kept cr pn s) : KeptOut cr pn s.act_ := by
  have hissue : KeptIssue cr pn (if s.part = 0 then s.issueFrom (List.finRange 32) else none) := h.issueFrom.ite .none
  unfold State.act_
  split
  · rename_i o e
    exact hissue o e
  · refine .ite h.finish ?_
    split
    · exact keptOut_execAsBankAccess (h.same rfl)
    · exact h.openTurn

theorem Kept.turn (h : Kept cr pn s) : KeptOut cr pn s.turn := by
  unfold State.turn
  split
  · exact Kept.exec (h.same rfl)
  · split
    · split
      · exact Kept.takeInRetain (h.same rfl)
      · exact .next h
    · split
      · split
        · exact Kept.exec (h.trafficOf.same rfl)
        · exact .next h
      · split
        · exact Kept.takeInput (h.same rfl)
        · exact h.act_

end

/-- Settles O6: memory is written by `Memory.store` and `Memory.storeMask` alone, which keep it canonical; the configuration record and
the package number are written nowhere but in a reset, which carries both over. -/
theorem everyStepKeepsTheInvariant : Obligations.EveryStepKeepsTheInvariant := by
  intro s t hs e
  exact Kept.turn ⟨hs, rfl, rfl⟩ t e

end Sys2Proof.Machine

namespace Sys2Proof.Machine

/-! The package registers (O49): what an update of one entry of a table leaves in it, what an answer of a mailbox is, and then each
register's write. -/

section
variable {s : State} {fn : FnId} {addr off : Nat} {v : Word} {n : Fin 16} {k : Fin 64}

/-! One entry of a table. -/

theorem State.modFunc_funcs_self {f : Func → Func} : (s.modFunc fn f).funcs[fn] = f s.funcs[fn] := Vector.getElem_set_self ..

theorem State.modFunc_funcs_ne {f : Func → Func} {i : FnId} (h : i ≠ fn) : (s.modFunc fn f).funcs[i] = s.funcs[i] :=
  Vector.getElem_set_ne fn.isLt _ fun e => h (Fin.ext e.symm)

theorem State.modFmt_fw_self {f : FmtWindow → FmtWindow} : (s.modFmt n f).fw[n] = f s.fw[n] := Vector.getElem_set_self ..

theorem State.modFmt_fw_ne {f : FmtWindow → FmtWindow} {i : Fin 16} (h : i ≠ n) : (s.modFmt n f).fw[i] = s.fw[i] :=
  Vector.getElem_set_ne n.isLt _ fun e => h (Fin.ext e.symm)

theorem State.modProt_pw_self {f : ProtWindow → ProtWindow} : (s.modProt n f).pw[n] = f s.pw[n] := Vector.getElem_set_self ..

theorem State.modProt_pw_ne {f : ProtWindow → ProtWindow} {i : Fin 16} (h : i ≠ n) : (s.modProt n f).pw[i] = s.pw[i] :=
  Vector.getElem_set_ne n.isLt _ fun e => h (Fin.ext e.symm)

theorem State.modQueue_queue_self {f : Queue → Queue} : (s.modQueue k.val f).queue k.val = f (s.queue k.val) := by
  simp [State.modQueue, State.queue, k.isLt]

theorem State.modQueue_frame {q : Nat} {f : Queue → Queue} : { s.modQueue q f with queues := s.queues } = s := by
  unfold State.modQueue
  split <;> rfl

theorem State.upsetLine_lineMeta_self {level l m : Nat} : (s.upsetLine level l m).lineMeta l = (s.lineMeta l).upset level m :=
  Sparse.get_set_self ..

theorem State.upsetLine_lineMeta_ne {level l m i : Nat} (h : i ≠ l) : (s.upsetLine level l m).lineMeta i = s.lineMeta i :=
  Sparse.get_set_ne _ _ _ h

/-! Answers of a mailbox (R363). -/

theorem State.respond_funcs_ne {status : Nat} {results : List Byte} {i : FnId} (h : i ≠ fn) :
    (s.respond fn status results).funcs[i] = s.funcs[i] := Vector.getElem_set_ne fn.isLt _ fun e => h (Fin.ext e.symm)

/-- The answer of a command that has changed no function's registers and sent nothing. -/
theorem answers_respond {u : State} {status : Nat} {results : List Byte} (hf : u.funcs = s.funcs) (ho : u.outbox = s.outbox) :
    Answers s (u.respond fn status results) fn status results := by
  have hself : (u.respond fn status results).funcs[fn] =
      { s.funcs[fn] with
        resp := putBytes [] 0 (getBytes (s.funcs[fn]).req 4 4 ++ natToBytes 2 status ++ [0, 0] ++ results.take 56)
        busy := false, mbdone := true } := by
    rw [← hf]
    exact Vector.getElem_set_self ..
  refine ⟨by rw [hself], by rw [hself], by rw [hself], [], ?_⟩
  rw [List.append_nil, ← ho]
  rfl

theorem onlyAnswers_respond {status : Nat} {results : List Byte} :
    OnlyAnswers s (.next (s.respond fn status results)) fn status results :=
  ⟨_, rfl, answers_respond rfl rfl, rfl, fun _ h => State.respond_funcs_ne h⟩

/-- A write that answers with status 0 has its effect, and the arrays and memory stand. -/
theorem writes_of_respond {u : State} {o : Out} {p : State → Prop} (e : o = .next (u.respond fn 0 []))
    (same : (u.arrays, u.mem, u.funcs, u.outbox) = (s.arrays, s.mem, s.funcs, s.outbox)) (hp : p (u.respond fn 0 [])) :
    ∃ t, o = .next t ∧ ArraysStand s t ∧ Answers s t fn 0 [] ∧ p t := by
  simp only [Prod.mk.injEq] at same
  obtain ⟨ha, hm, hf, ho⟩ := same
  exact ⟨_, e, ⟨ha, fun q => congrArg (Memory.read · q) hm⟩, answers_respond hf ho, hp⟩

/-! READ_REG and WRITE_REG, by function and by register. -/

theorem readReg_of_some {r : PReg} (h : pregAt addr = some r) :
    exec (.readReg 0 addr) s = .next (s.respond 0 0 (natToBytes 8 (s.pregRead r).toNat)) := by
  show execReadReg 0 addr s = _
  simp [execReadReg, State.onlyFn0, h]

theorem readReg_of_none (h : pregAt addr = none) : exec (.readReg 0 addr) s = .next (s.respond 0 3 []) := by
  show execReadReg 0 addr s = _
  simp [execReadReg, State.onlyFn0, h]

theorem readReg_of_ne (h : fn ≠ 0) : exec (.readReg fn addr) s = .next (s.respond fn 4 []) := if_pos (by simpa using h)

theorem writeReg_of_ne (h : fn ≠ 0) : exec (.writeReg fn addr v) s = .next (s.respond fn 4 []) := if_pos (by simpa using h)

theorem writeReg_of_none (h : pregAt addr = none) : exec (.writeReg 0 addr v) s = .next (s.respond 0 3 []) := by
  show execWriteReg 0 addr v s = _
  simp [execWriteReg, State.onlyFn0, h]

theorem writeReg_fw {r : Fin 4} (h : pregAt addr = some (.fw n r)) : exec (.writeReg 0 addr v) s = s.writeFmt 0 n r.val v := by
  show execWriteReg 0 addr v s = _
  simp [execWriteReg, State.onlyFn0, h]

theorem writeReg_pw {r : Fin 4} (h : pregAt addr = some (.pw n r)) : exec (.writeReg 0 addr v) s = s.writeProt 0 n r.val v := by
  show execWriteReg 0 addr v s = _
  simp [execWriteReg, State.onlyFn0, h]

theorem writeReg_atbr (h : pregAt addr = some .atbr) (hz : v.extractLsb' 16 3 = 0) :
    exec (.writeReg 0 addr v) s =
      .next ({ s with atbrBase := v.extractLsb' 16 36, atbrEna := v.getLsbD 0 }.respond 0 0 []) := by
  show execWriteReg 0 addr v s = _
  simp [execWriteReg, State.onlyFn0, h, hz]

theorem writeReg_boot (h : pregAt addr = some .boot) : exec (.writeReg 0 addr v) s = .next (s.respond 0 0 []) := by
  show execWriteReg 0 addr v s = _
  simp [execWriteReg, State.onlyFn0, h]

/-- A write of EINJCTL that does not arm (R350). -/
theorem writeReg_einjCtl (h : pregAt addr = some .einjCtl) (harm : v.getLsbD 7 = false) (hena : s.cfg.injEna = true) :
    exec (.writeReg 0 addr v) s = .next ({ s with einj := s.einj.take v }.respond 0 0 []) := by
  have harm' : v[7] = false := harm
  show execWriteReg 0 addr v s = _
  simp [execWriteReg, State.onlyFn0, h, harm', hena]

/-- A write of a queue's register that is not its doorbell (R312). -/
theorem writeReg_queue {r : Fin 8} (h : pregAt addr = some (.queue k r)) (hr : r ≠ 2) :
    exec (.writeReg 0 addr v) s = .next ((s.modQueue k.val fun x => x.write r.val v).respond 0 0 []) := by
  have hr' : ¬r.val = 2 := fun e => hr (Fin.ext e)
  show execWriteReg 0 addr v s = _
  simp [execWriteReg, State.onlyFn0, h, hr']

/-! Windows (R25, R28). -/

theorem writeFmt_base (h : (s.fw[n]).ena = false) :
    s.writeFmt fn n 0 v = .next ((s.modFmt n fun x => { x with base := v.extractLsb' 16 36 }).respond fn 0 []) := by
  simp [State.writeFmt, show (s.fw[n.val]).ena = false from h]

theorem writeFmt_enabled {r : Nat} (hr : r ≠ 3) (h : (s.fw[n]).ena = true) : s.writeFmt fn n r v = .next (s.respond fn 0 []) := by
  simp [State.writeFmt, hr, show (s.fw[n.val]).ena = true from h]

theorem writeProt_base (h : (s.pw[n]).ena = false) :
    s.writeProt fn n 0 v = .next ((s.modProt n fun x => { x with base := v.extractLsb' 16 36 }).respond fn 0 []) := by
  simp [State.writeProt, show (s.pw[n.val]).ena = false from h]

theorem writeProt_enabled {r : Nat} (h : (s.pw[n]).ena = true) : s.writeProt fn n r v = .next (s.respond fn 0 []) := by
  simp [State.writeProt, show (s.pw[n.val]).ena = true from h]

/-! Registers of BAR0 (R360, R362). -/

/-- Such a write differs from the state before it in one function's registers. -/
theorem sets_of_modFunc {o : Out} {f : Func → Func} (e : o = .next (s.modFunc fn f)) :
    ∃ t, o = .next t ∧ { t with funcs := s.funcs } = s ∧ t.funcs[fn] = f s.funcs[fn] ∧
      ∀ i : FnId, i ≠ fn → t.funcs[i] = s.funcs[i] :=
  ⟨_, e, rfl, State.modFunc_funcs_self, fun _ h => State.modFunc_funcs_ne h⟩

theorem registerWrite_wbase (h : s.barQueue fn 0x10 = none) :
    exec (.registerWrite fn 0x10 v) s = .next (s.modFunc fn fun f => { f with wbase := v.extractLsb' 16 39 }) := by
  show execRegisterWrite fn 0x10 v s = _
  simp [execRegisterWrite, h]

theorem registerWrite_hasid (h : s.barQueue fn 0x18 = none) :
    exec (.registerWrite fn 0x18 v) s = .next (s.modFunc fn fun f => { f with hasid := v.extractLsb' 0 16, hena := v.getLsbD 16 }) := by
  show execRegisterWrite fn 0x18 v s = _
  simp [execRegisterWrite, h]

theorem registerWrite_mbdone (h : s.barQueue fn 0x20148 = none) :
    exec (.registerWrite fn 0x20148 v) s = .next (s.modFunc fn fun f => { f with mbdone := f.mbdone && !v.getLsbD 1 }) := by
  show execRegisterWrite fn 0x20148 v s = _
  simp [execRegisterWrite, h]

theorem registerWrite_eqbase (h : s.barQueue fn 0x30000 = none) :
    exec (.registerWrite fn 0x30000 v) s =
      .next (s.modFunc fn fun f => { f with eqbase := v.extractLsb' 12 40, eqlog2 := v.extractLsb' 0 4 }) := by
  show execRegisterWrite fn 0x30000 v s = _
  simp [execRegisterWrite, h]

theorem registerWrite_eqhead (h : s.barQueue fn 0x30008 = none) :
    exec (.registerWrite fn 0x30008 v) s = .next (s.modFunc fn fun f => { f with eqhead := v.extractLsb' 0 16 }) := by
  show execRegisterWrite fn 0x30008 v s = _
  simp [execRegisterWrite, h]

theorem registerWrite_zero (h : s.barQueue fn 0 = none) : exec (.registerWrite fn 0 v) s = .next (s.modFunc fn id) := by
  show execRegisterWrite fn 0 v s = _
  simp [execRegisterWrite, h]
  rfl

theorem Queue.write_timeouts {x : Queue} :
    x.write 6 v = { x with
      t1 := (v.extractLsb' 0 16).toNat, t2 := if v.extractLsb' 16 16 = 0 then 1 else (v.extractLsb' 16 16).toNat } := by
  have hz : (v.extractLsb' 16 16).toNat = 0 ↔ v.extractLsb' 16 16 = 0 := BitVec.toNat_eq (y := 0#16) |>.symm
  simp only [Queue.write, hz]

/-- A BAR0 write of a queue's T1 and T2 (R312). -/
theorem registerWrite_timeouts {q : QueueId} (h : s.barQueue fn off = some (q, 6)) :
    ∃ t, exec (.registerWrite fn off v) s = .next t ∧ { t with queues := s.queues } = s ∧
      t.queue q.val = { s.queue q.val with
        t1 := (v.extractLsb' 0 16).toNat, t2 := if v.extractLsb' 16 16 = 0 then 1 else (v.extractLsb' 16 16).toNat } := by
  refine ⟨s.modQueue q.val fun x => x.write 6 v, ?_, State.modQueue_frame, ?_⟩
  · show execRegisterWrite fn off v s = _
    simp [execRegisterWrite, h]
  · rw [State.modQueue_queue_self, Queue.write_timeouts]

/-! Windows enabled and disabled (R25, R28). -/

theorem formatWindowEnable_sets :
    ∃ t, exec (.formatWindowEnable n) s = .next t ∧ { t with fw := s.fw } = s ∧ (∀ i : Fin 16, i ≠ n → t.fw[i] = s.fw[i]) ∧
      ((s.fw[n]).ena = true → t = s) ∧
      ((s.fw[n]).ena = false → t.fw[n] = if s.fmtOk n = true then { s.fw[n] with ena := true } else { s.fw[n] with err := true }) := by
  refine ⟨_, rfl, ?_⟩
  by_cases hena : (s.fw[n]).ena = true
  · rw [if_pos hena]
    exact ⟨rfl, fun _ _ => rfl, fun _ => rfl, fun h => absurd hena (ne_true_of_eq_false h)⟩
  · rw [if_neg hena]
    by_cases hok : s.fmtOk n = true
    · rw [if_pos hok]
      exact ⟨rfl, fun _ h => State.modFmt_fw_ne h, fun h => absurd h hena, fun _ => by rw [State.modFmt_fw_self, if_pos hok]⟩
    · rw [if_neg hok]
      exact ⟨rfl, fun _ h => State.modFmt_fw_ne h, fun h => absurd h hena, fun _ => by rw [State.modFmt_fw_self, if_neg hok]⟩

theorem formatWindowDisable_closes {f : FnId} (hclose : (s.fw[n]).closing = some f) (hjoin : s.joining = false) :
    ∃ t, exec (.formatWindowDisable n) s = .next t ∧ ArraysStand s t ∧ t.fw[n] = { s.fw[n] with ena := false, closing := none } ∧
      Answers s t f 0 [] := by
  have e : exec (.formatWindowDisable n) s =
      .next ((s.modFmt n fun w => { w with ena := false, closing := none }).respond f 0 []) := by
    show execFormatWindowDisable n s = _
    simp [execFormatWindowDisable, show (s.fw[n.val]).closing = some f from hclose, hjoin]
  exact ⟨_, e, ⟨rfl, fun _ => rfl⟩, Vector.getElem_set_self .., answers_respond rfl rfl⟩

theorem protectionWindowEnable_sets :
    ∃ t, exec (.protectionWindowEnable n) s = .next t ∧ { t with pw := s.pw, isolated := s.isolated } = s ∧
      (∀ i : Fin 16, i ≠ n → t.pw[i] = s.pw[i]) ∧
      ((s.pw[n]).ena = true → t = s) ∧
      ((s.pw[n]).ena = false → s.protOk n = false → t.pw[n] = { s.pw[n] with err := true }) ∧
      ((s.pw[n]).ena = false → s.protOk n = true → ∀ g, s.group? (s.pw[n]).pgid.toNat = some g →
        t.pw[n] = { s.pw[n] with ena := true, degr := !g.lost.isEmpty }) := by
  refine ⟨_, rfl, ?_⟩
  by_cases hena : (s.pw[n]).ena = true
  · rw [if_pos hena]
    exact ⟨rfl, fun _ _ => rfl, fun _ => rfl, fun h => absurd hena (ne_true_of_eq_false h),
      fun h => absurd hena (ne_true_of_eq_false h)⟩
  · rw [if_neg hena]
    by_cases hok : s.protOk n = true
    · rw [if_pos hok]
      refine ⟨rfl, fun _ h => Vector.getElem_set_ne n.isLt _ fun e => h (Fin.ext e.symm), fun h => absurd h hena,
        fun _ h => absurd hok (ne_true_of_eq_false h), fun _ _ g hg => ?_⟩
      refine (Vector.getElem_set_self ..).trans ?_
      rw [hg]
    · rw [if_neg hok]
      exact ⟨rfl, fun _ h => State.modProt_pw_ne h, fun h => absurd h hena, fun _ _ => State.modProt_pw_self, fun _ h => absurd h hok⟩

/-! The secure region table (R29). -/

theorem State.report_reports {r : ErrRec} {p : ErrRec → Prop} (hp : p { r with seq := s.errSeq, cycle := s.now }) :
    Reports s (s.report r) r.reason p :=
  ⟨rfl, { r with seq := s.errSeq, cycle := s.now }, by simp [State.report, State.receives], rfl, rfl, rfl, hp⟩

theorem secureRegionTableWrite_outside {lim : Bool} :
    ∃ t, exec (.secureRegionTableWrite false k lim v) s = .next t ∧ ArraysStand s t ∧ t.srt = s.srt ∧
      Reports s t 0x0023 fun _ => True :=
  ⟨_, rfl, ⟨rfl, fun _ => rfl⟩, rfl, State.report_reports trivial⟩

theorem secureRegionTableWrite_locked {lim : Bool} (h : (s.srt[k]).lock = true) :
    exec (.secureRegionTableWrite true k lim v) s = .next s := if_pos h

theorem secureRegionTableWrite_sets {lim : Bool} (h : (s.srt[k]).lock = false) :
    ∃ t, exec (.secureRegionTableWrite true k lim v) s = .next t ∧ { t with srt := s.srt } = s ∧
      t.srt[k] = (if lim then { s.srt[k] with limit := v.extractLsb' 16 36, lock := v.getLsbD 1, valid := v.getLsbD 0 }
        else { s.srt[k] with base := v.extractLsb' 16 36 }) :=
  ⟨_, if_neg (ne_true_of_eq_false h), rfl, Vector.getElem_set_self ..⟩

/-! Error injection (R350, R351). -/

theorem Einj.take_arm {e : Einj} (h : v.getLsbD 7 = false) : (e.take v).arm = false := by
  show (e.arm && v.getLsbD 7) = false
  rw [h, Bool.and_false]

theorem einjArm_off {sec : Bool} (h : s.cfg.injEna = false) :
    exec (.einjArm v sec) s = .next { s with einj := { s.einj with err := true } } := if_pos (by simp [h])

theorem einjArm_reserved {sec : Bool} (hena : s.cfg.injEna = true) (h : (s.einj.take v).reserved = true) :
    exec (.einjArm v sec) s = .next { s with einj := { s.einj.take v with err := true, arm := false } } := by
  show execEinjArm v sec s = _
  simp [execEinjArm, hena, h]

/-- A deferred injection is armed, where a secure function asks or the location is in no memory. -/
theorem einjArm_arms {sec : Bool} (hena : s.cfg.injEna = true) (h : (s.einj.take v).reserved = false) (htrig : (s.einj.take v).trig = false)
    (hsec : sec = true ∨ 3 < (s.einj.take v).target.toNat) :
    exec (.einjArm v sec) s = .next { s with einj := { s.einj.take v with arm := true } } := by
  have hguard : (!sec && decide ((s.einj.take v).target.toNat ≤ 3)) = false := by
    rcases hsec with rfl | ht
    · rfl
    · simp [ht]
  show execEinjArm v sec s = _
  simp only [execEinjArm, hena, h, htrig, hguard]
  rfl

/-- The error of a line at L2 is an upset of that line. -/
theorem State.einjPlaced_l2 (h : s.einj.target = 0) :
    s.einjPlaced =
      { s.upsetLine 0 (s.einj.addr.toNat / 64) s.einj.bits with einj := { s.einj with arm := false, done := true } } := by
  have ht : s.einj.target.toNat = 0 := by
    rw [h]
    rfl
  simp only [State.einjPlaced, State.einjAt, ht]
  rfl

theorem einjPlace_l2 (harm : s.einj.arm = true) (htrig : s.einj.trig = false) (ht : s.einj.target = 0) :
    ∃ t, exec .einjPlace s = .next t ∧ ArraysStand s t ∧ t.einj = { s.einj with arm := false, done := true } ∧
      (t.lineMeta (s.einj.addr.toNat / 64)).errL2 =
        (s.lineMeta (s.einj.addr.toNat / 64)).errL2 ^^^ (if s.einj.sev = 1 then 3 else 1) ∧
      ∀ l, l ≠ s.einj.addr.toNat / 64 → t.lineMeta l = s.lineMeta l := by
  have e : exec .einjPlace s = .next
      { s.upsetLine 0 (s.einj.addr.toNat / 64) s.einj.bits with einj := { s.einj with arm := false, done := true } } := by
    show execEinjPlace s = _
    simp only [execEinjPlace, harm, htrig, State.einjPlaced_l2 ht]
    rfl
  refine ⟨_, e, ⟨rfl, fun _ => rfl⟩, rfl, ?_, fun l hl => State.upsetLine_lineMeta_ne hl⟩
  exact congrArg LineMeta.errL2 State.upsetLine_lineMeta_self

end

/-- Settles O49: each register's write by its equation, the answers by the mailbox's, and what an enabling or an injection sets. -/
theorem registersReadAndWrite : Obligations.RegistersReadAndWrite := by
  intro s fn addr off v n k
  refine ⟨?_, ?_, ?_, ?_, ?_, fun q => registerWrite_timeouts, rfl, formatWindowEnable_sets, fun f => formatWindowDisable_closes,
    protectionWindowEnable_sets, ?_, ?_, einjPlace_l2⟩
  · rintro r rfl h
    exact readReg_of_some h ▸ onlyAnswers_respond
  · rintro rfl h
    exact ⟨readReg_of_none h ▸ onlyAnswers_respond, writeReg_of_none h ▸ onlyAnswers_respond⟩
  · intro h
    exact ⟨readReg_of_ne h ▸ onlyAnswers_respond, writeReg_of_ne h ▸ onlyAnswers_respond⟩
  · rintro rfl
    intro writes
    refine ⟨?_, ?_, ?_, ?_, ?_, ?_, ?_, ?_⟩
    · intro h hena
      exact writes_of_respond ((writeReg_fw h).trans (writeFmt_base hena)) rfl (Vector.getElem_set_self ..)
    · intro h hena
      exact (writeReg_fw h).trans (writeFmt_enabled (by decide) hena) ▸ onlyAnswers_respond
    · intro r h hena
      exact (writeReg_pw h).trans (writeProt_enabled hena) ▸ onlyAnswers_respond
    · intro h harm hena
      exact writes_of_respond (writeReg_einjCtl h harm hena) rfl ⟨rfl, Einj.take_arm harm⟩
    · intro h hena
      exact writes_of_respond ((writeReg_pw h).trans (writeProt_base hena)) rfl (Vector.getElem_set_self ..)
    · intro h hz
      exact writes_of_respond (writeReg_atbr h hz) rfl ⟨rfl, rfl⟩
    · intro h
      exact writeReg_boot h ▸ onlyAnswers_respond
    · intro h
      exact writes_of_respond (writeReg_queue h (by decide)) (by simp) State.modQueue_queue_self
  · intro h sets
    refine ⟨?_, ?_, ?_, ?_, ?_, ?_⟩ <;> rintro rfl
    · exact sets_of_modFunc (registerWrite_wbase h)
    · exact sets_of_modFunc (registerWrite_hasid h)
    · exact sets_of_modFunc (registerWrite_mbdone h)
    · exact sets_of_modFunc (registerWrite_eqbase h)
    · exact sets_of_modFunc (registerWrite_eqhead h)
    · exact sets_of_modFunc (registerWrite_zero h)
  · exact fun lim => ⟨secureRegionTableWrite_outside, secureRegionTableWrite_locked, secureRegionTableWrite_sets⟩
  · exact fun sec => ⟨einjArm_off, fun hena => ⟨einjArm_reserved hena, einjArm_arms hena⟩⟩

end Sys2Proof.Machine
